-- ==== Sys2Proof/Word.lean ====
section
/-!
DEFINITION. The machine's words: a 64-bit register word and a byte (00_scope.md R8).
-/

namespace Sys2Proof

/-- A 64-bit scalar, address or register word. -/
abbrev Word := BitVec 64

/-- One byte of memory. -/
abbrev Byte := BitVec 8

end Sys2Proof
end

