-- ==== Sys2Proof/Config.lean ====
section
/-!
DEFINITION. What an implementation fixes and the values the spec leaves open: free values without a body, so that no
proof can see them (log entries 3, 6, 7, 9 to 11, 17, 18, 20, 39, 103, 106).
-/

namespace Sys2Proof.Config

/-- The home hash of R67 ("not architectural"): applied to a line number, taken modulo the candidate banks. -/
opaque homeHash : Nat → Nat
/-- R23 with `SCHK` = 0: which of the values that a register had or takes the consumer sees, one choice for each register read
too early. -/
opaque earlyRead : Nat → Nat
/-- R86: which entry a full TLB gives up. -/
opaque tlbVictim : Nat → Nat
/-- Cycles beyond 1 + `STALL` that a step takes (R18, R27: shortest times only). -/
opaque extraCycles : Nat → Nat
/-- Why the front does not issue in the cycles beyond the shortest time (R411): one of the reasons that this model does not tell apart. -/
opaque heldFor : Nat → Nat
/-- A free 64-bit value, where the spec states none. -/
opaque freeWord : Nat → Word
/-- The per-context energy estimate added by a step (R415). -/
opaque energy : Nat → Nat
/-- AES-256-XTS (R90, R123, R124, R367) by key identifier, tweak or block address, and length: a permutation of the byte strings of
that length, as exchanges made one after the other. -/
opaque xtsSwaps : Nat → Nat → Nat → List (Nat × Nat)
/-- HMAC-SHA-512 (R124, R421): key identifier and message; 64 bytes as one number. -/
opaque hmacSha512 : Nat → List Byte → Nat
/-- SHA-512 (R420): message; 64 bytes as one number. -/
opaque sha512 : List Byte → Nat
/-- A signature by the device's identity key (R420). -/
opaque sign : List Byte → List Byte
/-- Does an image carry a good signature (R419)? -/
opaque imageSigned : List Byte → Bool
/-- The version of the expansion table an image carries, and its bytes (R43, R420). -/
opaque imageXver : List Byte → Nat
opaque expansionTable : List Byte → List Byte
/-- Unwrapping of a key carried in an SPDM secured message (R420): session and payload; `none` when it does not verify. -/
opaque unwrapKey : Nat → List Byte → Option Nat
/-- The device's part of an SPDM key exchange (R420). -/
opaque keyExchange : List Byte → List Byte
/-- The SPDM session identifier a key exchange establishes. -/
opaque sessionId : List Byte → Nat
/-- Answers of PLDM type 0, by command, that the spec does not spell out (R427). -/
opaque pldmAnswer : Nat → List Byte
/-- The identity key that a response of the PUF gives with the helper data of a configuration block, by its number; `none`: it is not
reproduced (R420). -/
opaque identityKey : Nat → List Byte → Option Nat
/-- The key derived from it that authenticates the configuration block (R421). -/
opaque configKey : Nat → Nat
/-- The parts of a configuration block (R421): what its HMAC covers, the HMAC, and whether it designates the bridge. -/
opaque configBody : List Byte → List Byte
opaque configTag : List Byte → Nat
opaque configBridge : List Byte → Bool
/-- The serial number (R427). -/
opaque serialNumber : List Byte

end Sys2Proof.Config
end

