-- ==== Sys2Proof/Syntax.lean ====
section
/-!
DEFINITION. The instructions of the Norzo set, edition E1, and the events of the device: one constructor of `Instr`
for every row of spec/opcode_table.json. Operand types carry the register classes and field widths of
02_encoding.md (R31 to R41); `WellFormed.lean` holds the conditions a type does not say.
-/

namespace Sys2Proof

/-- Element formats (R38, Table 2.7), in the order of their codes. -/
inductive Fmt
  | i8 | n8 | i16 | n16 | i32 | n32 | i64 | n64 | f64 | f32 | bf16 | f16 | e4m3 | e5m2 | e3m2 | e2m3 | e2m1
  | i4 | n4 | tern | e8m0
  deriving DecidableEq, Repr

/-- Order codes (R36, Table 2.5): relaxed, acquire, release, both. -/
inductive Order | rlx | acq | rel | ar
  deriving DecidableEq, Repr

/-- Scope codes (R36, Table 2.5): core, cluster, stack group, domain. -/
inductive Scope | co | cl | sg | dm
  deriving DecidableEq, Repr

/-- Conditions of `br` and `cset` (R37, Table 2.6). -/
inductive Cond | eq | ne | lt | ge | ltn | gen | al
  deriving DecidableEq, Repr

/-- Operations of `amo` and `vamo` (R41, Table 2.9). -/
inductive AmoOp | swap | cas | add | and | or | xor | min | max | minn | maxn | fadd
  deriving DecidableEq, Repr

/-- Conditions of `vcmp` (Table 2.10). -/
inductive IntCond | eq | ne | lt | le | gt | ge | ltn | len | gtn | gen
  deriving DecidableEq, Repr

/-- Conditions of `vfcmp` (Table 2.10). -/
inductive FpCond | eq | ne | lt | le | gt | ge | un | ord
  deriving DecidableEq, Repr

/-- Reductions of a collective (Table 2.11). -/
inductive RedOp | sum | min | max | and | or | xor
  deriving DecidableEq, Repr

/-- Kinds of a collective (Table 2.11, Table 17.3). -/
inductive CollKind
  | barrier | bcast | reduce (r : RedOp) | allreduce (r : RedOp) | allgather | redscat (r : RedOp) | alltoall
  deriving DecidableEq, Repr

/-- Modes of a quire bank (R62, R305). -/
inductive BankMode | cache | scratch | fifo
  deriving DecidableEq, Repr

/-- Kinds of `tlbinv` (R88). -/
inductive TlbKind | all | asid | page
  deriving DecidableEq, Repr

/-- Control registers (R130, Table 5.1). -/
inductive CReg
  | corectl | isaid | coreid | cycle | trcause | trval | trpc | trslot | vtype | vstart | fflags | pseed0 | pseed1
  | bstride | bcarry | pstart | tcfg (k : Fin 16) | fxstate (k : Fin 8) | qbank (b : Fin 32)
  deriving DecidableEq, Repr

/-- The `D` or `A` operand of layout FL-A: a vector register, or a stream register (`QD`, `QA`). -/
inductive LaneReg | vec (v : Fin 64) | stream (q : Fin 8)
  deriving DecidableEq, Repr

/-- The `B` operand of layout FL-A (`BF`): a vector register, a scalar register, or `SUB` as imm8. -/
inductive LaneB | vec (v : Fin 64) | scalar (x : Fin 32) | imm (i : BitVec 8)
  deriving DecidableEq, Repr

/-- What the link domain answers to a chunk of a committed link command, or to the command (R386 to R391): the environment's
part of LINK_TRANSFER. Bit `i` of `poison` says that byte `i` of the data lies in a poisoned word. -/
inductive LinkAnswer
  | done (data : List (BitVec 8)) (poison : Nat) | remoteFault | linkDown | noHandler
  deriving DecidableEq, Repr

/-- An access another device asks this device for: a read or write of bytes at a virtual address of a context (R384), or an
update of the completion word of a launch shared out here (R400): its number, bits, firings, and whether it is the last; what it
tells of a collective, a hold of its debugger or a timeout (R396); what a bridge passes on for its host: an aperture access, a
record for a submit post (R401, R402); an event for the bridge's `MINT` (R423). -/
inductive RemoteReq
  | read (asid : Nat) (va : BitVec 64) (n : Nat)
  | write (asid : Nat) (va : BitVec 64) (bytes : List (BitVec 8)) (poison : Nat)
  | complete (id bits fired : Nat) (last : Bool)
  | debugHold (asid : Nat) (held : Bool)
  | collTimeout (asid tag : Nat)
  | apertureRead (pa n : Nat)
  | apertureWrite (pa : Nat) (bytes : List (BitVec 8))
  | submit (post offset : Nat) (bytes : List (BitVec 8))
  | mint (vector : Nat)
  deriving DecidableEq, Repr

/-- A failed CRC check of a link port (R385); `again`: of the flit that failed there last. -/
structure FlitFailure where
  port : Nat
  again : Bool
  deriving DecidableEq, Repr

/-- What an answer to a fault is for (R112, R113, R125): a slot, or, with slot 0xFFFF, the copy paused at a queue index. -/
structure FaultTarget where
  slot : Nat
  idx : Nat := 0
  deriving DecidableEq, Repr

/-- What another participant of a collective gives and contributes (R392, R393): its device number, its kind, format, count, root
and bitmap, its source bytes as they cross the link (R385), and which of them lie in poisoned words. -/
structure CollPeer where
  device : Nat
  kind : CollKind
  fmt : Fmt
  n : Nat
  root : Nat
  members : List Nat
  data : List (BitVec 8)
  poison : Nat
  deriving DecidableEq, Repr

/-- A host access through the memory aperture of BAR 0 (R401). -/
inductive ApertureReq
  | read (offset n : Nat) | write (offset : Nat) (bytes : List (BitVec 8))
  deriving DecidableEq, Repr

/-- A sensor of PLDM type 2 (R427): the temperature of a die or of an HBM stack, the module's power, the core rail. -/
inductive Sensor | die (k : Fin 4) | stack (k : Fin 8) | power | rail
  deriving DecidableEq, Repr

/-- A PLDM type 2 request (R427): read a sensor, or set the power-state effecter. -/
inductive PldmReq | readSensor (x : Sensor) | setPowerState (p : Nat)
  deriving DecidableEq, Repr

/-- The temperatures of a sample in thousandths of a degree (R426, R427): of the die junctions and of the HBM stacks. -/
structure Temperatures where
  dies : Vector Nat 4 := Vector.replicate 4 0
  hbm : Vector Nat 8 := Vector.replicate 8 0
  deriving DecidableEq, Repr

/-- A host write of a register window: its first `n` bytes of `value`, at most 8 (R422). -/
structure RegWrite where
  n : Nat := 8
  value : BitVec 64
  deriving DecidableEq, Repr

/-- What bring-up reads from outside the modelled state (R418 to R421): whether memory and links train, the stepping, what the PUF
answers, the device's number, and the ports that train. -/
structure BootInputs where
  trained : Bool
  stepping : BitVec 8
  puf : Nat
  device : Nat
  portsUp : List Nat
  deriving DecidableEq, Repr

/-- One constructor per row of spec/opcode_table.json. The first operand `st` of an instruction is its `STALL` field
(R31). Rows without an encoding are the device's events; a `core` operand names the core they happen on. -/
inductive Instr

  | add (st : Fin 16) (d a b : Fin 32)
  | sub (st : Fin 16) (d a b : Fin 32)
  | and (st : Fin 16) (d a b : Fin 32)
  | or (st : Fin 16) (d a b : Fin 32)
  | xor (st : Fin 16) (d a b : Fin 32)
  | shl (st : Fin 16) (d a b : Fin 32)
  | shr (st : Fin 16) (d a b : Fin 32)
  | sra (st : Fin 16) (d a b : Fin 32)
  | mul (st : Fin 16) (d a b : Fin 32)
  | mulh (st : Fin 16) (d a b : Fin 32)
  | mulhn (st : Fin 16) (d a b : Fin 32)
  | div (st : Fin 16) (d a b : Fin 32)
  | divn (st : Fin 16) (d a b : Fin 32)
  | rem (st : Fin 16) (d a b : Fin 32)
  | remn (st : Fin 16) (d a b : Fin 32)
  | min (st : Fin 16) (d a b : Fin 32)
  | max (st : Fin 16) (d a b : Fin 32)
  | minn (st : Fin 16) (d a b : Fin 32)
  | maxn (st : Fin 16) (d a b : Fin 32)
  | clz (st : Fin 16) (d a : Fin 32)
  | popc (st : Fin 16) (d a : Fin 32)
  | addi (st : Fin 16) (d a : Fin 32) (imm : BitVec 32)
  | andi (st : Fin 16) (d a : Fin 32) (imm : BitVec 32)
  | ori (st : Fin 16) (d a : Fin 32) (imm : BitVec 32)
  | xori (st : Fin 16) (d a : Fin 32) (imm : BitVec 32)
  | shli (st : Fin 16) (d a : Fin 32) (sh : Fin 64)
  | shri (st : Fin 16) (d a : Fin 32) (sh : Fin 64)
  | srai (st : Fin 16) (d a : Fin 32) (sh : Fin 64)
  | limm (st : Fin 16) (d : Fin 32) (imm : BitVec 32)
  | limh (st : Fin 16) (d a : Fin 32) (imm : BitVec 32)
  | cset (st : Fin 16) (cond : Cond) (d a b : Fin 32)
  | br (st : Fin 16) (cond : Cond) (d a : Fin 32) (imm : BitVec 32)
  | jal (st : Fin 16) (d : Fin 32) (imm : BitVec 32)
  | jalr (st : Fin 16) (d a : Fin 32) (imm : BitVec 32)
  | ld (st : Fin 16) (w : Fin 8) (d a : Fin 32) (imm : BitVec 32)
  | st (st : Fin 16) (w : Fin 8) (d a : Fin 32) (imm : BitVec 32)
  | amo (st : Fin 16) (op : AmoOp) (ord : Order) (scope : Scope) (d a b c : Fin 32) (disp : BitVec 8) (fmt : Fmt)
  | fence (st : Fin 16) (ord : Order) (scope : Scope)
  | waita (st : Fin 16) (ord : Order) (scope : Scope) (d a b c : Fin 32) (disp : BitVec 8) (fmt : Fmt)
  | mfc (st : Fin 16) (d : Fin 32) (cr : CReg)
  | mtc (st : Fin 16) (a : Fin 32) (cr : CReg)
  | sys (st : Fin 16) (imm : BitVec 32)
  | eret (st : Fin 16)
  | brk (st : Fin 16) (imm : BitVec 32)
  | endF (st : Fin 16)
  | nop (st : Fin 16)
  | vsetvl (st : Fin 16) (d a : Fin 32) (b blk : Fin 4) (fmt : Fmt)
  | vsetvlRd (st : Fin 16) (d : Fin 32) (b : Fin 4)
  | vld (st : Fin 16) (o : Fin 8) (d : Fin 64) (a : Fin 32) (m : Fin 8) (disp : BitVec 8) (fmt : Fmt)
  | vlds (st : Fin 16) (d : Fin 64) (a b : Fin 32) (m : Fin 8) (disp : BitVec 8) (fmt : Fmt)
  | vldx (st : Fin 16) (sc : Fin 4) (d : Fin 64) (a : Fin 32) (b : Fin 64) (c : Fin 32) (m : Fin 8) (x32 bnd : Bool) (fmt : Fmt)
  | vst (st : Fin 16) (o : Fin 8) (d : Fin 64) (a : Fin 32) (m : Fin 8) (disp : BitVec 8) (fmt : Fmt)
  | vsts (st : Fin 16) (d : Fin 64) (a b : Fin 32) (m : Fin 8) (disp : BitVec 8) (fmt : Fmt)
  | vstx (st : Fin 16) (sc : Fin 4) (d : Fin 64) (a : Fin 32) (b : Fin 64) (c : Fin 32) (m : Fin 8) (x32 bnd : Bool) (fmt : Fmt)
  | vadd (st : Fin 16) (d a : LaneReg) (b : LaneB) (m : Fin 8) (fmt : Fmt)
  | vsub (st : Fin 16) (d a : LaneReg) (b : LaneB) (m : Fin 8) (fmt : Fmt)
  | vmul (st : Fin 16) (d a : LaneReg) (b : LaneB) (m : Fin 8) (fmt : Fmt)
  | vmulh (st : Fin 16) (d a : LaneReg) (b : LaneB) (m : Fin 8) (fmt : Fmt)
  | vmin (st : Fin 16) (d a : LaneReg) (b : LaneB) (m : Fin 8) (fmt : Fmt)
  | vmax (st : Fin 16) (d a : LaneReg) (b : LaneB) (m : Fin 8) (fmt : Fmt)
  | vand (st : Fin 16) (d a : LaneReg) (b : LaneB) (m : Fin 8) (fmt : Fmt)
  | vor (st : Fin 16) (d a : LaneReg) (b : LaneB) (m : Fin 8) (fmt : Fmt)
  | vxor (st : Fin 16) (d a : LaneReg) (b : LaneB) (m : Fin 8) (fmt : Fmt)
  | vshl (st : Fin 16) (d a : LaneReg) (b : LaneB) (m : Fin 8) (fmt : Fmt)
  | vshr (st : Fin 16) (d a : LaneReg) (b : LaneB) (m : Fin 8) (fmt : Fmt)
  | vsra (st : Fin 16) (d a : LaneReg) (b : LaneB) (m : Fin 8) (fmt : Fmt)
  | vfadd (st : Fin 16) (d a : LaneReg) (b : LaneB) (m : Fin 8) (fmt : Fmt)
  | vfsub (st : Fin 16) (d a : LaneReg) (b : LaneB) (m : Fin 8) (fmt : Fmt)
  | vfmul (st : Fin 16) (d a : LaneReg) (b : LaneB) (m : Fin 8) (fmt : Fmt)
  | vfma (st : Fin 16) (d a : LaneReg) (b : LaneB) (m : Fin 8) (fmt : Fmt)
  | vfnma (st : Fin 16) (d a : LaneReg) (b : LaneB) (m : Fin 8) (fmt : Fmt)
  | vfdiv (st : Fin 16) (d a : LaneReg) (b : LaneB) (m : Fin 8) (fmt : Fmt)
  | vfsqrt (st : Fin 16) (d a : LaneReg) (m : Fin 8) (fmt : Fmt)
  | vfmin (st : Fin 16) (d a : LaneReg) (b : LaneB) (m : Fin 8) (fmt : Fmt)
  | vfmax (st : Fin 16) (d a : LaneReg) (b : LaneB) (m : Fin 8) (fmt : Fmt)
  | vfrcp (st : Fin 16) (d a : LaneReg) (m : Fin 8) (fmt : Fmt)
  | vfexp2 (st : Fin 16) (d a : LaneReg) (m : Fin 8) (fmt : Fmt)
  | vcvt (st : Fin 16) (d a : LaneReg) (src : Fmt) (blk : Option (Fin 64)) (m : Fin 8) (fmt : Fmt)
  | vscale (st : Fin 16) (d a : LaneReg) (b : LaneB) (m : Fin 8) (fmt : Fmt)
  | vcmp (st : Fin 16) (cond : IntCond) (d : Fin 8) (a : LaneReg) (b : LaneB) (m : Fin 8) (fmt : Fmt)
  | vfcmp (st : Fin 16) (cond : FpCond) (d : Fin 8) (a : LaneReg) (b : LaneB) (m : Fin 8) (fmt : Fmt)
  | mand (st : Fin 16) (d a b : Fin 8)
  | mor (st : Fin 16) (d a b : Fin 8)
  | mxor (st : Fin 16) (d a b : Fin 8)
  | mnot (st : Fin 16) (d a : Fin 8)
  | mpop (st : Fin 16) (d : Fin 32) (a m : Fin 8)
  | mfirst (st : Fin 16) (d : Fin 32) (a m : Fin 8)
  | vmtx (st : Fin 16) (d : Fin 32) (a : Fin 8) (k : BitVec 8)
  | vmerge (st : Fin 16) (d a : LaneReg) (b : LaneB) (m : Fin 8) (fmt : Fmt)
  | vredsum (st : Fin 16) (d : Fin 32) (a : Fin 64) (b : Fin 32) (m : Fin 8) (fmt : Fmt)
  | vfredsum (st : Fin 16) (d : Fin 32) (a : Fin 64) (b : Fin 32) (m : Fin 8) (fmt : Fmt)
  | vredmax (st : Fin 16) (d : Fin 32) (a : Fin 64) (b : Fin 32) (m : Fin 8) (fmt : Fmt)
  | vredmin (st : Fin 16) (d : Fin 32) (a : Fin 64) (b : Fin 32) (m : Fin 8) (fmt : Fmt)
  | vscan (st : Fin 16) (d a : Fin 64) (b : Fin 32) (m : Fin 8) (exc : Bool) (fmt : Fmt)
  | viota (st : Fin 16) (d : Fin 64) (a m : Fin 8) (cnt : Bool) (fmt : Fmt)
  | vslide (st : Fin 16) (d a : Fin 64) (b : Fin 32) (m : Fin 8) (up : Bool) (fmt : Fmt)
  | vgrp (st : Fin 16) (d a b : Fin 64) (m n : Fin 8) (x32 bnd : Bool) (fmt : Fmt)
  | vbcast (st : Fin 16) (d a : Fin 64) (b : Fin 32) (m : Fin 8) (el bnd : Bool) (fmt : Fmt)
  | vextr (st : Fin 16) (d : Fin 32) (a : Fin 64) (b : Fin 32) (bnd : Bool) (fmt : Fmt)
  | vcomp (st : Fin 16) (d a : Fin 64) (b : Fin 4) (m : Fin 8) (fmt : Fmt)
  | vappend (st : Fin 16) (ord : Order) (scope : Scope) (d a : Fin 32) (b : Fin 64) (m : Fin 8) (fmt : Fmt)
  | vprune (st : Fin 16) (d a : Fin 64) (b : Fin 32) (m j : Fin 8) (fmt : Fmt)
  | vspill (st : Fin 16) (d : Fin 64) (a : Fin 32) (b : Fin 4) (disp : BitVec 8) (fmt : Fmt)
  | vfill (st : Fin 16) (d : Fin 64) (a : Fin 32) (b : Fin 4) (disp : BitVec 8) (fmt : Fmt)
  | tset (st d : Fin 16) (a : Fin 32)
  | tld (st d : Fin 16) (a b : Fin 32) (disp : BitVec 8)
  | tldRegister (st d : Fin 16) (a : Fin 64)
  | tst (st d : Fin 16) (a b : Fin 32) (disp : BitVec 8)
  | tstRegister (st : Fin 16) (d : Fin 64) (a : Fin 16)
  | tzero (st d : Fin 16)
  | azero (st : Fin 16) (d : Fin 8)
  | ald (st : Fin 16) (d : Fin 8) (a b c : Fin 32) (disp : BitVec 8) (fmt : Fmt)
  | aldRegister (st : Fin 16) (d : Fin 8) (a : Fin 64) (row0 : Fin 4)
  | ast (st : Fin 16) (d : Fin 8) (a b c : Fin 32) (disp : BitVec 8) (fmt : Fmt)
  | astRegister (st : Fin 16) (d : Fin 64) (a : Fin 8) (row0 : Fin 4) (fmt : Fmt)
  | bfly (st j : Fin 16) (d a : Fin 64) (b : Fin 16) (src fmt : Fmt)
  | bchain (st j : Fin 16) (d a : Fin 64) (b : Fin 16) (c : Fin 8) (src fmt : Fmt)
  | bblk (st : Fin 16) (d : Fin 8) (a b : Fin 16) (c : Fin 32) (m : Fin 8) (fmt : Fmt)
  | bmma (st : Fin 16) (d : Fin 8) (a b : Fin 16) (c : Fin 32) (m : Fin 8) (fmt : Fmt)
  | bmmx (st : Fin 16) (d : Fin 8) (a b : Fin 16) (c : Fin 64) (m : Fin 8) (vsb : Fin 64)
  | tmac (st : Fin 16) (d : Fin 8) (a b : Fin 16) (c : Fin 32) (m : Fin 8)
  | pstat (st : Fin 16) (d : Fin 32) (sel : Bool)
  | qbind (st : Fin 16) (wr : Bool) (d : Fin 8) (a : Fin 32)
  | qrel (st : Fin 16) (d : Fin 8)
  | qsync (st : Fin 16) (d : Fin 8)
  | cpy (st : Fin 16) (ord : Order) (scope : Scope) (d a b : Fin 32)
  | cpym (st : Fin 16) (ord : Order) (scope : Scope) (d a b c : Fin 32)
  | cpyf (st : Fin 16) (ord : Order) (scope : Scope) (d a b c : Fin 32) (v : Fin 128) (add : Bool)
  | cwait (st n : Fin 16)
  | bmode (st : Fin 16) (mode : BankMode) (d bank : Fin 32)
  | cfill (st : Fin 16) (ord : Order) (scope : Scope) (d a b : Fin 32) (fmt : Fmt)
  | vscadd (st : Fin 16) (ord : Order) (scope : Scope) (d : Fin 64) (a : Fin 32) (b : Fin 64) (c : Fin 32) (m : Fin 8) (x32 bnd : Bool) (sc : Fin 4) (fmt : Fmt)
  | vamo (st : Fin 16) (op : AmoOp) (ord : Order) (scope : Scope) (d : Fin 64) (a : Fin 32) (b c : Fin 64) (m : Fin 8) (x32 bnd : Bool) (sc : Fin 4) (j : Fin 8) (fmt : Fmt)
  | vstc (st : Fin 16) (ord : Order) (scope : Scope) (d : Fin 64) (a : Fin 32) (b : Fin 64) (c : Fin 32) (m : Fin 8) (x32 bnd : Bool) (sc : Fin 4) (fmt : Fmt)
  | bcfg (st : Fin 16) (d a : Fin 32)
  | phend (st : Fin 16) (ord : Order) (scope : Scope) (d a : Fin 32) (disp : BitVec 8)
  | bar (st : Fin 16) (ord : Order) (scope : Scope) (d a : Fin 32) (disp : BitVec 8)
  | cpost (st : Fin 16) (ord : Order) (scope : Scope) (d a b : Fin 32) (disp : BitVec 8)
  | ctake (st : Fin 16) (ord : Order) (scope : Scope) (d a b : Fin 32) (disp : BitVec 8)
  | csteal (st : Fin 16) (ord : Order) (scope : Scope) (d a b : Fin 32) (disp : BitVec 8)
  | cjoin (st : Fin 16) (ord : Order) (scope : Scope) (d a b : Fin 32) (disp : BitVec 8)
  | launch (st : Fin 16) (d a b c : Fin 32)
  | yield (st : Fin 16)
  | abind (st : Fin 16) (d a : Fin 32)
  | abindOff (st : Fin 16) (d a : Fin 32)
  | fcommit (st : Fin 16)
  | spawn (st : Fin 16) (d a : Fin 32)
  | olmark (st : Fin 16) (a : Fin 32)
  | olpause (st : Fin 16)
  | olresume (st : Fin 16)
  | olstat (st : Fin 16) (d : Fin 32) (sel : Fin 3)
  | lput (st : Fin 16) (ord : Order) (scope : Scope) (d a b c sw : Fin 32)
  | lget (st : Fin 16) (ord : Order) (scope : Scope) (d a b c sw : Fin 32)
  | lsend (st : Fin 16) (ord : Order) (scope : Scope) (d a b c sw : Fin 32)
  | coll (st : Fin 16) (kind : CollKind) (ord : Order) (scope : Scope) (d a b c sw : Fin 32) (fmt : Fmt)
  | lwait (st n : Fin 16)
  | lfence (st : Fin 16) (ord : Order) (scope : Scope)
  | tmark (st : Fin 16) (a : Fin 32) (tag : BitVec 8)
  | tsamp (st : Fin 16) (d : Fin 32)
  | tlbinv (st : Fin 16) (kind : TlbKind) (scope : Scope) (d a : Fin 32)
  | halt (st : Fin 16) (a : Fin 32)
  | mbind (st : Fin 16) (a slot : Fin 32)
  | munbind (st : Fin 16) (slot : Fin 32)
  | mprobe (st : Fin 16) (d slot : Fin 32) (addr : Bool)
  | fxres (st : Fin 16) (d a b c : Fin 64) (m : Fin 8) (e : Fin 64) (l : Fin 4)
  | fxstat (st : Fin 16) (d : Fin 32) (k : Fin 8)
  | fx (st : Fin 16) (fn : BitVec 8) (slot : Fin 32) (d a b c : Fin 64) (m : Fin 8) (e : Fin 64) (l : Fin 4)
  | waitaWake (core : Nat)
  | qbankGrantWrite (cluster bank : Nat) (gv : Bool) (gasid : Nat)
  | streamFetch (core : Nat) (q : Fin 8)
  | streamDrain (core : Nat) (q : Fin 8)
  | copyTransfer (core : Nat) (slot : Fin 16)
  | followOnCommand (core : Nat) (slot : Fin 16)
  | modeSwitch (cluster bank : Nat) (mode : BankMode)
  | tokenPerformed (idx : Nat)
  | barrierWake (core : Nat)
  | actorFiring (cluster idx : Nat)
  | launchAcceptance (post : Nat)
  | pick (core : Nat)
  | deficitCharge (core : Nat)
  | quantumExpiry (core : Nat)
  | preemption (core : Nat) (budget : Option Nat) (accepted : List Nat)
  | accessPerformedAfterStop (idx : Nat)
  | breakpointHalt (core : Nat)
  | fxStall (core : Nat)
  | logEntryReserve (core : Nat)
  | replayEventMatch (core : Nat)
  | replayWindowExpiry (core : Nat)
  | linkTransfer (core : Nat) (slot : Fin 16) (answer : LinkAnswer)
  | remoteAccess (src : Nat) (access : RemoteReq)
  | messageReceive (src asid : Nat) (head : BitVec 64) (payload : List (BitVec 64))
  | collectiveInstance (core : Nat) (slot : Fin 16) (peers : List CollPeer)
  | collectiveTimeout (core : Nat) (slot : Fin 16)
  | deviceLaunchShare (src : Nat) (record : List (BitVec 8))
  | flitCrcFailure (port : FlitFailure)
  | sample (core : Nat)
  | lostRecord (core : Nat)
  | traceControlWrite (core reg : Nat) (value : BitVec 64)
  | submitRecordWrite (page offset : Nat) (bytes : List (BitVec 8))
  | apertureAccess (access : ApertureReq)
  | fixed (asid slot idx : Nat)
  | kill (asid slot idx : Nat)
  | ctxstop (asid : Nat) (dbg : Bool)
  | ctxgo (asid : Nat)
  | dbggo (asid slot : Nat)
  | subreg (post : Nat) (pa : BitVec 64)
  | subregUnregister (post : Nat)
  | fwwrite (offset : Nat) (bytes : List (BitVec 8))
  | activate
  | keyload (slot asid session : Nat) (wrapped : List (BitVec 8))
  | mstatWrite (value : BitVec 64)
  | mintWrite (value : BitVec 64)
  | schedqWrite (value : BitVec 64)
  | pstateWrite (value : BitVec 64)
  | managementRegisterWrite (offset : Nat) (write : RegWrite)
  | telemetrySample (milliwatts : Nat) (temps : Temperatures)
  | moduleReset (boot : BootInputs)
  | getCertificate (slot offset length : Nat)
  | challenge (nonce : List (BitVec 8))
  | getMeasurements (nonce : List (BitVec 8))
  | keyExchange (exchange : List (BitVec 8))
  | pldmBase (command : Nat)
  | pldmMonitoring (request : PldmReq)
  | pldmFru
  | pldmFirmwareUpdate (image : List (BitVec 8))
  | illegalInstruction (core : Nat) (fmt : Bool)
  | instructionFetchFault (core : Nat)
  | lineLeavesL1 (core line : Nat)
  | firmwareResolvesNotmapped (asid : Nat) (slot : FaultTarget) (frames : List Nat) (entries : List (Nat × BitVec 64))
  | contextDescriptorValid (asid : Nat) (descriptor : List (BitVec 8)) (frames : List Nat) (entries : List (Nat × BitVec 64))
  | badCommandCode (code : Nat)
  deriving DecidableEq, Repr

end Sys2Proof
end

