-- ==== Sys2Proof/WellFormed.lean ====
section
/-!
DEFINITION. Codes of the small syntax types (Tables 2.5 to 2.11, 5.1), the format sets the chapters name, and the
well-formedness of an instruction.
-/

namespace Sys2Proof

/-- Code of a format (Table 2.7). -/
def Fmt.code : Fmt → Nat
  | .i8 => 0 | .n8 => 1 | .i16 => 2 | .n16 => 3 | .i32 => 4 | .n32 => 5 | .i64 => 6 | .n64 => 7 | .f64 => 8 | .f32 => 9
  | .bf16 => 10 | .f16 => 11 | .e4m3 => 12 | .e5m2 => 13 | .e3m2 => 14 | .e2m3 => 15 | .e2m1 => 16 | .i4 => 17 | .n4 => 18
  | .tern => 19 | .e8m0 => 20

/-- The format of a code; 21 to 31 name none (R38). -/
def Fmt.ofCode? : Nat → Option Fmt
  | 0 => some .i8 | 1 => some .n8 | 2 => some .i16 | 3 => some .n16 | 4 => some .i32 | 5 => some .n32 | 6 => some .i64
  | 7 => some .n64 | 8 => some .f64 | 9 => some .f32 | 10 => some .bf16 | 11 => some .f16 | 12 => some .e4m3
  | 13 => some .e5m2 | 14 => some .e3m2 | 15 => some .e2m3 | 16 => some .e2m1 | 17 => some .i4 | 18 => some .n4
  | 19 => some .tern | 20 => some .e8m0 | _ => none

@[simp] theorem Fmt.ofCode?_code (f : Fmt) : Fmt.ofCode? f.code = some f := by cases f <;> rfl

/-- Width of a format in bits (Table 2.7). -/
def Fmt.width : Fmt → Nat
  | .i8 | .n8 | .e4m3 | .e5m2 | .e8m0 => 8
  | .i16 | .n16 | .bf16 | .f16 => 16
  | .i32 | .n32 | .f32 => 32
  | .i64 | .n64 | .f64 => 64
  | .e3m2 | .e2m3 => 6
  | .e2m1 | .i4 | .n4 => 4
  | .tern => 2

def Order.code : Order → Nat | .rlx => 0 | .acq => 1 | .rel => 2 | .ar => 3
def Order.ofCode : Nat → Order | 0 => .rlx | 1 => .acq | 2 => .rel | _ => .ar
def Scope.code : Scope → Nat | .co => 0 | .cl => 1 | .sg => 2 | .dm => 3
def Scope.ofCode : Nat → Scope | 0 => .co | 1 => .cl | 2 => .sg | _ => .dm
@[simp] theorem Order.ofCode_flo (s : Scope) (o : Order) : Order.ofCode ((4 * s.code + o.code) % 4) = o := by
  cases s <;> cases o <;> rfl
@[simp] theorem Scope.ofCode_flo (s : Scope) (o : Order) : Scope.ofCode ((4 * s.code + o.code) / 4) = s := by
  cases s <;> cases o <;> rfl

/-- Does the order acquire, does it release (R36). -/
def Order.isAcq : Order → Bool | .acq | .ar => true | _ => false
def Order.isRel : Order → Bool | .rel | .ar => true | _ => false

def Cond.code : Cond → Nat | .eq => 0 | .ne => 1 | .lt => 2 | .ge => 3 | .ltn => 4 | .gen => 5 | .al => 6
def Cond.ofCode? : Nat → Option Cond
  | 0 => some .eq | 1 => some .ne | 2 => some .lt | 3 => some .ge | 4 => some .ltn | 5 => some .gen | 6 => some .al
  | _ => none
@[simp] theorem Cond.ofCode?_code (c : Cond) : Cond.ofCode? c.code = some c := by cases c <;> rfl

def AmoOp.code : AmoOp → Nat
  | .swap => 0 | .cas => 1 | .add => 2 | .and => 3 | .or => 4 | .xor => 5 | .min => 6 | .max => 7 | .minn => 8
  | .maxn => 9 | .fadd => 10
def AmoOp.ofCode? : Nat → Option AmoOp
  | 0 => some .swap | 1 => some .cas | 2 => some .add | 3 => some .and | 4 => some .or | 5 => some .xor
  | 6 => some .min | 7 => some .max | 8 => some .minn | 9 => some .maxn | 10 => some .fadd | _ => none
@[simp] theorem AmoOp.ofCode?_code (c : AmoOp) : AmoOp.ofCode? c.code = some c := by cases c <;> rfl

def IntCond.code : IntCond → Nat
  | .eq => 0 | .ne => 1 | .lt => 2 | .le => 3 | .gt => 4 | .ge => 5 | .ltn => 6 | .len => 7 | .gtn => 8 | .gen => 9
def IntCond.ofCode? : Nat → Option IntCond
  | 0 => some .eq | 1 => some .ne | 2 => some .lt | 3 => some .le | 4 => some .gt | 5 => some .ge | 6 => some .ltn
  | 7 => some .len | 8 => some .gtn | 9 => some .gen | _ => none
@[simp] theorem IntCond.ofCode?_code (c : IntCond) : IntCond.ofCode? c.code = some c := by cases c <;> rfl

def FpCond.code : FpCond → Nat
  | .eq => 0 | .ne => 1 | .lt => 2 | .le => 3 | .gt => 4 | .ge => 5 | .un => 6 | .ord => 7
def FpCond.ofCode? : Nat → Option FpCond
  | 0 => some .eq | 1 => some .ne | 2 => some .lt | 3 => some .le | 4 => some .gt | 5 => some .ge | 6 => some .un
  | 7 => some .ord | _ => none
@[simp] theorem FpCond.ofCode?_code (c : FpCond) : FpCond.ofCode? c.code = some c := by cases c <;> rfl

def RedOp.code : RedOp → Nat | .sum => 0 | .min => 1 | .max => 2 | .and => 3 | .or => 4 | .xor => 5
def RedOp.ofCode? : Nat → Option RedOp
  | 0 => some .sum | 1 => some .min | 2 => some .max | 3 => some .and | 4 => some .or | 5 => some .xor | _ => none

/-- `FN` of `coll` (Table 2.11): kind in bits 3 to 0, reduction in bits 7 to 4. -/
def CollKind.code : CollKind → Nat
  | .barrier => 0 | .bcast => 1 | .reduce r => 2 + 16 * r.code | .allreduce r => 3 + 16 * r.code | .allgather => 4
  | .redscat r => 5 + 16 * r.code | .alltoall => 6
def CollKind.ofCode? (n : Nat) : Option CollKind :=
  match n % 16 with
  | 0 => if n / 16 = 0 then some .barrier else none
  | 1 => if n / 16 = 0 then some .bcast else none
  | 2 => (RedOp.ofCode? (n / 16)).map .reduce
  | 3 => (RedOp.ofCode? (n / 16)).map .allreduce
  | 4 => if n / 16 = 0 then some .allgather else none
  | 5 => (RedOp.ofCode? (n / 16)).map .redscat
  | 6 => if n / 16 = 0 then some .alltoall else none
  | _ => none
@[simp] theorem CollKind.ofCode?_code (c : CollKind) : CollKind.ofCode? c.code = some c := by
  rcases c with _ | _ | ⟨_ | _⟩ | ⟨_ | _⟩ | _ | ⟨_ | _⟩ | _ <;> rfl

def BankMode.code : BankMode → Nat | .cache => 0 | .scratch => 1 | .fifo => 2
def BankMode.ofCode? : Nat → Option BankMode | 0 => some .cache | 1 => some .scratch | 2 => some .fifo | _ => none
@[simp] theorem BankMode.ofCode?_code (c : BankMode) : BankMode.ofCode? c.code = some c := by cases c <;> rfl

def TlbKind.code : TlbKind → Nat | .all => 0 | .asid => 1 | .page => 2
def TlbKind.ofCode? : Nat → Option TlbKind | 0 => some .all | 1 => some .asid | 2 => some .page | _ => none
@[simp] theorem TlbKind.ofCode?_tlb (s : Scope) (k : TlbKind) : TlbKind.ofCode? ((4 * s.code + k.code) % 4) = some k := by
  cases s <;> cases k <;> rfl
@[simp] theorem Scope.ofCode_tlb (s : Scope) (k : TlbKind) : Scope.ofCode ((4 * s.code + k.code) / 4) = s := by
  cases s <;> cases k <;> rfl

/-- Number of a control register (Table 5.1). -/
def CReg.code : CReg → Nat
  | .corectl => 0x000 | .isaid => 0x001 | .coreid => 0x002 | .cycle => 0x003 | .trcause => 0x010 | .trval => 0x011
  | .trpc => 0x012 | .trslot => 0x013 | .vtype => 0x020 | .vstart => 0x021 | .fflags => 0x022 | .pseed0 => 0x023
  | .pseed1 => 0x024 | .bstride => 0x030 | .bcarry => 0x031 | .pstart => 0x032 | .tcfg k => 0x040 + k.val
  | .fxstate k => 0x050 + k.val | .qbank b => 0x100 + b.val
/-- The control register of a number; a number not in Table 5.1 names none (R130, R145). -/
def CReg.ofCode? (n : Nat) : Option CReg :=
  match n with
  | 0x000 => some .corectl | 0x001 => some .isaid | 0x002 => some .coreid | 0x003 => some .cycle
  | 0x010 => some .trcause | 0x011 => some .trval | 0x012 => some .trpc | 0x013 => some .trslot
  | 0x020 => some .vtype | 0x021 => some .vstart | 0x022 => some .fflags | 0x023 => some .pseed0
  | 0x024 => some .pseed1 | 0x030 => some .bstride | 0x031 => some .bcarry | 0x032 => some .pstart
  | _ =>
    if 0x040 ≤ n ∧ n < 0x050 then some (.tcfg (Fin.ofNat 16 (n - 0x040)))
    else if 0x050 ≤ n ∧ n < 0x058 then some (.fxstate (Fin.ofNat 8 (n - 0x050)))
    else if 0x100 ≤ n ∧ n < 0x120 then some (.qbank (Fin.ofNat 32 (n - 0x100)))
    else none
theorem CReg.ofCode?_code (c : CReg) : CReg.ofCode? c.code = some c := by
  cases c with
  | tcfg k => revert k; decide
  | fxstate k => revert k; decide
  | qbank k => revert k; decide
  | _ => rfl
theorem CReg.code_lt (c : CReg) : c.code < 4294967296 := by
  cases c with
  | tcfg k => have := k.isLt; simp only [CReg.code]; omega
  | fxstate k => have := k.isLt; simp only [CReg.code]; omega
  | qbank k => have := k.isLt; simp only [CReg.code]; omega
  | _ => decide

def LaneReg.num : LaneReg → Nat | .vec v => v.val | .stream q => q.val
def LaneReg.isStream : LaneReg → Bool | .vec _ => false | .stream _ => true
def LaneB.num : LaneB → Nat | .vec v => v.val | .scalar x => x.val | .imm _ => 0
def LaneB.sub : LaneB → Nat | .imm i => i.toNat | _ => 0
def LaneB.bf : LaneB → Nat | .vec _ => 0 | .scalar _ => 1 | .imm _ => 2

/-- Format sets (R180, Table 7.1). -/
def anyFmt (_ : Fmt) : Bool := true
def intFmt (f : Fmt) : Bool := decide (f.code ≤ 7) || f == .i4 || f == .n4
def fpFmt (f : Fmt) : Bool := decide (8 ≤ f.code) && decide (f.code ≤ 11)
def numFmt (f : Fmt) : Bool := intFmt f || fpFmt f
def wideFmt (f : Fmt) : Bool := decide (f.code ≤ 13) || f == .e8m0
/-- Formats of `amo` and `vamo` (R142): `f32`, `f64` with `.fadd` only, the 32- and 64-bit integers otherwise. -/
def amoFmt (op : AmoOp) (f : Fmt) : Bool :=
  if op == .fadd then f == .f64 || f == .f32 else decide (4 ≤ f.code) && decide (f.code ≤ 7)
def waitaFmt (f : Fmt) : Bool := f == .n32 || f == .n64
def aldFmt (f : Fmt) : Bool := f == .f32 || f == .bf16 || f == .f16 || f == .i32 || f == .i16 || f == .i8
def astFmt (f : Fmt) : Bool := aldFmt f || f == .e4m3 || f == .e5m2
def bflyDst (f : Fmt) : Bool := f == .f32 || f == .bf16 || f == .f16
def bflySrc (f : Fmt) : Bool := bflyDst f || f == .e4m3 || f == .e5m2
def mmaFmt (f : Fmt) : Bool := f == .f32 || f == .i32
def cfillFmt (f : Fmt) : Bool := f == .n8 || f == .n16 || f == .n32 || f == .n64
def vscaddFmt (f : Fmt) : Bool := decide (4 ≤ f.code) && decide (f.code ≤ 9)
/-- Formats of a collective (R392). -/
def collFmt : CollKind → Fmt → Bool
  | .reduce r, f | .allreduce r, f | .redscat r, f => if r.code ≤ 2 then numFmt f else intFmt f
  | _, f => wideFmt f
/-- Formats that carry block scales (R161): codes 12 to 16. -/
def blockFmt (f : Fmt) : Bool := decide (12 ≤ f.code) && decide (f.code ≤ 16)
/-- A non-zero block code needs a block format (R173). -/
def blkFmt (f : Fmt) (blk : Fin 4) : Bool := blk == 0 || blockFmt f
/-- The block form of `vcvt` joins one block format and one of set FP (R186). -/
def cvtPair (src dst : Fmt) (blk : Bool) : Bool := !blk || (blockFmt src && fpFmt dst) || (fpFmt src && blockFmt dst)
/-- A bit offset other than 0 is legal only for codes 14 to 19 (R203). -/
def offOk (code : Nat) (o : Fin 8) : Bool := o == 0 || (decide (14 ≤ code) && decide (code ≤ 19))
/-- The bits of an imm8 above the element width must be 0 (R181). -/
def immOk (code : Nat) : LaneB → Bool
  | .imm i =>
    if code = 19 then decide (i.toNat < 4)
    else if code = 16 ∨ code = 17 ∨ code = 18 then decide (i.toNat < 16)
    else if code = 14 ∨ code = 15 then decide (i.toNat < 64)
    else true
  | _ => true
/-- Condition `.al` requires `D` = `A` = 0 (Table 2.6). -/
def condOk (c : Cond) (d a : Fin 32) : Bool := c != .al || (d == 0 && a == 0)
/-- Operands of `tlbinv` (R88): scope `.co` is refused, `.all` takes none, `.asid` takes no address. -/
def tlbOk (k : TlbKind) (s : Scope) (d a : Fin 32) : Bool :=
  s != .co && (k == .page || d == 0) && (k != .all || a == 0)


/-- The conditions of the spec on the operands of one instruction: register classes and field widths are carried
by the operand types, so only what a type does not say stands here (R34 to R38 and each chapter's own limits). -/
def Instr.wf : Instr → Bool
  | .add _ _ _ _ => true
  | .sub _ _ _ _ => true
  | .and _ _ _ _ => true
  | .or _ _ _ _ => true
  | .xor _ _ _ _ => true
  | .shl _ _ _ _ => true
  | .shr _ _ _ _ => true
  | .sra _ _ _ _ => true
  | .mul _ _ _ _ => true
  | .mulh _ _ _ _ => true
  | .mulhn _ _ _ _ => true
  | .div _ _ _ _ => true
  | .divn _ _ _ _ => true
  | .rem _ _ _ _ => true
  | .remn _ _ _ _ => true
  | .min _ _ _ _ => true
  | .max _ _ _ _ => true
  | .minn _ _ _ _ => true
  | .maxn _ _ _ _ => true
  | .clz _ _ _ => true
  | .popc _ _ _ => true
  | .addi _ _ _ _ => true
  | .andi _ _ _ _ => true
  | .ori _ _ _ _ => true
  | .xori _ _ _ _ => true
  | .shli _ _ _ _ => true
  | .shri _ _ _ _ => true
  | .srai _ _ _ _ => true
  | .limm _ _ _ => true
  | .limh _ _ _ _ => true
  | .cset _ cond d a _ => condOk cond d a
  | .br _ cond d a _ => condOk cond d a
  | .jal _ _ _ => true
  | .jalr _ _ _ _ => true
  | .ld _ _ _ _ _ => true
  | .st _ _ _ _ _ => true
  | .amo _ op _ _ _ _ _ c _ fmt => (op == .cas || c == 0) && amoFmt op fmt
  | .fence _ ord _ => ord != .rlx
  | .waita _ ord _ _ _ b c _ fmt => (b == 0 || c == 0) && (ord == .rlx || ord == .acq) && waitaFmt fmt
  | .mfc _ _ _ => true
  | .mtc _ _ _ => true
  | .sys _ _ => true
  | .eret _ => true
  | .brk _ _ => true
  | .endF _ => true
  | .nop _ => true
  | .vsetvl _ _ _ _ blk fmt => ((fun _ => true)) fmt && blkFmt fmt blk
  | .vsetvlRd _ _ _ => true
  | .vld _ o _ _ _ _ fmt => offOk fmt.code o && anyFmt fmt
  | .vlds _ _ _ _ _ _ fmt => wideFmt fmt
  | .vldx _ _ d _ b _ _ _ _ fmt => d != b && wideFmt fmt
  | .vst _ o _ _ _ _ fmt => offOk fmt.code o && anyFmt fmt
  | .vsts _ _ _ _ _ _ fmt => wideFmt fmt
  | .vstx _ _ _ _ _ _ _ _ _ fmt => wideFmt fmt
  | .vadd _ _ _ b _ fmt => immOk fmt.code b && intFmt fmt
  | .vsub _ _ _ b _ fmt => immOk fmt.code b && intFmt fmt
  | .vmul _ _ _ b _ fmt => immOk fmt.code b && intFmt fmt
  | .vmulh _ _ _ b _ fmt => immOk fmt.code b && intFmt fmt
  | .vmin _ _ _ b _ fmt => immOk fmt.code b && intFmt fmt
  | .vmax _ _ _ b _ fmt => immOk fmt.code b && intFmt fmt
  | .vand _ _ _ b _ fmt => immOk fmt.code b && anyFmt fmt
  | .vor _ _ _ b _ fmt => immOk fmt.code b && anyFmt fmt
  | .vxor _ _ _ b _ fmt => immOk fmt.code b && anyFmt fmt
  | .vshl _ _ _ b _ fmt => immOk fmt.code b && intFmt fmt
  | .vshr _ _ _ b _ fmt => immOk fmt.code b && intFmt fmt
  | .vsra _ _ _ b _ fmt => immOk fmt.code b && intFmt fmt
  | .vfadd _ _ _ b _ fmt => immOk fmt.code b && fpFmt fmt
  | .vfsub _ _ _ b _ fmt => immOk fmt.code b && fpFmt fmt
  | .vfmul _ _ _ b _ fmt => immOk fmt.code b && fpFmt fmt
  | .vfma _ d _ b _ fmt => !d.isStream && immOk fmt.code b && fpFmt fmt
  | .vfnma _ d _ b _ fmt => !d.isStream && immOk fmt.code b && fpFmt fmt
  | .vfdiv _ _ _ b _ fmt => immOk fmt.code b && fpFmt fmt
  | .vfsqrt _ _ _ _ fmt => fpFmt fmt
  | .vfmin _ _ _ b _ fmt => immOk fmt.code b && fpFmt fmt
  | .vfmax _ _ _ b _ fmt => immOk fmt.code b && fpFmt fmt
  | .vfrcp _ _ _ _ fmt => fpFmt fmt
  | .vfexp2 _ _ _ _ fmt => fpFmt fmt
  | .vcvt _ _ _ src blk _ fmt => anyFmt fmt && cvtPair src fmt blk.isSome
  | .vscale _ _ _ b _ fmt => immOk fmt.code b && fpFmt fmt
  | .vcmp _ _ d _ b _ fmt => immOk fmt.code b && d != 0 && intFmt fmt
  | .vfcmp _ _ d _ b _ fmt => immOk fmt.code b && d != 0 && fpFmt fmt
  | .mand _ d _ _ => d != 0
  | .mor _ d _ _ => d != 0
  | .mxor _ d _ _ => d != 0
  | .mnot _ d _ => d != 0
  | .mpop _ _ _ _ => true
  | .mfirst _ _ _ _ => true
  | .vmtx _ _ _ _ => true
  | .vmerge _ _ _ b _ fmt => immOk fmt.code b && anyFmt fmt
  | .vredsum _ _ _ _ _ fmt => intFmt fmt
  | .vfredsum _ _ _ _ _ fmt => fpFmt fmt
  | .vredmax _ _ _ _ _ fmt => numFmt fmt
  | .vredmin _ _ _ _ _ fmt => numFmt fmt
  | .vscan _ _ _ _ _ _ fmt => numFmt fmt
  | .viota _ _ a _ cnt fmt => (cnt || a == 0) && intFmt fmt
  | .vslide _ d a _ _ _ fmt => d != a && anyFmt fmt
  | .vgrp _ d a b _ n _ _ fmt => (decide (a.val + n.val ≤ 63) && !(decide (a.val ≤ d.val) && decide (d.val ≤ a.val + n.val)) && d != b) && anyFmt fmt
  | .vbcast _ _ a _ _ el bnd fmt => ((el || a == 0) && (el || !bnd)) && anyFmt fmt
  | .vextr _ _ _ _ _ fmt => anyFmt fmt
  | .vcomp _ _ _ _ _ fmt => anyFmt fmt
  | .vappend _ ord _ _ _ _ _ fmt => ord == .rlx && wideFmt fmt
  | .vprune _ _ _ _ _ _ fmt => fpFmt fmt
  | .vspill _ _ _ _ _ fmt => anyFmt fmt
  | .vfill _ _ _ _ _ fmt => anyFmt fmt
  | .tset _ _ _ => true
  | .tld _ _ _ _ _ => true
  | .tldRegister _ _ _ => true
  | .tst _ _ _ _ _ => true
  | .tstRegister _ _ _ => true
  | .tzero _ _ => true
  | .azero _ _ => true
  | .ald _ _ _ _ _ _ fmt => aldFmt fmt
  | .aldRegister _ _ _ _ => true
  | .ast _ _ _ _ _ _ fmt => astFmt fmt
  | .astRegister _ _ _ _ fmt => astFmt fmt
  | .bfly _ _ _ _ _ src fmt => bflySrc src && bflyDst fmt
  | .bchain _ _ _ _ _ _ src fmt => bflySrc src && bflyDst fmt
  | .bblk _ d a b _ _ fmt => (decide (d.val ≤ 6) && decide (a.val ≤ 14) && decide (b.val ≤ 12)) && mmaFmt fmt
  | .bmma _ _ _ _ _ _ fmt => mmaFmt fmt
  | .bmmx _ _ _ _ _ _ _ => true
  | .tmac _ _ _ _ _ _ => true
  | .pstat _ _ _ => true
  | .qbind _ _ _ _ => true
  | .qrel _ _ => true
  | .qsync _ _ => true
  | .cpy _ _ _ _ _ _ => true
  | .cpym _ _ _ _ _ _ _ => true
  | .cpyf _ _ _ _ _ _ _ _ _ => true
  | .cwait _ _ => true
  | .bmode _ _ _ _ => true
  | .cfill _ ord _ _ _ _ fmt => (ord == .rlx || ord == .rel) && cfillFmt fmt
  | .vscadd _ ord _ _ _ _ _ _ _ _ _ fmt => (ord == .rlx || ord == .rel) && vscaddFmt fmt
  | .vamo _ op _ _ d _ b c m _ _ _ j fmt => ((j == 0 || j != m) && d != b && d != c) && amoFmt op fmt
  | .vstc _ ord _ _ _ _ _ _ _ _ _ fmt => (ord == .rlx || ord == .rel) && wideFmt fmt
  | .bcfg _ _ _ => true
  | .phend _ _ _ _ _ _ => true
  | .bar _ _ _ _ _ _ => true
  | .cpost _ _ _ _ _ _ _ => true
  | .ctake _ _ _ _ _ _ _ => true
  | .csteal _ _ _ _ _ _ _ => true
  | .cjoin _ _ _ _ _ _ _ => true
  | .launch _ _ _ _ _ => true
  | .yield _ => true
  | .abind _ _ _ => true
  | .abindOff _ _ _ => true
  | .fcommit _ => true
  | .spawn _ _ _ => true
  | .olmark _ _ => true
  | .olpause _ => true
  | .olresume _ => true
  | .olstat _ _ _ => true
  | .lput _ _ _ _ _ _ _ _ => true
  | .lget _ _ _ _ _ _ _ _ => true
  | .lsend _ _ _ _ _ _ _ _ => true
  | .coll _ kind _ _ _ _ _ _ _ fmt => collFmt kind fmt
  | .lwait _ _ => true
  | .lfence _ ord _ => ord != .rlx
  | .tmark _ _ _ => true
  | .tsamp _ _ => true
  | .tlbinv _ kind scope d a => tlbOk kind scope d a
  | .halt _ _ => true
  | .mbind _ _ _ => true
  | .munbind _ _ => true
  | .mprobe _ _ _ _ => true
  | .fxres _ _ _ _ _ _ _ _ => true
  | .fxstat _ _ _ => true
  | .fx _ _ _ _ _ _ _ _ _ _ => true
  | .waitaWake core => decide (core < 160)
  | .qbankGrantWrite _ _ _ _ => true
  | .streamFetch core _ => decide (core < 160)
  | .streamDrain core _ => decide (core < 160)
  | .copyTransfer core _ => decide (core < 160)
  | .followOnCommand core _ => decide (core < 160)
  | .modeSwitch _ _ _ => true
  | .tokenPerformed _ => true
  | .barrierWake core => decide (core < 160)
  | .actorFiring _ _ => true
  | .launchAcceptance _ => true
  | .pick core => decide (core < 160)
  | .deficitCharge core => decide (core < 160)
  | .quantumExpiry core => decide (core < 160)
  | .preemption core _ _ => decide (core < 160)
  | .accessPerformedAfterStop _ => true
  | .breakpointHalt core => decide (core < 160)
  | .fxStall core => decide (core < 160)
  | .logEntryReserve core => decide (core < 160)
  | .replayEventMatch core => decide (core < 160)
  | .replayWindowExpiry core => decide (core < 8192)
  | .linkTransfer core _ _ => decide (core < 160)
  | .remoteAccess _ _ => true
  | .messageReceive _ _ _ _ => true
  | .collectiveInstance core _ _ => decide (core < 160)
  | .collectiveTimeout core _ => decide (core < 160)
  | .deviceLaunchShare _ _ => true
  | .flitCrcFailure _ => true
  | .sample core => decide (core < 160)
  | .lostRecord core => decide (core < 160)
  | .traceControlWrite core _ _ => decide (core < 160)
  | .submitRecordWrite _ _ _ => true
  | .apertureAccess _ => true
  | .fixed _ _ _ => true
  | .kill _ _ _ => true
  | .ctxstop _ _ => true
  | .ctxgo _ => true
  | .dbggo _ _ => true
  | .subreg _ _ => true
  | .subregUnregister _ => true
  | .fwwrite _ _ => true
  | .activate => true
  | .keyload _ _ _ _ => true
  | .mstatWrite _ => true
  | .mintWrite _ => true
  | .schedqWrite _ => true
  | .pstateWrite _ => true
  | .managementRegisterWrite _ _ => true
  | .telemetrySample _ _ => true
  | .moduleReset _ => true
  | .getCertificate _ _ _ => true
  | .challenge _ => true
  | .getMeasurements _ => true
  | .keyExchange _ => true
  | .pldmBase _ => true
  | .pldmMonitoring _ => true
  | .pldmFru => true
  | .pldmFirmwareUpdate _ => true
  | .illegalInstruction core _ => decide (core < 160)
  | .instructionFetchFault core => decide (core < 160)
  | .lineLeavesL1 core _ => decide (core < 160)
  | .firmwareResolvesNotmapped _ _ _ _ => true
  | .contextDescriptorValid _ _ _ _ => true
  | .badCommandCode _ => true

end Sys2Proof
end

