-- ==== Sys2Proof/Machine/Num.lean ====
section
/-!
DEFINITION. Number formats (R163, R164), exact values, and the helper `cvt` that rounds them (R166 to R168).
-/

namespace Sys2Proof

def Fmt.isInt : Fmt → Bool
  | .i8 | .n8 | .i16 | .n16 | .i32 | .n32 | .i64 | .n64 | .i4 | .n4 => true
  | _ => false
def Fmt.signed : Fmt → Bool
  | .i8 | .i16 | .i32 | .i64 | .i4 | .tern => true
  | _ => false

/-- Mantissa bits (Table 6.5). -/
def Fmt.mant : Fmt → Nat
  | .f64 => 52 | .f32 => 23 | .bf16 => 7 | .f16 => 10 | .e4m3 => 3 | .e5m2 => 2 | .e3m2 => 2 | .e2m3 => 3 | .e2m1 => 1
  | _ => 0
/-- Exponent bits (Table 6.5). -/
def Fmt.expo : Fmt → Nat
  | .f64 => 11 | .f32 => 8 | .bf16 => 8 | .f16 => 5 | .e4m3 => 4 | .e5m2 => 5 | .e3m2 => 3 | .e2m3 => 2 | .e2m1 => 2
  | .e8m0 => 8 | _ => 0
/-- Exponent bias (Table 6.5). -/
def Fmt.bias : Fmt → Nat
  | .f64 => 1023 | .f32 => 127 | .bf16 => 127 | .f16 => 15 | .e4m3 => 7 | .e5m2 => 15 | .e3m2 => 3 | .e2m3 => 1
  | .e2m1 => 1 | .e8m0 => 127 | _ => 0
def Fmt.hasInf : Fmt → Bool
  | .f64 | .f32 | .bf16 | .f16 | .e5m2 => true
  | _ => false
/-- The canonical NaN, of a format that has one (Table 6.5). -/
def Fmt.nan? : Fmt → Option Nat
  | .f64 => some 0x7FF8000000000000 | .f32 => some 0x7FC00000 | .bf16 => some 0x7FC0 | .f16 => some 0x7E00
  | .e4m3 => some 0x7F | .e5m2 => some 0x7E | .e8m0 => some 0xFF | _ => none
/-- The largest finite encoding, without its sign (Table 6.5). -/
def Fmt.maxEnc : Fmt → Nat
  | .f64 => 0x7FEFFFFFFFFFFFFF | .f32 => 0x7F7FFFFF | .bf16 => 0x7F7F | .f16 => 0x7BFF | .e4m3 => 0x7E | .e5m2 => 0x7B
  | .e3m2 => 0x1F | .e2m3 => 0x1F | .e2m1 => 0x7 | .e8m0 => 0xFE | _ => 0

end Sys2Proof

namespace Sys2Proof.Machine

/-- An exact value (R166): NaN, an infinity, or a real of magnitude `n / d * 2^e`. With `above`, the magnitude lies above
that by less than any rounding can tell (square roots and powers of two). -/
inductive Ex
  | nan
  | inf (neg : Bool)
  | num (neg : Bool) (n d : Nat) (e : Int) (above : Bool)
  deriving DecidableEq, Repr

/-- Rounding modes (R159, R166); `stoch` carries its draw (R168). -/
inductive Round | rne | rtz | rup | rdn | stoch (draw : Nat)
  deriving DecidableEq, Repr

/-- Sticky flags (Table 6.7). -/
abbrev Flags := BitVec 5
def fNV : Flags := 1
def fDZ : Flags := 2
def fOF : Flags := 4
def fUF : Flags := 8
def fNX : Flags := 16

/-- An integer as an exact value. -/
def Ex.ofInt (i : Int) : Ex := .num (decide (i < 0)) i.natAbs 1 0 false
def Ex.zero (neg : Bool) : Ex := .num neg 0 1 0 false

/-- The value of an integer encoding. -/
def intValue (f : Fmt) (b : Nat) : Int :=
  match f with
  | .tern => if b % 4 = 1 then 1 else if b % 4 = 3 then -1 else 0
  | _ => if f.signed then sextNat f.width b else ((b % 2 ^ f.width : Nat) : Int)
where
  sextNat (w b : Nat) : Int :=
    let x := b % 2 ^ w
    if x < 2 ^ (w - 1) then (x : Int) else (x : Int) - 2 ^ w

/-- The value of an encoding (R163, R164). -/
def valueOf (f : Fmt) (b : Nat) : Ex :=
  if f.isInt || f == .tern then Ex.ofInt (intValue f b)
  else if f == .e8m0 then
    let E := b % 256
    if E = 255 then .nan else .num false 1 1 ((E : Int) - 127) false
  else
    let m := f.mant
    let mag := b % 2 ^ (f.width - 1)
    let neg := b / 2 ^ (f.width - 1) % 2 == 1
    let E := mag / 2 ^ m
    let M := mag % 2 ^ m
    if f.maxEnc < mag then
      if f.hasInf && M == 0 && E == 2 ^ f.expo - 1 then .inf neg else .nan
    else if E = 0 then .num neg M 1 (1 - (f.bias : Int) - m) false
    else .num neg (2 ^ m + M) 1 ((E : Int) - f.bias - m) false

/-- `tern` 0b10, read as a value, raises NV (R164). -/
def readFlags (f : Fmt) (b : Nat) : Flags := if f == .tern && b % 4 == 2 then fNV else 0

/-- ⌊log₂ (n / d)⌋ of positive numbers. -/
def log2Ratio (n d : Nat) : Int :=
  let l : Int := (Nat.log2 n : Int) - Nat.log2 d
  let big := if 0 ≤ l then decide (d * 2 ^ l.toNat ≤ n) else decide (d ≤ n * 2 ^ (-l).toNat)
  if big then l else l - 1

/-- A magnitude in units of `2^q`: whole units, remainder and divisor. -/
def units (n d : Nat) (e q : Int) : Nat × Nat × Nat :=
  let (a, b) := if q ≤ e then (n * 2 ^ (e - q).toNat, d) else (n, d * 2 ^ (q - e).toNat)
  (a / b, a % b, b)

/-- Does the rounding take the neighbour above in magnitude (R166, R168)? -/
def roundsUp (rm : Round) (neg : Bool) (lo r b : Nat) (above : Bool) : Bool :=
  let inexact := r != 0 || above
  match rm with
  | .rne => decide (b < 2 * r) || (decide (2 * r = b) && (above || lo % 2 == 1))
  | .rtz => false
  | .rup => inexact && !neg
  | .rdn => inexact && neg
  | .stoch d => inexact && decide (d / 2 ^ 32 * b < r * 2 ^ 32)

/-- A magnitude rounded to a multiple of `2^q`: the multiple, and whether it is inexact. -/
def roundTo (rm : Round) (neg : Bool) (n d : Nat) (e : Int) (above : Bool) (q : Int) : Nat × Bool :=
  let (lo, r, b) := units n d e q
  ((if roundsUp rm neg lo r b above then lo + 1 else lo), r != 0 || above)

/-- The direction of the mode on overflow (R166). -/
def overflowsToInf (rm : Round) (neg : Bool) : Bool :=
  match rm with
  | .rne | .stoch _ => true
  | .rup => !neg
  | .rdn => neg
  | .rtz => false

def signed (f : Fmt) (neg : Bool) (mag : Nat) : Nat := if neg then mag + 2 ^ (f.width - 1) else mag
def minInt (f : Fmt) : Int := if f == .tern then -1 else if f.signed then -(2 ^ (f.width - 1) : Int) else 0
def maxInt (f : Fmt) : Int :=
  if f == .tern then 1 else if f.signed then (2 ^ (f.width - 1) : Int) - 1 else (2 ^ f.width : Int) - 1
/-- The encoding of an integer in a format's width. -/
def encInt (f : Fmt) (i : Int) : Nat := (i % (2 ^ f.width : Int)).toNat

/-- `cvt` to an integer format (R166). -/
def cvtInt (x : Ex) (f : Fmt) (rm : Round) : Nat × Flags :=
  match x with
  | .nan => (0, fNV)
  | .inf neg => (encInt f (if neg then minInt f else maxInt f), fNV)
  | .num neg n d e above =>
    let (k, inexact) := roundTo rm neg n d e above 0
    let y : Int := if neg then -(k : Int) else k
    if y < minInt f then (encInt f (minInt f), fNV)
    else if maxInt f < y then (encInt f (maxInt f), fNV)
    else (encInt f y, if inexact then fNX else 0)

/-- `cvt_scale` (R166). -/
def cvtScale (x : Ex) (rm : Round) : Nat × Flags :=
  match x with
  | .num false n d e above =>
    if n = 0 then (0xFF, fNV)
    else
      let l := log2Ratio n d + e
      let (_, r, b) := units n d e l
      let exact := r == 0 && !above
      let k := match rm with
        | .rtz | .rdn => l
        | .rup => if exact then l else l + 1
        | .rne | .stoch _ => if b ≤ 2 * r then l + 1 else l
      if k < -127 then (0x00, fUF ||| fNX)
      else if 127 < k then (0xFE, fOF ||| fNX)
      else ((k + 127).toNat, if exact && k == l then 0 else fNX)
  | _ => (0xFF, fNV)

/-- `cvt` to a floating-point format other than `e8m0` (R166). -/
def cvtFp (x : Ex) (f : Fmt) (rm : Round) : Nat × Flags :=
  match x with
  | .nan => match f.nan? with
    | some c => (c, 0)
    | none => (0, fNV)
  | .inf neg =>
    if f.hasInf then (signed f neg (2 ^ f.mant * (2 ^ f.expo - 1)), 0) else (signed f neg f.maxEnc, fOF ||| fNX)
  | .num neg n d e above =>
    if n = 0 then (signed f neg 0, 0)
    else
      let emin : Int := 1 - f.bias
      let q := max (log2Ratio n d + e) emin - f.mant
      let (k, inexact) := roundTo rm neg n d e above q
      let mag := ((q + f.mant + f.bias : Int).toNat - 1) * 2 ^ f.mant + k
      if f.maxEnc < mag then
        (if f.hasInf && overflowsToInf rm neg then signed f neg (2 ^ f.mant * (2 ^ f.expo - 1)) else signed f neg f.maxEnc,
          fOF ||| fNX)
      else (signed f neg mag, if inexact then (if mag < 2 ^ f.mant then fUF ||| fNX else fNX) else 0)

/-- The helper `cvt` (R166). -/
def cvt (x : Ex) (f : Fmt) (rm : Round) : Nat × Flags :=
  if f.isInt || f == .tern then cvtInt x f rm
  else if f == .e8m0 then cvtScale x rm
  else cvtFp x f rm

/-! Exact arithmetic. -/

/-- A dyadic value as an integer times `2^e`. -/
def dyadic (neg : Bool) (n : Nat) : Int := if neg then -(n : Int) else n

/-- The exact sum of two reals with denominator 1; `rdn` decides the sign of a zero sum of unlike signs (R185). -/
def sumEx (rm : Round) (s1 : Bool) (n1 : Nat) (e1 : Int) (s2 : Bool) (n2 : Nat) (e2 : Int) : Ex :=
  let q := min e1 e2
  let v := dyadic s1 (n1 * 2 ^ (e1 - q).toNat) + dyadic s2 (n2 * 2 ^ (e2 - q).toNat)
  if v = 0 then Ex.zero (if s1 = s2 then s1 else decide (rm = .rdn))
  else .num (decide (v < 0)) v.natAbs 1 q false

def Ex.neg : Ex → Ex
  | .nan => .nan
  | .inf s => .inf (!s)
  | .num s n d e a => .num (!s) n d e a
def Ex.isNan : Ex → Bool | .nan => true | _ => false
def Ex.isInf : Ex → Bool | .inf _ => true | _ => false
def Ex.isZero : Ex → Bool | .num _ n _ _ _ => n == 0 | _ => false
def Ex.sign : Ex → Bool | .nan => false | .inf s => s | .num s _ _ _ _ => s

/-- Exact addition (R185). -/
def addEx (rm : Round) : Ex → Ex → Ex × Flags
  | .nan, _ => (.nan, 0)
  | _, .nan => (.nan, 0)
  | .inf s, .inf t => if s = t then (.inf s, 0) else (.nan, fNV)
  | .inf s, _ => (.inf s, 0)
  | _, .inf t => (.inf t, 0)
  | .num s1 n1 _ e1 _, .num s2 n2 _ e2 _ => (sumEx rm s1 n1 e1 s2 n2 e2, 0)

/-- Exact multiplication (R185); `nanNv` raises NV of 0 × ∞. -/
def mulEx : Ex → Ex → Ex × Flags
  | .nan, _ => (.nan, 0)
  | _, .nan => (.nan, 0)
  | .inf s, y => if y.isZero then (.nan, fNV) else (.inf (s != y.sign), 0)
  | x, .inf t => if x.isZero then (.nan, fNV) else (.inf (x.sign != t), 0)
  | .num s1 n1 d1 e1 _, .num s2 n2 d2 e2 _ => (.num (s1 != s2) (n1 * n2) (d1 * d2) (e1 + e2) false, 0)

/-- Exact `c + a × b`, fused (R185): 0 × ∞ raises NV even when the addend is NaN. -/
def fmaEx (rm : Round) (c a b : Ex) : Ex × Flags :=
  let (p, f) := mulEx a b
  if p.isNan then (.nan, f) else let (r, g) := addEx rm c p; (r, f ||| g)

/-- Exact division (R185). -/
def divEx : Ex → Ex → Ex × Flags
  | .nan, _ => (.nan, 0)
  | _, .nan => (.nan, 0)
  | .inf s, y => if y.isInf then (.nan, fNV) else (.inf (s != y.sign), 0)
  | x, .inf t => (Ex.zero (x.sign != t), 0)
  | .num s1 n1 _ e1 _, .num s2 n2 _ e2 _ =>
    if n2 = 0 then (if n1 = 0 then (.nan, fNV) else (.inf (s1 != s2), fDZ))
    else if n1 = 0 then (Ex.zero (s1 != s2), 0)
    else (.num (s1 != s2) n1 n2 (e1 - e2) false, 0)

/-- ⌊√n⌋, by Newton's steps from above; `fuel` bounds them. -/
def isqrtStep (n : Nat) : Nat → Nat → Nat
  | 0, x => x
  | fuel + 1, x => let y := (x + n / x) / 2; if x ≤ y then x else isqrtStep n fuel y
def isqrt (n : Nat) : Nat := if n = 0 then 0 else isqrtStep n 64 (2 ^ (Nat.log2 n / 2 + 1))

/-- Exact square root (R185). -/
def sqrtEx : Ex → Ex × Flags
  | .nan => (.nan, 0)
  | .inf s => if s then (.nan, fNV) else (.inf false, 0)
  | .num s n _ e _ =>
    if n = 0 then (Ex.zero s, 0)
    else if s then (.nan, fNV)
    else
      let odd := e % 2 = 1
      let m := (if odd then 2 * n else n) * 2 ^ 256
      let h := ((if odd then e - 1 else e) - 256) / 2
      let r := isqrt m
      (.num false r 1 h (r * r != m), 0)

/-- 2^(p / 2^q) for p < 2^q, in units of 2^-256, from the binary digits of p and the repeated square roots of 2. -/
def exp2Frac (p : Nat) : Nat → Nat → Nat → Nat → Nat
  | 0, _, _, acc => acc
  | fuel + 1, q, c, acc =>
    if q = 0 then acc
    else
      let c := isqrt (c * 2 ^ 256)
      let acc := if p / 2 ^ (q - 1) % 2 = 1 then acc * c / 2 ^ 256 else acc
      exp2Frac p fuel (q - 1) c acc

/-- 2^a, an exact real (R185); magnitudes past every format's range are cut to 2^(±20,000). -/
def exp2Ex : Ex → Ex × Flags
  | .nan => (.nan, 0)
  | .inf s => if s then (Ex.zero false, 0) else (.inf false, 0)
  | .num s n _ e _ =>
    let v := dyadic s n
    if n = 0 then (.num false 1 1 0 false, 0)
    else if 15 < (Nat.log2 n : Int) + e then (.num false 1 1 (if s then -20000 else 20000) false, 0)
    else if 0 ≤ e then (.num false 1 1 (v * 2 ^ e.toNat) false, 0)
    else
      let q := (-e).toNat
      let i := v / 2 ^ q
      let p := (v % 2 ^ q).toNat
      if p = 0 then (.num false 1 1 i false, 0)
      else (.num false (exp2Frac p 256 q (2 ^ 257) (2 ^ 256)) 1 (i - 256) true, 0)

/-- Exact 1 ÷ a (R185). -/
def rcpEx (a : Ex) : Ex × Flags := divEx (.num false 1 1 0 false) a

/-- Exact a × 2^k (R187). -/
def scaleEx (k : Int) : Ex → Ex
  | .num s n d e ab => .num s n d (e + k) ab
  | x => x

/-- Order of two values that are no NaN: -1, 0, 1; -0 equals +0. -/
def cmpEx : Ex → Ex → Int
  | .inf s, .inf t => if s = t then 0 else if s then -1 else 1
  | .inf s, _ => if s then -1 else 1
  | _, .inf t => if t then 1 else -1
  | .num s1 n1 _ e1 _, .num s2 n2 _ e2 _ =>
    let q := min e1 e2
    let a := dyadic s1 (n1 * 2 ^ (e1 - q).toNat)
    let b := dyadic s2 (n2 * 2 ^ (e2 - q).toNat)
    if a < b then -1 else if b < a then 1 else 0
  | _, _ => 0

/-- Can `dst` hold every value of integer format `src` exactly, in precision and range (R168)? -/
def holdsInts (src dst : Fmt) : Bool :=
  let need := if src == .tern then 1 else if src.signed then src.width - 1 else src.width
  let biggest := if src == .tern then 1 else if src.signed then 2 ^ (src.width - 1) else 2 ^ src.width - 1
  match valueOf dst dst.maxEnc with
  | .num _ n _ e _ =>
    dst != .e8m0 && decide (need ≤ dst.mant + 1)
      && (if 0 ≤ e then decide (biggest ≤ n * 2 ^ e.toNat) else decide (biggest * 2 ^ (-e).toNat ≤ n))
  | _ => false

/-- Does integer format `dst` hold every finite value of floating-point format `src` in range (R168)? -/
def rangeHolds (src dst : Fmt) : Bool :=
  decide (cmpEx (valueOf src src.maxEnc) (Ex.ofInt (maxInt dst)) ≤ 0) &&
    (src == .e8m0 || decide (0 ≤ cmpEx (valueOf src (src.maxEnc + 2 ^ (src.width - 1))) (Ex.ofInt (minInt dst))))

/-- A conversion that narrows (R168). -/
def narrows (src dst : Fmt) : Bool :=
  let srcInt := src.isInt || src == .tern
  let dstInt := dst.isInt || dst == .tern
  if srcInt && dstInt then false
  else if dstInt then !rangeHolds src dst
  else if srcInt then !holdsInts src dst
  else decide (dst.mant < src.mant) || decide (dst.expo < src.expo)

/-- One draw of the generator (R168): the draw, and the new `PSEED0` and `PSEED1`. -/
def drawStep (a b : Word) : Word × Word × Word :=
  let a' := a ^^^ (a <<< 23)
  let n := a' ^^^ b ^^^ (a' >>> 17) ^^^ (b >>> 26)
  (n + b, b, n)

/-- `fadd_at_beater` (R314): rounding is RNE. -/
def beaterAdd (f : Fmt) (v b : Nat) : Nat × Flags :=
  let (x, fl) := addEx .rne (valueOf f v) (valueOf f b)
  let (y, g) := cvtFp x f .rne
  (y, fl ||| g)

end Sys2Proof.Machine
end

