-- ==== Sys2Proof/Decode.lean ====
section
/-!
DEFINITION. Decoding (R31 to R42) from any 64-bit word, rejecting by name, and after it the encoder of the same tables.
-/

namespace Sys2Proof

/-- Why a word is no instruction: the trap R42 raises at steps 2 to 4 and at step 6. -/
inductive Reject | illop | illfmt
  deriving DecidableEq, Repr

/-- The fields of Table 2.1, as formats V and X read them. -/
structure VFields where
  op : Nat := 0
  st : Fin 16 := 0
  fl : Nat := 0
  d : Nat := 0
  a : Nat := 0
  b : Nat := 0
  c : Nat := 0
  m : Nat := 0
  fn : Nat := 0
  fmt : Nat := 0
  sub : Nat := 0
  deriving DecidableEq, Repr

/-- The fields of formats I and B (Table 2.2): `res` is bits 31 to 28. -/
structure IFields where
  op : Nat := 0
  st : Fin 16 := 0
  fl : Nat := 0
  d : Nat := 0
  a : Nat := 0
  res : Nat := 0
  imm : BitVec 32 := 0
  deriving DecidableEq, Repr

/-- The bit positions of Table 2.1. -/
def unpackV (w : Nat) : VFields :=
  { op := w % 256, st := Fin.ofNat 16 (w / 256), fl := w / 4096 % 16, d := w / 65536 % 64, a := w / 4194304 % 64,
    b := w / 268435456 % 64, c := w / 17179869184 % 64, m := w / 1099511627776 % 8, fn := w / 8796093022208 % 256,
    fmt := w / 2251799813685248 % 32, sub := w / 72057594037927936 % 256 }

/-- Formats I and B (Table 2.2): the immediate in bits 63 to 32. -/
def unpackI (w : Nat) : IFields :=
  { op := w % 256, st := Fin.ofNat 16 (w / 256), fl := w / 4096 % 16, d := w / 65536 % 64, a := w / 4194304 % 64,
    res := w / 268435456 % 16, imm := BitVec.ofNat 32 (w / 4294967296) }

def packV (f : VFields) : Nat :=
  f.op + f.st.val * 256 + f.fl * 4096 + f.d * 65536 + f.a * 4194304 + f.b * 268435456 + f.c * 17179869184
    + f.m * 1099511627776 + f.fn * 8796093022208 + f.fmt * 2251799813685248 + f.sub * 72057594037927936

def packI (f : IFields) : Nat :=
  f.op + f.st.val * 256 + f.fl * 4096 + f.d * 65536 + f.a * 4194304 + f.res * 268435456 + f.imm.toNat * 4294967296

/-- A bit that must be as R33 to R37 say: ILLOP otherwise. -/
def rq (b : Bool) : Except Reject Unit := if b then .ok () else .error .illop
/-- Fields that must be 0 (R34). -/
def zs (l : List Nat) : Except Reject Unit := rq (l.all (· == 0))
/-- A format condition of decode step 6: ILLFMT otherwise. -/
def rf (b : Bool) : Except Reject Unit := if b then .ok () else .error .illfmt
/-- A field of a class with `k` values (R33): any other value raises ILLOP. -/
def fz (k n : Nat) : Except Reject (Fin k) := if h : n < k then .ok ⟨n, h⟩ else .error .illop
/-- A field of one bit, the others of the field 0 (R34). -/
def flag (n : Nat) : Except Reject Bool := if n = 0 then .ok false else if n = 1 then .ok true else .error .illop
/-- Decode step 6 (R38). -/
def fm (p : Fmt → Bool) (n : Nat) : Except Reject Fmt :=
  match Fmt.ofCode? n with
  | some f => if p f then .ok f else .error .illfmt
  | none => .error .illfmt
def orIllop {α : Type} (o : Option α) : Except Reject α := match o with | some x => .ok x | none => .error .illop
def cnd (n : Nat) : Except Reject Cond := orIllop (Cond.ofCode? n)
def amo (n : Nat) : Except Reject AmoOp := orIllop (AmoOp.ofCode? n)
def icn (n : Nat) : Except Reject IntCond := orIllop (IntCond.ofCode? n)
def fcn (n : Nat) : Except Reject FpCond := orIllop (FpCond.ofCode? n)
def clk (n : Nat) : Except Reject CollKind := orIllop (CollKind.ofCode? n)
def bmd (n : Nat) : Except Reject BankMode := orIllop (BankMode.ofCode? n)
def tlk (n : Nat) : Except Reject TlbKind := orIllop (TlbKind.ofCode? n)
def crg (n : Nat) : Except Reject CReg := orIllop (CReg.ofCode? n)
/-- A `D` or `A` operand of layout FL-A. -/
def lreg (stream : Bool) (n : Nat) : Except Reject LaneReg :=
  if stream then (fz 8 n).map .stream else (fz 64 n).map .vec
/-- The `B` operand of layout FL-A: `BF` 11 raises ILLOP, and the field or `SUB` that is not used must be 0. -/
def lopb (bf b sub : Nat) : Except Reject LaneB :=
  match bf with
  | 0 => do rq (sub == 0); (fz 64 b).map .vec
  | 1 => do rq (sub == 0); (fz 32 b).map .scalar
  | 2 => do rq (b == 0); return .imm (BitVec.ofNat 8 sub)
  | _ => .error .illop
/-- The `C` field of `vcvt` (R186): the scale register in the block form, 0 in the plain form. -/
def cvb (blk : Bool) (c : Nat) : Except Reject (Option (Fin 64)) :=
  if blk then (fz 64 c).map some else do rq (c == 0); return none
def cvc : Option (Fin 64) → Nat | some v => v.val | none => 0


/-- Decoding the V-format front instructions of block 0x01 to 0x3F (Table 2.8 and the field tables of their chapters). -/
def decodeFront (f : VFields) : Except Reject Instr :=
  match f.op with
  | 0x1 =>
    do
      zs [f.fn, f.fl, f.c, f.m, f.sub, f.fmt]; let d ← fz 32 f.d; let a ← fz 32 f.a; let b ← fz 32 f.b
      return .add f.st d a b
  | 0x2 =>
    do
      zs [f.fn, f.fl, f.c, f.m, f.sub, f.fmt]; let d ← fz 32 f.d; let a ← fz 32 f.a; let b ← fz 32 f.b
      return .sub f.st d a b
  | 0x3 =>
    do
      zs [f.fn, f.fl, f.c, f.m, f.sub, f.fmt]; let d ← fz 32 f.d; let a ← fz 32 f.a; let b ← fz 32 f.b
      return .and f.st d a b
  | 0x4 =>
    do
      zs [f.fn, f.fl, f.c, f.m, f.sub, f.fmt]; let d ← fz 32 f.d; let a ← fz 32 f.a; let b ← fz 32 f.b
      return .or f.st d a b
  | 0x5 =>
    do
      zs [f.fn, f.fl, f.c, f.m, f.sub, f.fmt]; let d ← fz 32 f.d; let a ← fz 32 f.a; let b ← fz 32 f.b
      return .xor f.st d a b
  | 0x6 =>
    do
      zs [f.fn, f.fl, f.c, f.m, f.sub, f.fmt]; let d ← fz 32 f.d; let a ← fz 32 f.a; let b ← fz 32 f.b
      return .shl f.st d a b
  | 0x7 =>
    do
      zs [f.fn, f.fl, f.c, f.m, f.sub, f.fmt]; let d ← fz 32 f.d; let a ← fz 32 f.a; let b ← fz 32 f.b
      return .shr f.st d a b
  | 0x8 =>
    do
      zs [f.fn, f.fl, f.c, f.m, f.sub, f.fmt]; let d ← fz 32 f.d; let a ← fz 32 f.a; let b ← fz 32 f.b
      return .sra f.st d a b
  | 0x9 =>
    do
      zs [f.fn, f.fl, f.c, f.m, f.sub, f.fmt]; let d ← fz 32 f.d; let a ← fz 32 f.a; let b ← fz 32 f.b
      return .mul f.st d a b
  | 0xa =>
    do
      zs [f.fn, f.fl, f.c, f.m, f.sub, f.fmt]; let d ← fz 32 f.d; let a ← fz 32 f.a; let b ← fz 32 f.b
      return .mulh f.st d a b
  | 0xb =>
    do
      zs [f.fn, f.fl, f.c, f.m, f.sub, f.fmt]; let d ← fz 32 f.d; let a ← fz 32 f.a; let b ← fz 32 f.b
      return .mulhn f.st d a b
  | 0xc =>
    do
      zs [f.fn, f.fl, f.c, f.m, f.sub, f.fmt]; let d ← fz 32 f.d; let a ← fz 32 f.a; let b ← fz 32 f.b
      return .div f.st d a b
  | 0xd =>
    do
      zs [f.fn, f.fl, f.c, f.m, f.sub, f.fmt]; let d ← fz 32 f.d; let a ← fz 32 f.a; let b ← fz 32 f.b
      return .divn f.st d a b
  | 0xe =>
    do
      zs [f.fn, f.fl, f.c, f.m, f.sub, f.fmt]; let d ← fz 32 f.d; let a ← fz 32 f.a; let b ← fz 32 f.b
      return .rem f.st d a b
  | 0xf =>
    do
      zs [f.fn, f.fl, f.c, f.m, f.sub, f.fmt]; let d ← fz 32 f.d; let a ← fz 32 f.a; let b ← fz 32 f.b
      return .remn f.st d a b
  | 0x10 =>
    do
      zs [f.fn, f.fl, f.c, f.m, f.sub, f.fmt]; let d ← fz 32 f.d; let a ← fz 32 f.a; let b ← fz 32 f.b
      return .min f.st d a b
  | 0x11 =>
    do
      zs [f.fn, f.fl, f.c, f.m, f.sub, f.fmt]; let d ← fz 32 f.d; let a ← fz 32 f.a; let b ← fz 32 f.b
      return .max f.st d a b
  | 0x12 =>
    do
      zs [f.fn, f.fl, f.c, f.m, f.sub, f.fmt]; let d ← fz 32 f.d; let a ← fz 32 f.a; let b ← fz 32 f.b
      return .minn f.st d a b
  | 0x13 =>
    do
      zs [f.fn, f.fl, f.c, f.m, f.sub, f.fmt]; let d ← fz 32 f.d; let a ← fz 32 f.a; let b ← fz 32 f.b
      return .maxn f.st d a b
  | 0x14 =>
    do
      zs [f.fn, f.fl, f.b, f.c, f.m, f.sub, f.fmt]; let d ← fz 32 f.d; let a ← fz 32 f.a
      return .clz f.st d a
  | 0x15 =>
    do
      zs [f.fn, f.fl, f.b, f.c, f.m, f.sub, f.fmt]; let d ← fz 32 f.d; let a ← fz 32 f.a
      return .popc f.st d a
  | 0x1f =>
    do
      zs [f.fn, f.c, f.m, f.sub, f.fmt]; let cond ← cnd f.fl; let d ← fz 32 f.d; let a ← fz 32 f.a
      let b ← fz 32 f.b; rq (condOk cond d a)
      return .cset f.st cond d a b
  | 0x25 =>
    do
      let op ← amo f.fn; let scope := Scope.ofCode (f.fl / 4); let ord := Order.ofCode (f.fl % 4)
      let d ← fz 32 f.d; let a ← fz 32 f.a; let b ← fz 32 f.b; let c ← fz 32 f.c; rq (f.m == 0)
      let disp := BitVec.ofNat 8 f.sub; rq ((op == .cas || c == 0)); let fmt ← fm (amoFmt op) f.fmt
      return .amo f.st op ord scope d a b c disp fmt
  | 0x26 =>
    do
      zs [f.fn, f.d, f.a, f.b, f.c, f.m, f.sub, f.fmt]; let scope := Scope.ofCode (f.fl / 4)
      let ord := Order.ofCode (f.fl % 4); rq (ord != .rlx)
      return .fence f.st ord scope
  | 0x27 =>
    do
      zs [f.fn, f.m]; let scope := Scope.ofCode (f.fl / 4); let ord := Order.ofCode (f.fl % 4)
      let d ← fz 32 f.d; let a ← fz 32 f.a; let b ← fz 32 f.b; let c ← fz 32 f.c
      let disp := BitVec.ofNat 8 f.sub; rq ((b == 0 || c == 0) && (ord == .rlx || ord == .acq))
      let fmt ← fm (waitaFmt) f.fmt
      return .waita f.st ord scope d a b c disp fmt
  | 0x2b =>
    do
      zs [f.fn, f.fl, f.d, f.a, f.b, f.c, f.m, f.sub, f.fmt]; return .eret f.st
  | 0x2d =>
    do
      zs [f.fn, f.fl, f.d, f.a, f.b, f.c, f.m, f.sub, f.fmt]; return .endF f.st
  | 0x2e =>
    do
      zs [f.fn, f.fl, f.d, f.a, f.b, f.c, f.m, f.sub, f.fmt]; return .nop f.st
  | _ => .error .illop

/-- Decoding the I-format and B-format instructions (Table 2.8 and the field tables of their chapters). -/
def decodeImm (f : IFields) : Except Reject Instr :=
  match f.op with
  | 0x16 =>
    do
      zs [f.fl, f.res]; let d ← fz 32 f.d; let a ← fz 32 f.a; let imm := f.imm
      return .addi f.st d a imm
  | 0x17 =>
    do
      zs [f.fl, f.res]; let d ← fz 32 f.d; let a ← fz 32 f.a; let imm := f.imm
      return .andi f.st d a imm
  | 0x18 =>
    do
      zs [f.fl, f.res]; let d ← fz 32 f.d; let a ← fz 32 f.a; let imm := f.imm
      return .ori f.st d a imm
  | 0x19 =>
    do
      zs [f.fl, f.res]; let d ← fz 32 f.d; let a ← fz 32 f.a; let imm := f.imm
      return .xori f.st d a imm
  | 0x1a =>
    do
      zs [f.fl, f.res]; let d ← fz 32 f.d; let a ← fz 32 f.a; let sh ← fz 64 f.imm.toNat
      return .shli f.st d a sh
  | 0x1b =>
    do
      zs [f.fl, f.res]; let d ← fz 32 f.d; let a ← fz 32 f.a; let sh ← fz 64 f.imm.toNat
      return .shri f.st d a sh
  | 0x1c =>
    do
      zs [f.fl, f.res]; let d ← fz 32 f.d; let a ← fz 32 f.a; let sh ← fz 64 f.imm.toNat
      return .srai f.st d a sh
  | 0x1d =>
    do
      zs [f.fl, f.res, f.a]; let d ← fz 32 f.d; let imm := f.imm
      return .limm f.st d imm
  | 0x1e =>
    do
      zs [f.fl, f.res]; let d ← fz 32 f.d; let a ← fz 32 f.a; let imm := f.imm
      return .limh f.st d a imm
  | 0x20 =>
    do
      let cond ← cnd f.fl; rq (f.res == 0); let d ← fz 32 f.d; let a ← fz 32 f.a; let imm := f.imm
      rq (condOk cond d a)
      return .br f.st cond d a imm
  | 0x21 =>
    do
      zs [f.fl, f.res, f.a]; let d ← fz 32 f.d; let imm := f.imm
      return .jal f.st d imm
  | 0x22 =>
    do
      zs [f.fl, f.res]; let d ← fz 32 f.d; let a ← fz 32 f.a; let imm := f.imm
      return .jalr f.st d a imm
  | 0x23 =>
    do
      let w ← fz 8 f.fl; rq (f.res == 0); let d ← fz 32 f.d; let a ← fz 32 f.a; let imm := f.imm
      return .ld f.st w d a imm
  | 0x24 =>
    do
      let w ← fz 8 f.fl; rq (f.res == 0); let d ← fz 32 f.d; let a ← fz 32 f.a; let imm := f.imm
      return .st f.st w d a imm
  | 0x28 =>
    do
      zs [f.fl, f.res, f.a]; let d ← fz 32 f.d; let cr ← crg f.imm.toNat
      return .mfc f.st d cr
  | 0x29 =>
    do
      zs [f.fl, f.res, f.d]; let a ← fz 32 f.a; let cr ← crg f.imm.toNat
      return .mtc f.st a cr
  | 0x2a =>
    do
      zs [f.fl, f.res, f.d, f.a]; let imm := f.imm; return .sys f.st imm
  | 0x2c =>
    do
      zs [f.fl, f.res, f.d, f.a]; let imm := f.imm; return .brk f.st imm
  | _ => .error .illop

/-- Decoding the lane instructions 0x40 to 0x61 (Table 2.8 and the field tables of their chapters). -/
def decodeLaneA (f : VFields) : Except Reject Instr :=
  match f.op with
  | 0x40 =>
    if f.fl == 0 then do
      zs [f.fn, f.c, f.m]; let d ← fz 32 f.d; let a ← fz 32 f.a; let b ← fz 4 f.b; let blk ← fz 4 f.sub
      let fmt ← fm ((fun _ => true)) f.fmt; rf (blkFmt fmt blk)
      return .vsetvl f.st d a b blk fmt
    else if f.fl == 1 then do
      zs [f.fn, f.a, f.c, f.m, f.sub, f.fmt]; let d ← fz 32 f.d; let b ← fz 4 f.b
      return .vsetvlRd f.st d b
    else .error .illop
  | 0x41 =>
    do
      zs [f.fn, f.b, f.c]; let o ← fz 8 f.fl; let d ← fz 64 f.d; let a ← fz 32 f.a; let m ← fz 8 f.m
      let disp := BitVec.ofNat 8 f.sub; rq (offOk f.fmt o); let fmt ← fm (anyFmt) f.fmt
      return .vld f.st o d a m disp fmt
  | 0x42 =>
    do
      zs [f.fn, f.fl, f.c]; let d ← fz 64 f.d; let a ← fz 32 f.a; let b ← fz 32 f.b; let m ← fz 8 f.m
      let disp := BitVec.ofNat 8 f.sub; let fmt ← fm (wideFmt) f.fmt
      return .vlds f.st d a b m disp fmt
  | 0x43 =>
    do
      rq (f.fn == 0); let sc ← fz 4 f.fl; let d ← fz 64 f.d; let a ← fz 32 f.a; let b ← fz 64 f.b
      let c ← fz 32 f.c; let m ← fz 8 f.m; rq (decide (f.sub < 4)); let x32 := f.sub % 2 == 1
      let bnd := f.sub / 2 % 2 == 1; rq (d != b); let fmt ← fm (wideFmt) f.fmt
      return .vldx f.st sc d a b c m x32 bnd fmt
  | 0x44 =>
    do
      zs [f.fn, f.b, f.c]; let o ← fz 8 f.fl; let d ← fz 64 f.d; let a ← fz 32 f.a; let m ← fz 8 f.m
      let disp := BitVec.ofNat 8 f.sub; rq (offOk f.fmt o); let fmt ← fm (anyFmt) f.fmt
      return .vst f.st o d a m disp fmt
  | 0x45 =>
    do
      zs [f.fn, f.fl, f.c]; let d ← fz 64 f.d; let a ← fz 32 f.a; let b ← fz 32 f.b; let m ← fz 8 f.m
      let disp := BitVec.ofNat 8 f.sub; let fmt ← fm (wideFmt) f.fmt
      return .vsts f.st d a b m disp fmt
  | 0x46 =>
    do
      rq (f.fn == 0); let sc ← fz 4 f.fl; let d ← fz 64 f.d; let a ← fz 32 f.a; let b ← fz 64 f.b
      let c ← fz 32 f.c; let m ← fz 8 f.m; rq (decide (f.sub < 4)); let x32 := f.sub % 2 == 1
      let bnd := f.sub / 2 % 2 == 1; let fmt ← fm (wideFmt) f.fmt
      return .vstx f.st sc d a b c m x32 bnd fmt
  | 0x47 =>
    do
      zs [f.fn, f.c]; let d ← lreg (f.fl / 4 % 2 == 1) f.d; let a ← lreg (f.fl / 8 == 1) f.a
      let b ← lopb (f.fl % 4) f.b f.sub; rq (immOk f.fmt b); let m ← fz 8 f.m; let fmt ← fm (intFmt) f.fmt
      return .vadd f.st d a b m fmt
  | 0x48 =>
    do
      zs [f.fn, f.c]; let d ← lreg (f.fl / 4 % 2 == 1) f.d; let a ← lreg (f.fl / 8 == 1) f.a
      let b ← lopb (f.fl % 4) f.b f.sub; rq (immOk f.fmt b); let m ← fz 8 f.m; let fmt ← fm (intFmt) f.fmt
      return .vsub f.st d a b m fmt
  | 0x49 =>
    do
      zs [f.fn, f.c]; let d ← lreg (f.fl / 4 % 2 == 1) f.d; let a ← lreg (f.fl / 8 == 1) f.a
      let b ← lopb (f.fl % 4) f.b f.sub; rq (immOk f.fmt b); let m ← fz 8 f.m; let fmt ← fm (intFmt) f.fmt
      return .vmul f.st d a b m fmt
  | 0x4a =>
    do
      zs [f.fn, f.c]; let d ← lreg (f.fl / 4 % 2 == 1) f.d; let a ← lreg (f.fl / 8 == 1) f.a
      let b ← lopb (f.fl % 4) f.b f.sub; rq (immOk f.fmt b); let m ← fz 8 f.m; let fmt ← fm (intFmt) f.fmt
      return .vmulh f.st d a b m fmt
  | 0x4b =>
    do
      zs [f.fn, f.c]; let d ← lreg (f.fl / 4 % 2 == 1) f.d; let a ← lreg (f.fl / 8 == 1) f.a
      let b ← lopb (f.fl % 4) f.b f.sub; rq (immOk f.fmt b); let m ← fz 8 f.m; let fmt ← fm (intFmt) f.fmt
      return .vmin f.st d a b m fmt
  | 0x4c =>
    do
      zs [f.fn, f.c]; let d ← lreg (f.fl / 4 % 2 == 1) f.d; let a ← lreg (f.fl / 8 == 1) f.a
      let b ← lopb (f.fl % 4) f.b f.sub; rq (immOk f.fmt b); let m ← fz 8 f.m; let fmt ← fm (intFmt) f.fmt
      return .vmax f.st d a b m fmt
  | 0x4d =>
    do
      zs [f.fn, f.c]; let d ← lreg (f.fl / 4 % 2 == 1) f.d; let a ← lreg (f.fl / 8 == 1) f.a
      let b ← lopb (f.fl % 4) f.b f.sub; rq (immOk f.fmt b); let m ← fz 8 f.m; let fmt ← fm (anyFmt) f.fmt
      return .vand f.st d a b m fmt
  | 0x4e =>
    do
      zs [f.fn, f.c]; let d ← lreg (f.fl / 4 % 2 == 1) f.d; let a ← lreg (f.fl / 8 == 1) f.a
      let b ← lopb (f.fl % 4) f.b f.sub; rq (immOk f.fmt b); let m ← fz 8 f.m; let fmt ← fm (anyFmt) f.fmt
      return .vor f.st d a b m fmt
  | 0x4f =>
    do
      zs [f.fn, f.c]; let d ← lreg (f.fl / 4 % 2 == 1) f.d; let a ← lreg (f.fl / 8 == 1) f.a
      let b ← lopb (f.fl % 4) f.b f.sub; rq (immOk f.fmt b); let m ← fz 8 f.m; let fmt ← fm (anyFmt) f.fmt
      return .vxor f.st d a b m fmt
  | 0x50 =>
    do
      zs [f.fn, f.c]; let d ← lreg (f.fl / 4 % 2 == 1) f.d; let a ← lreg (f.fl / 8 == 1) f.a
      let b ← lopb (f.fl % 4) f.b f.sub; rq (immOk f.fmt b); let m ← fz 8 f.m; let fmt ← fm (intFmt) f.fmt
      return .vshl f.st d a b m fmt
  | 0x51 =>
    do
      zs [f.fn, f.c]; let d ← lreg (f.fl / 4 % 2 == 1) f.d; let a ← lreg (f.fl / 8 == 1) f.a
      let b ← lopb (f.fl % 4) f.b f.sub; rq (immOk f.fmt b); let m ← fz 8 f.m; let fmt ← fm (intFmt) f.fmt
      return .vshr f.st d a b m fmt
  | 0x52 =>
    do
      zs [f.fn, f.c]; let d ← lreg (f.fl / 4 % 2 == 1) f.d; let a ← lreg (f.fl / 8 == 1) f.a
      let b ← lopb (f.fl % 4) f.b f.sub; rq (immOk f.fmt b); let m ← fz 8 f.m; let fmt ← fm (intFmt) f.fmt
      return .vsra f.st d a b m fmt
  | 0x53 =>
    do
      zs [f.fn, f.c]; let d ← lreg (f.fl / 4 % 2 == 1) f.d; let a ← lreg (f.fl / 8 == 1) f.a
      let b ← lopb (f.fl % 4) f.b f.sub; rq (immOk f.fmt b); let m ← fz 8 f.m; let fmt ← fm (fpFmt) f.fmt
      return .vfadd f.st d a b m fmt
  | 0x54 =>
    do
      zs [f.fn, f.c]; let d ← lreg (f.fl / 4 % 2 == 1) f.d; let a ← lreg (f.fl / 8 == 1) f.a
      let b ← lopb (f.fl % 4) f.b f.sub; rq (immOk f.fmt b); let m ← fz 8 f.m; let fmt ← fm (fpFmt) f.fmt
      return .vfsub f.st d a b m fmt
  | 0x55 =>
    do
      zs [f.fn, f.c]; let d ← lreg (f.fl / 4 % 2 == 1) f.d; let a ← lreg (f.fl / 8 == 1) f.a
      let b ← lopb (f.fl % 4) f.b f.sub; rq (immOk f.fmt b); let m ← fz 8 f.m; let fmt ← fm (fpFmt) f.fmt
      return .vfmul f.st d a b m fmt
  | 0x56 =>
    do
      zs [f.fn, f.c]; rq (f.fl / 4 % 2 == 0); let d ← lreg (f.fl / 4 % 2 == 1) f.d
      let a ← lreg (f.fl / 8 == 1) f.a; let b ← lopb (f.fl % 4) f.b f.sub; rq (immOk f.fmt b); let m ← fz 8 f.m
      let fmt ← fm (fpFmt) f.fmt
      return .vfma f.st d a b m fmt
  | 0x57 =>
    do
      zs [f.fn, f.c]; rq (f.fl / 4 % 2 == 0); let d ← lreg (f.fl / 4 % 2 == 1) f.d
      let a ← lreg (f.fl / 8 == 1) f.a; let b ← lopb (f.fl % 4) f.b f.sub; rq (immOk f.fmt b); let m ← fz 8 f.m
      let fmt ← fm (fpFmt) f.fmt
      return .vfnma f.st d a b m fmt
  | 0x58 =>
    do
      zs [f.fn, f.c]; let d ← lreg (f.fl / 4 % 2 == 1) f.d; let a ← lreg (f.fl / 8 == 1) f.a
      let b ← lopb (f.fl % 4) f.b f.sub; rq (immOk f.fmt b); let m ← fz 8 f.m; let fmt ← fm (fpFmt) f.fmt
      return .vfdiv f.st d a b m fmt
  | 0x59 =>
    do
      zs [f.fn, f.c, f.b, f.sub]; let d ← lreg (f.fl / 4 % 2 == 1) f.d; let a ← lreg (f.fl / 8 == 1) f.a
      rq (f.fl % 4 == 0); let m ← fz 8 f.m; let fmt ← fm (fpFmt) f.fmt
      return .vfsqrt f.st d a m fmt
  | 0x5a =>
    do
      zs [f.fn, f.c]; let d ← lreg (f.fl / 4 % 2 == 1) f.d; let a ← lreg (f.fl / 8 == 1) f.a
      let b ← lopb (f.fl % 4) f.b f.sub; rq (immOk f.fmt b); let m ← fz 8 f.m; let fmt ← fm (fpFmt) f.fmt
      return .vfmin f.st d a b m fmt
  | 0x5b =>
    do
      zs [f.fn, f.c]; let d ← lreg (f.fl / 4 % 2 == 1) f.d; let a ← lreg (f.fl / 8 == 1) f.a
      let b ← lopb (f.fl % 4) f.b f.sub; rq (immOk f.fmt b); let m ← fz 8 f.m; let fmt ← fm (fpFmt) f.fmt
      return .vfmax f.st d a b m fmt
  | 0x5c =>
    do
      zs [f.fn, f.c, f.b, f.sub]; let d ← lreg (f.fl / 4 % 2 == 1) f.d; let a ← lreg (f.fl / 8 == 1) f.a
      rq (f.fl % 4 == 0); let m ← fz 8 f.m; let fmt ← fm (fpFmt) f.fmt
      return .vfrcp f.st d a m fmt
  | 0x5d =>
    do
      zs [f.fn, f.c, f.b, f.sub]; let d ← lreg (f.fl / 4 % 2 == 1) f.d; let a ← lreg (f.fl / 8 == 1) f.a
      rq (f.fl % 4 == 0); let m ← fz 8 f.m; let fmt ← fm (fpFmt) f.fmt
      return .vfexp2 f.st d a m fmt
  | 0x5e =>
    do
      zs [f.fn, f.b]; let d ← lreg (f.fl / 4 % 2 == 1) f.d; let a ← lreg (f.fl / 8 == 1) f.a
      rq (f.fl % 4 == 0); rq (decide (f.sub < 64)); let blk ← cvb (f.sub / 32 == 1) f.c; let m ← fz 8 f.m
      let fmt ← fm (anyFmt) f.fmt; let src ← fm anyFmt (f.sub % 32); rf (cvtPair src fmt blk.isSome)
      return .vcvt f.st d a src blk m fmt
  | 0x5f =>
    do
      zs [f.fn, f.c]; let d ← lreg (f.fl / 4 % 2 == 1) f.d; let a ← lreg (f.fl / 8 == 1) f.a
      let b ← lopb (f.fl % 4) f.b f.sub; rq (immOk f.fmt b); let m ← fz 8 f.m; let fmt ← fm (fpFmt) f.fmt
      return .vscale f.st d a b m fmt
  | 0x60 =>
    do
      let cond ← icn f.fn; rq (f.c == 0); rq (f.fl / 4 % 2 == 0); let d ← fz 8 f.d
      let a ← lreg (f.fl / 8 == 1) f.a; let b ← lopb (f.fl % 4) f.b f.sub; rq (immOk f.fmt b); let m ← fz 8 f.m
      rq (d != 0); let fmt ← fm (intFmt) f.fmt
      return .vcmp f.st cond d a b m fmt
  | 0x61 =>
    do
      let cond ← fcn f.fn; rq (f.c == 0); rq (f.fl / 4 % 2 == 0); let d ← fz 8 f.d
      let a ← lreg (f.fl / 8 == 1) f.a; let b ← lopb (f.fl % 4) f.b f.sub; rq (immOk f.fmt b); let m ← fz 8 f.m
      rq (d != 0); let fmt ← fm (fpFmt) f.fmt
      return .vfcmp f.st cond d a b m fmt
  | _ => .error .illop

/-- Decoding the lane instructions 0x62 to 0x78 (Table 2.8 and the field tables of their chapters). -/
def decodeLaneB (f : VFields) : Except Reject Instr :=
  match f.op with
  | 0x62 =>
    do
      zs [f.fn, f.fl, f.c, f.m, f.sub, f.fmt]; let d ← fz 8 f.d; let a ← fz 8 f.a; let b ← fz 8 f.b
      rq (d != 0)
      return .mand f.st d a b
  | 0x63 =>
    do
      zs [f.fn, f.fl, f.c, f.m, f.sub, f.fmt]; let d ← fz 8 f.d; let a ← fz 8 f.a; let b ← fz 8 f.b
      rq (d != 0)
      return .mor f.st d a b
  | 0x64 =>
    do
      zs [f.fn, f.fl, f.c, f.m, f.sub, f.fmt]; let d ← fz 8 f.d; let a ← fz 8 f.a; let b ← fz 8 f.b
      rq (d != 0)
      return .mxor f.st d a b
  | 0x65 =>
    do
      zs [f.fn, f.fl, f.b, f.c, f.m, f.sub, f.fmt]; let d ← fz 8 f.d; let a ← fz 8 f.a; rq (d != 0)
      return .mnot f.st d a
  | 0x66 =>
    do
      zs [f.fn, f.fl, f.b, f.c, f.sub, f.fmt]; let d ← fz 32 f.d; let a ← fz 8 f.a; let m ← fz 8 f.m
      return .mpop f.st d a m
  | 0x67 =>
    do
      zs [f.fn, f.fl, f.b, f.c, f.sub, f.fmt]; let d ← fz 32 f.d; let a ← fz 8 f.a; let m ← fz 8 f.m
      return .mfirst f.st d a m
  | 0x68 =>
    do
      zs [f.fn, f.fl, f.b, f.c, f.m, f.fmt]; let d ← fz 32 f.d; let a ← fz 8 f.a; let k := BitVec.ofNat 8 f.sub
      return .vmtx f.st d a k
  | 0x69 =>
    do
      zs [f.fn, f.c]; let d ← lreg (f.fl / 4 % 2 == 1) f.d; let a ← lreg (f.fl / 8 == 1) f.a
      let b ← lopb (f.fl % 4) f.b f.sub; rq (immOk f.fmt b); let m ← fz 8 f.m; let fmt ← fm (anyFmt) f.fmt
      return .vmerge f.st d a b m fmt
  | 0x6a =>
    do
      zs [f.fn, f.fl, f.c, f.sub]; let d ← fz 32 f.d; let a ← fz 64 f.a; let b ← fz 32 f.b; let m ← fz 8 f.m
      let fmt ← fm (intFmt) f.fmt
      return .vredsum f.st d a b m fmt
  | 0x6b =>
    do
      zs [f.fn, f.fl, f.c, f.sub]; let d ← fz 32 f.d; let a ← fz 64 f.a; let b ← fz 32 f.b; let m ← fz 8 f.m
      let fmt ← fm (fpFmt) f.fmt
      return .vfredsum f.st d a b m fmt
  | 0x6c =>
    do
      zs [f.fn, f.fl, f.c, f.sub]; let d ← fz 32 f.d; let a ← fz 64 f.a; let b ← fz 32 f.b; let m ← fz 8 f.m
      let fmt ← fm (numFmt) f.fmt
      return .vredmax f.st d a b m fmt
  | 0x6d =>
    do
      zs [f.fn, f.fl, f.c, f.sub]; let d ← fz 32 f.d; let a ← fz 64 f.a; let b ← fz 32 f.b; let m ← fz 8 f.m
      let fmt ← fm (numFmt) f.fmt
      return .vredmin f.st d a b m fmt
  | 0x6e =>
    do
      zs [f.fn, f.fl, f.c]; let d ← fz 64 f.d; let a ← fz 64 f.a; let b ← fz 32 f.b; let m ← fz 8 f.m
      let exc ← flag f.sub; let fmt ← fm (numFmt) f.fmt
      return .vscan f.st d a b m exc fmt
  | 0x6f =>
    do
      zs [f.fn, f.fl, f.b, f.c]; let d ← fz 64 f.d; let a ← fz 8 f.a; let m ← fz 8 f.m; let cnt ← flag f.sub
      rq ((cnt || a == 0)); let fmt ← fm (intFmt) f.fmt
      return .viota f.st d a m cnt fmt
  | 0x70 =>
    do
      zs [f.fn, f.fl, f.c]; let d ← fz 64 f.d; let a ← fz 64 f.a; let b ← fz 32 f.b; let m ← fz 8 f.m
      let up ← flag f.sub; rq (d != a); let fmt ← fm (anyFmt) f.fmt
      return .vslide f.st d a b m up fmt
  | 0x71 =>
    do
      zs [f.fn, f.fl, f.c]; let d ← fz 64 f.d; let a ← fz 64 f.a; let b ← fz 64 f.b; let m ← fz 8 f.m
      rq (decide (f.sub < 32)); let n := Fin.ofNat 8 f.sub; let x32 := f.sub / 8 % 2 == 1
      let bnd := f.sub / 16 % 2 == 1
      rq ((decide (a.val + n.val ≤ 63) && !(decide (a.val ≤ d.val) && decide (d.val ≤ a.val + n.val)) && d != b))
      let fmt ← fm (anyFmt) f.fmt
      return .vgrp f.st d a b m n x32 bnd fmt
  | 0x72 =>
    do
      zs [f.fn, f.fl, f.c]; let d ← fz 64 f.d; let a ← fz 64 f.a; let b ← fz 32 f.b; let m ← fz 8 f.m
      rq (decide (f.sub < 4)); let el := f.sub % 2 == 1; let bnd := f.sub / 2 % 2 == 1
      rq (((el || a == 0) && (el || !bnd))); let fmt ← fm (anyFmt) f.fmt
      return .vbcast f.st d a b m el bnd fmt
  | 0x73 =>
    do
      zs [f.fn, f.fl, f.c, f.m]; let d ← fz 32 f.d; let a ← fz 64 f.a; let b ← fz 32 f.b; let bnd ← flag f.sub
      let fmt ← fm (anyFmt) f.fmt
      return .vextr f.st d a b bnd fmt
  | 0x74 =>
    do
      zs [f.fn, f.fl, f.c, f.sub]; let d ← fz 64 f.d; let a ← fz 64 f.a; let b ← fz 4 f.b; let m ← fz 8 f.m
      let fmt ← fm (anyFmt) f.fmt
      return .vcomp f.st d a b m fmt
  | 0x75 =>
    do
      zs [f.fn, f.c, f.sub]; let scope := Scope.ofCode (f.fl / 4); let ord := Order.ofCode (f.fl % 4)
      let d ← fz 32 f.d; let a ← fz 32 f.a; let b ← fz 64 f.b; let m ← fz 8 f.m; rq (ord == .rlx)
      let fmt ← fm (wideFmt) f.fmt
      return .vappend f.st ord scope d a b m fmt
  | 0x76 =>
    do
      zs [f.fn, f.fl, f.c]; let d ← fz 64 f.d; let a ← fz 64 f.a; let b ← fz 32 f.b; let m ← fz 8 f.m
      let j ← fz 8 f.sub; let fmt ← fm (fpFmt) f.fmt
      return .vprune f.st d a b m j fmt
  | 0x77 =>
    do
      zs [f.fn, f.fl, f.c, f.m]; let d ← fz 64 f.d; let a ← fz 32 f.a; let b ← fz 4 f.b
      let disp := BitVec.ofNat 8 f.sub; let fmt ← fm (anyFmt) f.fmt
      return .vspill f.st d a b disp fmt
  | 0x78 =>
    do
      zs [f.fn, f.fl, f.c, f.m]; let d ← fz 64 f.d; let a ← fz 32 f.a; let b ← fz 4 f.b
      let disp := BitVec.ofNat 8 f.sub; let fmt ← fm (anyFmt) f.fmt
      return .vfill f.st d a b disp fmt
  | _ => .error .illop

/-- Decoding the press instructions (Table 2.8 and the field tables of their chapters). -/
def decodePress (f : VFields) : Except Reject Instr :=
  match f.op with
  | 0x80 =>
    do
      zs [f.fn, f.fl, f.b, f.c, f.m, f.sub, f.fmt]; let d ← fz 16 f.d; let a ← fz 32 f.a
      return .tset f.st d a
  | 0x81 =>
    if f.fl == 0 then do
      zs [f.fn, f.c, f.m, f.fmt]; let d ← fz 16 f.d; let a ← fz 32 f.a; let b ← fz 32 f.b
      let disp := BitVec.ofNat 8 f.sub
      return .tld f.st d a b disp
    else if f.fl == 1 then do
      zs [f.fn, f.b, f.c, f.m, f.sub, f.fmt]; let d ← fz 16 f.d; let a ← fz 64 f.a
      return .tldRegister f.st d a
    else .error .illop
  | 0x82 =>
    if f.fl == 0 then do
      zs [f.fn, f.c, f.m, f.fmt]; let d ← fz 16 f.d; let a ← fz 32 f.a; let b ← fz 32 f.b
      let disp := BitVec.ofNat 8 f.sub
      return .tst f.st d a b disp
    else if f.fl == 1 then do
      zs [f.fn, f.b, f.c, f.m, f.sub, f.fmt]; let d ← fz 64 f.d; let a ← fz 16 f.a
      return .tstRegister f.st d a
    else .error .illop
  | 0x83 =>
    do
      zs [f.fn, f.fl, f.a, f.b, f.c, f.m, f.sub, f.fmt]; let d ← fz 16 f.d; return .tzero f.st d
  | 0x84 =>
    do
      zs [f.fn, f.fl, f.a, f.b, f.c, f.m, f.sub, f.fmt]; let d ← fz 8 f.d; return .azero f.st d
  | 0x85 =>
    if f.fl == 0 then do
      zs [f.fn, f.m]; let d ← fz 8 f.d; let a ← fz 32 f.a; let b ← fz 32 f.b; let c ← fz 32 f.c
      let disp := BitVec.ofNat 8 f.sub; let fmt ← fm (aldFmt) f.fmt
      return .ald f.st d a b c disp fmt
    else if f.fl == 1 then do
      zs [f.fn, f.b, f.c, f.m, f.fmt]; let d ← fz 8 f.d; let a ← fz 64 f.a; rq (f.sub % 16 == 0)
      let row0 ← fz 4 (f.sub / 16)
      return .aldRegister f.st d a row0
    else .error .illop
  | 0x86 =>
    if f.fl == 0 then do
      zs [f.fn, f.m]; let d ← fz 8 f.d; let a ← fz 32 f.a; let b ← fz 32 f.b; let c ← fz 32 f.c
      let disp := BitVec.ofNat 8 f.sub; let fmt ← fm (astFmt) f.fmt
      return .ast f.st d a b c disp fmt
    else if f.fl == 1 then do
      zs [f.fn, f.b, f.c, f.m]; let d ← fz 64 f.d; let a ← fz 8 f.a; rq (f.sub % 16 == 0)
      let row0 ← fz 4 (f.sub / 16); let fmt ← fm (astFmt) f.fmt
      return .astRegister f.st d a row0 fmt
    else .error .illop
  | 0x87 =>
    do
      zs [f.fn, f.c, f.m]; let j ← fz 16 f.fl; let d ← fz 64 f.d; let a ← fz 64 f.a; let b ← fz 16 f.b
      rq (decide (f.sub < 32)); let fmt ← fm (bflyDst) f.fmt; let src ← fm bflySrc f.sub
      return .bfly f.st j d a b src fmt
  | 0x88 =>
    do
      zs [f.fn, f.m]; let j ← fz 16 f.fl; let d ← fz 64 f.d; let a ← fz 64 f.a; let b ← fz 16 f.b
      let c ← fz 8 f.c; rq (decide (f.sub < 32)); let fmt ← fm (bflyDst) f.fmt; let src ← fm bflySrc f.sub
      return .bchain f.st j d a b c src fmt
  | 0x89 =>
    do
      zs [f.fn, f.fl, f.sub]; let d ← fz 8 f.d; let a ← fz 16 f.a; let b ← fz 16 f.b; let c ← fz 32 f.c
      let m ← fz 8 f.m; rq ((decide (d.val ≤ 6) && decide (a.val ≤ 14) && decide (b.val ≤ 12)))
      let fmt ← fm (mmaFmt) f.fmt
      return .bblk f.st d a b c m fmt
  | 0x8a =>
    do
      zs [f.fn, f.fl, f.sub]; let d ← fz 8 f.d; let a ← fz 16 f.a; let b ← fz 16 f.b; let c ← fz 32 f.c
      let m ← fz 8 f.m; let fmt ← fm (mmaFmt) f.fmt
      return .bmma f.st d a b c m fmt
  | 0x8b =>
    do
      zs [f.fn, f.fl]; let d ← fz 8 f.d; let a ← fz 16 f.a; let b ← fz 16 f.b; let c ← fz 64 f.c
      let m ← fz 8 f.m; let vsb ← fz 64 f.sub; rf (f.fmt == 9)
      return .bmmx f.st d a b c m vsb
  | 0x8c =>
    do
      zs [f.fn, f.fl, f.sub]; let d ← fz 8 f.d; let a ← fz 16 f.a; let b ← fz 16 f.b; let c ← fz 32 f.c
      let m ← fz 8 f.m; rf (f.fmt == 4)
      return .tmac f.st d a b c m
  | 0x8d =>
    do
      zs [f.fn, f.fl, f.a, f.b, f.c, f.m, f.fmt]; let d ← fz 32 f.d; let sel ← flag f.sub
      return .pstat f.st d sel
  | _ => .error .illop

/-- Decoding the headbox and beater instructions (Table 2.8 and the field tables of their chapters). -/
def decodeHead (f : VFields) : Except Reject Instr :=
  match f.op with
  | 0xa0 =>
    do
      zs [f.fn, f.b, f.c, f.m, f.sub, f.fmt]; let wr ← flag f.fl; let d ← fz 8 f.d; let a ← fz 32 f.a
      return .qbind f.st wr d a
  | 0xa1 =>
    do
      zs [f.fn, f.fl, f.a, f.b, f.c, f.m, f.sub, f.fmt]; let d ← fz 8 f.d; return .qrel f.st d
  | 0xa2 =>
    do
      zs [f.fn, f.fl, f.a, f.b, f.c, f.m, f.sub, f.fmt]; let d ← fz 8 f.d; return .qsync f.st d
  | 0xa3 =>
    do
      zs [f.fn, f.c, f.m, f.sub, f.fmt]; let scope := Scope.ofCode (f.fl / 4)
      let ord := Order.ofCode (f.fl % 4); let d ← fz 32 f.d; let a ← fz 32 f.a; let b ← fz 32 f.b
      return .cpy f.st ord scope d a b
  | 0xa4 =>
    do
      zs [f.fn, f.m, f.sub, f.fmt]; let scope := Scope.ofCode (f.fl / 4); let ord := Order.ofCode (f.fl % 4)
      let d ← fz 32 f.d; let a ← fz 32 f.a; let b ← fz 32 f.b; let c ← fz 32 f.c
      return .cpym f.st ord scope d a b c
  | 0xa5 =>
    do
      zs [f.fn, f.m, f.fmt]; let scope := Scope.ofCode (f.fl / 4); let ord := Order.ofCode (f.fl % 4)
      let d ← fz 32 f.d; let a ← fz 32 f.a; let b ← fz 32 f.b; let c ← fz 32 f.c; let v := Fin.ofNat 128 f.sub
      let add := f.sub / 128 % 2 == 1
      return .cpyf f.st ord scope d a b c v add
  | 0xa6 =>
    do
      zs [f.fn, f.fl, f.d, f.a, f.b, f.c, f.m, f.fmt]; let n ← fz 16 f.sub; return .cwait f.st n
  | 0xa7 =>
    do
      zs [f.fn, f.a, f.b, f.c, f.m, f.fmt]; let mode ← bmd f.fl; let d ← fz 32 f.d; let bank ← fz 32 f.sub
      return .bmode f.st mode d bank
  | 0xa8 =>
    do
      zs [f.fn, f.c, f.m, f.sub]; let scope := Scope.ofCode (f.fl / 4); let ord := Order.ofCode (f.fl % 4)
      let d ← fz 32 f.d; let a ← fz 32 f.a; let b ← fz 32 f.b; rq ((ord == .rlx || ord == .rel))
      let fmt ← fm (cfillFmt) f.fmt
      return .cfill f.st ord scope d a b fmt
  | 0xb0 =>
    do
      rq (f.fn == 0); let scope := Scope.ofCode (f.fl / 4); let ord := Order.ofCode (f.fl % 4)
      let d ← fz 64 f.d; let a ← fz 32 f.a; let b ← fz 64 f.b; let c ← fz 32 f.c; let m ← fz 8 f.m
      rq (decide (f.sub < 16)); let x32 := f.sub % 2 == 1; let bnd := f.sub / 2 % 2 == 1
      let sc := Fin.ofNat 4 (f.sub / 4); rq ((ord == .rlx || ord == .rel)); let fmt ← fm (vscaddFmt) f.fmt
      return .vscadd f.st ord scope d a b c m x32 bnd sc fmt
  | 0xb1 =>
    do
      let op ← amo f.fn; let scope := Scope.ofCode (f.fl / 4); let ord := Order.ofCode (f.fl % 4)
      let d ← fz 64 f.d; let a ← fz 32 f.a; let b ← fz 64 f.b; let c ← fz 64 f.c; let m ← fz 8 f.m
      rq (decide (f.sub < 128)); let x32 := f.sub % 2 == 1; let bnd := f.sub / 2 % 2 == 1
      let sc := Fin.ofNat 4 (f.sub / 4); let j := Fin.ofNat 8 (f.sub / 16)
      rq (((j == 0 || j != m) && d != b && d != c)); let fmt ← fm (amoFmt op) f.fmt
      return .vamo f.st op ord scope d a b c m x32 bnd sc j fmt
  | 0xb2 =>
    do
      rq (f.fn == 0); let scope := Scope.ofCode (f.fl / 4); let ord := Order.ofCode (f.fl % 4)
      let d ← fz 64 f.d; let a ← fz 32 f.a; let b ← fz 64 f.b; let c ← fz 32 f.c; let m ← fz 8 f.m
      rq (decide (f.sub < 16)); let x32 := f.sub % 2 == 1; let bnd := f.sub / 2 % 2 == 1
      let sc := Fin.ofNat 4 (f.sub / 4); rq ((ord == .rlx || ord == .rel)); let fmt ← fm (wideFmt) f.fmt
      return .vstc f.st ord scope d a b c m x32 bnd sc fmt
  | 0xb3 =>
    do
      zs [f.fn, f.fl, f.b, f.c, f.m, f.sub, f.fmt]; let d ← fz 32 f.d; let a ← fz 32 f.a
      return .bcfg f.st d a
  | 0xb4 =>
    do
      zs [f.fn, f.b, f.c, f.m, f.fmt]; let scope := Scope.ofCode (f.fl / 4); let ord := Order.ofCode (f.fl % 4)
      let d ← fz 32 f.d; let a ← fz 32 f.a; let disp := BitVec.ofNat 8 f.sub
      return .phend f.st ord scope d a disp
  | 0xb5 =>
    do
      zs [f.fn, f.b, f.c, f.m, f.fmt]; let scope := Scope.ofCode (f.fl / 4); let ord := Order.ofCode (f.fl % 4)
      let d ← fz 32 f.d; let a ← fz 32 f.a; let disp := BitVec.ofNat 8 f.sub
      return .bar f.st ord scope d a disp
  | 0xb6 =>
    do
      zs [f.fn, f.c, f.m, f.fmt]; let scope := Scope.ofCode (f.fl / 4); let ord := Order.ofCode (f.fl % 4)
      let d ← fz 32 f.d; let a ← fz 32 f.a; let b ← fz 32 f.b; let disp := BitVec.ofNat 8 f.sub
      return .cpost f.st ord scope d a b disp
  | 0xb7 =>
    do
      zs [f.fn, f.c, f.m, f.fmt]; let scope := Scope.ofCode (f.fl / 4); let ord := Order.ofCode (f.fl % 4)
      let d ← fz 32 f.d; let a ← fz 32 f.a; let b ← fz 32 f.b; let disp := BitVec.ofNat 8 f.sub
      return .ctake f.st ord scope d a b disp
  | 0xb8 =>
    do
      zs [f.fn, f.c, f.m, f.fmt]; let scope := Scope.ofCode (f.fl / 4); let ord := Order.ofCode (f.fl % 4)
      let d ← fz 32 f.d; let a ← fz 32 f.a; let b ← fz 32 f.b; let disp := BitVec.ofNat 8 f.sub
      return .csteal f.st ord scope d a b disp
  | 0xb9 =>
    do
      zs [f.fn, f.c, f.m, f.fmt]; let scope := Scope.ofCode (f.fl / 4); let ord := Order.ofCode (f.fl % 4)
      let d ← fz 32 f.d; let a ← fz 32 f.a; let b ← fz 32 f.b; let disp := BitVec.ofNat 8 f.sub
      return .cjoin f.st ord scope d a b disp
  | _ => .error .illop

/-- Decoding the scheduler, chain-log, link, trace, system and vat instructions (Table 2.8 and the field tables of their chapters). -/
def decodeSystem (f : VFields) : Except Reject Instr :=
  match f.op with
  | 0xc0 =>
    do
      zs [f.fn, f.fl, f.m, f.sub, f.fmt]; let d ← fz 32 f.d; let a ← fz 32 f.a; let b ← fz 32 f.b
      let c ← fz 32 f.c
      return .launch f.st d a b c
  | 0xc1 =>
    do
      zs [f.fn, f.fl, f.d, f.a, f.b, f.c, f.m, f.sub, f.fmt]; return .yield f.st
  | 0xc2 =>
    if f.fl == 0 then do
      zs [f.fn, f.b, f.c, f.m, f.sub, f.fmt]; let d ← fz 32 f.d; let a ← fz 32 f.a
      return .abind f.st d a
    else if f.fl == 1 then do
      zs [f.fn, f.b, f.c, f.m, f.sub, f.fmt]; let d ← fz 32 f.d; let a ← fz 32 f.a
      return .abindOff f.st d a
    else .error .illop
  | 0xc3 =>
    do
      zs [f.fn, f.fl, f.d, f.a, f.b, f.c, f.m, f.sub, f.fmt]; return .fcommit f.st
  | 0xc4 =>
    do
      zs [f.fn, f.fl, f.b, f.c, f.m, f.sub, f.fmt]; let d ← fz 32 f.d; let a ← fz 32 f.a
      return .spawn f.st d a
  | 0xc5 =>
    do
      zs [f.fn, f.fl, f.d, f.b, f.c, f.m, f.sub, f.fmt]; let a ← fz 32 f.a; return .olmark f.st a
  | 0xc6 =>
    do
      zs [f.fn, f.fl, f.d, f.a, f.b, f.c, f.m, f.sub, f.fmt]; return .olpause f.st
  | 0xc7 =>
    do
      zs [f.fn, f.fl, f.d, f.a, f.b, f.c, f.m, f.sub, f.fmt]; return .olresume f.st
  | 0xc8 =>
    do
      zs [f.fn, f.fl, f.a, f.b, f.c, f.m, f.fmt]; let d ← fz 32 f.d; let sel ← fz 3 f.sub
      return .olstat f.st d sel
  | 0xd0 =>
    do
      zs [f.fn, f.m, f.fmt]; let scope := Scope.ofCode (f.fl / 4); let ord := Order.ofCode (f.fl % 4)
      let d ← fz 32 f.d; let a ← fz 32 f.a; let b ← fz 32 f.b; let c ← fz 32 f.c; let sw ← fz 32 f.sub
      return .lput f.st ord scope d a b c sw
  | 0xd1 =>
    do
      zs [f.fn, f.m, f.fmt]; let scope := Scope.ofCode (f.fl / 4); let ord := Order.ofCode (f.fl % 4)
      let d ← fz 32 f.d; let a ← fz 32 f.a; let b ← fz 32 f.b; let c ← fz 32 f.c; let sw ← fz 32 f.sub
      return .lget f.st ord scope d a b c sw
  | 0xd2 =>
    do
      zs [f.fn, f.m, f.fmt]; let scope := Scope.ofCode (f.fl / 4); let ord := Order.ofCode (f.fl % 4)
      let d ← fz 32 f.d; let a ← fz 32 f.a; let b ← fz 32 f.b; let c ← fz 32 f.c; let sw ← fz 32 f.sub
      return .lsend f.st ord scope d a b c sw
  | 0xd3 =>
    do
      let kind ← clk f.fn; let scope := Scope.ofCode (f.fl / 4); let ord := Order.ofCode (f.fl % 4)
      let d ← fz 32 f.d; let a ← fz 32 f.a; let b ← fz 32 f.b; let c ← fz 32 f.c; rq (f.m == 0)
      let sw ← fz 32 f.sub; let fmt ← fm (collFmt kind) f.fmt
      return .coll f.st kind ord scope d a b c sw fmt
  | 0xd4 =>
    if f.fn == 0 then do
      zs [f.fl, f.d, f.a, f.b, f.c, f.m, f.fmt]; let n ← fz 16 f.sub; return .lwait f.st n
    else if f.fn == 1 then do
      zs [f.d, f.a, f.b, f.c, f.m, f.sub, f.fmt]; let scope := Scope.ofCode (f.fl / 4)
      let ord := Order.ofCode (f.fl % 4); rq (ord != .rlx)
      return .lfence f.st ord scope
    else .error .illop
  | 0xd5 =>
    if f.fn == 0 then do
      zs [f.fl, f.d, f.b, f.c, f.m, f.fmt]; let a ← fz 32 f.a; let tag := BitVec.ofNat 8 f.sub
      return .tmark f.st a tag
    else if f.fn == 1 then do
      zs [f.fl, f.a, f.b, f.c, f.m, f.sub, f.fmt]; let d ← fz 32 f.d; return .tsamp f.st d
    else .error .illop
  | 0xd6 =>
    do
      zs [f.fn, f.b, f.c, f.m, f.sub, f.fmt]; let scope := Scope.ofCode (f.fl / 4); let kind ← tlk (f.fl % 4)
      let d ← fz 32 f.d; let a ← fz 32 f.a; rq (tlbOk kind scope d a)
      return .tlbinv f.st kind scope d a
  | 0xd7 =>
    do
      zs [f.fn, f.fl, f.d, f.b, f.c, f.m, f.sub, f.fmt]; let a ← fz 32 f.a; return .halt f.st a
  | 0xd8 =>
    do
      zs [f.fn, f.fl, f.d, f.b, f.c, f.m, f.fmt]; let a ← fz 32 f.a; let slot ← fz 32 f.sub
      return .mbind f.st a slot
  | 0xd9 =>
    do
      zs [f.fn, f.fl, f.d, f.a, f.b, f.c, f.m, f.fmt]; let slot ← fz 32 f.sub; return .munbind f.st slot
  | 0xda =>
    do
      zs [f.fn, f.fl, f.a, f.b, f.c, f.m, f.fmt]; let d ← fz 32 f.d; rq (decide (f.sub < 64))
      let slot := Fin.ofNat 32 f.sub; let addr := f.sub / 32 % 2 == 1
      return .mprobe f.st d slot addr
  | 0xdb =>
    do
      zs [f.fn, f.fl, f.fmt]; let d ← fz 64 f.d; let a ← fz 64 f.a; let b ← fz 64 f.b; let c ← fz 64 f.c
      let m ← fz 8 f.m; let l := Fin.ofNat 4 f.sub; let e := Fin.ofNat 64 (f.sub / 4)
      return .fxres f.st d a b c m e l
  | 0xdc =>
    do
      zs [f.fn, f.fl, f.a, f.b, f.c, f.m, f.fmt]; let d ← fz 32 f.d; let k ← fz 8 f.sub
      return .fxstat f.st d k
  | _ => .error .illop

/-- Decoding `fx` (R32, R40, R244): `OP` names the slot. -/
def decodeFx (f : VFields) : Except Reject Instr := do
  zs [f.fl, f.fmt]; let fn := BitVec.ofNat 8 f.fn; let slot := Fin.ofNat 32 (f.op - 0xE0)
  let d ← fz 64 f.d; let a ← fz 64 f.a; let b ← fz 64 f.b; let c ← fz 64 f.c; let m ← fz 8 f.m
  let l := Fin.ofNat 4 f.sub; let e := Fin.ofNat 64 (f.sub / 4)
  return .fx f.st fn slot d a b c m e l

/-- Is a major opcode of format I or B (Table 2.8)? -/
def isImmOp (op : Nat) : Bool :=
  (decide (0x16 ≤ op) && decide (op ≤ 0x1e)) || (decide (0x20 ≤ op) && decide (op ≤ 0x24))
    || (decide (0x28 ≤ op) && decide (op ≤ 0x2a)) || op == 0x2c

/-- The V and X formats by opcode block. -/
def decodeV (f : VFields) : Except Reject Instr :=
  if f.op < 0x40 then decodeFront f
  else if f.op < 0x62 then decodeLaneA f
  else if f.op < 0x80 then decodeLaneB f
  else if f.op < 0xa0 then decodePress f
  else if f.op < 0xc0 then decodeHead f
  else if f.op < 0xe0 then decodeSystem f
  else decodeFx f

/-- Decoding of an instruction word (R42 steps 2 to 4 and 6). Step 5, the privilege, is the meaning's. -/
def decode (w : Nat) : Except Reject Instr :=
  if isImmOp (w % 256) then decodeImm (unpackI w) else decodeV (unpackV w)


/-- The word of an instruction (Tables 2.1 to 2.13 and the field tables of each chapter); an event has none. -/
def encode : Instr → Option Nat
  | .add st d a b => some (packV { op := 0x1, st := st, d := d.val, a := a.val, b := b.val })
  | .sub st d a b => some (packV { op := 0x2, st := st, d := d.val, a := a.val, b := b.val })
  | .and st d a b => some (packV { op := 0x3, st := st, d := d.val, a := a.val, b := b.val })
  | .or st d a b => some (packV { op := 0x4, st := st, d := d.val, a := a.val, b := b.val })
  | .xor st d a b => some (packV { op := 0x5, st := st, d := d.val, a := a.val, b := b.val })
  | .shl st d a b => some (packV { op := 0x6, st := st, d := d.val, a := a.val, b := b.val })
  | .shr st d a b => some (packV { op := 0x7, st := st, d := d.val, a := a.val, b := b.val })
  | .sra st d a b => some (packV { op := 0x8, st := st, d := d.val, a := a.val, b := b.val })
  | .mul st d a b => some (packV { op := 0x9, st := st, d := d.val, a := a.val, b := b.val })
  | .mulh st d a b => some (packV { op := 0xa, st := st, d := d.val, a := a.val, b := b.val })
  | .mulhn st d a b => some (packV { op := 0xb, st := st, d := d.val, a := a.val, b := b.val })
  | .div st d a b => some (packV { op := 0xc, st := st, d := d.val, a := a.val, b := b.val })
  | .divn st d a b => some (packV { op := 0xd, st := st, d := d.val, a := a.val, b := b.val })
  | .rem st d a b => some (packV { op := 0xe, st := st, d := d.val, a := a.val, b := b.val })
  | .remn st d a b => some (packV { op := 0xf, st := st, d := d.val, a := a.val, b := b.val })
  | .min st d a b => some (packV { op := 0x10, st := st, d := d.val, a := a.val, b := b.val })
  | .max st d a b => some (packV { op := 0x11, st := st, d := d.val, a := a.val, b := b.val })
  | .minn st d a b => some (packV { op := 0x12, st := st, d := d.val, a := a.val, b := b.val })
  | .maxn st d a b => some (packV { op := 0x13, st := st, d := d.val, a := a.val, b := b.val })
  | .clz st d a => some (packV { op := 0x14, st := st, d := d.val, a := a.val })
  | .popc st d a => some (packV { op := 0x15, st := st, d := d.val, a := a.val })
  | .addi st d a imm => some (packI { op := 0x16, st := st, d := d.val, a := a.val, imm := imm })
  | .andi st d a imm => some (packI { op := 0x17, st := st, d := d.val, a := a.val, imm := imm })
  | .ori st d a imm => some (packI { op := 0x18, st := st, d := d.val, a := a.val, imm := imm })
  | .xori st d a imm => some (packI { op := 0x19, st := st, d := d.val, a := a.val, imm := imm })
  | .shli st d a sh => some (packI { op := 0x1a, st := st, d := d.val, a := a.val, imm := BitVec.ofNat 32 sh.val })
  | .shri st d a sh => some (packI { op := 0x1b, st := st, d := d.val, a := a.val, imm := BitVec.ofNat 32 sh.val })
  | .srai st d a sh => some (packI { op := 0x1c, st := st, d := d.val, a := a.val, imm := BitVec.ofNat 32 sh.val })
  | .limm st d imm => some (packI { op := 0x1d, st := st, d := d.val, imm := imm })
  | .limh st d a imm => some (packI { op := 0x1e, st := st, d := d.val, a := a.val, imm := imm })
  | .cset st cond d a b => some (packV { op := 0x1f, st := st, fl := cond.code, d := d.val, a := a.val, b := b.val })
  | .br st cond d a imm => some (packI { op := 0x20, st := st, fl := cond.code, d := d.val, a := a.val, imm := imm })
  | .jal st d imm => some (packI { op := 0x21, st := st, d := d.val, imm := imm })
  | .jalr st d a imm => some (packI { op := 0x22, st := st, d := d.val, a := a.val, imm := imm })
  | .ld st w d a imm => some (packI { op := 0x23, st := st, fl := w.val, d := d.val, a := a.val, imm := imm })
  | .st st w d a imm => some (packI { op := 0x24, st := st, fl := w.val, d := d.val, a := a.val, imm := imm })
  | .amo st op ord scope d a b c disp fmt => some (packV { op := 0x25, st := st, fn := op.code, fl := 4 * scope.code + ord.code, d := d.val, a := a.val, b := b.val, c := c.val, sub := disp.toNat, fmt := fmt.code })
  | .fence st ord scope => some (packV { op := 0x26, st := st, fl := 4 * scope.code + ord.code })
  | .waita st ord scope d a b c disp fmt => some (packV { op := 0x27, st := st, fl := 4 * scope.code + ord.code, d := d.val, a := a.val, b := b.val, c := c.val, sub := disp.toNat, fmt := fmt.code })
  | .mfc st d cr => some (packI { op := 0x28, st := st, d := d.val, imm := BitVec.ofNat 32 cr.code })
  | .mtc st a cr => some (packI { op := 0x29, st := st, a := a.val, imm := BitVec.ofNat 32 cr.code })
  | .sys st imm => some (packI { op := 0x2a, st := st, imm := imm })
  | .eret st => some (packV { op := 0x2b, st := st })
  | .brk st imm => some (packI { op := 0x2c, st := st, imm := imm })
  | .endF st => some (packV { op := 0x2d, st := st })
  | .nop st => some (packV { op := 0x2e, st := st })
  | .vsetvl st d a b blk fmt => some (packV { op := 0x40, st := st, fl := 0, d := d.val, a := a.val, b := b.val, sub := blk.val, fmt := fmt.code })
  | .vsetvlRd st d b => some (packV { op := 0x40, st := st, fl := 1, d := d.val, b := b.val })
  | .vld st o d a m disp fmt => some (packV { op := 0x41, st := st, fl := o.val, d := d.val, a := a.val, m := m.val, sub := disp.toNat, fmt := fmt.code })
  | .vlds st d a b m disp fmt => some (packV { op := 0x42, st := st, d := d.val, a := a.val, b := b.val, m := m.val, sub := disp.toNat, fmt := fmt.code })
  | .vldx st sc d a b c m x32 bnd fmt => some (packV { op := 0x43, st := st, fl := sc.val, d := d.val, a := a.val, b := b.val, c := c.val, m := m.val, sub := x32.toNat + 2 * bnd.toNat, fmt := fmt.code })
  | .vst st o d a m disp fmt => some (packV { op := 0x44, st := st, fl := o.val, d := d.val, a := a.val, m := m.val, sub := disp.toNat, fmt := fmt.code })
  | .vsts st d a b m disp fmt => some (packV { op := 0x45, st := st, d := d.val, a := a.val, b := b.val, m := m.val, sub := disp.toNat, fmt := fmt.code })
  | .vstx st sc d a b c m x32 bnd fmt => some (packV { op := 0x46, st := st, fl := sc.val, d := d.val, a := a.val, b := b.val, c := c.val, m := m.val, sub := x32.toNat + 2 * bnd.toNat, fmt := fmt.code })
  | .vadd st d a b m fmt => some (packV { op := 0x47, st := st, d := d.num, a := a.num, b := b.num, sub := b.sub, fl := 8 * a.isStream.toNat + 4 * d.isStream.toNat + b.bf, m := m.val, fmt := fmt.code })
  | .vsub st d a b m fmt => some (packV { op := 0x48, st := st, d := d.num, a := a.num, b := b.num, sub := b.sub, fl := 8 * a.isStream.toNat + 4 * d.isStream.toNat + b.bf, m := m.val, fmt := fmt.code })
  | .vmul st d a b m fmt => some (packV { op := 0x49, st := st, d := d.num, a := a.num, b := b.num, sub := b.sub, fl := 8 * a.isStream.toNat + 4 * d.isStream.toNat + b.bf, m := m.val, fmt := fmt.code })
  | .vmulh st d a b m fmt => some (packV { op := 0x4a, st := st, d := d.num, a := a.num, b := b.num, sub := b.sub, fl := 8 * a.isStream.toNat + 4 * d.isStream.toNat + b.bf, m := m.val, fmt := fmt.code })
  | .vmin st d a b m fmt => some (packV { op := 0x4b, st := st, d := d.num, a := a.num, b := b.num, sub := b.sub, fl := 8 * a.isStream.toNat + 4 * d.isStream.toNat + b.bf, m := m.val, fmt := fmt.code })
  | .vmax st d a b m fmt => some (packV { op := 0x4c, st := st, d := d.num, a := a.num, b := b.num, sub := b.sub, fl := 8 * a.isStream.toNat + 4 * d.isStream.toNat + b.bf, m := m.val, fmt := fmt.code })
  | .vand st d a b m fmt => some (packV { op := 0x4d, st := st, d := d.num, a := a.num, b := b.num, sub := b.sub, fl := 8 * a.isStream.toNat + 4 * d.isStream.toNat + b.bf, m := m.val, fmt := fmt.code })
  | .vor st d a b m fmt => some (packV { op := 0x4e, st := st, d := d.num, a := a.num, b := b.num, sub := b.sub, fl := 8 * a.isStream.toNat + 4 * d.isStream.toNat + b.bf, m := m.val, fmt := fmt.code })
  | .vxor st d a b m fmt => some (packV { op := 0x4f, st := st, d := d.num, a := a.num, b := b.num, sub := b.sub, fl := 8 * a.isStream.toNat + 4 * d.isStream.toNat + b.bf, m := m.val, fmt := fmt.code })
  | .vshl st d a b m fmt => some (packV { op := 0x50, st := st, d := d.num, a := a.num, b := b.num, sub := b.sub, fl := 8 * a.isStream.toNat + 4 * d.isStream.toNat + b.bf, m := m.val, fmt := fmt.code })
  | .vshr st d a b m fmt => some (packV { op := 0x51, st := st, d := d.num, a := a.num, b := b.num, sub := b.sub, fl := 8 * a.isStream.toNat + 4 * d.isStream.toNat + b.bf, m := m.val, fmt := fmt.code })
  | .vsra st d a b m fmt => some (packV { op := 0x52, st := st, d := d.num, a := a.num, b := b.num, sub := b.sub, fl := 8 * a.isStream.toNat + 4 * d.isStream.toNat + b.bf, m := m.val, fmt := fmt.code })
  | .vfadd st d a b m fmt => some (packV { op := 0x53, st := st, d := d.num, a := a.num, b := b.num, sub := b.sub, fl := 8 * a.isStream.toNat + 4 * d.isStream.toNat + b.bf, m := m.val, fmt := fmt.code })
  | .vfsub st d a b m fmt => some (packV { op := 0x54, st := st, d := d.num, a := a.num, b := b.num, sub := b.sub, fl := 8 * a.isStream.toNat + 4 * d.isStream.toNat + b.bf, m := m.val, fmt := fmt.code })
  | .vfmul st d a b m fmt => some (packV { op := 0x55, st := st, d := d.num, a := a.num, b := b.num, sub := b.sub, fl := 8 * a.isStream.toNat + 4 * d.isStream.toNat + b.bf, m := m.val, fmt := fmt.code })
  | .vfma st d a b m fmt => some (packV { op := 0x56, st := st, d := d.num, a := a.num, b := b.num, sub := b.sub, fl := 8 * a.isStream.toNat + 4 * d.isStream.toNat + b.bf, m := m.val, fmt := fmt.code })
  | .vfnma st d a b m fmt => some (packV { op := 0x57, st := st, d := d.num, a := a.num, b := b.num, sub := b.sub, fl := 8 * a.isStream.toNat + 4 * d.isStream.toNat + b.bf, m := m.val, fmt := fmt.code })
  | .vfdiv st d a b m fmt => some (packV { op := 0x58, st := st, d := d.num, a := a.num, b := b.num, sub := b.sub, fl := 8 * a.isStream.toNat + 4 * d.isStream.toNat + b.bf, m := m.val, fmt := fmt.code })
  | .vfsqrt st d a m fmt => some (packV { op := 0x59, st := st, d := d.num, a := a.num, fl := 8 * a.isStream.toNat + 4 * d.isStream.toNat, m := m.val, fmt := fmt.code })
  | .vfmin st d a b m fmt => some (packV { op := 0x5a, st := st, d := d.num, a := a.num, b := b.num, sub := b.sub, fl := 8 * a.isStream.toNat + 4 * d.isStream.toNat + b.bf, m := m.val, fmt := fmt.code })
  | .vfmax st d a b m fmt => some (packV { op := 0x5b, st := st, d := d.num, a := a.num, b := b.num, sub := b.sub, fl := 8 * a.isStream.toNat + 4 * d.isStream.toNat + b.bf, m := m.val, fmt := fmt.code })
  | .vfrcp st d a m fmt => some (packV { op := 0x5c, st := st, d := d.num, a := a.num, fl := 8 * a.isStream.toNat + 4 * d.isStream.toNat, m := m.val, fmt := fmt.code })
  | .vfexp2 st d a m fmt => some (packV { op := 0x5d, st := st, d := d.num, a := a.num, fl := 8 * a.isStream.toNat + 4 * d.isStream.toNat, m := m.val, fmt := fmt.code })
  | .vcvt st d a src blk m fmt => some (packV { op := 0x5e, st := st, d := d.num, a := a.num, fl := 8 * a.isStream.toNat + 4 * d.isStream.toNat, c := cvc blk, sub := src.code + 32 * blk.isSome.toNat, m := m.val, fmt := fmt.code })
  | .vscale st d a b m fmt => some (packV { op := 0x5f, st := st, d := d.num, a := a.num, b := b.num, sub := b.sub, fl := 8 * a.isStream.toNat + 4 * d.isStream.toNat + b.bf, m := m.val, fmt := fmt.code })
  | .vcmp st cond d a b m fmt => some (packV { op := 0x60, st := st, fn := cond.code, d := d.val, a := a.num, b := b.num, sub := b.sub, fl := 8 * a.isStream.toNat + b.bf, m := m.val, fmt := fmt.code })
  | .vfcmp st cond d a b m fmt => some (packV { op := 0x61, st := st, fn := cond.code, d := d.val, a := a.num, b := b.num, sub := b.sub, fl := 8 * a.isStream.toNat + b.bf, m := m.val, fmt := fmt.code })
  | .mand st d a b => some (packV { op := 0x62, st := st, d := d.val, a := a.val, b := b.val })
  | .mor st d a b => some (packV { op := 0x63, st := st, d := d.val, a := a.val, b := b.val })
  | .mxor st d a b => some (packV { op := 0x64, st := st, d := d.val, a := a.val, b := b.val })
  | .mnot st d a => some (packV { op := 0x65, st := st, d := d.val, a := a.val })
  | .mpop st d a m => some (packV { op := 0x66, st := st, d := d.val, a := a.val, m := m.val })
  | .mfirst st d a m => some (packV { op := 0x67, st := st, d := d.val, a := a.val, m := m.val })
  | .vmtx st d a k => some (packV { op := 0x68, st := st, d := d.val, a := a.val, sub := k.toNat })
  | .vmerge st d a b m fmt => some (packV { op := 0x69, st := st, d := d.num, a := a.num, b := b.num, sub := b.sub, fl := 8 * a.isStream.toNat + 4 * d.isStream.toNat + b.bf, m := m.val, fmt := fmt.code })
  | .vredsum st d a b m fmt => some (packV { op := 0x6a, st := st, d := d.val, a := a.val, b := b.val, m := m.val, fmt := fmt.code })
  | .vfredsum st d a b m fmt => some (packV { op := 0x6b, st := st, d := d.val, a := a.val, b := b.val, m := m.val, fmt := fmt.code })
  | .vredmax st d a b m fmt => some (packV { op := 0x6c, st := st, d := d.val, a := a.val, b := b.val, m := m.val, fmt := fmt.code })
  | .vredmin st d a b m fmt => some (packV { op := 0x6d, st := st, d := d.val, a := a.val, b := b.val, m := m.val, fmt := fmt.code })
  | .vscan st d a b m exc fmt => some (packV { op := 0x6e, st := st, d := d.val, a := a.val, b := b.val, m := m.val, sub := exc.toNat, fmt := fmt.code })
  | .viota st d a m cnt fmt => some (packV { op := 0x6f, st := st, d := d.val, a := a.val, m := m.val, sub := cnt.toNat, fmt := fmt.code })
  | .vslide st d a b m up fmt => some (packV { op := 0x70, st := st, d := d.val, a := a.val, b := b.val, m := m.val, sub := up.toNat, fmt := fmt.code })
  | .vgrp st d a b m n x32 bnd fmt => some (packV { op := 0x71, st := st, d := d.val, a := a.val, b := b.val, m := m.val, sub := n.val + 8 * x32.toNat + 16 * bnd.toNat, fmt := fmt.code })
  | .vbcast st d a b m el bnd fmt => some (packV { op := 0x72, st := st, d := d.val, a := a.val, b := b.val, m := m.val, sub := el.toNat + 2 * bnd.toNat, fmt := fmt.code })
  | .vextr st d a b bnd fmt => some (packV { op := 0x73, st := st, d := d.val, a := a.val, b := b.val, sub := bnd.toNat, fmt := fmt.code })
  | .vcomp st d a b m fmt => some (packV { op := 0x74, st := st, d := d.val, a := a.val, b := b.val, m := m.val, fmt := fmt.code })
  | .vappend st ord scope d a b m fmt => some (packV { op := 0x75, st := st, fl := 4 * scope.code + ord.code, d := d.val, a := a.val, b := b.val, m := m.val, fmt := fmt.code })
  | .vprune st d a b m j fmt => some (packV { op := 0x76, st := st, d := d.val, a := a.val, b := b.val, m := m.val, sub := j.val, fmt := fmt.code })
  | .vspill st d a b disp fmt => some (packV { op := 0x77, st := st, d := d.val, a := a.val, b := b.val, sub := disp.toNat, fmt := fmt.code })
  | .vfill st d a b disp fmt => some (packV { op := 0x78, st := st, d := d.val, a := a.val, b := b.val, sub := disp.toNat, fmt := fmt.code })
  | .tset st d a => some (packV { op := 0x80, st := st, d := d.val, a := a.val })
  | .tld st d a b disp => some (packV { op := 0x81, st := st, fl := 0, d := d.val, a := a.val, b := b.val, sub := disp.toNat })
  | .tldRegister st d a => some (packV { op := 0x81, st := st, fl := 1, d := d.val, a := a.val })
  | .tst st d a b disp => some (packV { op := 0x82, st := st, fl := 0, d := d.val, a := a.val, b := b.val, sub := disp.toNat })
  | .tstRegister st d a => some (packV { op := 0x82, st := st, fl := 1, d := d.val, a := a.val })
  | .tzero st d => some (packV { op := 0x83, st := st, d := d.val })
  | .azero st d => some (packV { op := 0x84, st := st, d := d.val })
  | .ald st d a b c disp fmt => some (packV { op := 0x85, st := st, fl := 0, d := d.val, a := a.val, b := b.val, c := c.val, sub := disp.toNat, fmt := fmt.code })
  | .aldRegister st d a row0 => some (packV { op := 0x85, st := st, fl := 1, d := d.val, a := a.val, sub := 16 * row0.val })
  | .ast st d a b c disp fmt => some (packV { op := 0x86, st := st, fl := 0, d := d.val, a := a.val, b := b.val, c := c.val, sub := disp.toNat, fmt := fmt.code })
  | .astRegister st d a row0 fmt => some (packV { op := 0x86, st := st, fl := 1, d := d.val, a := a.val, sub := 16 * row0.val, fmt := fmt.code })
  | .bfly st j d a b src fmt => some (packV { op := 0x87, st := st, fl := j.val, d := d.val, a := a.val, b := b.val, sub := src.code, fmt := fmt.code })
  | .bchain st j d a b c src fmt => some (packV { op := 0x88, st := st, fl := j.val, d := d.val, a := a.val, b := b.val, c := c.val, sub := src.code, fmt := fmt.code })
  | .bblk st d a b c m fmt => some (packV { op := 0x89, st := st, d := d.val, a := a.val, b := b.val, c := c.val, m := m.val, fmt := fmt.code })
  | .bmma st d a b c m fmt => some (packV { op := 0x8a, st := st, d := d.val, a := a.val, b := b.val, c := c.val, m := m.val, fmt := fmt.code })
  | .bmmx st d a b c m vsb => some (packV { op := 0x8b, st := st, d := d.val, a := a.val, b := b.val, c := c.val, m := m.val, sub := vsb.val, fmt := 9 })
  | .tmac st d a b c m => some (packV { op := 0x8c, st := st, d := d.val, a := a.val, b := b.val, c := c.val, m := m.val, fmt := 4 })
  | .pstat st d sel => some (packV { op := 0x8d, st := st, d := d.val, sub := sel.toNat })
  | .qbind st wr d a => some (packV { op := 0xa0, st := st, fl := wr.toNat, d := d.val, a := a.val })
  | .qrel st d => some (packV { op := 0xa1, st := st, d := d.val })
  | .qsync st d => some (packV { op := 0xa2, st := st, d := d.val })
  | .cpy st ord scope d a b => some (packV { op := 0xa3, st := st, fl := 4 * scope.code + ord.code, d := d.val, a := a.val, b := b.val })
  | .cpym st ord scope d a b c => some (packV { op := 0xa4, st := st, fl := 4 * scope.code + ord.code, d := d.val, a := a.val, b := b.val, c := c.val })
  | .cpyf st ord scope d a b c v add => some (packV { op := 0xa5, st := st, fl := 4 * scope.code + ord.code, d := d.val, a := a.val, b := b.val, c := c.val, sub := v.val + 128 * add.toNat })
  | .cwait st n => some (packV { op := 0xa6, st := st, sub := n.val })
  | .bmode st mode d bank => some (packV { op := 0xa7, st := st, fl := mode.code, d := d.val, sub := bank.val })
  | .cfill st ord scope d a b fmt => some (packV { op := 0xa8, st := st, fl := 4 * scope.code + ord.code, d := d.val, a := a.val, b := b.val, fmt := fmt.code })
  | .vscadd st ord scope d a b c m x32 bnd sc fmt => some (packV { op := 0xb0, st := st, fl := 4 * scope.code + ord.code, d := d.val, a := a.val, b := b.val, c := c.val, m := m.val, sub := x32.toNat + 2 * bnd.toNat + 4 * sc.val, fmt := fmt.code })
  | .vamo st op ord scope d a b c m x32 bnd sc j fmt => some (packV { op := 0xb1, st := st, fn := op.code, fl := 4 * scope.code + ord.code, d := d.val, a := a.val, b := b.val, c := c.val, m := m.val, sub := x32.toNat + 2 * bnd.toNat + 4 * sc.val + 16 * j.val, fmt := fmt.code })
  | .vstc st ord scope d a b c m x32 bnd sc fmt => some (packV { op := 0xb2, st := st, fl := 4 * scope.code + ord.code, d := d.val, a := a.val, b := b.val, c := c.val, m := m.val, sub := x32.toNat + 2 * bnd.toNat + 4 * sc.val, fmt := fmt.code })
  | .bcfg st d a => some (packV { op := 0xb3, st := st, d := d.val, a := a.val })
  | .phend st ord scope d a disp => some (packV { op := 0xb4, st := st, fl := 4 * scope.code + ord.code, d := d.val, a := a.val, sub := disp.toNat })
  | .bar st ord scope d a disp => some (packV { op := 0xb5, st := st, fl := 4 * scope.code + ord.code, d := d.val, a := a.val, sub := disp.toNat })
  | .cpost st ord scope d a b disp => some (packV { op := 0xb6, st := st, fl := 4 * scope.code + ord.code, d := d.val, a := a.val, b := b.val, sub := disp.toNat })
  | .ctake st ord scope d a b disp => some (packV { op := 0xb7, st := st, fl := 4 * scope.code + ord.code, d := d.val, a := a.val, b := b.val, sub := disp.toNat })
  | .csteal st ord scope d a b disp => some (packV { op := 0xb8, st := st, fl := 4 * scope.code + ord.code, d := d.val, a := a.val, b := b.val, sub := disp.toNat })
  | .cjoin st ord scope d a b disp => some (packV { op := 0xb9, st := st, fl := 4 * scope.code + ord.code, d := d.val, a := a.val, b := b.val, sub := disp.toNat })
  | .launch st d a b c => some (packV { op := 0xc0, st := st, d := d.val, a := a.val, b := b.val, c := c.val })
  | .yield st => some (packV { op := 0xc1, st := st })
  | .abind st d a => some (packV { op := 0xc2, st := st, fl := 0, d := d.val, a := a.val })
  | .abindOff st d a => some (packV { op := 0xc2, st := st, fl := 1, d := d.val, a := a.val })
  | .fcommit st => some (packV { op := 0xc3, st := st })
  | .spawn st d a => some (packV { op := 0xc4, st := st, d := d.val, a := a.val })
  | .olmark st a => some (packV { op := 0xc5, st := st, a := a.val })
  | .olpause st => some (packV { op := 0xc6, st := st })
  | .olresume st => some (packV { op := 0xc7, st := st })
  | .olstat st d sel => some (packV { op := 0xc8, st := st, d := d.val, sub := sel.val })
  | .lput st ord scope d a b c sw => some (packV { op := 0xd0, st := st, fl := 4 * scope.code + ord.code, d := d.val, a := a.val, b := b.val, c := c.val, sub := sw.val })
  | .lget st ord scope d a b c sw => some (packV { op := 0xd1, st := st, fl := 4 * scope.code + ord.code, d := d.val, a := a.val, b := b.val, c := c.val, sub := sw.val })
  | .lsend st ord scope d a b c sw => some (packV { op := 0xd2, st := st, fl := 4 * scope.code + ord.code, d := d.val, a := a.val, b := b.val, c := c.val, sub := sw.val })
  | .coll st kind ord scope d a b c sw fmt => some (packV { op := 0xd3, st := st, fn := kind.code, fl := 4 * scope.code + ord.code, d := d.val, a := a.val, b := b.val, c := c.val, sub := sw.val, fmt := fmt.code })
  | .lwait st n => some (packV { op := 0xd4, st := st, fn := 0, sub := n.val })
  | .lfence st ord scope => some (packV { op := 0xd4, st := st, fn := 1, fl := 4 * scope.code + ord.code })
  | .tmark st a tag => some (packV { op := 0xd5, st := st, fn := 0, a := a.val, sub := tag.toNat })
  | .tsamp st d => some (packV { op := 0xd5, st := st, fn := 1, d := d.val })
  | .tlbinv st kind scope d a => some (packV { op := 0xd6, st := st, fl := 4 * scope.code + kind.code, d := d.val, a := a.val })
  | .halt st a => some (packV { op := 0xd7, st := st, a := a.val })
  | .mbind st a slot => some (packV { op := 0xd8, st := st, a := a.val, sub := slot.val })
  | .munbind st slot => some (packV { op := 0xd9, st := st, sub := slot.val })
  | .mprobe st d slot addr => some (packV { op := 0xda, st := st, d := d.val, sub := slot.val + 32 * addr.toNat })
  | .fxres st d a b c m e l => some (packV { op := 0xdb, st := st, d := d.val, a := a.val, b := b.val, c := c.val, m := m.val, sub := l.val + 4 * e.val })
  | .fxstat st d k => some (packV { op := 0xdc, st := st, d := d.val, sub := k.val })
  | .fx st fn slot d a b c m e l => some (packV { op := 0xe0 + slot.val, st := st, fn := fn.toNat, d := d.val, a := a.val, b := b.val, c := c.val, m := m.val, sub := l.val + 4 * e.val })
  | .waitaWake _ => none
  | .qbankGrantWrite _ _ _ _ => none
  | .streamFetch _ _ => none
  | .streamDrain _ _ => none
  | .copyTransfer _ _ => none
  | .followOnCommand _ _ => none
  | .modeSwitch _ _ _ => none
  | .tokenPerformed _ => none
  | .barrierWake _ => none
  | .actorFiring _ _ => none
  | .launchAcceptance _ => none
  | .pick _ => none
  | .deficitCharge _ => none
  | .quantumExpiry _ => none
  | .preemption _ _ _ => none
  | .accessPerformedAfterStop _ => none
  | .breakpointHalt _ => none
  | .fxStall _ => none
  | .logEntryReserve _ => none
  | .replayEventMatch _ => none
  | .replayWindowExpiry _ => none
  | .linkTransfer _ _ _ => none
  | .remoteAccess _ _ => none
  | .messageReceive _ _ _ _ => none
  | .collectiveInstance _ _ _ => none
  | .collectiveTimeout _ _ => none
  | .deviceLaunchShare _ _ => none
  | .flitCrcFailure _ => none
  | .sample _ => none
  | .lostRecord _ => none
  | .traceControlWrite _ _ _ => none
  | .submitRecordWrite _ _ _ => none
  | .apertureAccess _ => none
  | .fixed _ _ _ => none
  | .kill _ _ _ => none
  | .ctxstop _ _ => none
  | .ctxgo _ => none
  | .dbggo _ _ => none
  | .subreg _ _ => none
  | .subregUnregister _ => none
  | .fwwrite _ _ => none
  | .activate => none
  | .keyload _ _ _ _ => none
  | .mstatWrite _ => none
  | .mintWrite _ => none
  | .schedqWrite _ => none
  | .pstateWrite _ => none
  | .managementRegisterWrite _ _ => none
  | .telemetrySample _ _ => none
  | .moduleReset _ => none
  | .getCertificate _ _ _ => none
  | .challenge _ => none
  | .getMeasurements _ => none
  | .keyExchange _ => none
  | .pldmBase _ => none
  | .pldmMonitoring _ => none
  | .pldmFru => none
  | .pldmFirmwareUpdate _ => none
  | .illegalInstruction _ _ => none
  | .instructionFetchFault _ => none
  | .lineLeavesL1 _ _ => none
  | .firmwareResolvesNotmapped _ _ _ _ => none
  | .contextDescriptorValid _ _ _ _ => none
  | .badCommandCode _ => none

/-- The instruction the decoder reads from the bits `w`, numbered as the opcode table numbers them. Every instruction is
one 64-bit word (R31), so bits at and above `nbits` are 0 by the table's convention and the word is `w` itself. -/
def decodeTableWord (nbits w : Nat) : Option Instr :=
  match decode (w % 2 ^ min nbits 64) with
  | .ok i => some i
  | .error _ => none

end Sys2Proof
end

