-- ==== Sys2Proof/Machine/State.lean ====
section
/-!
DEFINITION. The state of one device, as plain data: the registers of the core in focus, the other cores, memory and
every unit the spec gives the device. Reset values: the spec's, else the ones of log entry 2.
-/

namespace Sys2Proof.Machine

/-- Why the machine stops. -/
inductive Fault
  /-- A pointer that only the management complex writes (`CTXBASE`, `LTBASE`, `MSLOTBASE`, a context descriptor's
  physical bases) names a physical address that R60 says does not exist. Raised by `physRead` and `physWrite`. Safe:
  the spec gives no effect. -/
  | noSuchAddress (pa : Nat)
  deriving DecidableEq, Repr

/-- Why the model gives no meaning. -/
inductive Refusal
  /-- An instruction without a meaning in the model. Raised by no arm of `exec`. Safe. -/
  | notModelled (mnemonic : String)
  deriving DecidableEq, Repr

/-- A sparse table: keys rising, no entry equal to the default. -/
abbrev SMap (β : Type) := List (Nat × β)

/-- A vector register (R152, R153): contents, `LEN` in bytes, `DIRTY`, and one poison bit per 64-byte element group. -/
structure VReg where
  bits : BitVec 32768 := 0
  len : Nat := 0
  dirty : Bool := false
  poison : BitVec 64 := 0
  deriving DecidableEq, Repr

/-- A length register (R156): `COUNT` and `PAD`. -/
structure LnReg where
  count : Nat := 0
  pad : Nat := 0
  deriving DecidableEq, Repr

/-- A fixed-latency result still inside its latency (R22, R23): the register, what it held before, the value written, the
latency, the nominal distance so far, and the instructions since. -/
structure Pending where
  reg : Fin 32
  old : Word
  oldPoison : Bool
  val : Word
  lat : Nat
  dist : Nat
  back : Nat
  deriving DecidableEq, Repr

/-- `TRCAUSE` to `TRSLOT` (R102, Tables 4.2 to 4.4); `slot` is kept in `FiringInfo`. -/
structure TrapRegs where
  cause : Nat := 0
  level : Nat := 0
  engine : Nat := 0
  act : Bool := false
  dumpn : Nat := 0
  didx : Nat := 0
  dvalid : Bool := false
  skip : Bool := false
  val : Word := 0
  pc : Word := 0
  deriving DecidableEq, Repr

/-- An entry of the vector instruction queue as a stop dumps it (R106, Table 4.5), with its completion mask and the
poison of the scalars it read (R19, R244); `logged`: the ordinal it took at dispatch counts (R360); `foll`: the scalars
of the follow-on command of a `cpym`, or the status word's address of a link command, read at its dispatch (R301, R387); `seq`: its trace number (R407), of an entry dispatched or
reissued (`again`) since the last stop. What the image of Table 4.5 has no field for, the device keeps beside it (log entry 113): `sp`,
`logged`, `foll`, the `PAD` and `BLK` taken at the start (R157, R161), the registers and lengths its commit records (`grow`, R153),
the length registers a fabric run took (`lens`, R245), the panels a press instruction has passed over at its start (`skip`, R280), the groups it has poisoned (`pois`, R93, R215), the `BCFG` and the name of a
beater instruction (R310, R312), its name as a writer (R93), and the width of its element groups (`wide`, R179). `old`: the descriptor and the old tail of a `vappend`, until a stop
(R199). `done`: what a trace record says of one that has done all its work and waits for older ones to commit (R20); `dead`: a younger instruction
has written the scalar register of its result (R18). -/
structure DumpEntry where
  word : Nat
  pc : Word
  scal : Vector Word 4
  prog : Nat
  vlen : Nat
  engine : Nat
  started : Bool
  pcm : Bool
  raiser : Bool
  ordn : Nat
  mask : BitVec 16384
  sp : BitVec 4 := 0
  logged : Bool := false
  foll : Option (Vector Word 4) := none
  seq : Option Nat := none
  begun : Bool := false
  again : Bool := false
  pad : Nat := 0
  blk : Nat := 0
  lens : Option (Vector LnReg 4) := none
  skip : Nat := 0
  grow : List (Fin 64 × Nat) := []
  pois : BitVec 64 := 0
  win : Nat := 2
  order : Bool := false
  instr : Nat := 0
  name : Nat := 0
  wide : Nat := 8
  old : Option (Nat × Nat × Nat) := none
  done : Option Nat := none
  dead : Bool := false
  deriving DecidableEq, Repr

/-- `TCFG` (Table 11.1): `FMT`, `ROWS`, `RB`. -/
structure TCfg where
  fmt : BitVec 5 := 10
  rows : BitVec 7 := 64
  rb : BitVec 7 := 64
  deriving DecidableEq, Repr

/-- A tile (R262): 4,096 bytes and a poison bit for each of 512 grains; `written` since the firing started (R119); `bad`: words of
32 bits whose parity will fail when the press reads them (R282). -/
structure Tile where
  bits : BitVec 32768 := 0
  poison : BitVec 512 := 0
  written : Bool := false
  bad : BitVec 1024 := 0
  deriving DecidableEq, Repr

/-- An accumulator (R262): 16,384 bytes, 512 poison grains; `bad` as in a tile, by element. -/
structure Acc where
  bits : BitVec 131072 := 0
  poison : BitVec 512 := 0
  written : Bool := false
  bad : BitVec 4096 := 0
  deriving DecidableEq, Repr

/-- A 64-byte block of a stream with its poison, by block number (R294); of a block partly produced before a stop, the
bytes `lo` to `hi - 1` (R298). -/
structure Block where
  idx : Nat
  bits : BitVec 512
  poison : Bool
  lo : Nat := 0
  hi : Nat := 64
  deriving DecidableEq, Repr

/-- A stream register (R291, Table 13.1), the blocks fetched ahead of it or held behind it (R294), and a drain fault not
yet raised (R298): cause, address, stream byte position; `drainRaised`: one that has been raised, the drain not yet tried
again. -/
structure Stream where
  base : Word := 0
  stride : Vector Word 4 := Vector.replicate 4 0
  cnt : Vector (BitVec 16) 4 := Vector.replicate 4 0
  pos : Nat := 0
  esize : Nat := 0
  fifo : Bool := false
  dir : Bool := false
  bound : Bool := false
  fetched : List Block := []
  held : List Block := []
  drainFault : Option (Nat × Word × Nat) := none
  drainRaised : Bool := false
  deriving DecidableEq, Repr

/-- The event that made a record (R359, R364); the payload of a message's handler firing (R390), or the binding of an
actor's. -/
structure Origin where
  okind : Nat
  spost : Nat
  pfid : Nat
  pord : Nat
  num : Nat
  payload : List Word := []
  deriving DecidableEq, Repr

/-- What the device keeps of a launch beside its entry (R335): how it was made, and of a share of a launch
over several devices its origin: device and number there (R400). -/
structure LaunchInfo where
  okind : Nat
  spost : Nat
  pfid : Nat
  pord : Nat
  share : Option (Nat × Nat) := none
  deriving DecidableEq, Repr

/-- What started the firing (Table 15.1): its context, slot, launch entry and submit post, and its record's fields; the
actor binding and number of a `KIND` 2 firing; `tableOwed`: it still has to read its ragged table entry (R340). -/
structure FiringInfo where
  asid : Nat := 0
  slot : Nat := 0
  lid : Nat := 0
  spost : Nat := 0
  kind : Nat := 0
  code : Word := 0
  frame : Word := 0
  arg : Word := 0
  meta32 : Nat := 0
  actor : Option Nat := none
  actorN : Nat := 0
  fcommitted : Bool := false
  lastCore : Nat := 0
  tableOwed : Bool := false
  deriving DecidableEq, Repr

/-- Everything a firing carries (R129, R152 to R169, R252, R262, R291, R361). `linkCauses`: causes of ended link commands not
raised yet, by their place in the order (R387); `relFence`, `acqFence`: the commands before the last `lfence` (R398);
`badX`, `badM`: registers whose parity has failed (Table 3.7); `trapSide`: the entries of the trap dump, for what their image
has no field for; `fxEnds`: the IN cells that have emitted the end-of-fibre of their `ENDEN` at the last cut (R251), a bit each, and
`trapEnds`, those of the run that a trap has come into. -/
structure Firing where
  x : Vector Word 32 := Vector.replicate 32 0
  xp : BitVec 32 := 0
  fpc : Word := 0
  level : Nat := 0
  prog : Word := 0
  pend : List Pending := []
  trap : TrapRegs := {}
  v : Vector VReg 64 := Vector.replicate 64 {}
  resident : List (Fin 64) := []
  m : Vector (BitVec 16384) 8 := Vector.replicate 8 0
  ln : Vector LnReg 4 := Vector.replicate 4 {}
  vfmt : Nat := 9
  vblk : Nat := 0
  vrm : Nat := 0
  vstart : Nat := 0
  fflags : BitVec 5 := 0
  pseed0 : Word := 1
  pseed1 : Word := 2
  bwin : Nat := 2
  border : Bool := false
  t : Vector Tile 16 := Vector.replicate 16 {}
  a : Vector Acc 8 := Vector.replicate 8 {}
  tcfg : Vector TCfg 16 := Vector.replicate 16 {}
  bstride : Word := 0
  bcfmt : Nat := 9
  bcrm : Nat := 0
  panel : Nat := 0
  stage : Nat := 0
  panels : Word := 0
  fx : Vector Word 8 := Vector.replicate 8 0
  fxEnds : Nat := 0
  trapEnds : Nat := 0
  q : Vector Stream 8 := Vector.replicate 8 {}
  queue : List DumpEntry := []
  fid : Nat := 0
  ordinal : Nat := 0
  session : Nat := 0
  paused : Bool := false
  beatFlags : BitVec 5 := 0
  poisonOut : Bool := false
  faultOwed : Bool := false
  linkCauses : List (Nat × Nat) := []
  relFence : Nat := 0
  acqFence : Nat := 0
  badX : BitVec 32 := 0
  badM : BitVec 8 := 0
  trapSide : List DumpEntry := []
  deriving DecidableEq, Repr

/-- What an instruction of the firing waits for (Table 1.2). -/
inductive Wait
  /-- `waita` asleep on a location until its word satisfies it (R144). -/
  | waita
  /-- `bar` or `phend` until `GEN` changes (R322). -/
  | barrier
  /-- A stream empty or full, a FIFO bank empty or full (R294, R297). -/
  | stream (q : Fin 8)
  /-- No copy slot free (Table 1.2). -/
  | copySlot
  /-- The load/store queue holds 96 entries (Table 1.2). -/
  | queueFull
  /-- Copies, link commands, tokens or drains still incomplete: `end`, `cwait`, `lwait`, `phend`, `qsync` (R148, R304). -/
  | background
  /-- `launch` or `spawn`: no launch entry free, or the domain post full (R332, R335). -/
  | launchRoom
  /-- No chain-log ring entry of the context can be reserved (R369). -/
  | logRoom (asid key : Nat)
  /-- Replay: the event's record is not yet due (R371). -/
  | replay (asid key : Nat)
  /-- Nothing: a fabric opcode goes on cycle by cycle (R246). -/
  | vat
  deriving DecidableEq, Repr

/-- A command of the headbox or the link engine after commit: one of the core's 16 slots (R299 to R303, R386, R387). -/
inductive CmdKind
  | copy | fill (w : Nat) | lput (dev : Nat) | lget (dev : Nat) | lsend (head : Word) (payload : Vector Word 3)
  | coll (kind : CollKind) (fmt : Fmt) (n root tag : Nat) (members : List Nat)
  deriving DecidableEq, Repr

/-- A command in flight: its owner (context and slot), its place in the order of commits (`seqNo`), the trace number and
address of its instruction, and its event (`fid`, `ordn`, `session`). `stopped`: a stop has been made since its commit; `trapHeld`: one for a
handler that has not returned yet (R303); `orphan`: the owner has been retired; `pausedBy`: the cause it is paused for (R125). Of a link command: the
status word, the bits it ends with (bit 0 is `REMOTEFAULT`), `ended` when its payload is, and the commands that an
`lfence` puts before it (R386, R398). -/
structure Cmd where
  kind : CmdKind
  owner : Nat × Nat
  level : Nat
  seqNo : Nat
  dst : Word
  src : Word
  value : Word
  n : Nat
  done : Nat := 0
  ord : Order
  scope : Scope
  poison : Bool := false
  flag : Option (Word × Nat × Bool) := none
  follow : Option Word := none
  followScal : Vector Word 4 := Vector.replicate 4 0
  paused : Option Nat := none
  pausedBy : Nat := 0
  failed : Bool := false
  status : Option Word := none
  res : Nat := 0
  ended : Bool := false
  fence : Nat := 0
  stopped : Bool := false
  trapHeld : Bool := false
  orphan : Bool := false
  pc : Word := 0
  seq : Nat := 0
  fid : Nat := 0
  ordn : Nat := 0
  session : Nat := 0
  logged : Bool := false
  deriving DecidableEq, Repr

/-- A cell of a mould (R225, R235): its place, its configuration word, and the entries of a TABLE cell. -/
structure MouldCell where
  y : Nat
  x : Nat
  word : Nat
  tab : List Nat := []
  deriving DecidableEq, Repr

/-- A mould image as read (Table 9.4): `role`, `ilen` and `ofmt` hold the header's bytes. -/
structure Mould where
  quads : Nat
  rm : Nat
  anchor : Nat
  level : Nat
  nin : Nat
  nout : Nat
  ntab : Nat
  nmem : Nat
  role : List Nat
  ilen : List Nat
  ofmt : List Nat
  cells : List MouldCell
  deriving DecidableEq, Repr

/-- A mould resident in the vat of a core (R221, R243): `place`, its first quadrant; `bad`: the parity of one of its cells has failed
(Table 3.7). -/
structure Resident where
  asid : Nat
  slot : Nat
  seq : Nat
  va : Word
  mould : Mould
  place : Nat := 0
  bad : Bool := false
  deriving DecidableEq, Repr

/-- A token (R222): kind 0 value, 1 coordinate, 2 pair, 4 + level end-of-fibre; `em`, `sem` are the positions of the IN
cell, in its elements and in its segments, of the token it descends from (R251). -/
structure VTok where
  kind : Nat
  coord : Nat := 0
  val : Nat := 0
  em : Nat := 0
  sem : Nat := 0
  deriving DecidableEq, Repr

/-- A token on a hop (R223, R224): who has taken it (ports `P`, `Q`, `K`, then forwards to N, E, S, W), and whether it
entered the hop in this cycle. -/
structure VHop where
  tok : VTok
  taken : List Nat := []
  fresh : Bool := true
  deriving DecidableEq, Repr

/-- A cell of a running mould (R224 to R234): ports, outgoing hops N, E, S, W, tokens held inside, and a number: the sum
of `ACC`, the count or next copy of CNT, the slots a probe has examined, the current port of MERGE. An IN cell's
positions stand in `pos` and `spos`. -/
structure VCell where
  p : List VTok := []
  q : List VTok := []
  k : List VTok := []
  out : Vector (Option VHop) 4 := Vector.replicate 4 none
  buf : List VTok := []
  acc : Nat := 0
  tab : List Nat := []
  fired : Bool := false
  pos : Nat := 0
  spos : Nat := 0
  ended : Bool := false
  paused : Bool := false
  done : Bool := false
  deriving DecidableEq, Repr

/-- An input stream of a run (R245): register, length, first pad element, masked. -/
structure VIn where
  reg : Fin 64
  n : Nat
  padFrom : Nat
  masked : Bool
  deriving DecidableEq, Repr

/-- A run of a fabric opcode (R246, R251): `next` numbers the outputs, `nums` remembers of each numbered output the
position it descends from, `acc` counts the accesses of each memory port, `idle` the cycles without movement. -/
structure VatRun where
  mould : Mould
  fn : Nat
  mask : BitVec 16384
  ins : List VIn
  outs : List (Fin 64)
  cells : List VCell
  next : Vector Nat 2
  nums : List (Nat × Nat) := []
  acc : Vector Nat 4 := Vector.replicate 4 0
  idle : Nat := 0
  deriving DecidableEq, Repr

/-- An event on its way into a trace ring: its cycle, and the fields of its record (Table 18.2) but for `DT`. -/
structure TraceRec where
  cycle : Nat
  kind : Nat
  rf : Nat
  eng : Nat
  aux : Nat
  asid : Nat
  pay : Nat
  deriving DecidableEq, Repr

/-- The trace unit of a core (R404 to R412, Table 18.1) and what it remembers between records: the cycle of the last one,
whether a TIME record is owed before the next, or before anything else (`timeFirst`, R405), the records dropped since the last
LOST record, when the period last began (`spAt`), the cycles of it that
had passed when its firing ceased to be traced (`spGone`), the records awaiting their writes (`buf`), a value of `TRCTL` not in force yet
with the cycle of its write, and why the front has not issued since which cycle (`why`, R411). -/
structure Trace where
  ctl : Nat := 0
  log2 : Nat := 0
  base : Nat := 0
  head : Nat := 0
  tail : Nat := 0
  lost : Nat := 0
  spmin : Nat := 0
  spcur : Nat := 0
  spAt : Nat := 0
  spGone : Nat := 0
  bkpt : Nat := 0
  last : Nat := 0
  timeOwed : Bool := true
  timeFirst : Bool := false
  dropped : Nat := 0
  seq : Nat := 0
  buf : List TraceRec := []
  pending : Option (Nat × Nat) := none
  why : List (Nat × Nat) := []
  deriving DecidableEq, Repr

/-- A translation held by a TLB (R86): identifier, log2 of the page size, page numbers, permissions, and the entry it
was filled from, for the dirty bit (R85). -/
structure TlbEntry where
  asid : Nat
  sizeLog2 : Nat
  vpn : Nat
  ppn : Nat
  rd : Bool
  wr : Bool
  ex : Bool
  us : Bool
  homeOnly : Bool
  dt : Bool
  pteAddr : Nat
  pte : Nat
  deriving DecidableEq, Repr

/-- A cause that stops a firing (R100): its code, kind (P or E), engine, and the fields of its fault record (Table 4.7).
`addr` absent: the instruction's address (R111). `val` absent: the value of `ADDR` (Table 4.3). `next`: `TRPC` is the
following instruction (R146, R127). -/
structure Trap where
  cause : Nat
  eKind : Bool := false
  engine : Nat := 0
  val : Option Word := none
  addr : Option Word := none
  index : Nat := 0
  count : Nat := 0
  access : Nat := 0
  detail : Nat := 0
  next : Bool := false
  deriving DecidableEq, Repr

/-- One page of a replayable fault (R112, R214). -/
structure PageFault where
  cause : Nat
  va : Word
  index : Nat
  count : Nat
  access : Nat
  detail : Nat := 0
  deriving DecidableEq, Repr

/-- Why the front runs beside unfinished engine instructions: a stop that one has raised and the device has not delivered yet (R105), or
none, the one at the head of the queue being under way (R18). -/
inductive EngineStop
  | trap (t : Trap)
  | replay (engine : Nat) (pages : List PageFault)
  | going
  deriving DecidableEq, Repr

/-- The word a `waita` sleeps on (R144): its location and bytes, the value it waits for or to differ from, the one value it may
wake on in replay (R372); `seen`: the words since that wake it, oldest first, with their poison. -/
structure Watch where
  loc : Nat
  n : Nat
  neq : Bool
  value : Nat
  only : Option Nat
  seen : List (Nat × Bool) := []
  deriving DecidableEq, Repr

/-- A core (R2, R13, R18): the firing it runs and what belongs to the core. `cur` is the engine instruction in execution;
`ahead` an engine stop not delivered yet and the instructions the front still issues before it; `since`: the cycle in which its firing took it; `expired`: the event it
waits for has waited a full replay window (R373); `curAt`: how many older entries stand in the queue before `cur`; `watch`: what
a sleeping `waita` waits for; `picking`: an idle core has begun a pick and found no record (R341); `badBeat`: a crossbar beat that has failed eight times (Table 3.7). -/
structure Core where
  id : Nat := 0
  running : Bool := false
  f : Firing := {}
  info : FiringInfo := {}
  wait : Option Wait := none
  schk : Bool := false
  cur : Option DumpEntry := none
  ahead : Option (EngineStop × Nat) := none
  budget : Option Nat := none
  accepted : List Nat := []
  cmds : Vector (Option Cmd) 16 := Vector.replicate 16 none
  l1 : List (Nat × BitVec 1024) := []
  tlb : List TlbEntry := []
  moulds : List Resident := []
  vat : Option VatRun := none
  picks : Nat := 0
  picking : Bool := false
  since : Word := 0
  charged : Nat := 0
  issued : Nat := 0
  bkptPassed : Option Word := none
  expired : Bool := false
  badLsq : Bool := false
  curAt : Nat := 0
  watch : Option Watch := none
  badBeat : Bool := false
  trace : Trace := {}
  deriving DecidableEq, Repr

/-- `QBANK` (R62, Table 3.3) with the blocks a FIFO bank holds, the place of the oldest among its 4,096, the lines of 128 bytes that
are poisoned (Table 3.8), and the places reserved in it (R297); `switchTo`: the switch in progress (R64, R66), its mode and the slot
whose `bmode` began it; `outcomes`: of the switches that have ended and whose `bmode` has not reported yet, that slot and whether step 4
refused it (R305). -/
structure QBank where
  mode : BankMode := .cache
  busy : Bool := false
  gv : Bool := false
  gasid : Nat := 0
  fifo : List (BitVec 512) := []
  fifoHead : Nat := 0
  fifoBad : BitVec 2048 := 0
  reserved : Nat := 0
  switchTo : Option (BankMode × Nat) := none
  outcomes : List (Nat × Bool) := []
  deriving DecidableEq, Repr

/-- What a beater does with an element (R309 to R317). -/
inductive TokenOp | add (f : Fmt) | store (f : Fmt)
  deriving DecidableEq, Repr

/-- A token merged into another one (R311): whose it is, and the window and order of its instruction (R310). -/
structure MergedToken where
  core : Nat
  slot : Nat
  poison : Bool
  win : Nat
  order : Bool
  instr : Nat
  iage : Nat
  deriving DecidableEq, Repr

/-- A token a beater has not performed yet (R310): location, bytes, value, origin; `age` and `iage` count the tokens its
beater has accepted after it, and those of its own instruction; `merged`: the tokens merged into it (R311); `shown`: the widest level at
which a release of its core has made it visible (R16, R76). -/
structure Token where
  core : Nat
  asid : Nat
  slot : Nat
  lane : Nat
  va : Word
  loc : Nat
  n : Nat
  op : TokenOp
  value : Nat
  poison : Bool
  win : Nat
  order : Bool
  instr : Nat
  age : Nat := 0
  iage : Nat := 0
  merged : List MergedToken := []
  shown : Option Nat := none
  deriving DecidableEq, Repr

/-- A store that its home has not performed yet: of a load/store queue, whose core alone reads it (R28, R72), or of the press,
ordered against that queue by releases and acquires only (R80); `lag`: the instructions its core still issues before it lands; `keep`:
the bits of its bytes that it leaves as the home holds them (R209); `writer`: the instruction it is a part of (R93); `turn`: its place among the
stores of a `vspill`, which are performed in order (R219), 0 of any other; `after`: the older instructions that were unfinished when it was made, by name (R73);
`shown`: the widest level at which a release has made it visible (R16, R76). -/
structure LateStore where
  press : Bool
  core : Nat
  asid : Nat
  level : Nat
  va : Word
  loc : Nat
  cacheable : Bool
  n : Nat
  value : Nat
  poison : Bool
  lag : Nat
  keep : Nat := 0
  writer : Nat := 0
  turn : Nat := 0
  after : List Nat := []
  shown : Option Nat := none
  deriving DecidableEq, Repr

/-- What an atomic element does at its beater (R317): operation, operand, compare value, their poison, the status mask. -/
structure LateAmo where
  op : AmoOp
  fmt : Fmt
  b : Nat
  c : Nat
  poison : Bool
  mask : Nat
  deriving DecidableEq, Repr

/-- A load or atomic element that its home had accepted when its firing was stopped (R108): the addresses and the locations of its pieces of
`n` bytes, the bit it begins at, its width, and the register and element its result goes to; `orphan`: an atomic whose firing has been
retired meanwhile. -/
structure Late where
  slotKey : Nat
  locs : List Nat
  n : Nat
  bo : Nat
  w : Nat
  reg : Nat
  elem : Nat
  core : Nat
  amo : Option LateAmo
  vas : List Word := []
  orphan : Bool := false
  deriving DecidableEq, Repr

/-- A save-area slot in use (R117), by context and slot number: what the save area itself does not hold of its firing
(R339, R128, R298, R303). `owed`: its resumable record is made but not yet runnable;
`answered`: the driver has answered for it (R112, R128); `cause`: what parked it (R125); `draining`: the streams whose held blocks still drain (R298); `side`, `trapSide`: the dumped entries, for what their images have no
field for. -/
structure SlotInfo where
  info : FiringInfo
  stop : Nat := 0
  onCore : Option Nat := none
  owed : Bool := false
  bkptPassed : Option Word := none
  beatFlags : BitVec 5 := 0
  poisonOut : Bool := false
  faultOwed : Bool := false
  linkCauses : List (Nat × Nat) := []
  relFence : Nat := 0
  acqFence : Nat := 0
  badX : BitVec 32 := 0
  badM : BitVec 8 := 0
  held : List (List Block) := []
  drainFaults : List (Option (Nat × Word × Nat)) := []
  draining : List (Fin 8) := []
  snap : List Byte := []
  answered : Bool := false
  cause : Nat := 0
  side : List DumpEntry := []
  trapSide : List DumpEntry := []
  fxEnds : Nat := 0
  trapEnds : Nat := 0
  deriving DecidableEq, Repr

/-- A registered submit post (R333): the place of its control block. -/
structure Submit where
  pa : Nat
  deriving DecidableEq, Repr

/-- An expansion that host acceptance has begun (R333, R336): its entry and post, the kernel, what it reads, how far it
has come (segment, tile), and of a share its rank and the number of devices (R400). -/
structure Expansion where
  lid : Nat
  spost : Nat
  asid : Nat
  host : Bool
  code : Word
  params : List Byte
  fsize : Nat
  seg : Nat
  tile : Nat
  share : Option (Nat × Nat)
  pord : Nat
  deriving DecidableEq, Repr

/-- A launch over several devices, on its origin (R400): devices whose last firing has not ended, the completion word, and
the post of a host launch. -/
structure Share where
  remaining : Nat
  asid : Nat
  cword : Word
  spost : Nat
  host : Bool
  deriving DecidableEq, Repr

/-- A port of an actor as bound (R349 to R352): control block, `RATE`, START; `bank` of a `QFIFO` port, with `TOKEN`. -/
structure ActorPort where
  cb : Word
  rate : Nat
  start : Nat
  bank : Option Nat
  token : Nat
  deriving DecidableEq, Repr

/-- An actor binding of a cluster (R349 to R352): the template, the ports, the next firing number, the firings that have
not ended, those that have committed, the entry and submit post of the binding firing, and its `abind` event. -/
structure Actor where
  asid : Nat
  va : Word
  code : Word
  frame : Word
  arg : Word
  nin : Nat
  maxf : Nat
  ports : List ActorPort
  next : Nat
  live : Nat
  committed : Nat
  lid : Nat
  spost : Nat
  closing : Bool
  pfid : Nat
  pord : Nat
  deriving DecidableEq, Repr

/-- A chain-log session of a context (R356 to R374): `stalls`, the waiters for room (R369); `held`, those whose event waits for its
record (R371, R373); `underWay`: the entries that a `launch` in progress has reserved and not written, oldest first, each with its
firing, and `tail`: the next entry while there are any (R368); `sess`: its SESS record has been consumed (R370). -/
structure Session where
  asid : Nat
  num : Nat
  firings : Nat := 0
  accepted : SMap Nat := []
  messages : SMap Nat := []
  consumed : List Nat := []
  atomvs : SMap Nat := []
  stalls : List Nat := []
  held : List Nat := []
  underWay : List (Nat × Nat) := []
  tail : Nat := 0
  sess : Bool := false
  deriving DecidableEq, Repr

/-- Upsets the environment injects (R91, Table 3.7). A place marked "none" takes a wrong value and nothing is detected: a result
of the lanes in a vector, mask or scalar register or in the block a stream holds last, a value in a vat cell, a sum of a beater. -/
inductive Upset
  | laneVector (core : Nat) (v g : Fin 64) (value : BitVec 512) | laneStream (core : Nat) (q : Fin 8) (value : BitVec 512) | laneMask (core : Nat) (m : Fin 8) (value : BitVec 16384)
  | laneScalar (core : Nat) (r : Fin 32) (value : Word) | vatData (core cell place value : Nat) | beaterSum (loc n value : Nat)
  | l1 (core line : Nat) | clusterTlb (cluster i : Nat) | combining (idx : Nat) | beat (core : Nat) | fetchedAhead
  | scalar (core : Nat) (r : Fin 32) | mask (core : Nat) (m : Fin 8) | lsq (core : Nat) | vatCfg (core i : Nat)
  | vector (core : Nat) (v g : Fin 64) | tile (core : Nat) (t : Fin 16) (word : Fin 1024)
  | acc (core : Nat) (a : Fin 8) (elem : Fin 4096) | word (loc : Nat) | fifoLine (bank : Nat) (line : Fin 2048) | tlb (core : Nat) (i : Nat) | corrected
  deriving DecidableEq, Repr

/-- What the device sends out (17_links.md, 19_platform.md): interrupts, replies to host and board, link traffic. -/
inductive Sent
  | msix (vector : Nat)
  | bytes (dest : String) (data : List Byte)
  | word (dest : String) (value : Nat)
  | link (kind : String) (device : Nat) (args : List Nat) (data : List Byte)
  deriving DecidableEq, Repr

/-- The management complex (R418 to R427): `MSTAT`; `based`: which of `CTXBASE`, `MSLOTBASE` and `LTBASE` have been written;
the other registers; the mailbox, with the command that runs; firmware slots, configuration block and certificates in flash;
keys, each with the context it was sent for; stopped contexts, the SPDM session; the MSI-X table's entries and pending bits; the power state requested, the one in force, and whether a limit holds it;
telemetry; errors corrected or not consumed. -/
structure Mgmt where
  ready : Bool := false
  run : Bool := false
  recov : Bool := false
  noid : Bool := false
  cfgbad : Bool := false
  mbusy : Bool := false
  movr : Bool := false
  throt : Bool := false
  bridge : Bool := false
  based : BitVec 3 := 0
  ctxbase : Nat := 0
  mslotbase : Nat := 0
  ltbase : Nat := 0
  apbase : Nat := 0
  schedq : Nat := 95000
  preq : Nat := 0
  pstate : Nat := 0
  limited : Bool := false
  mint : Word := 0
  minten : Word := 0
  refused : Word := 0
  reflast : Word := 0
  mcmd : Nat := 0
  mstatus : Nat := 0
  margs : List Byte := []
  mrun : Option Instr := none
  mbox : Option (Instr × List Byte) := none
  device : Nat := 0
  xver : BitVec 16 := 0
  stepping : BitVec 8 := 0
  slotA : List Byte := []
  slotB : List Byte := []
  activeB : Bool := false
  cfgBlock : List Byte := []
  certChain : List Byte := []
  keys : SMap (Option (Nat × Nat)) := []
  stops : List Nat := []
  spdm : Option Nat := none
  msix : SMap Nat := []
  msixPending : Word := 0
  milliwatts : Nat := 0
  temps : Temperatures := {}
  hotSamples : Nat := 0
  coolSamples : Nat := 0
  errors : Nat := 0
  notConsumed : Nat := 0
  deriving DecidableEq, Repr

/-- Per-context totals (R415, Table 18.5). -/
structure Totals where
  cycles : Nat := 0
  instrs : Nat := 0
  energy : Nat := 0
  deriving DecidableEq, Repr

/-- The device. `writer`: who writes, an instruction (0, or an odd number where its stores reach their homes later) or a copy (twice its
place in the order of commits); `sticky`: the flags that beaters hold, by beater and context (R314); `covers`: of poisoned quire
lines that a writer has written in part, line, writer and bytes (R93). `stores`: stores on their way to their homes, oldest first; `storeLags`: how long the next ones take, the schedule's
choice. `starts`: how many units each of the next engine instructions that are queued behind a stop has performed by then (R20), the
schedule's choice. `advances`: which entries of the queue behind its head perform how many more units while the front goes on (R20), the schedule's choice. `overlaps`: how many units each of the next engine instructions performs before the front goes on, and how many
instructions the front issues before it does (R18), the schedule's choice. `slowSwitches`: which of the next bank mode switches take longer than their `bmode` (R64, R66), the schedule's
choice. `remoteHolds`: devices and contexts whose DEBUGHOLD this device sees (R396).
`expired`: waiters other than cores whose event has waited a full replay window (R373). `mem` holds HBM bytes at their physical addresses and quire bytes from `quireBase` on. -/
structure State where
  core : Core := {}
  others : SMap Core := []
  mem : List Host.Cell := []
  poison : List Nat := []
  writer : Nat := 0
  covers : List (Nat × Nat × Nat) := []
  banks : SMap QBank := []
  ctlbs : SMap (List TlbEntry) := []
  owners : SMap Nat := []
  tokens : List Token := []
  stores : List LateStore := []
  storeLags : List Nat := []
  sticky : SMap (BitVec 5) := []
  lostOwed : List Nat := []
  bseq : SMap Nat := []
  cmdCtr : Nat := 0
  cycle : Word := 0
  slots : SMap (Option SlotInfo) := []
  late : List Late := []
  sealed : SMap Nat := []
  launches : SMap (Option LaunchInfo) := []
  submits : SMap (Option Submit) := []
  schedPtr : Nat := 0
  origins : SMap (Option Origin) := []
  actors : SMap (Option Actor) := []
  sessions : List Session := []
  portsUp : List Nat := []
  portFails : SMap Nat := []
  debugHold : List Nat := []
  remoteHolds : List (Nat × Nat) := []
  drops : SMap Nat := []
  expansions : List Expansion := []
  shares : SMap (Option Share) := []
  totals : SMap Totals := []
  mgmt : Mgmt := {}
  freeCtr : Nat := 0
  agenda : List Instr := []
  blocked : List Instr := []
  turns : List Nat := []
  leads : List Nat := []
  starts : List Nat := []
  advances : List (Nat × Nat) := []
  overlaps : List (Nat × Nat) := []
  upsets : List Upset := []
  merges : List (Nat × Nat) := []
  slowSwitches : List Bool := []
  expired : List Nat := []
  outbox : List Sent := []
  deriving DecidableEq, Repr

/-- The state right after module reset: no firing, memory with nothing listed, every register at the value the spec
gives or log entry 2 names. -/
def State.reset : State := {}

end Sys2Proof.Machine
end

