-- ==== Sys2Proof/Machine/Mem.lean ====
section
/-!
DEFINITION. Sparse tables, memory bytes, homes (R60, R61, R67, R308), poison (R93 to R96), the L1 data cache (R68) and
the address of every place.
-/

namespace Sys2Proof.Machine

/-- The value of a key, or the default. -/
def SMap.get {β : Type} (d : β) (k : Nat) : SMap β → β
  | [] => d
  | (k', v) :: r => if k' = k then v else SMap.get d k r

/-- A table without the key. -/
def SMap.erase {β : Type} (k : Nat) : SMap β → SMap β
  | [] => []
  | (k', v) :: r => if k' = k then SMap.erase k r else (k', v) :: SMap.erase k r

/-- Insert before the first greater key. -/
def SMap.insert {β : Type} (k : Nat) (v : β) : SMap β → SMap β
  | [] => [(k, v)]
  | (k', v') :: r => if k < k' then (k, v) :: (k', v') :: r else (k', v') :: SMap.insert k v r

/-- Set a key; the default removes it. -/
def SMap.put {β : Type} [DecidableEq β] (d : β) (k : Nat) (v : β) (m : SMap β) : SMap β :=
  if v = d then SMap.erase k m else SMap.insert k v (SMap.erase k m)

/-- The canonical form: keys strictly rising, no entry equal to the default. -/
def SMap.wf {β : Type} [DecidableEq β] (d : β) : SMap β → Bool
  | [] => true
  | [(_, v)] => decide (v ≠ d)
  | (k, v) :: (k', v') :: r => decide (v ≠ d) && decide (k < k') && SMap.wf d ((k', v') :: r)

/-- A byte of memory; an unlisted byte reads 0 (log entry 1). -/
def Memory.byte (m : List Host.Cell) (a : Nat) : Byte := SMap.get 0 a m
def Memory.setByte (m : List Host.Cell) (a : Nat) (b : Byte) : List Host.Cell := SMap.put 0 a b m
/-- The canonical form of memory. -/
def Memory.wf (m : List Host.Cell) : Bool := SMap.wf (0 : Byte) m

/-- `n` bytes from `a`, little-endian (R8). -/
def Memory.read (m : List Host.Cell) (a : Nat) : Nat → Nat
  | 0 => 0
  | n + 1 => (Memory.byte m a).toNat + 256 * Memory.read m (a + 1) n

/-- Write the low `n` bytes of `v` at `a`, little-endian (R8). -/
def Memory.write (m : List Host.Cell) (a : Nat) : Nat → Nat → List Host.Cell
  | 0, _ => m
  | n + 1, v => Memory.write (Memory.setByte m a (BitVec.ofNat 8 v)) (a + 1) n (v / 256)

def Memory.readBytes (m : List Host.Cell) (a : Nat) : Nat → List Byte
  | 0 => []
  | n + 1 => Memory.byte m a :: Memory.readBytes m (a + 1) n

def Memory.writeBytes (m : List Host.Cell) (a : Nat) : List Byte → List Host.Cell
  | [] => m
  | b :: r => Memory.writeBytes (Memory.setByte m a b) (a + 1) r

/-- Memory with `n` bytes from `a` at zero. -/
def Memory.clearRange (m : List Host.Cell) (a n : Nat) : List Host.Cell :=
  m.filter fun c => !(decide (a ≤ c.1) && decide (c.1 < a + n))
/-- Write all of a wide value (most of them zero) in one pass and its non-zero bytes. -/
def Memory.fill (m : List Host.Cell) (a n v : Nat) : List Host.Cell :=
  let m := Memory.clearRange m a n
  if v = 0 then m else Memory.write m a n v

/-- Bytes of a number, little-endian. -/
def bytesOf : Nat → Nat → List Byte
  | 0, _ => []
  | n + 1, v => BitVec.ofNat 8 v :: bytesOf n (v / 256)
/-- The number of some bytes, little-endian. -/
def ofBytes : List Byte → Nat
  | [] => 0
  | b :: r => b.toNat + 256 * ofBytes r

/-- One exchange of two values. -/
def swapped (x : Nat) (p : Nat × Nat) : Nat := if x = p.1 then p.2 else if x = p.2 then p.1 else x
/-- The exchanges of the cipher among numbers of `n` bytes. -/
def xtsPairs (key tweak n : Nat) : List (Nat × Nat) :=
  (Config.xtsSwaps key tweak n).map fun p => (p.1 % 2 ^ (8 * n), p.2 % 2 ^ (8 * n))
/-- AES-256-XTS of a data unit and its inverse (log entry 11). -/
def xtsEncrypt (key tweak : Nat) (bs : List Byte) : List Byte :=
  bytesOf bs.length ((xtsPairs key tweak bs.length).foldl swapped (ofBytes bs))
def xtsDecrypt (key tweak : Nat) (bs : List Byte) : List Byte :=
  bytesOf bs.length ((xtsPairs key tweak bs.length).reverse.foldl swapped (ofBytes bs))

/-- Bits `lo` to `lo + n - 1` of a number. -/
def bits (v lo n : Nat) : Nat := v / 2 ^ lo % 2 ^ n
def bit (v lo : Nat) : Bool := v / 2 ^ lo % 2 == 1
/-- The signed value of the low `n` bits. -/
def sext (n v : Nat) : Int := let x := v % 2 ^ n; if x < 2 ^ (n - 1) then (x : Int) else (x : Int) - 2 ^ n
/-- A 64-bit word of a signed value. -/
def wordOf (i : Int) : Word := BitVec.ofInt 64 i
/-- Round up to a multiple. -/
def ceilTo (n k : Nat) : Nat := (n + k - 1) / k * k

/-- Where quire bytes lie in the location space: above every physical address of R60. -/
def quireBase : Nat := 2 ^ 40
def bankSize : Nat := 0x40000
def quireLoc (cluster bank off : Nat) : Nat := quireBase + (32 * cluster + bank) * bankSize + off
/-- Is a physical address populated (R60, Table 3.2)? -/
def populated (pa : Nat) : Bool := decide (pa / 2 ^ 36 < 8) && decide (pa % 2 ^ 36 < 64000000000)

/-- The link ports of a module (R1). -/
def portCount : Nat := 18
/-- The cores of a module (R1). -/
def coreCount : Nat := 160

/-- Cluster, stack group and die of a core (R2). -/
def clusterOf (core : Nat) : Nat := core / 4
def groupOf (core : Nat) : Nat := core / 20

/-- Can a translated access reach a physical address? It is populated (R60), and no part of the contexts' slot tables, once
`MSLOTBASE` has been written (R239). -/
def State.reachable (s : State) (pa : Nat) : Bool :=
  populated pa && !(s.mgmt.based.getLsbD 1 && decide (s.mgmt.mslotbase ≤ pa) && decide (pa < s.mgmt.mslotbase + 512 * 16384))

def State.bank (s : State) (k : Nat) : QBank := SMap.get {} k s.banks
def State.setBank (s : State) (k : Nat) (b : QBank) : State := { s with banks := SMap.put {} k b s.banks }

/-- The cache-mode banks of a stack group (R67): the five clusters it owns. -/
def State.cacheBanks (s : State) (g : Nat) : List Nat :=
  (List.range 160).filterMap fun i =>
    if (s.bank (160 * g + i)).mode = .cache then some (160 * g + i) else none

/-- The bank that homes a location, or none when its HBM controller does (R67). -/
def State.homeBank (s : State) (loc : Nat) : Option Nat :=
  if quireBase ≤ loc then some ((loc - quireBase) / bankSize)
  else
    let cand := s.cacheBanks (loc / 2 ^ 36)
    cand[Config.homeHash (loc / 128) % cand.length]?

/-- The banks that a mode switch is draining (R64). -/
def State.busyBanks (s : State) : List (Nat × BankMode) :=
  s.banks.filterMap fun (k, b) => if b.busy then b.switchTo.map fun (m, _) => (k, m) else none
/-- Do accesses to a location wait for a mode switch of its home (R64 step 1)? -/
def State.homeBusy (s : State) (loc : Nat) : Bool :=
  !s.busyBanks.isEmpty && match s.homeBank loc with
    | some k => (s.bank k).busy
    | none => false

/-- The beater of a location (R308, R365). -/
def State.beater (s : State) (loc : Nat) : Nat :=
  match s.homeBank loc with
  | some b => b
  | none => 1280 + 16 * (loc / 2 ^ 36) + loc / 128 % 16

/-- Bytes that share one poison mark (R93, Table 3.8): a quire line, or a 64-bit word of HBM. -/
def State.grain (s : State) (loc : Nat) : Nat := if (s.homeBank loc).isSome then 128 else 8

def State.isPoisoned (s : State) (loc n : Nat) : Bool :=
  s.poison.any fun w => decide (w * 8 < loc + n) && decide (loc < w * 8 + 8)

def insertSorted (k : Nat) : List Nat → List Nat
  | [] => [k]
  | a :: r => if k < a then k :: a :: r else if k = a then a :: r else a :: insertSorted k r

/-- Set the poison of the whole grain that holds `loc`; what has been written of its line before counts no more (R93). -/
def State.markPoison (s : State) (loc : Nat) : State :=
  let g := s.grain loc
  let base := loc / g * g / 8
  { s with poison := (List.range (g / 8)).foldl (fun p i => insertSorted (base + i) p) s.poison,
           covers := s.covers.filter (·.1 ≠ loc / 128) }

/-- Clear the poison of the words inside `n` bytes at `loc`. -/
def State.clearPoison (s : State) (loc n : Nat) : State :=
  { s with poison := s.poison.filter fun w => !(decide (loc ≤ w * 8) && decide (w * 8 + 8 ≤ loc + n)) }

/-- A writer writes some bytes of a poisoned quire line: once it has written all 128, the line is clean (Table 3.8). The writer is an
instruction, a copy, or an agent of the device within one step (DEDUCED, log entry 123). -/
def State.cover (s : State) (loc n : Nat) : State :=
  let line := loc / 128
  if !s.isPoisoned (line * 128) 128 then s
  else
    let mine := fun (x : Nat × Nat × Nat) => x.1 == line && x.2.1 == s.writer
    let before := match s.covers.find? mine with
      | some x => x.2.2
      | none => 0
    let written := (before ||| (2 ^ n - 1) * 2 ^ (loc % 128)) % 2 ^ 128
    let rest := s.covers.filter fun x => !mine x
    if written = 2 ^ 128 - 1 then { s with covers := rest }.clearPoison (line * 128) 128
    else { s with covers := (line, s.writer, written) :: rest }

/-- The poison that a write of `n` bytes of the device's own leaves: its HBM words are clean, and its quire lines where it writes all
128 bytes (Table 3.8). -/
def State.written (s : State) (loc n : Nat) : State :=
  if s.poison.isEmpty then s
  else (List.range ((loc + n + 127) / 128 - loc / 128)).foldl (fun s i =>
    let line := loc / 128 + i
    let lo := max loc (128 * line)
    let hi := min (loc + n) (128 * line + 128)
    if s.grain (128 * line) = 128 then s.cover lo (hi - lo) else s.clearPoison lo (hi - lo)) s

/-- What a store at a home did (R95, R97). -/
inductive StoreResult | stored | poisoned | dropped
  deriving DecidableEq, Repr

/-- A store of `n` bytes at its home: inside one 64-bit word, or whole words (R95, Table 3.8). Poisoned data marks the
grain; a grain that one writer has written whole with clean data is clean; a part of a poisoned word is dropped. -/
def State.homeStore (s : State) (loc n v : Nat) (poisoned : Bool) : State × StoreResult :=
  if (decide (n < 8) || decide (loc % 8 ≠ 0)) && s.isPoisoned (loc / 8 * 8) 8 then (s, .dropped)
  else
    let s := { s with mem := Memory.write s.mem loc n v }
    if poisoned then (s.markPoison loc, .poisoned)
    else
      let g := s.grain loc
      if loc % g = 0 ∧ n % g = 0 ∧ 0 < n then (s.clearPoison loc n, .stored)
      else if g = 128 then (s.cover loc n, .stored)
      else (s, .stored)

/-- The L1 copy of a line (R68). -/
def l1Find (c : Core) (line : Nat) : Option (BitVec 1024) := (c.l1.find? (·.1 = line)).map (·.2)
def l1Drop (c : Core) (line : Nat) : Core := { c with l1 := c.l1.filter (·.1 ≠ line) }
def lineOf (m : List Host.Cell) (line : Nat) : BitVec 1024 := BitVec.ofNat 1024 (Memory.read m (line * 128) 128)

/-- Replace the low `n` bytes at byte offset `off` of a bit vector held as a number. -/
def patchNat (x off n v : Nat) : Nat :=
  let lo := 2 ^ (8 * off)
  let hi := 2 ^ (8 * (off + n))
  x / hi * hi + v % 2 ^ (8 * n) * lo + x % lo

/-- A store updates the line the L1 holds and allocates none (R68). -/
def l1Update (c : Core) (loc n v : Nat) : Core :=
  { c with l1 := c.l1.map fun (l, b) =>
      if l = loc / 128 then (l, BitVec.ofNat 1024 (patchNat b.toNat (loc % 128) n v)) else (l, b) }

/-- Every core of the device holds its own state; the one in focus stands in `core`. -/
def State.coreAt (s : State) (k : Nat) : Core :=
  if k = s.core.id then s.core else SMap.get { id := k } k s.others
/-- Bring a core into focus. -/
def State.focus (s : State) (k : Nat) : State :=
  if k = s.core.id then s
  else
    { s with
      core := SMap.get { id := k } k s.others
      others := SMap.put { id := s.core.id } s.core.id s.core (SMap.erase k s.others) }
/-- Change one core, in focus or not. -/
def State.modifyCore (s : State) (k : Nat) (g : Core → Core) : State :=
  if k = s.core.id then { s with core := g s.core }
  else { s with others := SMap.put { id := k } k (g (SMap.get { id := k } k s.others)) s.others }
/-- Change every core. -/
def State.modifyCores (s : State) (g : Core → Core) : State :=
  { s with core := g s.core, others := s.others.map fun (k, c) => (k, g c) }
/-- Every core that holds something. -/
def State.cores (s : State) : List Core := s.core :: s.others.map (·.2)

/-- Does a value of its word wake a `waita` (R144, R372)? -/
def Watch.wakes (w : Watch) (m : Nat) : Bool := (if w.neq then m != w.value else m == w.value) && w.only.all (· == m)
/-- A sleeping `waita` sees the value its word holds now; those that wake it are kept, so that no write is missed (Table 1.8). -/
def Core.noteWatch (s : State) (c : Core) : Core :=
  match c.watch with
  | some w =>
    let now := (Memory.read s.mem w.loc w.n, s.isPoisoned w.loc w.n)
    if w.wakes now.1 && !w.seen.contains now then { c with watch := some { w with seen := w.seen ++ [now] } } else c
  | none => c
def State.noteWatches (s : State) : State := s.modifyCores (·.noteWatch s)

/-- The next free value's index. -/
def State.tick (s : State) : Nat × State := (s.freeCtr, { s with freeCtr := s.freeCtr + 1 })

/-- An entry of the MSI-X table, 16 bytes, bit 96 its mask; after reset all are masked: PRESUMED, as PCI Express has it (log entry
129). -/
def Mgmt.msixEntry (m : Mgmt) (v : Nat) : Nat := SMap.get (2 ^ 96) v m.msix
/-- The bridge's function sends a vector's message, or keeps it pending while the vector is masked (R423). -/
def State.sendMsix (s : State) (v : Nat) : State :=
  if bit (s.mgmt.msixEntry v) 96 then
    { s with mgmt := { s.mgmt with msixPending := s.mgmt.msixPending ||| BitVec.ofNat 64 (2 ^ v) } }
  else { s with outbox := s.outbox ++ [.msix v] }

/-- Set a pending bit of `MINT`; on the bridge a bit that was 0 and is enabled sends its message, and another device of the group
tells the bridge of the events of bits 0 to 7 (R423). -/
def State.raiseMint (s : State) (v : Nat) : State :=
  let s := if s.mgmt.bridge || 8 ≤ v then s else { s with outbox := s.outbox ++ [.link "mint" 0xFFFF [v] []] }
  if s.mgmt.mint.getLsbD v then s
  else
    let s := { s with mgmt := { s.mgmt with mint := s.mgmt.mint ||| BitVec.ofNat 64 (2 ^ v) } }
    if s.mgmt.bridge && s.mgmt.minten.getLsbD v then s.sendMsix v else s

end Sys2Proof.Machine
end

