-- ==== Sys2Proof/Machine/Older.lean ====
section
/-!
DEFINITION. The unfinished engine instructions that are older than what the core in focus executes (R18, R20), and what kind of
accesses they make (R28, R75, R76).
-/

namespace Sys2Proof.Machine

/-- The instruction of an entry of the queue; a word that does not decode can stand in no queue that the device has filled. -/
def DumpEntry.instr? (e : DumpEntry) : Option Instr := match decode e.word with | .ok j => some j | .error _ => none

/-- The entries older than what the core in focus executes: of an entry of the queue those before it, of an instruction of the front all
of them. One at the head of the queue has none before it. -/
def State.older (s : State) : List DumpEntry :=
  match s.core.ahead, s.core.cur with
  | none, _ => []
  | some _, some _ => s.core.f.queue.take s.core.curAt
  | some _, none => s.core.f.queue
/-- Those that have not done all their work; one that has waits for its commit. -/
def State.unfinished (s : State) : List DumpEntry := s.older.filter (·.done.isNone)
/-- Does an unfinished one satisfy `p`? -/
def State.anyUnfinished (s : State) (p : DumpEntry → Instr → Bool) : Bool :=
  s.unfinished.any fun e => match e.instr? with
    | some j => p e j
    | none => true

/-- The scalar register an engine instruction writes when it is done. -/
def scalarResult : Instr → Option (Fin 32)
  | .mpop _ d .. | .mfirst _ d .. | .vmtx _ d .. | .vredsum _ d .. | .vfredsum _ d .. | .vredmax _ d .. | .vredmin _ d ..
  | .vextr _ d .. | .vappend _ _ _ d .. | .pstat _ d .. | .fxstat _ d .. | .bmode _ _ d .. | .mprobe _ d .. => some d
  | _ => none

/-- The scalar register that an entry is still to write: a `vappend` writes its own as it starts (R199). -/
def DumpEntry.owes (e : DumpEntry) : Option (Fin 32) :=
  if e.done.isSome || e.dead then none
  else match e.instr? with
    | some (.vappend _ _ _ d ..) => if e.started then none else some d
    | some i => scalarResult i
    | none => none

/-- The order of an engine instruction or command. -/
def orderOf : Instr → Order
  | .vappend _ o .. | .vscadd _ o .. | .vamo _ _ o .. | .vstc _ o .. | .cpy _ o .. | .cpym _ o .. | .cpyf _ o .. | .cfill _ o ..
  | .lput _ o .. | .lget _ o .. | .lsend _ o .. | .coll _ _ o .. => o
  | _ => .rlx

/-- An instruction of the lanes or the press whose result depends on `VTYPE` (R160, R161). -/
def readsVtype : Instr → Bool
  | .vfadd .. | .vfsub .. | .vfmul .. | .vfma .. | .vfnma .. | .vfdiv .. | .vfsqrt .. | .vfrcp .. | .vfexp2 .. | .vcvt .. | .vscale ..
  | .vfredsum .. | .vscan .. | .bmmx .. => true
  | _ => false

/-- The fields of an element access of the lanes that reach memory through the load/store queue, in a register (R28). -/
def isLaneAccess : Instr → Bool
  | .vld .. | .vlds .. | .vldx .. | .vst .. | .vsts .. | .vstx .. | .vspill .. | .vfill .. | .vappend .. => true
  | _ => false
/-- An instruction that sends elements to beaters (R316). -/
def isBeaterOp : Instr → Bool
  | .vscadd .. | .vamo .. | .vstc .. => true
  | _ => false
/-- An access of the press to memory (R80). -/
def isPressAccess : Instr → Bool
  | .tld .. | .tst .. | .ald .. | .ast .. => true
  | _ => false
/-- A change of the vat's slots, after which a slot may hold another mould (R239). -/
def changesSlots : Instr → Bool
  | .mbind .. | .munbind .. => true
  | _ => false
/-- Engine instructions that make an event of the chain log (Table 16.3). -/
def makesEvent : Instr → Bool
  | .vappend .. | .vscadd .. | .vamo .. | .vstc .. => true
  | .cpyf _ _ _ _ _ _ _ _ add => add
  | _ => false

/-- The mould of a fabric opcode, if the core holds it and no older instruction may put another into its slot (R243). -/
def mouldOf (s : State) (e : DumpEntry) (j : Instr) : Option Mould :=
  let held := fun (slot : Nat) => (s.core.moulds.find? fun r => r.asid == s.core.info.asid && r.slot == slot).map (·.mould)
  if s.core.f.queue.any fun x => x.instr?.any changesSlots then none
  else match j with
    | .fx _ _ slot .. => held slot.val
    | .fxres .. => if e.started then held (bits (s.core.f.fx[0]).toNat 3 5) else none
    | _ => none
/-- The memory-port streams of a fabric opcode; four of one whose mould is not known (R249). -/
def portStreams (s : State) (e : DumpEntry) (j : Instr) : Nat :=
  match j with
  | .fx .. | .fxres .. => min 4 (((mouldOf s e j).map (·.nmem)).getD 4)
  | _ => 0

/-- The entries of the load/store queue of an engine instruction (R28). -/
def queueEntries (s : State) (e : DumpEntry) (j : Instr) : Nat :=
  if isLaneAccess j || isBeaterOp j then 1 else portStreams s e j
/-- Does it still load through the load/store queue (R73)? -/
def stillLoads (s : State) (e : DumpEntry) (j : Instr) : Bool :=
  match j with
  | .vld .. | .vlds .. | .vldx .. | .vfill .. | .vamo .. => true
  | .vappend .. => e.old.isNone
  | _ => portStreams s e j != 0
/-- Is it an access that a release waits for (R76)? -/
def isAccess (s : State) (e : DumpEntry) (j : Instr) : Bool := queueEntries s e j != 0 || isPressAccess j

/-- The unfinished entries of a core that still load through its load/store queue, by name. -/
def loadsOf (s : State) (core : Nat) : List Nat :=
  let c := s.coreAt core
  (c.cur.toList ++ c.f.queue).filterMap fun e =>
    if e.done.isNone && (e.instr?.any fun j => stillLoads s e j) then some e.name else none

end Sys2Proof.Machine
end

