-- ==== Sys2Proof/Machine/Access.lean ====
section
/-!
DEFINITION. The step monad, physical accesses, the page walk and the TLBs (R82 to R90), and single accesses of each
port (R28, R68, R71, R80, R93 to R95).
-/

namespace Sys2Proof.Machine

/-- Why an operation does not run to its end. -/
inductive Stop
  | trap (t : Trap)
  | replay (engine : Nat) (pages : List PageFault)
  | wait (w : Wait)
  | fault (f : Fault)
  | left
  | budget
  deriving DecidableEq, Repr

/-- Operations over the state that may stop. -/
abbrev M (α : Type) : Type := ExceptT Stop (StateM State) α

def stopWith {α : Type} (e : Stop) : M α := throw e
def getS : M State := get
def modS (g : State → State) : M Unit := modify g
def modF (g : Firing → Firing) : M Unit :=
  modify fun s => { s with core := { s.core with f := g s.core.f } }
def modC (g : Core → Core) : M Unit := modify fun s => { s with core := g s.core }
def getF : M Firing := do return (← getS).core.f
/-- The answer of an operation, its effects aside. -/
def peek {α : Type} (x : M α) (d : α) (s : State) : α :=
  match (x s).1 with
  | .ok a => a
  | .error _ => d
/-- Run for each number below `n`, in ascending order. -/
def upTo (n : Nat) (g : Nat → M Unit) : M Unit := (List.range n).forM g
/-- A fresh free value's index. -/
def fresh : M Nat := do let (n, s) := (← getS).tick; set s; return n

/-- Cause codes (Table 4.1). -/
def cILLOP := 0x01
def cILLFMT := 0x02
def cPRIV := 0x03
def cSTALLCHK := 0x04
def cVERSION := 0x05
def cNONCANON := 0x10
def cMISALIGN := 0x11
def cQUIREMODE := 0x12
def cQUIREOWN := 0x13
def cSCOPEMEM := 0x14
def cBOUND := 0x15
def cNOTMAPPED := 0x20
def cPROT := 0x21
def cPTEBAD := 0x22
def cCONFPAGE := 0x23
def cPOISON := 0x30
def cHWERR := 0x31
def cPOISONSTORE := 0x32
def cSEALBAD := 0x33
def cFXUNBOUND := 0x40
def cMOULDBAD := 0x41
def cTILECFG := 0x42
def cQPATTERN := 0x43
def cLAUNCHBAD := 0x44
def cDIVERGE := 0x50
def cLOGBAD := 0x51
def cSYS := 0x60
def cBRK := 0x61
def cHALT := 0x62
def cNOHANDLER := 0x70
def cCOLLTIMEOUT := 0x71
def cLINKDOWN := 0x72
def cREMOTEFAULT := 0x73

/-- A physical access of the device: an address R60 says does not exist is a fault. -/
def physRead (pa n : Nat) : M Nat := do
  if !populated pa then stopWith (.fault (.noSuchAddress pa))
  return Memory.read (← getS).mem pa n
def physWrite (pa n v : Nat) : M Unit := do
  if !populated pa then stopWith (.fault (.noSuchAddress pa))
  modS fun s => (s.homeStore pa n v false).1
def physBytes (pa n : Nat) : M (List Byte) := do
  if !populated pa then stopWith (.fault (.noSuchAddress pa))
  return Memory.readBytes (← getS).mem pa n
def physWriteBytes (pa : Nat) (bs : List Byte) : M Unit := do
  if !populated pa then stopWith (.fault (.noSuchAddress pa))
  modS fun s => ({ s with mem := Memory.writeBytes s.mem pa bs } : State).written pa bs.length

def physFill (pa n v : Nat) : M Unit := do
  if !populated pa then stopWith (.fault (.noSuchAddress pa))
  modS fun s => ({ s with mem := Memory.fill s.mem pa n v } : State).written pa n
/-- A write of `n` bytes at a home by one of the device's own operations, which no translation stands before; who sleeps on its word
sees it (Table 1.8). -/
def homePut (loc n v : Nat) : M Unit := modS fun s => (s.homeStore loc n v false).1.noteWatches

/-- A field of a context descriptor (R110, Table 4.6). -/
def ctxAddr (s : State) (asid off : Nat) : Nat := s.mgmt.ctxbase + 256 * asid + off
def ctxField (asid off n : Nat) : M Nat := do physRead (ctxAddr (← getS) asid off) n
def State.ctxRaw (s : State) (asid off n : Nat) : Nat := Memory.read s.mem (ctxAddr s asid off) n

/-- Permissions an access needs of its leaf (R83, R84). -/
structure Need where
  rd : Bool := false
  wr : Bool := false
  ex : Bool := false
  deriving DecidableEq, Repr

def needLoad : Need := { rd := true }
def needStore : Need := { wr := true }
def needBoth : Need := { rd := true, wr := true }
def needFetch : Need := { ex := true }

/-- Access kinds of `DETAIL` (Table 4.7). -/
def aFetch := 0
def aLoad := 1
def aStore := 2
def aAtomic := 3
def aScatter := 4

/-- A failed check of an access: cause, address, access kind of `DETAIL`. -/
structure AErr where
  cause : Nat
  va : Word
  access : Nat
  deriving DecidableEq, Repr

/-- Who makes an access: the core whose cluster and TLBs serve it, the context, the level; `tlb` is false for agents
that have no TLB of their own (the scheduler, the link engine), whose walks fill none. -/
structure Agent where
  core : Nat
  asid : Nat
  level : Nat
  tlb : Bool := true
  deriving DecidableEq, Repr

/-- Is the firing behind an `lfence` whose `lget` and `coll` commands have not all written their destinations (R398)? -/
def fenced (s : State) : Bool :=
  let i := s.core.info
  s.core.f.acqFence != 0 && s.cores.any fun c => c.cmds.toList.any fun o => match o with
    | some x => x.owner == (i.asid, i.slot) && !x.orphan && !x.ended && decide (x.seqNo < s.core.f.acqFence) &&
        (match x.kind with | .lget _ | .coll .. => true | _ => false)
    | none => false

/-- The firing of the core in focus, as it makes an access; it makes none behind such a fence, nor behind an acquire that an older engine
instruction or command has not performed (R75, R79). -/
def me : M Agent := do
  let s ← getS
  if fenced s || s.anyUnfinished (fun _ j => Order.isAcq (orderOf j)) then stopWith (.wait .background)
  return { core := s.core.id, asid := s.core.info.asid, level := s.core.f.level }

/-- Reserved bits of a table entry (Table 3.5): 11, 51 to 39, 63 to 59, and `C` above level 0. -/
def pteReserved (pte level : Nat) : Bool :=
  bit pte 11 || bits pte 39 13 != 0 || bits pte 59 5 != 0 || (bit pte 8 && level != 0)
/-- A table entry without `AC`, `DT` and `SW`, for comparison (R84, R85). -/
def pteCore (pte : Nat) : Nat := bits pte 0 6 + 256 * bits pte 8 44 + 2 ^ 59 * bits pte 59 5
def ptePa (pte : Nat) : Nat := bits pte 12 27 * 4096

/-- Page size of a leaf: 1 GiB, 2 MiB, 64 KiB or 4 KiB (R82). -/
def leafLog2 (level : Nat) (c : Bool) : Nat :=
  match level with
  | 2 => 30
  | 1 => 21
  | _ => if c then 16 else 12

/-- The PTEBAD conditions of one entry (Table 3.6), but for the group of 16. -/
def pteBad (pte level : Nat) : Bool :=
  let leaf := !(bit pte 1)
  pteReserved pte level || (leaf && level == 3) || (!leaf && level == 0) || (bit pte 3 && !(bit pte 2))
    || decide (2 ≤ bits pte 9 2) || !populated (ptePa pte)
    || (leaf && level != 3 && ptePa pte % 2 ^ leafLog2 level (bit pte 8) != 0 && !(bit pte 8 && level == 0))

/-- A group of 16 entries of a 64 KiB page: all alike but for `AC`, `DT`, `SW`, addresses consecutive from an aligned
one (R82, R84). -/
def groupBad (mem : List Host.Cell) (pteAddr : Nat) : Bool :=
  let base := pteAddr / 128 * 128
  let p0 := Memory.read mem base 8
  ptePa p0 % 65536 != 0 ||
    (List.range 16).any fun i =>
      let p := Memory.read mem (base + 8 * i) 8
      pteCore p != pteCore p0 + 4096 * i

/-- The walk (R82 to R84): the leaf's address and entry, or the first fault that applies at a level. The spec states no
outcome for an entry that is poisoned; the walk takes POISON there (DEDUCED from R94, log entry 37). -/
def walkLevels (s : State) (va : Nat) : Nat → Nat → Except Nat (Nat × Nat × Nat)
  | level, table =>
    let pa := table + 8 * bits va (12 + 9 * level) 9
    let pte := Memory.read s.mem pa 8
    if s.isPoisoned pa 8 then .error cPOISON
    else if !(bit pte 0) then .error cNOTMAPPED
    else if pteBad pte level then .error cPTEBAD
    else if bit pte 1 then
      match level with
      | 0 => .error cPTEBAD
      | l + 1 => walkLevels s va l (ptePa pte)
    else if bit pte 8 && s.isPoisoned (pa / 128 * 128) 128 then .error cPOISON
    else if bit pte 8 && groupBad s.mem pa then .error cPTEBAD
    else .ok (pa, pte, level)

/-- The walker's atomic OR into an entry at its home (R85); over poison an atomic writes nothing (R96). -/
def State.orEntry (s : State) (pteAddr mask : Nat) : State :=
  if s.isPoisoned pteAddr 8 then s
  else (s.homeStore pteAddr 8 (Memory.read s.mem pteAddr 8 ||| mask) false).1

def TlbEntry.covers (e : TlbEntry) (asid va : Nat) : Bool := e.asid == asid && va / 2 ^ e.sizeLog2 == e.vpn
def TlbEntry.pa (e : TlbEntry) (va : Nat) : Nat := e.ppn * 2 ^ e.sizeLog2 + va % 2 ^ e.sizeLog2

/-- Does the leaf permit the access (R84, PROT)? -/
def TlbEntry.permits (e : TlbEntry) (need : Need) (level : Nat) : Bool :=
  (!need.rd || e.rd) && (!need.wr || e.wr) && (!need.ex || e.ex) && (e.us || decide (1 ≤ level))

/-- Entries of a full TLB give one up (R86); which one is free. -/
def tlbAdd (cap victim : Nat) (e : TlbEntry) (l : List TlbEntry) : List TlbEntry :=
  e :: (if l.length < cap then l else l.eraseIdx (victim % l.length))

/-- Is a frame of the page owned by another context (R90)? Owners are held as identifier + 1. -/
def ownedByOther (s : State) (asid pa log2 : Nat) : Bool :=
  s.owners.any fun (f, o) => decide (pa ≤ f * 4096) && decide (f * 4096 < pa + 2 ^ log2) && o != asid + 1

/-- Fill the TLBs from a leaf after a walk, setting `AC` (R85), or raise the leaf's faults. An agent without a TLB fills
none and sets no `AC`. -/
def walkFill (g : Agent) (need : Need) (va : Nat) : M (Except Nat TlbEntry) := do
  let root ← ctxField g.asid 0x08 8
  if !populated root then stopWith (.fault (.noSuchAddress root))
  let s ← getS
  match walkLevels s va 3 root with
  | .error c => return .error c
  | .ok (pteAddr, pte, level) =>
    let log2 := leafLog2 level (bit pte 8)
    let base := ptePa pte / 2 ^ log2 * 2 ^ log2
    let e : TlbEntry :=
      { asid := g.asid, sizeLog2 := log2, vpn := va / 2 ^ log2, ppn := base / 2 ^ log2, rd := bit pte 2,
        wr := bit pte 3, ex := bit pte 4, us := bit pte 5, homeOnly := bits pte 9 2 == 1, dt := bit pte 7,
        pteAddr := pteAddr, pte := pteCore pte }
    if !e.permits need g.level then return .error cPROT
    if ownedByOther s g.asid base log2 then return .error cCONFPAGE
    if g.tlb then
      modS fun s => s.orEntry pteAddr 64
      let v ← fresh
      let s ← getS
      let cl := clusterOf g.core
      set { s with ctlbs := SMap.put [] cl (tlbAdd 4096 (Config.tlbVictim v) e (SMap.get [] cl s.ctlbs)) s.ctlbs }
      let v ← fresh
      modS fun s => s.modifyCore g.core fun c => { c with tlb := tlbAdd 64 (Config.tlbVictim v) e c.tlb }
    return .ok e

/-- The entry of an address from the core's TLB, its cluster's, or a walk (R86, R89). -/
def tlbLookup (g : Agent) (need : Need) (va : Nat) : M (Except Nat TlbEntry) := do
  let s ← getS
  if !g.tlb then walkFill g need va
  else
    match (s.coreAt g.core).tlb.find? (·.covers g.asid va) with
    | some e => return .ok e
    | none =>
      match (SMap.get [] (clusterOf g.core) s.ctlbs).find? (·.covers g.asid va) with
      | some e =>
        let v ← fresh
        modS fun s => s.modifyCore g.core fun c => { c with tlb := tlbAdd 64 (Config.tlbVictim v) e c.tlb }
        return .ok e
      | none => walkFill g need va

/-- Drop or change entries in every TLB of the device. -/
def mapTlbs (keep : TlbEntry → Bool) (g : TlbEntry → TlbEntry) (s : State) : State :=
  let f := fun (l : List TlbEntry) => (l.filter keep).map g
  { s.modifyCores (fun c => { c with tlb := f c.tlb }) with ctlbs := s.ctlbs.map fun (k, l) => (k, f l) }

/-- `DT` is set in an entry, and in every TLB that holds it (R85). -/
def markDirty (e : TlbEntry) : M TlbEntry := do
  modS fun s => mapTlbs (fun _ => true) (fun x => if x = e then { x with dt := true } else x) (s.orEntry e.pteAddr 128)
  return { e with dt := true }

/-- Set `DT` on the first write through an entry; an entry that has changed since the walk, or that cannot be read, is
walked again (R85). -/
def setDirty (g : Agent) (need : Need) (va : Nat) (e : TlbEntry) : M (Except Nat TlbEntry) := do
  if e.dt || !need.wr then return .ok e
  else
    let s ← getS
    if pteCore (Memory.read s.mem e.pteAddr 8) = e.pte && !s.isPoisoned e.pteAddr 8 then return .ok (← markDirty e)
    else
      modS fun s => mapTlbs (fun x => x != e) id s
      match ← walkFill g need va with
      | .error c => return .error c
      | .ok e' => return .ok (← markDirty e')

/-- The place of an access: its location, and whether a line of it may stand in an L1. -/
structure Place where
  loc : Nat
  cacheable : Bool
  deriving DecidableEq, Repr

/-- Is an address in the quire window (R59)? -/
def inWindow (va : Word) : Bool := decide (0xFFFFFF800000 ≤ va.toNat) && decide (va.toNat < 2 ^ 48)

/-- Translation of a canonical address outside the window, with its faults (Table 3.6). An address that no translated access
reaches (R60, R239) is PTEBAD; an access to a bank that switches its mode waits (R64 step 1). -/
def translate (g : Agent) (need : Need) (kind : Nat) (va : Word) : M (Except AErr Place) := do
  let bad := fun c : Nat => (⟨c, va, if c = cPTEBAD then 5 else kind⟩ : AErr)
  match ← tlbLookup g need va.toNat with
  | .error c => return .error (bad c)
  | .ok e =>
    if !e.permits need g.level then return .error (bad cPROT)
    match ← setDirty g need va.toNat e with
    | .error c => return .error (bad c)
    | .ok e =>
      let pa := e.pa va.toNat
      if !(← getS).reachable pa then return .error (bad cPTEBAD)
      if (← getS).homeBusy pa then stopWith (.wait .background)
      return .ok ⟨pa, !e.homeOnly⟩

/-- The checks of one access, in the order of R141 and R212: NONCANON, MISALIGN, QUIREMODE, QUIREOWN, then the faults
of Table 3.6. A fetch from the window raises PROT (R61). -/
def locate (g : Agent) (need : Need) (kind : Nat) (va : Word) (align : Nat) : M (Except AErr Place) := do
  if 2 ^ 48 ≤ va.toNat then return .error ⟨cNONCANON, va, kind⟩
  if va.toNat % align ≠ 0 then return .error ⟨cMISALIGN, va, kind⟩
  if inWindow va then
    if need.ex then return .error ⟨cPROT, va, kind⟩
    let off := va.toNat - 0xFFFFFF800000
    let k := 32 * clusterOf g.core + off / bankSize
    let b := (← getS).bank k
    if b.busy then stopWith (.wait .background)
    if b.mode ≠ .scratch then return .error ⟨cQUIREMODE, va, kind⟩
    if !b.gv || b.gasid ≠ g.asid then return .error ⟨cQUIREOWN, va, kind⟩
    return .ok ⟨quireBase + k * bankSize + off % bankSize, false⟩
  else translate g need kind va

/-- The ports a core reaches memory by (R28, R68, R80). -/
inductive Port | lsq | press | head
  deriving DecidableEq, Repr

/-- A beat crosses the crossbar between a core and a home: does it arrive poisoned, having failed eight times (Table 3.7)? -/
def takeBeat (core : Nat) : M Bool := do
  let bad := ((← getS).coreAt core).badBeat
  if bad then modS fun s => s.modifyCore core fun c => { c with badBeat := false }
  return bad

/-- R17: scopes `.sg` and `.dm` may not name quire scratch. -/
def scopeBad (sc : Scope) (va : Word) : Bool := decide (2 ≤ sc.code) && inWindow va

end Sys2Proof.Machine
end

