-- ==== Sys2Proof/Machine/Late.lean ====
section
/-!
DEFINITION. Fault records (R111), and what is on its way to its home: stores (R72, R73, R80) and tokens at the beaters (R309 to R311,
R314, R315), how a home or a beater performs them, and what a release makes visible (R16, R76).
-/

namespace Sys2Proof.Machine

def slotKey (asid slot : Nat) : Nat := asid * 65536 + slot

/-- An agent of a context that is no core: the walker of a cluster serves it, no TLB is filled (log entry 14). -/
def agentOf (asid level : Nat) (core : Nat := 0) : Agent := { core := core, asid := asid, level := level, tlb := false }

def ctxFlags (asid : Nat) : M Nat := ctxField asid 0 4
def isConf (asid : Nat) : M Bool := do return bit (← ctxFlags asid) 1
/-- The key in a context's key slot (`KEYID`), if it has been loaded for that context (R122, R420). -/
def heldKey (asid : Nat) : M (Option Nat) := do
  match SMap.get none (← ctxField asid 0x6C 2) (← getS).mgmt.keys with
  | some (owner, key) => return if owner = asid then some key else none
  | none => return none
/-- The key of a context; one that has none stands for key 0. -/
def ctxKey (asid : Nat) : M Nat := do return (← heldKey asid).getD 0

/-- Bump a beater's commit sequence (R365); the sequence number the token took. -/
def bseqNext (loc : Nat) : M (Nat × Nat) := do
  let s ← getS
  let b := s.beater loc
  let q := SMap.get 0 b s.bseq
  set { s with bseq := SMap.put 0 b ((q + 1) % 2 ^ 32) s.bseq }
  return (b, q)

/-- A fault record before it is written (Table 4.7). -/
structure FRec where
  cause : Nat
  replay : Bool := false
  deferred : Bool := false
  engine : Nat := 0
  asid : Nat
  core : Nat := 0xFFFF
  slot : Nat := 0xFFFF
  addr : Nat := 0
  index : Nat := 0
  count : Nat := 0
  access : Nat := 0
  detail : Nat := 0
  deriving DecidableEq, Repr

/-- Append a fault record to its context's queue (R111), sealed for a confidential context (R123); a full queue drops it
and counts `FRQLOST`. Answers the queue index written. -/
def writeFRec (r : FRec) : M (Option Nat) := do
  let base ← ctxField r.asid 0x20 8
  let size := 2 ^ (← ctxField r.asid 0x28 1)
  let head ← ctxField r.asid 0x30 4
  let tail ← ctxField r.asid 0x34 4
  let a := ctxAddr (← getS) r.asid 0
  if (tail + 1) % size = head % size then
    let lost ← ctxField r.asid 0x38 4
    physWrite (a + 0x38) 4 (lost + 1)
    modS fun s => { s with lostOwed := insertSorted r.asid s.lostOwed }
    return none
  else
    let s ← getS
    let conf ← isConf r.asid
    let lost := s.lostOwed.contains r.asid
    let fl := r.replay.toNat + 2 * r.deferred.toNat + 4 * conf.toNat + 8 * lost.toNat + 16 * (r.engine % 8)
    let cause := if conf then r.cause / 16 * 16 + 15 else r.cause
    let det := (r.access % 8) + 8 * (r.detail % 32) + 256 * r.cause
    let plain := bytesOf 8 r.addr ++ bytesOf 4 r.index ++ bytesOf 2 (min r.count 65535) ++ bytesOf 2 det
    let key ← ctxKey r.asid
    let body := if conf then xtsEncrypt key (r.asid * 65536 + tail % size) plain else plain
    physWriteBytes (base + 32 * (tail % size))
      (bytesOf 1 cause ++ bytesOf 1 fl ++ bytesOf 2 r.asid ++ bytesOf 2 r.core ++ bytesOf 2 r.slot
        ++ bytesOf 8 s.cycle.toNat ++ body)
    physWrite (a + 0x34) 4 ((tail + 1) % size)
    modS fun s => ({ s with lostOwed := s.lostOwed.filter (· != r.asid) }.raiseMint 1).noteWatches
    return some (tail % size)

/-- A deferred record of a store dropped over poison (R95), and the mark that `end` collects. -/
def poisonStore (g : Agent) (va : Word) : M Unit := do
  let _ ← writeFRec { cause := cPOISONSTORE, deferred := true, engine := 0, asid := g.asid, addr := va.toNat,
                      access := aStore }
  return ()

/-- The instance of a level that holds a core. -/
def instOf (level core : Nat) : Nat :=
  match level with
  | 0 => core
  | 1 => clusterOf core
  | 2 => groupOf core
  | _ => 0

/-! Accesses at the homes. -/

/-- Read `n` bytes at a place: through the L1 by the load/store queue (R68), at the home otherwise. A line that arrives poisoned, or
of a page that is not cacheable, is in no L1 afterwards (R70). The second result is the poison of the bytes read. -/
def readHome (g : Agent) (port : Port) (p : Place) (n : Nat) : M (Nat × Bool) := do
  let s ← getS
  let line := p.loc / 128
  match if port = .lsq && p.cacheable then l1Find (s.coreAt g.core) line else none with
  | some b => return (bits b.toNat (8 * (p.loc % 128)) (8 * n), false)
  | none =>
    let beat ← if g.tlb then takeBeat g.core else pure false
    if port = .lsq then
      modS fun t => t.modifyCore g.core fun c =>
        if p.cacheable && !beat && !s.isPoisoned (line * 128) 128 then { c with l1 := ((line, lineOf s.mem line) :: c.l1).take 512 }
        else l1Drop c line
    return (Memory.read s.mem p.loc n, beat || s.isPoisoned p.loc n)

/-- A store at a place: written through to the home; the load/store queue's stores update the core's own L1 line, the
press's invalidate it, the headbox's leave it (R68). Who sleeps on its word sees it (Table 1.8). -/
def writeHome (g : Agent) (port : Port) (p : Place) (n v : Nat) (poisoned : Bool) : M StoreResult := do
  let beat ← if g.tlb then takeBeat g.core else pure false
  let (s, r) := (← getS).homeStore p.loc n v (poisoned || beat)
  set s.noteWatches
  if r ≠ .dropped then
    match port with
    | .lsq =>
      modS fun s => s.modifyCore g.core fun c => if r = .poisoned then l1Drop c (p.loc / 128) else l1Update c p.loc n v
    | .press => modS fun s => s.modifyCore g.core fun c => l1Drop c (p.loc / 128)
    | .head => pure ()
  return r

/-! Stores on their way to their homes. -/

/-- Does a store of a core's load/store queue touch some bytes, or hold all of them? -/
def LateStore.touches (x : LateStore) (core loc n : Nat) : Bool :=
  !x.press && x.core == core && decide (x.loc < loc + n) && decide (loc < x.loc + x.n)
def LateStore.holds (x : LateStore) (core loc n : Nat) : Bool :=
  !x.press && x.keep == 0 && x.core == core && decide (x.loc ≤ loc) && decide (loc + n ≤ x.loc + x.n)

/-- The bytes a store writes where its home holds `old`: those of its bits (R209). -/
def mergeBits (old new keep : Nat) : Nat := if keep = 0 then new else (old &&& keep) ||| (new - (new &&& keep))

/-- Write as a part of an instruction whose stores reach their homes in several steps (R93). -/
def writingAs {α : Type} (writer : Nat) (x : M α) : M α := do
  let back := (← getS).writer
  modS fun s => { s with writer := writer }
  let r ← x
  modS fun s => { s with writer := back }
  return r

/-- The home performs a store (R72): what R95 and R97 make of it is its firing's. -/
def performStore (x : LateStore) : M Unit := do
  let g : Agent := { core := x.core, asid := x.asid, level := x.level }
  let v := mergeBits (Memory.read (← getS).mem x.loc x.n) x.value x.keep
  let r ← writingAs x.writer (writeHome g (if x.press then .press else .lsq) ⟨x.loc, x.cacheable⟩ x.n v x.poison)
  if r = .dropped then poisonStore g x.va
  if r ≠ .stored then modS fun s => s.modifyCore x.core fun c => { c with f := { c.f with poisonOut := true } }

/-- Must a store be performed before another one: those of the press in their order (R80), those of a `vspill` in theirs (R219)? -/
def LateStore.before (x y : LateStore) : Bool :=
  x.core == y.core && ((x.press && y.press) || (x.writer == y.writer && decide (0 < x.turn) && decide (x.turn < y.turn)))
/-- Of a list of stores, oldest first: those that satisfy `p` with all that must be performed before them, and the others. -/
def chosenStores (p : LateStore → Bool) : List LateStore → List LateStore × List LateStore
  | [] => ([], [])
  | x :: r =>
    let (now, later) := chosenStores p r
    if p x || now.any x.before then (x :: now, later) else (now, x :: later)
/-- Has a store to wait for a load of the same load/store queue that is older and not performed (R73)? -/
def LateStore.blocked (s : State) (x : LateStore) : Bool :=
  match x.after with
  | [] => false
  | l => (loadsOf s x.core).any l.contains
/-- May a store be performed now, with all that must come before it? -/
def LateStore.ready (s : State) (x : LateStore) : Bool := !s.stores.any fun y => (y == x || y.before x) && y.blocked s

/-- Perform, oldest first, the stores that satisfy `p`, and what must come before them; one that has to wait for a load holds them all. -/
def performStores (p : LateStore → Bool) : M Unit := do
  let s ← getS
  let (now, later) := chosenStores p s.stores
  if now.any (·.blocked s) then stopWith (.wait .background)
  modS fun s => { s with stores := later }
  now.forM performStore
/-- Every store of a core is performed, but for those that wait for a load, which is younger than what asks for it. -/
def settleStores (core : Nat) : M Unit := do
  let s ← getS
  performStores fun x => x.core == core && x.ready s
/-- At a stop the loads that a core's stores wait for are abandoned, and the stores are performed (R108). -/
def settleStopped (core : Nat) : M Unit := do
  modS fun s => { s with stores := s.stores.map fun x => if x.core = core then { x with after := [] } else x }
  settleStores core

/-- No store of a core becomes visible before the loads that its load/store queue has accepted of a firing since stopped (R73, R108):
it waits for them. -/
def lateLoads (core : Nat) : M Unit := do
  if (← getS).late.any (·.core == core) then stopWith (.wait .background)
/-- Nor before the older loads that are not performed. -/
def olderLoads (core : Nat) : M Unit := do
  lateLoads core
  let s ← getS
  if s.anyUnfinished (stillLoads s) then stopWith (.wait .background)

/-! Tokens. -/

/-- The sticky flags of a context at the beater of a location (R314). -/
def State.stickyKey (s : State) (loc asid : Nat) : Nat := 16384 * s.beater loc + asid % 16384
def State.raiseFlags (s : State) (loc asid : Nat) (fl : Flags) : State :=
  let k := s.stickyKey loc asid
  { s with sticky := SMap.put 0 k (SMap.get 0 k s.sticky ||| fl) s.sticky }
def raiseSticky (loc asid : Nat) (fl : Flags) : M Unit := modS (·.raiseFlags loc asid fl)

/-- An acknowledgement of a token at a location to the firing in (context, slot): the beater's sticky flags of the context (R314), and
what R97 collects. -/
def acknowledge (loc asid slot : Nat) (poison : Bool) : M Unit := do
  let s ← getS
  let k := s.stickyKey loc asid
  let fl := SMap.get 0 k s.sticky
  let s := { s with sticky := SMap.put 0 k 0 s.sticky }
  match s.cores.find? (fun c => c.running && c.info.asid == asid && c.info.slot == slot) with
  | some c =>
    set (s.modifyCore c.id fun c =>
      { c with f := { c.f with beatFlags := c.f.beatFlags ||| fl, poisonOut := c.f.poisonOut || poison } })
  | none =>
    let k := slotKey asid slot
    match SMap.get none k s.slots with
    | some i =>
      let i := { i with beatFlags := i.beatFlags ||| fl, poisonOut := i.poisonOut || poison }
      set { s with slots := SMap.put none k (some i) s.slots }
    | none => set s

/-- The record of an update a beater dropped over poison (R95, R315). -/
def beaterDrop (asid : Nat) (va : Word) (access : Nat) : M Unit := do
  let _ ← writeFRec { cause := cPOISONSTORE, deferred := true, engine := 5, asid := asid, addr := va.toNat,
                      access := access }
  return ()

/-- A write of a beater element has been performed: the L1s of the cores whose tokens it performs keep no older copy of the line (R70,
R318). -/
def dropOwnLine (t : Token) : M Unit :=
  modS fun s => (t.core :: t.merged.map (·.core)).foldl (fun s k => s.modifyCore k fun c => l1Drop c (t.loc / 128)) s

/-- The effect of a token at its location (R314, R315): is the update, with all that has merged into it, dropped over poison (R95)? Who
sleeps on its word sees what it has written (Table 1.8). -/
def tokenEffect (t : Token) : M Bool := do
  let s ← getS
  match t.op with
  | .add f =>
    if s.isPoisoned t.loc t.n then
      beaterDrop t.asid t.va aScatter
      acknowledge t.loc t.asid t.slot true
      return true
    else
      let v := Memory.read s.mem t.loc t.n
      let (y, fl) := if f.isInt then ((v + t.value) % 2 ^ (8 * t.n), 0) else beaterAdd f v t.value
      modS fun s => (s.homeStore t.loc t.n y t.poison).1.noteWatches
      dropOwnLine t
      raiseSticky t.loc t.asid fl
      acknowledge t.loc t.asid t.slot t.poison
      return false
  | .store _ =>
    let (s', r) := s.homeStore t.loc t.n t.value t.poison
    set s'.noteWatches
    dropOwnLine t
    if r = .dropped then beaterDrop t.asid t.va aScatter
    acknowledge t.loc t.asid t.slot (t.poison || r == .dropped)
    return r == .dropped

/-- Perform a token as one indivisible step at its location (R310); the tokens merged into it are acknowledged with it (R320), and what
R95 drops is dropped for each of them (R97). -/
def performToken (t : Token) : M Unit := do
  let _ ← bseqNext t.loc
  let dropped ← tokenEffect t
  t.merged.forM fun x => acknowledge t.loc t.asid x.slot (x.poison || dropped)

/-- Is a token, or one merged into it, of a core? -/
def Token.ofCore (t : Token) (core : Nat) : Bool := t.core == core || t.merged.any (·.core == core)
/-- The cores, and the instructions with their order, that a token carries out. -/
def Token.cores (t : Token) : List Nat := t.core :: t.merged.map (·.core)
def Token.instrs (t : Token) : List (Nat × Bool) := (t.instr, t.order) :: t.merged.map fun x => (x.instr, x.order)
/-- Do two tokens touch a byte in common? -/
def Token.overlaps (x y : Token) : Bool := decide (x.loc < y.loc + y.n) && decide (y.loc < x.loc + x.n)

/-- Must a token be performed before a later one: both touch a byte, and both are of one core by different instructions (R28, R318), or of one
instruction under `BCFG.ORDER` (R310, rule 3)? -/
def Token.precedes (x y : Token) : Bool :=
  x.overlaps y && ((x.cores.any y.cores.contains && !(y.instrs.any fun i => x.instrs.any (·.1 == i.1))) ||
    x.instrs.any fun i => i.2 && y.instrs.any (·.1 == i.1))

/-- Of a list of tokens, in arrival order: those that satisfy `p` with all that must be performed before them, and the others. -/
def chosenTokens (p : Token → Bool) : List Token → List Token × List Token
  | [] => ([], [])
  | t :: r =>
    let (now, later) := chosenTokens p r
    if p t || now.any t.precedes then (t :: now, later) else (now, t :: later)

/-- Perform, in arrival order, the tokens that satisfy `p`, and what must come before them. -/
def flushTokens (p : Token → Bool) : M Unit := do
  let (now, later) := chosenTokens p (← getS).tokens
  modS fun s => { s with tokens := later }
  now.forM performToken

/-- The tokens of a core that touch some bytes (R318). -/
def touches (core loc n : Nat) (t : Token) : Bool :=
  t.ofCore core && decide (t.loc < loc + n) && decide (loc < t.loc + t.n)

/-! What a narrow release has made visible (R16, R76): log entry 138. -/

/-- Is what a core has made visible at a level seen by another core, one of the same instance? -/
def seenFrom (shown : Option Nat) (by' core : Nat) : Bool := shown.any fun l => instOf l by' == instOf l core
def LateStore.seenBy (core : Nat) (x : LateStore) : Bool := seenFrom x.shown x.core core
def Token.seenBy (core : Nat) (t : Token) : Bool := t.cores.any fun k => seenFrom t.shown k core

/-- Before an access by an agent of a core, what has been made visible to it is performed, as far as it touches a line of the access. -/
def showTo (core loc n : Nat) : M Unit := do
  let s ← getS
  if s.stores.any (·.shown.isSome) || s.tokens.any (·.shown.isSome) then
    let lo := loc / 128 * 128
    let near := fun (l m : Nat) => decide (l < ceilTo (loc + n) 128) && decide (lo < l + m)
    performStores fun x => x.seenBy core && near x.loc x.n
    flushTokens fun t => t.seenBy core && near t.loc t.n

/-- A read by an agent of a core, and its write. -/
def readPlace (g : Agent) (port : Port) (p : Place) (n : Nat) : M (Nat × Bool) := do
  if g.tlb then showTo g.core p.loc n
  readHome g port p n
def writePlace (g : Agent) (port : Port) (p : Place) (n v : Nat) (poisoned : Bool) : M StoreResult := do
  if g.tlb then showTo g.core p.loc n
  writeHome g port p n v poisoned

/-- What a release of core `core` covers becomes visible at its level: at `.dm` it is performed, at a narrower one it is shown to the
agents of the instance, which perform it when they look. What others have made visible to the core is performed, for what it releases
follows it. -/
def releaseCore (core level : Nat) : M Unit := do
  let s ← getS
  performStores fun x => x.core != core && x.seenBy core && x.ready s
  flushTokens fun t => !t.ofCore core && t.seenBy core
  if 3 ≤ level then
    settleStores core
    flushTokens (·.ofCore core)
  else
    let wider := fun (l : Option Nat) => some (max level (l.getD 0))
    modS fun s => { s with
      stores := s.stores.map fun x => if x.core = core ∧ x.ready s then { x with shown := wider x.shown } else x
      tokens := s.tokens.map fun t => if t.ofCore core then { t with shown := wider t.shown } else t }

/-! Making a store. -/

/-- The name of an instruction as a writer (R93): the core and the cycle in which it issues. -/
def State.issueName (s : State) : Nat := 2 * (160 * s.cycle.toNat + s.core.id) + 1
/-- The name of what the core in focus executes: of an engine instruction the one it took at its dispatch. -/
def State.storeWriter (s : State) : Nat := match s.core.cur with
  | some e => if e.name = 0 then s.issueName else e.name
  | none => s.issueName

/-- A store by a port (R28, R80) of all bits of `n` bytes but those to `keep`: performed now, or on its way, as the schedule has it.
Stores of the press keep their order, and those of a `vspill`, which have a `turn`; a store that an older load has not passed yet is on its
way (R73). -/
def storeBits (g : Agent) (port : Port) (va : Word) (p : Place) (n v keep : Nat) (poisoned : Bool) (turn : Nat := 0) : M StoreResult := do
  if port = .head then writePlace g port p n v poisoned
  else
    if port = .lsq then lateLoads g.core
    let s ← getS
    let w := s.storeWriter
    let waits := port == .lsq && s.anyUnfinished (stillLoads s)
    modS fun s => { s with storeLags := s.storeLags.drop 1 }
    let lag := (s.storeLags.head?).getD 0
    if lag = 0 && !waits then
      performStores fun x => x.core == g.core && ((port == .press && x.press) || (x.writer == w && decide (0 < x.turn) && decide (x.turn < turn)))
      writingAs w do writePlace g port p n (mergeBits (Memory.read (← getS).mem p.loc n) v keep) poisoned
    else
      let x : LateStore :=
        { press := port == .press, core := g.core, asid := g.asid, level := g.level, va := va, loc := p.loc,
          cacheable := p.cacheable, n := n, value := v, poison := poisoned, lag := lag, keep := keep, writer := w,
          turn := turn, after := if port = .lsq then s.unfinished.map (·.name) else [] }
      modS fun s => { s with stores := s.stores ++ [x] }
      return .stored
def storeAt (g : Agent) (port : Port) (va : Word) (p : Place) (n v : Nat) (poisoned : Bool) (turn : Nat := 0) : M StoreResult :=
  storeBits g port va p n v 0 poisoned turn

/-- A core has issued an instruction: its stores come nearer to their homes, and those that arrive are performed. -/
def storesAdvance : M Unit := do
  let s ← getS
  if !s.stores.isEmpty then
    let k := s.core.id
    modS fun s => { s with stores := s.stores.map fun x => if x.core = k then { x with lag := x.lag - 1 } else x }
    let s ← getS
    performStores fun x => x.core == k && x.lag == 0 && x.ready s

end Sys2Proof.Machine
end

