-- ==== Sys2Proof/Machine/Records.lean ====
section
/-!
DEFINITION. Completion words (R147), post control blocks and run posts (R331, R332), launch entries (R335), and accesses by agents
other than the front (levels and contexts given).
-/

namespace Sys2Proof.Machine

/-- Is a descriptor refused when it is read (R110)? Bits 63 to 48 of the two vector words, which Table 4.6 does not list, count as
reserved: DEDUCED, log entry 126. -/
def descBad (s : State) (asid : Nat) : Bool :=
  let fl := s.ctxRaw asid 0 4
  let z := fun off n => s.ctxRaw asid off n != 0
  let lg := bits fl 2 2
  !(bit fl 0) || lg == 3 || fl / 64 != 0 || s.ctxRaw asid 4 2 != asid || s.ctxRaw asid 0x18 2 == 0
    || s.ctxRaw asid 0x28 1 < 6 || 16 < s.ctxRaw asid 0x28 1
    || (lg != 0 && (s.ctxRaw asid 0x78 1 < 7 || 24 < s.ctxRaw asid 0x78 1))
    || z 0x06 2 || z 0x1A 6 || z 0x29 7 || z 0x3C 4 || z 0x6E 2 || z 0x79 1 || z 0x88 8 || z 0x90 112
    || bits (s.ctxRaw asid 0x48 8) 1 2 != 0 || bits (s.ctxRaw asid 0x48 8) 48 16 != 0
    || bits (s.ctxRaw asid 0x50 8) 1 2 != 0 || bits (s.ctxRaw asid 0x50 8) 48 16 != 0

def readDesc (asid : Nat) : M Bool := do
  let a := ctxAddr (← getS) asid 0
  if !populated a then stopWith (.fault (.noSuchAddress a))
  return !descBad (← getS) asid

/-- A single aligned access by an agent that reads at homes; its failed check, or the value and its poison. -/
def homeRead (g : Agent) (va : Word) (n : Nat) : M (Except AErr (Nat × Bool)) := do
  match ← locate g needLoad aLoad va n with
  | .error e => return .error e
  | .ok p => return .ok (← readPlace g .head p n)
def homeWrite (g : Agent) (va : Word) (n v : Nat) : M (Except AErr Unit) := do
  match ← locate g needStore aStore va n with
  | .error e => return .error e
  | .ok p => let _ ← writePlace g .head p n v false; return .ok ()

/-- Words of a structure in a context's memory, 8 bytes each. -/
def homeReadWords (g : Agent) (va : Word) : Nat → M (Except AErr (List Nat))
  | 0 => return .ok []
  | n + 1 => do
    match ← homeRead g va 8 with
    | .error e => return .error e
    | .ok (v, _) =>
      match ← homeReadWords g (va + 8) n with
      | .error e => return .error e
      | .ok r => return .ok (v :: r)
def homeWriteWords (g : Agent) (va : Word) : List Nat → M (Except AErr Unit)
  | [] => return .ok ()
  | v :: r => do
    match ← homeWrite g va 8 v with
    | .error e => return .error e
    | .ok () => homeWriteWords g (va + 8) r

/-- One update of a completion word (R147), a release of scope `.dm` made for core `core`: bits are ORed in, `fired` is added to the
count, modulo 2^32; over poison nothing is written back (R96). It is made at level U, and one whose access fails, SCOPEMEM (R17)
among the causes, is dropped and leaves a deferred fault record: DESIGN CHOICE, log entry 127. Has it been made? -/
def cwordUpdate (asid : Nat) (cw : Word) (orBits fired : Nat) (core : Nat := 0) : M Bool := do
  let g := agentOf asid 0 core
  let placed ← locate g needBoth aAtomic cw 8
  match (if placed.toOption.isSome && scopeBad .dm cw then .error ⟨cSCOPEMEM, cw, aAtomic⟩ else placed) with
  | .error e =>
    let _ ← writeFRec { cause := e.cause, deferred := true, asid := asid, addr := cw.toNat, access := e.access }
    return false
  | .ok p =>
    let _ ← bseqNext p.loc
    if (← getS).isPoisoned p.loc 8 then return false
    let old := Memory.read (← getS).mem p.loc 8
    let new := (old ||| orBits) % 2 ^ 32 + 2 ^ 32 * ((old / 2 ^ 32 + fired) % 2 ^ 32)
    return (← writePlace g .head p 8 new false) != .dropped

/-- Bits of a completion word (Table 5.8). -/
def cwDONE := 1
def cwPOISON := 64
def cwFAULT := 128
def cwVERSION := 256
def cwDIVERGE := 512

/-! Launch entries (Table 15.6). -/

def launchAddr (s : State) (lid : Nat) : Nat := s.mgmt.ltbase + 64 * lid
def leField (lid off n : Nat) : M Nat := do physRead (launchAddr (← getS) lid + off) n
def leWrite (lid off n v : Nat) : M Unit := do physWrite (launchAddr (← getS) lid + off) n v
def leCword (lid : Nat) : M Word := do return BitVec.ofNat 64 (← leField lid 0 8)

/-- An update of the completion word of a launch over several devices, on its origin (R400): `last` takes one device off
the count, and the update that takes it to 0 sets `DONE`. -/
def shareUpdate (id orBits fired : Nat) (last : Bool) (core : Nat := 0) : M Unit := do
  match SMap.get none id (← getS).shares with
  | none => return ()
  | some x =>
    let left := x.remaining - last.toNat
    let done := last && left == 0
    let made ← cwordUpdate x.asid x.cword (orBits ||| (if done then cwDONE else 0)) fired core
    modS fun s => { s with shares := SMap.put none id (if done then none else some { x with remaining := left }) s.shares }
    if done && made && x.host then modS (·.raiseMint (8 + x.spost % 56))

/-- An update of a launch's completion word (R147, R338), `DONE` with the last; that of a share goes to its origin (R400),
that of a message's launch may not exist (R390). -/
def launchUpdate (lid orBits fired : Nat) (last : Bool) (core : Nat := 0) : M Unit := do
  match SMap.get none lid (← getS).launches with
  | none => return ()
  | some li =>
    let cw ← leCword lid
    let asid ← leField lid 0x28 2
    if li.okind = 6 ∧ cw = 0 then return ()
    match li.share with
    | some (dev, id) =>
      if dev = (← getS).mgmt.device then shareUpdate id orBits fired last core
      else modS fun s => { s with outbox := s.outbox ++ [.link "complete" dev [id, orBits, fired, last.toNat] []] }
    | none =>
      let made ← cwordUpdate asid cw (orBits ||| (if last then cwDONE else 0)) fired core
      if last && made && li.okind == 1 then modS (·.raiseMint (8 + li.spost % 56))

/-- OR bits into the completion word of a launch. -/
def launchFlag (lid bitsToSet : Nat) (core : Nat := 0) : M Unit := launchUpdate lid bitsToSet 0 false core

/-! Run posts (R331, R332). -/

/-- A continuation record (Table 15.1). -/
structure Rec where
  code : Nat
  frame : Nat
  arg : Nat
  join : Nat := 0
  meta32 : Nat
  deriving DecidableEq, Repr

def Rec.asid (r : Rec) : Nat := bits r.meta32 0 14
def Rec.lid (r : Rec) : Nat := bits r.meta32 14 14
def Rec.kind (r : Rec) : Nat := bits r.meta32 28 2
def mkMeta (asid lid kind : Nat) (spawned : Bool := false) : Nat :=
  asid % 16384 + 16384 * (lid % 16384) + 2 ^ 28 * (kind % 4) + 2 ^ 30 * spawned.toNat
def Rec.bytes (r : Rec) : List Byte :=
  bytesOf 8 r.code ++ bytesOf 8 r.frame ++ bytesOf 8 r.arg ++ bytesOf 4 r.join ++ bytesOf 4 r.meta32
def recOf (bs : List Byte) : Rec :=
  { code := ofBytes (bs.take 8), frame := ofBytes ((bs.drop 8).take 8), arg := ofBytes ((bs.drop 16).take 8),
    join := ofBytes ((bs.drop 24).take 4), meta32 := ofBytes ((bs.drop 28).take 4) }

def submitPa (spost : Nat) : M (Option Nat) := do
  return (SMap.get none spost (← getS).submits).map (·.pa)

/-- Control block of a run post: core 0 to 159, cluster 160 to 199, stack group 200 to 207, domain 208 (R332). -/
def runPost (spa i : Nat) : M Nat := do return (← physRead (spa + 0x28) 8) + 64 * i
/-- The next wider run post that contains the same instance. -/
def wider (i : Nat) : Nat := if i < 160 then 160 + i / 4 else if i < 200 then 200 + (i - 160) / 5 else 208
/-- Run post index of an instance of a level: 0 core, 1 cluster, 2 stack group, 3 domain. -/
def runIndex (level inst : Nat) : Nat :=
  match level with
  | 0 => inst
  | 1 => 160 + inst
  | 2 => 200 + inst
  | _ => 208
def instCount (level : Nat) : Nat := match level with | 0 => 160 | 1 => 40 | 2 => 8 | _ => 1

/-- Push at `TAIL`; false when the post is full. -/
def pushPost (cb : Nat) (r : Rec) (o : Option Origin) : M Bool := do
  let ring ← physRead cb 8
  let head ← physRead (cb + 8) 4
  let tail ← physRead (cb + 12) 4
  let cap ← physRead (cb + 16) 4
  if (tail + 2 ^ 32 - head) % 2 ^ 32 = cap then return false
  physWriteBytes (ring + 32 * (tail % cap)) r.bytes
  modS fun s => { s with origins := SMap.put none (ring + 32 * (tail % cap)) o s.origins }
  let _ ← bseqNext cb
  homePut (cb + 12) 4 (tail + 1)
  return true

/-- Push to run post `i`, or to the next wider one when it is full (R332); false when the domain post is full. -/
def pushWider (spa : Nat) (o : Option Origin) : Nat → Nat → Rec → M Bool
  | 0, _, _ => return false
  | fuel + 1, i, r => do
    if ← pushPost (← runPost spa i) r o then return true
    else if i = 208 then return false
    else pushWider spa o fuel (wider i) r

/-- Push a record under a submit post. An unregistered post takes nothing. -/
def pushRun (spost i : Nat) (r : Rec) (o : Option Origin) : M Bool := do
  match ← submitPa spost with
  | none => return true
  | some spa => pushWider spa o 4 i r

/-- Write a record into the fault post of a context, as `cpost` writes, at level S (R339); the virtual address of the
entry, or none when the post is full or cannot be reached. -/
def faultPostWrite (asid : Nat) (bs : List Byte) : M (Option Word) := do
  let g := agentOf asid 1
  let cb : Word := BitVec.ofNat 64 (← ctxField asid 0x40 8)
  match ← locate g needBoth aAtomic cb 64 with
  | .error _ => return none
  | .ok p =>
    let m := (← getS).mem
    let ring := Memory.read m p.loc 8
    let head := Memory.read m (p.loc + 8) 4
    let tail := Memory.read m (p.loc + 12) 4
    let cap := Memory.read m (p.loc + 16) 4
    if cap = 0 ∨ (tail + 2 ^ 32 - head) % 2 ^ 32 = cap then return none
    let slot : Word := BitVec.ofNat 64 (ring + 32 * (tail % cap))
    match ← locate g needBoth aStore slot 8 with
    | .error _ => return none
    | .ok q =>
      modS fun s => ({ s with mem := Memory.writeBytes s.mem q.loc bs } : State).written q.loc bs.length
      let _ ← bseqNext p.loc
      homePut (p.loc + 12) 4 (tail + 1)
      return some slot

end Sys2Proof.Machine
end

