-- ==== Sys2Proof/Machine/ChainLog.lean ====
section
/-!
DEFINITION. The chain log (16_chain_log.md): sessions, ordinals, recording, and replay. Every logged event is performed
in one step with its record, so a reserved entry is written at once (log entry 5).
-/

namespace Sys2Proof.Machine

def lrStat (asid : Nat) : M Nat := ctxField asid 0x7C 4
def ctxWrite (asid off n v : Nat) : M Unit := do physWrite (ctxAddr (← getS) asid off) n v

/-- The mode in force (R356): off once a replay has diverged (R374). -/
def olMode (asid : Nat) : M Nat := do
  let lg := bits (← ctxFlags asid) 2 2
  if lg = 2 ∧ bit (← lrStat asid) 1 then return 0 else return lg

def State.session (s : State) (asid : Nat) : Session :=
  match s.sessions.find? (·.asid = asid) with
  | some x => x
  | none => { asid := asid, num := 0 }
def State.setSession (s : State) (x : Session) : State :=
  { s with sessions := x :: s.sessions.filter (·.asid ≠ x.asid) }

/-- A record of the ring as one number of 256 bits (Table 16.4): header, then bytes 0x0C on. -/
def olRecord (kind core fid eord body : Nat) : Nat :=
  kind + 2 ^ 16 * (core % 65536) + 2 ^ 32 * (fid % 2 ^ 32) + 2 ^ 64 * (eord % 2 ^ 32) + 2 ^ 96 * (body % 2 ^ 160)

/-- The next entry to be reserved (R368): `LRTAIL`, or past the entries that are reserved and not written yet. -/
def olNext (asid : Nat) : M Nat := do
  let ses := (← getS).session asid
  if ses.underWay.isEmpty then ctxField asid 0x84 4 else return ses.tail

/-- Is there room for `k` more entries (R369)? -/
def olHasRoom (asid k : Nat) : M Bool := do
  let size := 2 ^ (← ctxField asid 0x78 1)
  let used := ((← olNext asid) + 2 ^ 32 - (← ctxField asid 0x80 4)) % 2 ^ 32
  return used + k ≤ size

/-- The event of a waiter waits for room no longer (R369). -/
def State.stallClear (s : State) (asid key : Nat) : State :=
  let ses := s.session asid
  if ses.stalls.contains key then
    let left := ses.stalls.filter (· != key)
    let s := s.setSession { ses with stalls := left }
    let st := s.ctxRaw asid 0x7C 4
    if left.isEmpty && bit st 0 then (s.homeStore (ctxAddr s asid 0x7C) 4 (st - 1) false).1 else s
  else s
/-- Nor does any event that it made in another context. -/
def State.stallClearAll (s : State) (key : Nat) : State := s.sessions.foldl (fun s x => s.stallClear x.asid key) s
/-- The event of waiter `key` begins to wait for room: `LRSTAT.STALL` (R369). -/
def State.stallMark (s : State) (asid key : Nat) : State :=
  let s := (s.sessions.filter (·.asid != asid)).foldl (fun s x => s.stallClear x.asid key) s
  let ses := s.session asid
  let s := s.setSession { ses with stalls := insertSorted key ses.stalls }
  let st := s.ctxRaw asid 0x7C 4
  if bit st 0 then s else (s.homeStore (ctxAddr s asid 0x7C) 4 (st + 1) false).1.raiseMint 4
/-- What a wait leaves in a state that is otherwise as before. -/
def State.waiting (s : State) : Wait → State
  | .logRoom asid key => s.stallMark asid key
  | .replay asid key => let ses := s.session asid; s.setSession { ses with held := insertSorted key ses.held }
  | _ => s

/-- Waiters (R369, R373): a core is its own; the others are the expansion of a submit post, the messages of a device, the
command of a core's slot, and a firing that the management complex retires. -/
def postKey (post : Nat) : Nat := 256 + post
def messageKey (src : Nat) : Nat := 1024 + src
def cmdKey (core : Nat) (k : Fin 16) : Nat := 4096 + 16 * core + k.val
def retiredKey (asid slot : Nat) : Nat := 2 ^ 20 + 65536 * asid + slot

/-- Reserve room for one record, or wait (R369). -/
def olReserve (asid key : Nat) : M Unit := do
  if ← olHasRoom asid 1 then modS (·.stallClear asid key)
  else stopWith (.wait (.logRoom asid key))

/-- Write the record of count `n`, sealed for a confidential context (R367). -/
def olPut (asid n rec256 : Nat) : M Unit := do
  let base ← ctxField asid 0x70 8
  let size := 2 ^ (← ctxField asid 0x78 1)
  let bytes := bytesOf 32 rec256
  if ← isConf asid then
    let key ← ctxKey asid
    physWriteBytes (base + 32 * (n % size))
      ((bytes.take 1 ++ [1] ++ (bytes.drop 2).take 10)
        ++ xtsEncrypt key (asid * 2 ^ 32 + n) (bytes.drop 12))
  else physWriteBytes (base + 32 * (n % size)) bytes

/-- Write a record at the next entry; `LRTAIL` advances over the entries written (R368). -/
def olAppend (asid kind core fid eord body : Nat) : M Unit := do
  let n ← olNext asid
  olPut asid n (olRecord kind core fid eord body)
  let ses := (← getS).session asid
  if ses.underWay.isEmpty then ctxWrite asid 0x84 4 (n + 1)
  else modS fun s => s.setSession { ses with tail := (n + 1) % 2 ^ 32 }

/-- The entry of an event that takes several steps is reserved (R368), for the firing `fid`. -/
def olOpen (asid fid : Nat) : M Unit := do
  let n ← olNext asid
  let ses := (← getS).session asid
  modS fun s => s.setSession { ses with underWay := ses.underWay ++ [(n, fid)], tail := (n + 1) % 2 ^ 32 }
/-- It is written, and `LRTAIL` advances over the entries written. -/
def olClose (asid fid rec256 : Nat) : M Unit := do
  let ses := (← getS).session asid
  match ses.underWay.find? (·.2 == fid) with
  | none => return ()
  | some x =>
    olPut asid x.1 rec256
    let left := ses.underWay.erase x
    modS fun s => s.setSession { ses with underWay := left }
    ctxWrite asid 0x84 4 ((left.head?.map (·.1)).getD ses.tail)

/-- A session begins at the first event at which `SESS` differs from `CSESS` (R358); the SESS record of a replayed ring
is consumed, or refused with LOGBAD (R370). -/
def olRing (asid : Nat) : M (List (Nat × Nat)) := do
  let base ← ctxField asid 0x70 8
  let size := 2 ^ (← ctxField asid 0x78 1)
  let head ← ctxField asid 0x80 4
  let tail ← ctxField asid 0x84 4
  let n := (tail + 2 ^ 32 - head) % 2 ^ 32
  let key ← ctxKey asid
  let conf ← isConf asid
  let m := (← getS).mem
  return (List.range n).map fun i =>
    let c := (head + i) % 2 ^ 32
    let raw := Memory.readBytes m (base + 32 * (c % size)) 32
    let open32 := if conf
      then raw.take 12 ++ xtsDecrypt key (asid * 2 ^ 32 + c) (raw.drop 12) else raw
    (c, ofBytes open32)

/-- Fields of a ring record. -/
def olKind (r : Nat) : Nat := bits r 0 8
def olFid (r : Nat) : Nat := bits r 32 32
def olEord (r : Nat) : Nat := bits r 64 32
def olBeater (r : Nat) : Nat := bits r 96 16
def olOp (r : Nat) : Nat := bits r 112 8
def olStat8 (r : Nat) : Nat := bits r 120 8
def olBseq (r : Nat) : Nat := bits r 128 32
def olMid (r : Nat) : Nat := bits r 160 32
def olAddr (r : Nat) : Nat := bits r 192 64
/-- ATOMV (R366): number of elements, source, index and sequence of element `k`. -/
def olN (r : Nat) : Nat := bits r 112 3
def olSrc (r : Nat) : Nat := bits r 115 5
def olIdx (r k : Nat) : Nat := bits r (160 + 16 * k) 16
def olDelta (r k : Nat) : Nat := bits r (224 + 8 * (k - 1)) 8
def olSeqOf (r k : Nat) : Nat := (olBseq r + ((List.range k).map fun i => olDelta r (i + 1)).sum) % 2 ^ 32

/-- The bits of bytes 0x0C to 0x1F that a kind of record leaves reserved (Table 16.5, R364), as pairs of place and width. -/
def olReserved : Nat → List (Nat × Nat)
  | 2 => [(112, 16), (224, 32)]
  | 3 | 6 => [(121, 7)]
  | 4 => [(124, 4), (248, 8)]
  | 7 => [(120, 8)]
  | 8 => [(104, 24)]
  | 9 => [(96, 32), (192, 64)]
  | 0x0A | 0x0B | 0x0D => [(96, 160)]
  | 0x0C => [(104, 24), (160, 96)]
  | _ => []

/-- A malformed record (R375). -/
def olBad (r : Nat) : Bool :=
  olKind r != 0 &&
    (decide (0x0E ≤ olKind r) || bits r 9 7 != 0 || (olReserved (olKind r)).any (fun (lo, w) => bits r lo w != 0) ||
      (olKind r == 4 && (olN r == 0 || decide (4 < olN r) ||
        (List.range (olN r - 1)).any fun i => olDelta r (i + 1) == 0)))

/-- The parts of a record that events consume: elements of an ATOMV record, else one. -/
def olParts (r : Nat) : List Nat := List.range (if olKind r = 4 then max 1 (min (olN r) 4) else 1)

/-- Records not yet consumed, as (count, record). Consumed marks are `4 * count + element`. -/
def olLive (asid : Nat) : M (List (Nat × Nat)) := do
  let ses := (← getS).session asid
  return (← olRing asid).filter fun (c, r) =>
    olKind r != 0 && !(olParts r).all fun k => ses.consumed.contains (4 * c + k)

/-- `LRHEAD` advances over each prefix of consumed and empty records (R370). -/
def olAdvance (asid : Nat) : Nat → M Unit
  | 0 => return ()
  | fuel + 1 => do
    match ← olRing asid with
    | [] => return ()
    | (c, r) :: _ =>
      let ses := (← getS).session asid
      if olKind r = 0 || (olParts r).all (fun k => ses.consumed.contains (4 * c + k)) then
        ctxWrite asid 0x80 4 (c + 1)
        modS fun s => s.setSession { ses with consumed := ses.consumed.filter fun x => x / 4 != c }
        olAdvance asid fuel
      else return ()

def olConsume (asid c k : Nat) : M Unit := do
  let ses := (← getS).session asid
  modS fun s => s.setSession { ses with consumed := (4 * c + k) :: ses.consumed }
  olAdvance asid (← olRing asid).length

/-- The launches of a context in progress take `DIVERGE`, those that only other devices expand among them (R374). -/
def divergeLaunches (asid : Nat) : M Unit := do
  (← getS).launches.forM fun (lid, _) => do
    if (← leField lid 0x28 2) = asid then launchFlag lid cwDIVERGE
  (← getS).shares.forM fun (id, o) => do
    if o.any (·.asid == asid) then shareUpdate id cwDIVERGE 0 false
/-- Has a replay of the context ended early (R374)? -/
def diverged (asid : Nat) : M Bool := do return bits (← ctxFlags asid) 2 2 == 2 && bit (← lrStat asid) 1

/-- The first DIVERGE or LOGBAD of a session ends its replay (R374). -/
def olEndReplay (asid reason : Nat) : M Unit := do
  let st ← lrStat asid
  ctxWrite asid 0x7C 4 (st / 128 * 128 + st % 2 + 2 + 4 * reason)
  modS (·.raiseMint 4)
  divergeLaunches asid

/-- Whose event: context, mode in force (0 off or paused, 1 record, 2 replay), `FID` and ordinal; `counts`: the running firing's
ordinal advances (R360); `key`: the waiter; `stale`: the firing is of an earlier session (R358). -/
structure OlWho where
  asid : Nat
  mode : Nat
  fid : Nat
  ord : Nat
  counts : Bool := true
  key : Nat := 0
  stale : Bool := false
  deriving DecidableEq, Repr

/-- DIVERGE, or LOGBAD with reason 31, at an event (R374). -/
def diverge {α : Type} (w : OlWho) (reason : Nat) (addr : Word) (access engine : Nat) : M α := do
  olEndReplay w.asid reason
  stopWith (.trap { cause := if reason = 31 then cLOGBAD else cDIVERGE, eKind := engine != 0, engine := engine,
                    addr := some addr, index := w.ord, count := 1, access := access, detail := reason })

/-- An event is held, or waits for its record (R371); once it has waited a full window it raises DIVERGE 3 (R373). -/
def holdEvent {α : Type} (x : Wait) (w : OlWho) (addr : Word) (access engine : Nat) : M α := do
  let s ← getS
  if w.key < 160 && s.core.expired || s.expired.contains w.key then
    set { s with expired := s.expired.filter (· != w.key) }
    diverge w 3 addr access engine
  else stopWith (.wait x)

/-- The event of a waiter goes on: what it had waited for is past (R373). -/
def olMet (w : OlWho) : M Unit :=
  modS fun s => { s with
    expired := s.expired.filter (· != w.key)
    core := if s.core.id = w.key then { s.core with expired := false } else s.core }

/-- A malformed record, of ordinal `ord`, ends a replay without a firing to park (R374). -/
def olOrphanBad (asid ord : Nat) : M Unit := do
  olEndReplay asid 31
  let _ ← writeFRec { cause := cLOGBAD, asid := asid, index := ord, count := 1, detail := 31 }
  return ()

/-- What the device does with the records it has read, besides matching them: the SESS record of the session is consumed, or
refused for another device (R370); a malformed record of a firing that has not started ends the replay (R375); empty records
are passed. -/
def olSync (asid : Nat) : M Unit := do
  if (← olMode asid) = 2 then
    let ses := (← getS).session asid
    let live ← olLive asid
    match live.find? fun (_, r) => olBad r && (olFid r == 0 || decide (ses.firings < olFid r)) with
    | some (_, r) => olOrphanBad asid (olEord r)
    | none =>
      match if ses.sess then none else live.find? fun (_, r) => olKind r == 1 with
      | some (c, r) =>
        let isaid := bits r 128 64
        if isaid % 65536 ≠ 1 + 4 * 256 ∨ bits isaid 32 16 ≠ 9 then olOrphanBad asid (olEord r)
        else
          modS fun s => s.setSession { s.session asid with sess := true }
          olConsume asid c 0
      | none => olAdvance asid (← olRing asid).length

/-- A session begins at the first event at which `SESS` differs from `CSESS` (R358). -/
def olSession (asid key : Nat) : M Unit := do
  let sess ← ctxField asid 0x7A 2
  let st ← lrStat asid
  if st / 65536 ≠ sess then
    let mode := bits (← ctxFlags asid) 2 2
    if mode = 1 then olReserve asid key
    ctxWrite asid 0x7C 4 (sess * 65536)
    modS fun s => s.setSession { asid := asid, num := sess }
    if mode = 1 then
      let s ← getS
      let isaid := 1 + 4 * 256 + s.mgmt.xver.toNat * 2 ^ 16 + 9 * 2 ^ 32 + s.mgmt.stepping.toNat * 2 ^ 48
      olAppend asid 0x01 0xFFFF 0 0 (sess + 65536 * asid + 2 ^ 32 * isaid + 2 ^ 96 * s.cycle.toNat)
  olSync asid

/-- Is sequence `a` below `b`, as signed differences (R365)? -/
def seqBelow (a b : Nat) : Bool := let d := (b + 2 ^ 32 - a) % 2 ^ 32; d != 0 && decide (d < 2 ^ 31)

/-- Is every record naming the beater with a lower sequence consumed (R371 rule 3)? -/
def olDue (asid beater seq : Nat) : M Bool := do
  let ses := (← getS).session asid
  return (← olLive asid).all fun (c, r) =>
    let k := olKind r
    if k = 4 then
      (List.range (olN r)).all fun i =>
        olBeater r != beater || ses.consumed.contains (4 * c + i) || !seqBelow (olSeqOf r i) seq
    else if 3 ≤ k ∧ k ≤ 7 then olBeater r != beater || !seqBelow (olBseq r) seq
    else true

/-- R371 rules 1, 2 and 4 for the event: the matching record, by the test of its kind. -/
def olFind (w : OlWho) (addr : Word) (access engine : Nat) (same : Nat → Bool) : M (Nat × Nat) := do
  if w.stale then diverge w 31 addr access engine
  let live := (← olLive w.asid).filter fun (_, r) => olFid r == w.fid && olKind r != 2
  let here := live.filter fun (_, r) => olEord r == w.ord && olKind r != 0x0D
  if live.any (fun (_, r) => olKind r == 0x0D && decide (olEord r ≤ w.ord)) then diverge w 1 addr access engine
  else if here.isEmpty then
    if SMap.get 0 w.fid ((← getS).session w.asid).atomvs = w.ord + 1 then diverge w 2 addr access engine
    else if live.any (fun (_, r) => decide (w.ord < olEord r)) then diverge w 1 addr access engine
    else holdEvent (.replay w.asid w.key) w addr access engine
  else
    match here.find? (fun (_, r) => same r) with
    | some x => return x
    | none => diverge w 2 addr access engine

/-- An event in the mode that is in force once the device has looked at the records: one of them may end the replay, and the event is
then performed as in mode off (R374). -/
def olNow (w : OlWho) : M OlWho := do
  if w.mode ≠ 2 then
    olMet w
    return w
  modS fun s => let ses := s.session w.asid; s.setSession { ses with held := ses.held.filter (· != w.key) }
  olSync w.asid
  if (← olMode w.asid) = 2 then return w
  olMet w
  return { w with mode := 0 }

/-- The record of an event at a beater, once it is due (R371): the rules that come before it is performed. -/
def olReady (w : OlWho) (kind op : Nat) (addr : Word) (engine : Nat) : M (Nat × Nat) := do
  let (c, r) ← olFind w addr 3 engine fun r => olKind r == kind && olOp r == op && olAddr r == addr.toNat
  if !(← olDue w.asid (olBeater r) (olBseq r)) then holdEvent (.replay w.asid w.key) w addr 3 engine
  olMet w
  return (c, r)

/-- LOGBAD at the next issue of the firing a malformed record names (R375). -/
def olCheckBad (asid fid : Nat) : M Unit := do
  if (← olMode asid) = 2 then
    if (← olLive asid).any (fun (_, r) => olBad r && olFid r == fid) then
      let f ← getF
      olEndReplay asid 31
      stopWith (.trap { cause := cLOGBAD, index := f.ordinal, count := 1, detail := 31 })

/-- The running firing, as the maker of an event. -/
def myWho : M OlWho := do
  let s ← getS
  let asid := s.core.info.asid
  let f := s.core.f
  let mode ← if f.paused then pure 0 else olMode asid
  return { asid := asid, mode := mode, fid := f.fid, ord := f.ordinal, counts := !f.paused, key := s.core.id,
           stale := f.session != (s.session asid).num }

def takeOrdinal (w : OlWho) : M Unit :=
  if w.counts then modF fun f => { f with ordinal := f.ordinal + 1 } else return ()

/-- A logged event at a beater (Table 16.3): `perform` makes it and answers; `res` gives `STAT` and the compared word
(`OLD`, `IDX`, `GEN`). -/
def olBeat {α : Type} (w : OlWho) (kind op : Nat) (addr : Word) (loc engine : Nat) (perform : M α)
    (res : α → Nat × Nat) : M α := do
  let w ← olNow w
  match w.mode with
  | 1 =>
    olReserve w.asid w.key
    let a ← perform
    let (b, q) ← bseqNext loc
    let (stat, mid) := res a
    olAppend w.asid kind 0xFFFF w.fid w.ord
      (b + 2 ^ 16 * op + 2 ^ 24 * (stat % 256) + 2 ^ 32 * q + 2 ^ 64 * (mid % 2 ^ 32) + 2 ^ 96 * addr.toNat)
    takeOrdinal w
    return a
  | 2 =>
    let (c, r) ← olReady w kind op addr engine
    let a ← perform
    let _ ← bseqNext loc
    let (stat, mid) := res a
    takeOrdinal w
    olConsume w.asid c 0
    if olStat8 r ≠ stat % 256 ∨ olMid r ≠ mid % 2 ^ 32 then diverge w 6 addr 3 engine
    return a
  | _ =>
    let a ← perform
    let _ ← bseqNext loc
    takeOrdinal w
    return a

/-- A logged event that no beater orders: WAKE, MARK, PAUSE, RESUME, ORIG. In replay `bad` gives the divergence reason
of a record whose body differs; without it the record carries nothing to compare (R371). -/
def olPlain (w : OlWho) (kind body : Nat) (addr : Word) (access : Nat) (bad : Option Nat) : M Unit := do
  let w ← olNow w
  match w.mode with
  | 1 =>
    if ((← getS).session w.asid).underWay.any (·.2 == w.fid) then
      olClose w.asid w.fid (olRecord kind (← getS).core.id w.fid w.ord body)
    else
      olReserve w.asid w.key
      olAppend w.asid kind (← getS).core.id w.fid w.ord body
    takeOrdinal w
  | 2 =>
    let (c, r) ← olFind w addr access 0 fun r => olKind r == kind
    olMet w
    takeOrdinal w
    olConsume w.asid c 0
    match bad with
    | some reason => if r / 2 ^ 96 ≠ body then diverge w reason addr access 0
    | none => return ()
  | _ => takeOrdinal w

/-- Before a `launch` or `abind` is performed: it has its entry, which `launch` keeps while it runs (`long`), or its record is there
(R368, R371). -/
def olBefore (w : OlWho) (long : Bool) (addr : Word) : M Unit := do
  let w ← olNow w
  match w.mode with
  | 1 =>
    olReserve w.asid w.key
    if long then olOpen w.asid w.fid
  | 2 =>
    let _ ← olFind w addr 0 0 fun r => olKind r == 0x0C
    olMet w
  | _ => return ()

/-- An event whose firing cannot be parked, since it is retired or on no core: a divergence leaves a record of kind A, and the
event is then performed as in mode off unless it has been (R374): DEDUCED, log entry 119. -/
def olUnparked (w : OlWho) (x : OlWho → M Unit) : M Unit := do
  try x w
  catch
    | .trap t => do
      let _ ← writeFRec { cause := t.cause, asid := w.asid, addr := (t.addr.getD 0).toNat, index := t.index, count := 1,
                          access := t.access, detail := t.detail }
      if t.detail ≠ 6 then x { w with mode := 0 }
    | e => stopWith e

/-- An open ATOMV record (R366): its count, elements so far, last sequence, and its contents. -/
structure OlGroup where
  count : Nat
  n : Nat
  last : Nat
  rec256 : Nat
  deriving DecidableEq, Repr

/-- One element of `vscadd`, `vstc` or `vamo` (R363, R366, R371), performed alone. In record mode the elements of one
instruction at one beater share records of four, each sharer's own entry being left empty; `open?` is the open record
of the element's beater. -/
def olElement {α : Type} (w : OlWho) (src e : Nat) (va : Word) (loc : Nat) (open? : Option OlGroup)
    (perform : M (α × Bool)) : M (α × Option OlGroup) := do
  let w ← olNow w
  match w.mode with
  | 1 =>
    olReserve w.asid w.key
    let (a, poison) ← perform
    let (b, q) ← bseqNext loc
    let start : M (α × Option OlGroup) := do
      let c ← olNext w.asid
      let body := b + 2 ^ 16 * (1 + 8 * src) + 2 ^ 24 * poison.toNat + 2 ^ 32 * q + 2 ^ 64 * (e % 65536)
      olAppend w.asid 4 0xFFFF w.fid w.ord body
      return (a, some ⟨c, 1, q, olRecord 4 0xFFFF w.fid w.ord body⟩)
    match open? with
    | some g =>
      let d := (q + 2 ^ 32 - g.last) % 2 ^ 32
      if g.n < 4 ∧ d ≤ 255 ∧ d ≠ 0 then
        let r := g.rec256 + 2 ^ 112 + 2 ^ (120 + g.n) * poison.toNat + 2 ^ (160 + 16 * g.n) * (e % 65536)
          + 2 ^ (224 + 8 * (g.n - 1)) * d
        olPut w.asid g.count r
        olAppend w.asid 0 0 0 0 0
        return (a, some ⟨g.count, g.n + 1, q, r⟩)
      else start
    | none => start
  | 2 =>
    let (c, r) ← olFind w va 3 1 fun r =>
      olKind r == 4 && olSrc r == src && (List.range (olN r)).any fun k => olIdx r k == e
    let k := ((List.range (olN r)).find? fun k => olIdx r k == e).getD 0
    if !(← olDue w.asid (olBeater r) (olSeqOf r k)) then holdEvent (.replay w.asid w.key) w va 3 1
    olMet w
    let (a, _) ← perform
    let _ ← bseqNext loc
    modS fun s => let ses := s.session w.asid
      s.setSession { ses with atomvs := SMap.put 0 w.fid (w.ord + 1) ses.atomvs }
    olConsume w.asid c k
    return (a, open?)
  | _ =>
    let (a, _) ← perform
    let _ ← bseqNext loc
    return (a, open?)

end Sys2Proof.Machine
end

