-- ==== Sys2Proof/Machine/Launch.lean ====
section
/-!
DEFINITION. Join transitions (R329), the end of a firing against its launch (R338), launch checks (R55, R334), and the
expansion (R336, R337).
-/

namespace Sys2Proof.Machine

def setOrigin (loc : Nat) (o : Option Origin) : M Unit :=
  modS fun s => { s with origins := SMap.put none loc o s.origins }
def getOrigin (loc : Nat) : M (Option Origin) := do return SMap.get none loc (← getS).origins
def launchInUse (lid : Nat) : M Bool := do return (SMap.get none lid (← getS).launches).isSome
def leLive (lid : Nat) : M Nat := leField lid 0x08 4
def leLiveAdd (lid : Nat) (d : Int) : M Unit := do
  leWrite lid 0x08 4 (((← leLive lid : Nat) + d : Int) % 2 ^ 32).toNat

/-- Undo what ran before a wait: a held step leaves no part of its effect. -/
def orUndo {α : Type} (x : M α) : M α := fun s =>
  match x s with
  | (.error (.wait w), _) => (.error (.wait w), s)
  | r => r

/-- The transition of a waiting record whose counter has reached 0 (R329): `loc` is its place, `dl` the decrementing
launch, `inst` the core whose instance receives it (none: instance 0), (`pfid`, `pord`) the decrementing event. -/
def joinTransition (loc asid dl : Nat) (core : Option Nat) (pfid pord : Nat) : M Unit := do
  let r := recOf (Memory.readBytes (← getS).mem loc 32)
  let place := fun level => match core with | some c => instOf level c | none => 0
  let wait (ok : Bool) : M Unit := if ok then return () else stopWith (.wait .launchRoom)
  if !bit r.meta32 30 then
    let mt := mkMeta asid dl 0
    homePut (loc + 0x1C) 4 mt
    leLiveAdd dl 1
    let sp ← leField dl 0x2A 1
    let lv := bits (← leField dl 0x2B 1) 0 2
    wait (← pushRun sp (runIndex lv (place lv)) { r with meta32 := mt, join := 0 }
      (some { okind := 4, spost := sp, pfid := pfid, pord := pord, num := 0 }))
  else if ← launchInUse r.lid then
    let sp ← leField r.lid 0x2A 1
    let lv := bits (← leField r.lid 0x2B 1) 0 2
    wait (← pushRun sp (runIndex lv (place lv)) { r with join := 0 } (← getOrigin loc))
    setOrigin loc none
  else
    let sp ← leField dl 0x2A 1
    wait (← pushRun sp 208 { r with join := 0 } (← getOrigin loc))
    setOrigin loc none

/-- A decrement of a join counter by at most `n`, at its beater, as one token (R15, R323): the old value. Over poison it
writes nothing (R96). -/
def joinDec (loc n asid dl : Nat) (core : Option Nat) (pfid pord : Nat) : M Nat := do
  if (← getS).isPoisoned (loc + 0x18) 4 then return 2 ^ 32 - 1
  let old := Memory.read (← getS).mem (loc + 0x18) 4
  let new := old - min old n
  homePut (loc + 0x18) 4 new
  if old ≠ 0 ∧ new = 0 then joinTransition loc asid dl core pfid pord
  return old

/-- The record that a launch joins, in the launch's context; a failed access is reported as an expansion's is (R336). -/
def joinPlace (asid : Nat) (core : Option Nat) (va : Word) : M (Except AErr Nat) := do
  match ← locate (agentOf asid 0 (core.getD 0)) needBoth aAtomic va 32 with
  | .error e => return .error e
  | .ok p => return .ok p.loc

/-- `FAULT` and a record of kind A (R336). -/
def expansionFault (lid asid : Nat) (cause access detail : Nat) (va : Word) : M Unit := do
  launchFlag lid cwFAULT
  let _ ← writeFRec { cause := cause, deferred := cause != cLAUNCHBAD, asid := asid, addr := va.toNat,
                      access := access, detail := detail }
  return ()

/-- A launch entry whose last firing has ended is free (R338). -/
def freeIfDone (lid : Nat) : M Unit := do
  if (← leLive lid) = 0 then modS fun s => { s with launches := SMap.put none lid none s.launches }

/-- The steps of R338 for one retired firing or guard of entry `lid`: `orBits` and `fired` go to the completion word;
`join` makes the `JOINREC` decrement, logged for `who`. -/
def endSteps (lid orBits fired : Nat) (update join : Bool) (core : Option Nat) (who : OlWho) : M Unit := do
  if ← launchInUse lid then
    let asid ← leField lid 0x28 2
    let live ← leLive lid
    let last := decide (live ≤ 1)
    let _ ← bseqNext (launchAddr (← getS) lid + 8)
    leWrite lid 0x08 4 (live - 1)
    if update then launchUpdate lid orBits fired last (core.getD 0)
    if !last then
      let _ ← bseqNext (launchAddr (← getS) lid + 8)
    let jr : Word := BitVec.ofNat 64 (← leField lid 0x20 8)
    if join ∧ jr ≠ 0 then
      match ← joinPlace asid core jr with
      | .error e => expansionFault lid asid e.cause e.access 0 e.va
      | .ok loc =>
        let dec := fun (w : OlWho) => do
          let _ ← olBeat w 6 2 jr loc 0 (joinDec loc 1 asid lid core w.fid w.ord) fun old => ((decide (old = 1)).toNat, old)
        if who.counts then dec who else olUnparked who dec
    freeIfDone lid

/-- R55: does the kernel descriptor at `code - 32` refuse the launch? -/
def kernelBad (d : List Byte) : Bool :=
  ofBytes (d.take 4) != 0x4353444B || ofBytes ((d.drop 4).take 1) != 1 || ofBytes ((d.drop 5).take 1) == 0
    || decide (4 < ofBytes ((d.drop 5).take 1)) || decide (1 < ofBytes ((d.drop 6).take 2))
    || ((d.drop 0x16).take 10).any (· != 0)

/-- The parameter block as read (Table 15.4). -/
structure Params where
  cword : Word
  table : Word
  count : Nat
  tile : Nat
  level : Nat
  fbase : Word
  joinrec : Word
  devs : Word
  place : Nat
  raw : List Byte
  deriving DecidableEq, Repr

def paramsOf (b : List Byte) : Params :=
  let f := fun off n => ofBytes ((b.drop off).take n)
  { cword := BitVec.ofNat 64 (f 0 8), table := BitVec.ofNat 64 (f 8 8), count := f 0x10 4, tile := f 0x14 2,
    level := f 0x16 1, fbase := BitVec.ofNat 64 (f 0x18 8), joinrec := BitVec.ofNat 64 (f 0x20 8),
    devs := BitVec.ofNat 64 (f 0x28 8), place := f 0x30 2, raw := b }

/-- The refusals of Table 15.4 and R400 (reason 1); `frame` is the kernel descriptor's `FRAME`. -/
def paramsBad (p : Params) (frame : Nat) : Bool :=
  p.cword.toNat % 8 != 0 || p.table.toNat % 16 != 0 || decide (16777215 < p.count) || (p.tile == 0 && p.table != 0)
    || decide (3 < p.level) || ofBytes ((p.raw.drop 0x17).take 1) != 0 || p.fbase.toNat % 64 != 0
    || (p.fbase == 0 && frame != 0) || p.joinrec.toNat % 32 != 0 || (p.devs != 0 && p.level != 3)
    || (p.place != 0xFFFF && decide (instCount p.level ≤ p.place)) || ((p.raw.drop 0x32).take 14).any (· != 0)
    || (p.devs != 0 && (p.devs.toNat % 8 != 0 || p.joinrec != 0 || p.place != 0xFFFF))

/-- Bytes of a structure, in 8-byte words (loads of an agent that reads at homes). -/
def homeBytes (g : Agent) (va : Word) (words : Nat) : M (Except AErr (List Byte)) := do
  match ← homeReadWords g va words with
  | .error e => return .error e
  | .ok l => return .ok (l.flatMap (bytesOf 8))

/-- A launch entry not in use (R335): the lowest, DESIGN CHOICE, log entry 137. -/
def freeLaunch : M (Option Nat) := do
  let used := (← getS).launches.map (·.1)
  return (List.range (used.length + 1)).find? fun i => !used.contains i && i < 16384

/-- Allocate and fill an entry, with the guard's 1 in `LIVE` (R335, R336); after a divergence its word takes `DIVERGE` (R374). -/
def allocLaunch (lid asid spost frame : Nat) (arg : Word) (p : Params) (info : LaunchInfo) : M Unit := do
  modS fun s => { s with launches := SMap.put none lid (some info) s.launches }
  let a := launchAddr (← getS) lid
  physWriteBytes a (bytesOf 8 p.cword.toNat ++ bytesOf 8 1 ++ bytesOf 8 arg.toNat ++ bytesOf 8 p.table.toNat
    ++ bytesOf 8 p.joinrec.toNat ++ bytesOf 2 asid ++ bytesOf 1 spost ++ bytesOf 1 p.level ++ bytesOf 2 p.tile
    ++ bytesOf 2 0 ++ bytesOf 4 (ceilTo frame 64) ++ bytesOf 12 0)
  if ← diverged asid then launchFlag lid cwDIVERGE

/-- What an expansion needs besides its entry; of a launch over several devices, this one's rank among how many (R400). -/
structure Expand where
  lid : Nat
  asid : Nat
  spost : Nat
  code : Word
  p : Params
  fsize : Nat
  core : Option Nat
  share : Option (Nat × Nat)
  who : OlWho
  deriving DecidableEq, Repr

/-- Is a segment, or a firing of a plain grid, this device's (R400)? -/
def Expand.mine (x : Expand) (s : Nat) : Bool := match x.share with
  | none => true
  | some (r, m) => s % m == r

/-- Tiles of a segment (R336), or its entry's read fault. -/
def segTiles (x : Expand) (s : Nat) : M (Except AErr Nat) := do
  if x.p.table = 0 then return .ok 1
  else
    match ← homeRead (agentOf x.asid 0 (x.core.getD 0)) (x.p.table + BitVec.ofNat 64 (16 * s)) 8 with
    | .error e => return .error e
    | .ok (v, _) => return .ok ((v % 2 ^ 32 + x.p.tile - 1) / x.p.tile)

/-- Firings numbered in the segments below `s`: all of them, or this device's. -/
def firingsBelow (x : Expand) (all : Bool) : Nat → M Nat
  | 0 => return 0
  | s + 1 => do
    let r ← firingsBelow x all s
    if all || x.mine s then
      match ← segTiles x s with
      | .ok n => return r + n
      | .error _ => return r
    else return r

/-- Where firing `n` goes (R337). -/
def placeOf (x : Expand) (n : Nat) : Nat :=
  if x.p.place ≠ 0xFFFF then x.p.place
  else
    let b := match x.core with | some c => instOf x.p.level c | none => 0
    (b + n) % instCount x.p.level

/-- How an expansion comes out: ended, the rest refused with a cause, or stopped before a push; where, as (segment,
tile). -/
inductive Expanded
  | done
  | refused (seg tile cause access detail : Nat) (va : Word)
  | blocked (seg tile : Nat)
  deriving DecidableEq, Repr

/-- The next segment and tile (R336). -/
def Expanded.next (count : Nat) : Expanded → Nat × Nat
  | .done => (count, 0)
  | .refused s t _ _ _ _ => (s, t)
  | .blocked s t => (s, t)

/-- The pushes of segment `s` from tile `t` on (R336), `n` being the first firing's number; `budget` pushes may still be
made. -/
def expandTiles (x : Expand) (s : Nat) : Nat → Nat → Nat → Option Nat → M (Expanded × Nat × Option Nat)
  | 0, _, n, b => return (.done, n, b)
  | k + 1, t, n, b => do
    if b = some 0 then return (.blocked s t, n, b)
    let before ← getS
    let bad ← if x.p.joinrec = 0 then pure none
      else do
        match ← joinPlace x.asid x.core x.p.joinrec with
        | .error e => pure (some e)
        | .ok loc =>
          let j := Memory.read (← getS).mem (loc + 0x18) 4
          let _ ← bseqNext loc
          homePut (loc + 0x18) 4 (j + 1)
          pure none
    match bad with
    | some e => return (.refused s t e.cause e.access 0 e.va, n, b)
    | none =>
      leLiveAdd x.lid 1
      let frame := if x.fsize = 0 then 0 else x.p.fbase.toNat + n * x.fsize
      let li := (SMap.get none x.lid (← getS).launches).getD ⟨1, x.spost, 0, 0, none⟩
      let ok ← pushRun x.spost (runIndex x.p.level (placeOf x n))
        { code := x.code.toNat, frame := frame % 2 ^ 64, arg := s + t * 2 ^ 32, meta32 := mkMeta x.asid x.lid 3 }
        (some { okind := li.okind, spost := li.spost, pfid := li.pfid, pord := li.pord, num := n })
      if ok then expandTiles x s k (t + 1) (n + 1) (b.map (· - 1))
      else
        set before
        return (.blocked s t, n, b)

/-- The segments from `s` on (R336). -/
def expandSegs (x : Expand) : Nat → Nat → Nat → Nat → Option Nat → M (Expanded × Nat × Option Nat)
  | 0, _, _, n, b => return (.done, n, b)
  | k + 1, s, t, n, b => do
    match ← segTiles x s with
    | .error e => return (.refused s t e.cause e.access 0 e.va, n, b)
    | .ok nt =>
      if 33554431 < nt then return (.refused s t cLAUNCHBAD 0 6 0, n, b)
      else if !x.mine s then expandSegs x k (s + 1) 0 (n + nt) b
      else
        match ← expandTiles x s (nt - t) t n b with
        | (.done, n, b) => expandSegs x k (s + 1) 0 n b
        | r => return r

/-- The pushes of an expansion from (segment, tile) on (R336), and the pushes of the budget left. -/
def expandFrom (x : Expand) (s t : Nat) (budget : Option Nat) : M (Expanded × Option Nat) := do
  let n ← firingsBelow x true s
  let (r, _, b) ← expandSegs x (x.p.count - s) s t (n + t) budget
  return (r, b)

/-- The firings this device has pushed when the expansion stands at (segment, tile). -/
def pushedAt (x : Expand) (s t : Nat) : M Nat := do return (← firingsBelow x false s) + t

/-- A refusal of the rest of an expansion is reported (R336). -/
def reportRefused (x : Expand) : Expanded → M Unit
  | .refused _ _ c a d va => expansionFault x.lid x.asid c a d va
  | _ => return ()

/-- The final decrement of `JOINREC` (R336). -/
def expandJoin (x : Expand) : M Unit := do
  if x.p.joinrec ≠ 0 then
    match ← joinPlace x.asid x.core x.p.joinrec with
    | .error e => expansionFault x.lid x.asid e.cause e.access 0 e.va
    | .ok loc =>
      let dec := fun (w : OlWho) => do
        let _ ← olBeat w 6 4 x.p.joinrec loc 0 (joinDec loc 1 x.asid x.lid x.core w.fid w.ord) fun old =>
          ((decide (old = 1)).toNat, old)
      if x.core.isSome then dec x.who else olUnparked x.who dec

/-- The retirement of the guard (R336, R338). -/
def retireGuard (x : Expand) : M Unit := endSteps x.lid 0 0 true false x.core x.who

end Sys2Proof.Machine
end

