-- ==== Sys2Proof/Machine/TraceUnit.lean ====
section
/-!
DEFINITION. The trace unit of a core: records and the ring (R404 to R412), and the per-context totals (R415).
-/

namespace Sys2Proof.Machine

/-- The control block in a cycle: a written `TRCTL` is in force from the cycle after its write; turning recording on starts the period
and owes a TIME record (R405). -/
def Trace.inForce (now : Nat) (t : Trace) : Trace :=
  match t.pending with
  | none => t
  | some (at', c) =>
    if now ≤ at' then t
    else
      let on := (bit c 0 && !bit t.ctl 0) || (bit c 1 && !bit t.ctl 1)
      let t := { t with ctl := c, pending := none }
      if on then { t with spcur := t.spmin, spAt := at' + 1, spGone := 0, timeFirst := true } else t

def getT : M Trace := do
  let s ← getS
  return s.core.trace.inForce s.cycle.toNat
def modT (g : Trace → Trace) : M Unit :=
  modS fun s => { s with core := { s.core with trace := g (s.core.trace.inForce s.cycle.toNat) } }

def trTen (t : Trace) : Bool := bit t.ctl 0
def trSen (t : Trace) : Bool := bit t.ctl 1
def trUnread (t : Trace) : Nat := (t.tail + 2 ^ 32 - t.head) % 2 ^ 32
def trRoom (t : Trace) : Nat := 2 ^ t.log2 - 1 - trUnread t

/-- From a cycle on, the reason the front is not issuing; kept while sampling is on (R411). -/
def Trace.because (cycle code : Nat) (t : Trace) : Trace :=
  if trSen (t.inForce cycle) then { t with why := t.why ++ [(cycle, code)] } else t

/-- Time passes: one cycle at least. The reason of the cycles beyond the shortest time is `code`, else a free one of those that no
rule fixes (R18, R27, R411; log entry 6). -/
def spendIn (code : Option Nat) (n : Nat) : M Unit := do
  let k ← fresh
  modS fun s =>
    let free := [3, 5, 8, 11, 4].getD (Config.heldFor k % if s.core.f.queue.length = 32 then 5 else 4) 3
    { s with cycle := s.cycle + BitVec.ofNat 64 (n + Config.extraCycles k),
             core := { s.core with trace := s.core.trace.because (s.cycle.toNat + n) (code.getD free) } }
def spend (n : Nat) : M Unit := spendIn none n
/-- The reason why the front does not issue, so many cycles from now. -/
def because (off code : Nat) : M Unit :=
  modS fun s => { s with core := { s.core with trace := s.core.trace.because (s.cycle.toNat + off) code } }

/-- Cycles the firing has held the core. -/
def State.held (s : State) : Nat := (s.cycle - s.core.since).toNat

/-- Write a record at the next count (R410), and raise `MINT` bit 5 above three quarters (R423). -/
def trPut (rec128 : Nat) : M Unit := do
  let t ← getT
  physWrite (t.base + 16 * (t.tail % 2 ^ t.log2)) 16 rec128
  modT fun t => { t with tail := (t.tail + 1) % 2 ^ 32 }
  let t ← getT
  if 3 * 2 ^ t.log2 < 4 * trUnread t then modS (·.raiseMint 5)

/-- A record is dropped (R410). -/
def trDrop : M Unit := modT fun t => { t with lost := (t.lost + 1) % 2 ^ 32, dropped := t.dropped + 1 }
/-- A record that finds the ring full is dropped (R410). -/
def trTry (rec128 : Nat) : M Bool := do
  if trRoom (← getT) = 0 then
    trDrop
    return false
  else
    trPut rec128
    return true

def trWord (kind rf eng dt aux asid pay : Nat) : Nat :=
  kind + 16 * (rf % 16) + 256 * (eng % 8) + 2 ^ 16 * (dt % 65536) + 2 ^ 32 * (aux % 65536) + 2 ^ 48 * (asid % 16384)
    + 2 ^ 64 * (pay % 2 ^ 64)

/-- The TIME record of an event (R409). -/
def trTime (asid cycle : Nat) : M Unit := do
  if ← trTry (trWord 1 0 0 0 0 asid cycle) then
    modT fun t => { t with last := cycle, timeOwed := false, timeFirst := false }

/-- The LOST record, once two entries are free again (R410), behind a TIME record that comes before anything else (R405, R415); it is
of no context. -/
def trLost (cycle : Nat) : M Unit := do
  let t ← getT
  if t.dropped ≠ 0 ∧ 2 ≤ trRoom t then
    if t.timeFirst then trTime 0 cycle
    let t ← getT
    let d := cycle - t.last
    trPut (trWord 11 0 0 (if t.timeOwed || decide (65536 ≤ d) then 0 else d) 0 0 t.dropped)
    modT fun t => { t with dropped := 0, timeOwed := true }

/-- Write an event's record into the ring, with what goes before it (R409, R410): has it been written? -/
def trWriteRec (r : TraceRec) : M Bool := do
  trLost r.cycle
  let t ← getT
  if t.timeFirst || t.timeOwed || decide (65536 ≤ r.cycle - t.last) then trTime r.asid r.cycle
  let t ← getT
  if ← trTry (trWord r.kind r.rf r.eng (r.cycle - t.last) r.aux r.asid r.pay) then
    modT fun t => { t with last := r.cycle }
    return true
  else return false

/-- The place of a kind within its cycle (R409). -/
def TraceRec.rank (r : TraceRec) : Nat :=
  match r.kind with
  | 6 => 1
  | 5 => 2
  | 3 => 3
  | 4 => 4
  | 2 => 5
  | k => k
/-- Does a record stand before another: by cycle, kind, and `SEQ` as a signed difference (R409)? A requested SAMPLE comes before a
periodic one, whose PERIOD follows it. -/
def TraceRec.before (a b : TraceRec) : Bool :=
  decide (a.cycle < b.cycle) || (a.cycle == b.cycle && (decide (a.rank < b.rank) ||
    (a.kind == 9 && b.kind == 9 && decide (b.rf < a.rf)) || (a.rank == b.rank && decide (2 ≤ a.kind) && decide (a.kind ≤ 4) && a.aux != b.aux &&
      decide ((b.aux + 65536 - a.aux) % 65536 < 32768))))
def insertRec (r : TraceRec) : List TraceRec → List TraceRec
  | [] => [r]
  | y :: l => if r.before y then r :: y :: l else y :: insertRec r l

/-- A record of an event: it awaits its write; one that finds 64 waiting is dropped (R406, R410). -/
def trRecordAt (cycle asid kind rf eng aux pay : Nat) : M Unit := do
  if 64 ≤ (← getT).buf.length then trDrop
  else
    modT fun t => { t with buf := insertRec { cycle := cycle, kind := kind, rf := rf, eng := eng, aux := aux, asid := asid, pay := pay } t.buf }
def trRecordOf (asid kind rf eng aux pay : Nat) : M Unit := do
  trRecordAt (← getS).cycle.toNat asid kind rf eng aux pay

/-- Does a value of `TRCTL` record events of a context that is not confidential (R413)? -/
def ctlTraces (ctl asid : Nat) : Bool := (bit ctl 0 || bit ctl 1) && (!bit ctl 2 || bits ctl 16 14 == asid)
/-- Is a firing of a context traced (R413, R415)? -/
def tracedOf (asid : Nat) : M Bool := do
  let t ← getT
  if !(trTen t || trSen t) then return false
  if ← isConf asid then return false
  return ctlTraces t.ctl asid
def traced : M Bool := do tracedOf (← getS).core.info.asid

/-- A record of begin, end, completion, firing or stop, with `TEN` = 1 (R407, R408). -/
def trTraceOf (asid kind rf eng aux pay : Nat) : M Unit := do
  if trTen (← getT) then
    if ← tracedOf asid then trRecordOf asid kind rf eng aux pay
def trTrace (kind rf eng aux pay : Nat) : M Unit := do trTraceOf (← getS).core.info.asid kind rf eng aux pay

/-- Why an instruction is held (R411). -/
def holdReason : Wait → Nat
  | .stream _ => 6
  | .copySlot => 7
  | .queueFull => 5
  | .waita | .barrier | .background => 9
  | .logRoom .. | .replay .. => 10
  | .launchRoom => 12
  | .vat => 0
/-- The reason of the cycles that a wait lasts beyond its first: of a run of the vat the front's own is free. -/
def holdCode : Wait → Option Nat
  | .vat => none
  | w => some (holdReason w)
/-- The reason in force in a cycle. -/
def Trace.reason (t : Trace) (cycle : Nat) : Nat := (((t.why.filter (·.1 ≤ cycle)).getLast?).map (·.2)).getD 0

/-- Is a sample due: a traced firing has held the core for `SPCUR` since the period began (R411)? -/
def sampleDue : M Bool := do
  let s ← getS
  let t ← getT
  return s.core.running && trSen t && decide (t.spcur ≤ s.cycle.toNat - t.spAt) && (← traced)
/-- The SAMPLE of a period that has run out, in its last cycle (R411). -/
def trSample : M Unit := do
  let c := (← getS).core
  let t ← getT
  let at' := t.spAt + t.spcur
  trRecordAt at' c.info.asid 9 0 0 (t.reason at' + 256 * c.f.queue.length) c.f.fpc.toNat
  modT fun t => { t with spAt := at' }
/-- The period after a SAMPLE that has been written, and its PERIOD record (R412). -/
def trPeriod (r : TraceRec) : M Unit := do
  let t ← getT
  let o := trUnread t
  let n := 2 ^ t.log2
  let new := if 3 * n < 4 * o ∧ t.spcur < 2 ^ 24 then min (2 * t.spcur) (2 ^ 24)
    else if 4 * o < n ∧ t.spmin < t.spcur then max (t.spcur / 2) t.spmin else t.spcur
  if new ≠ t.spcur then
    if ← trWriteRec { r with kind := 10, rf := 0, aux := 0, pay := new + 2 ^ 32 * t.spcur } then
      modT fun t => { t with spcur := new }

/-- The records that await their writes go into the ring, oldest first, up to the cycle that still runs or a sample that is due. -/
def trDrain : Nat → M Unit
  | 0 => return ()
  | n + 1 => do
    let t ← getT
    let due ← sampleDue
    match t.buf with
    | [] => if !due then modT fun t => { t with why := t.why.drop (t.why.length - 1) }
    | r :: rest =>
      let now := (← getS).cycle.toNat
      if r.cycle < (if due then min now (t.spAt + t.spcur) else now) then
        modT fun t => { t with buf := rest }
        if (← trWriteRec r) && r.kind == 9 && r.rf == 0 then trPeriod r
        trDrain n

/-- The samples due up to now, each written before the next is taken. -/
def samplesUpTo : Nat → M Unit
  | 0 => return ()
  | n + 1 => do
    if ← sampleDue then
      trSample
      trDrain 65
      samplesUpTo n
/-- The samples still due when a firing leaves its core, or when what governs them changes (R405, R411). -/
def lastSamples : M Unit := do
  let t ← getT
  samplesUpTo (((← getS).cycle.toNat - t.spAt) / max 1 (min t.spmin t.spcur) + 1)

/-- Totals of a firing that leaves its core (R415). -/
def addTotals : M Unit := do
  let k ← fresh
  modS fun s =>
    let a := s.core.info.asid
    let t := SMap.get {} a s.totals
    { s with totals := SMap.put {} a { cycles := (t.cycles + s.held) % 2 ^ 64,
                                       instrs := (t.instrs + s.core.issued) % 2 ^ 64,
                                       energy := min (t.energy + Config.energy k) (2 ^ 64 - 1) } s.totals }

end Sys2Proof.Machine
end

