-- ==== Sys2Proof/Machine/Streams.lean ====
section
/-!
DEFINITION. Streams (R291 to R298): images, patterns, fetches, drains, and what a lane instruction takes from or gives to
a stream.
-/

namespace Sys2Proof.Machine

/-- The image of Table 13.1 as a number of 64 bytes. -/
def streamImage (q : Stream) : Nat :=
  let ctl := q.esize % 8 + 8 * q.fifo.toNat + 16 * q.dir.toNat + 32 * q.bound.toNat
  q.base.toNat
    + ((List.range 4).map fun j => 2 ^ (64 + 64 * j) * (q.stride[j]!).toNat).sum
    + ((List.range 4).map fun j => 2 ^ (320 + 16 * j) * (q.cnt[j]!).toNat).sum
    + 2 ^ 384 * (q.pos % 2 ^ 64) + 2 ^ 448 * ctl
def streamOfImage (n : Nat) : Stream :=
  let w := fun lo => BitVec.ofNat 64 (bits n lo 64)
  { base := w 0, stride := #v[w 64, w 128, w 192, w 256],
    cnt := #v[BitVec.ofNat 16 (bits n 320 16), BitVec.ofNat 16 (bits n 336 16), BitVec.ofNat 16 (bits n 352 16),
              BitVec.ofNat 16 (bits n 368 16)],
    pos := bits n 384 64, esize := bits n 448 3, fifo := bit n 451, dir := bit n 452, bound := bit n 453 }

/-- Element bytes and stream bytes (R292). -/
def Stream.size (q : Stream) : Nat := 2 ^ q.esize
def Stream.total (q : Stream) : Nat :=
  ((q.cnt[0]).toNat + 1) * ((q.cnt[1]).toNat + 1) * ((q.cnt[2]).toNat + 1) * ((q.cnt[3]).toNat + 1) * q.size

/-- The address of an element (R292). -/
def elemAddrStep (q : Stream) : List (Fin 4) → Nat → Word → Word
  | [], _, a => a
  | j :: r, e, a =>
    let c := (q.cnt[j]).toNat + 1
    elemAddrStep q r (e / c) (a + BitVec.ofNat 64 (e % c) * q.stride[j])
def Stream.elemAddr (q : Stream) (e : Nat) : Word := elemAddrStep q [0, 1, 2, 3] e q.base

def getQ (k : Fin 8) : M Stream := do return (← getF).q[k]
def modQ (k : Fin 8) (g : Stream → Stream) : M Unit := modF fun f => { f with q := f.q.set k (g f.q[k]) }

/-- A firing wrote poisoned data, or a store of it was dropped (R97). -/
def notePoison : M Unit := modF fun f => { f with poisonOut := true }

/-- Stores of `n` bytes at one place, by 64-bit words (R71, R95), each with its `turn` (R219); a dropped part makes its record. -/
def writeSpan (g : Agent) (port : Port) (turn : Nat) (va : Word) : Nat → Place → Nat → Nat → Bool → M Unit
  | 0, _, _, _, _ => return ()
  | fuel + 1, p, n, v, poison => do
    if n = 0 then return ()
    else
      let k := min n (8 - p.loc % 8)
      match ← storeAt g port va p k (v % 2 ^ (8 * k)) poison turn with
      | .dropped =>
        poisonStore g va
        notePoison
      | .poisoned => notePoison
      | .stored => pure ()
      writeSpan g port turn (va + BitVec.ofNat 64 k) fuel { p with loc := p.loc + k } (n - k) (v / 2 ^ (8 * k)) poison

/-- The line of a block of a FIFO bank, by its place behind the oldest one: each holds two blocks. -/
def QBank.lineOf (b : QBank) (i : Nat) : Nat := (b.fifoHead + i) % 4096 / 2
/-- A block of a FIFO bank, with the poison of its line (Table 3.8). -/
def QBank.block (b : QBank) (i : Nat) : Option (BitVec 512 × Bool) := b.fifo[i]?.map fun x => (x, b.fifoBad.getLsbD (b.lineOf i))
/-- A block goes behind the youngest one; a poisoned one poisons its line, and a half of a line clears no poison (Table 3.8). -/
def QBank.push (b : QBank) (x : BitVec 512) (poison : Bool) : QBank :=
  { b with fifo := b.fifo ++ [x], fifoBad := if poison then b.fifoBad ||| (1#2048 <<< b.lineOf b.fifo.length) else b.fifoBad }
def QBank.pop (b : QBank) : QBank := { b with fifo := b.fifo.drop 1, fifoHead := (b.fifoHead + 1) % 4096 }

/-- The bank of a FIFO stream, with the checks of R61 and R63 (R297). -/
def fifoBank (q : Stream) : M (Except AErr Nat) := do
  let g ← me
  let off := q.base.toNat - 0xFFFFFF800000
  let k := 32 * clusterOf g.core + off / bankSize
  let b := (← getS).bank k
  let kind := if q.dir then aStore else aLoad
  if b.busy then stopWith (.wait .background)
  if !inWindow q.base || b.mode ≠ .fifo then return .error ⟨cQUIREMODE, q.base, kind⟩
  if !b.gv || b.gasid ≠ g.asid then return .error ⟨cQUIREOWN, q.base, kind⟩
  return .ok k

/-- The elements of block `k` from element `e` on: bytes as one number, poison, or the first failed check. -/
def fetchElems (q : Stream) (k : Nat) : Nat → Nat → Nat → Bool → M (Except AErr (Nat × Bool))
  | 0, _, v, p => return .ok (v, p)
  | n + 1, i, v, p => do
    let s := q.size
    let e := 64 / s * k + i
    if q.total ≤ e * s then return .ok (v, p)
    else
      let g ← me
      match ← locate g needLoad aLoad (q.elemAddr e) s with
      | .error err => return .error err
      | .ok pl =>
        let (x, px) ← readPlace g .head pl s
        fetchElems q k n (i + 1) (v + x * 2 ^ (8 * s * i)) (p || px)

/-- Fetch block `k` (R294); `none`: a FIFO bank without it. -/
def fetchBlock (q : Stream) (k : Nat) : M (Except AErr (Option Block)) := do
  if q.fifo then
    match ← fifoBank q with
    | .error e => return .error e
    | .ok b =>
      match ((← getS).bank b).block (k - q.pos / 64) with
      | some (x, p) => return .ok (some { idx := k, bits := x, poison := p || (← takeBeat (← getS).core.id) })
      | none => return .ok none
  else
    match ← fetchElems q k (64 / q.size) 0 0 false with
    | .error e => return .error e
    | .ok (v, p) => return .ok (some { idx := k, bits := BitVec.ofNat 512 v, poison := p })

/-- A stream fault, raised by the consuming instruction (R298). NOTMAPPED and PROT are replayed (R101). -/
def streamFault {α : Type} (e : AErr) (pos : Nat) : M α :=
  if e.cause = cNOTMAPPED ∨ e.cause = cPROT then stopWith (.replay 4 [⟨e.cause, e.va, pos, 1, e.access, 0⟩])
  else stopWith (.trap { cause := e.cause, eKind := true, engine := 4, addr := some e.va, index := pos, count := 1,
                         access := e.access })

/-- QPATTERN with its reason (Table 13.2). -/
def qpattern {α : Type} (reason : Nat) (pos : Nat := 0) : M α :=
  stopWith (.trap { cause := cQPATTERN, eKind := true, engine := 4, index := pos, count := 1, detail := reason })

/-- The block at `POS` of a read stream, fetched ahead or now; waits on an empty FIFO bank. -/
def peekBlock (k : Fin 8) (n : Nat) : M Block := do
  let q ← getQ k
  if q.total ≤ 64 * n then qpattern 3 (64 * n)
  if q.fifo then
    match ← fifoBank q with
    | .error e => streamFault e (64 * n)
    | .ok _ => pure ()
  match q.fetched.find? (·.idx = n) with
  | some b => return b
  | none =>
    match ← fetchBlock q n with
    | .error e => streamFault e (64 * n)
    | .ok none => stopWith (.wait (.stream k))
    | .ok (some b) =>
      modQ k fun q => { q with fetched := q.fetched ++ [b] }
      return b

/-- The block at `POS` is consumed: `POS` advances, and a FIFO bank pops it (R297). -/
def popBlock (k : Fin 8) : M Unit := do
  let q ← getQ k
  if q.fifo then
    match ← fifoBank q with
    | .error e => streamFault e q.pos
    | .ok b => modS fun s => s.setBank b (s.bank b).pop
  modQ k fun q => { q with pos := q.pos + 64, fetched := q.fetched.filter (·.idx ≠ q.pos / 64) }

/-- Drain the bytes `lo` to `hi - 1` of a held block, by elements in ascending order. -/
def drainElems (q : Stream) (b : Block) : Nat → Nat → M (Except AErr Unit)
  | 0, _ => return .ok ()
  | n + 1, i => do
    let s := q.size
    let e := 64 / s * b.idx + i
    let lo := max (s * i) b.lo
    let hi := min (s * (i + 1)) b.hi
    if q.total ≤ e * s ∨ hi ≤ lo then
      if q.total ≤ e * s then return .ok () else drainElems q b n (i + 1)
    else
      let g ← me
      match ← locate g needStore aStore (q.elemAddr e) s with
      | .error err => return .error err
      | .ok pl =>
        let d := lo - s * i
        writeSpan g .head 0 (q.elemAddr e + BitVec.ofNat 64 d) 16 { pl with loc := pl.loc + d } (hi - lo)
          (bits b.bits.toNat (8 * lo) (8 * (hi - lo))) b.poison
        drainElems q b n (i + 1)

/-- Drain the oldest held block (R294, R297). A fault stays with the stream (R298). A partly written place of a FIFO
bank stays held until its last byte. -/
def drainOldest (k : Fin 8) : M Unit := do
  let q ← getQ k
  match q.held with
  | [] => return ()
  | b :: rest =>
    if q.drainFault.isSome then return ()
    modQ k fun q => { q with drainRaised := false }
    if q.fifo then
      if b.lo = 0 ∧ b.hi = 64 then
        match ← fifoBank q with
        | .error e => modQ k fun q => { q with drainFault := some (e.cause, e.va, 64 * b.idx) }
        | .ok n =>
          let poison := b.poison || (← takeBeat (← getS).core.id)
          modS fun s => s.setBank n { (s.bank n).push b.bits poison with reserved := (s.bank n).reserved - 1 }
          if poison then notePoison
          modQ k fun q => { q with held := rest }
    else
      match ← drainElems q b (64 / q.size) 0 with
      | .error e => modQ k fun q => { q with drainFault := some (e.cause, e.va, 64 * b.idx) }
      | .ok () => modQ k fun q => { q with held := rest }

/-- Drain all that a stream holds, up to a fault. -/
def drainAll (k : Fin 8) : M Unit := do upTo (← getQ k).held.length fun _ => drainOldest k

/-- A drain fault is raised by the next instruction that writes the stream, `qsync`, `qrel` or `end` (R298); the drain
is tried again afterwards. -/
def raiseDrain (k : Fin 8) : M Unit := do
  match (← getQ k).drainFault with
  | none => return ()
  | some (c, va, pos) =>
    modQ k fun q => { q with drainFault := none, drainRaised := true }
    streamFault ⟨c, va, aStore⟩ pos

/-- The lanes give bytes `lo` to `hi - 1` of block `n` of a write stream (R294, R297, R298). -/
def giveBlock (k : Fin 8) (n lo hi v : Nat) (poison : Bool) : M Unit := do
  let q ← getQ k
  if q.total ≤ 64 * n then qpattern 3 (64 * n)
  raiseDrain k
  let part := fun (b : Block) => b.idx = n
  match q.held.find? part with
  | some b =>
    let w := patchNat b.bits.toNat lo (hi - lo) v
    modQ k fun q =>
      { q with held := q.held.map fun x =>
          if x.idx = n then { x with bits := BitVec.ofNat 512 w, poison := x.poison || poison, hi := hi } else x }
  | none =>
    if q.fifo then
      match ← fifoBank q with
      | .error e => streamFault e (64 * n)
      | .ok b =>
        let bk := (← getS).bank b
        if lo = 0 then
          if 4096 ≤ bk.fifo.length + bk.reserved then stopWith (.wait (.stream k))
          modS fun s => s.setBank b { s.bank b with reserved := (s.bank b).reserved + 1 }
    else if 16 ≤ q.held.length then
      drainOldest k
      raiseDrain k
    modQ k fun q =>
      { q with held := q.held ++ [{ idx := n, bits := BitVec.ofNat 512 (v * 2 ^ (8 * lo)), poison := poison, lo := lo,
                                    hi := hi }] }
  if hi = 64 then modQ k fun q => { q with pos := q.pos + 64 }

/-- Does a stream still hold a block that can be drained (R294)? A place of a FIFO bank waits for its last byte (R297). -/
def Stream.draining (q : Stream) : Bool := q.held.any fun b => !q.fifo || b.hi == 64

/-- Drain up to `n` blocks of a stream, but nothing that would wait. -/
def drainReady (k : Fin 8) : Nat → M Unit
  | 0 => return ()
  | n + 1 => do
    let before ← getS
    let ready ← (try (do
        drainOldest k
        return true) catch
      | .wait _ => do
        set before
        return false
      | e => throw e)
    if ready then drainReady k n

/-- Do blocks of a stopped firing's stream still drain by themselves? Where a drain's fault made the stop, they wait for the firing. -/
def Stream.leftToDrain (q : Stream) : Bool := !q.drainRaised && q.drainFault.isNone && q.draining

/-- Streams at a stop (R298): fetched blocks are discarded; held ones drain, those that have to wait after the stop. -/
def stopStreams : M Unit := do
  for k in List.finRange 8 do
    if !(← getQ k).drainRaised then drainReady k (← getQ k).held.length
    modQ k fun q => { q with fetched := [] }

end Sys2Proof.Machine
end

