-- ==== Sys2Proof/Machine/Regs.lean ====
section
/-!
DEFINITION. The words of the registers that software reads whole (Tables 4.2 to 4.4, 6.3, 6.4, 6.7, 9.9, 11.1 to 11.4, 14.1),
and what a write of each keeps.
-/

namespace Sys2Proof.Machine

def b64 (n : Nat) : Word := BitVec.ofNat 64 n

def TrapRegs.word (t : TrapRegs) : Nat :=
  t.cause % 256 + 2 ^ 8 * (t.level % 4) + 2 ^ 10 * (t.engine % 8) + 2 ^ 13 * t.act.toNat + 2 ^ 14 * (t.dumpn % 64)
    + 2 ^ 20 * (t.didx % 32) + 2 ^ 25 * t.dvalid.toNat + 2 ^ 26 * t.skip.toNat
def TrapRegs.ofWords (w val pc : Nat) : TrapRegs :=
  { cause := bits w 0 8, level := bits w 8 2, engine := bits w 10 3, act := bit w 13, dumpn := bits w 14 6,
    didx := bits w 20 5, dvalid := bit w 25, skip := bit w 26, val := b64 val, pc := b64 pc &&& 0xFFFFFFFFFFF8 }

/-- `VTYPE` (Table 6.3). -/
def Firing.vtypeWord (f : Firing) : Nat := f.vfmt % 32 + 32 * (f.vblk % 4) + 256 * (f.vrm % 8)
def Firing.setVtype (f : Firing) (w : Nat) : Firing :=
  let fmt := if 20 < bits w 0 5 then 9 else bits w 0 5
  let blk := if 12 ≤ fmt ∧ fmt ≤ 16 then bits w 5 2 else 0
  { f with vfmt := fmt, vblk := blk, vrm := if bits w 8 3 ≤ 4 then bits w 8 3 else f.vrm }

def LnReg.word (l : LnReg) : Nat := l.count % 2 ^ 15 + 2 ^ 16 * (l.pad % 64)
def LnReg.ofWord (w : Nat) : LnReg := { count := bits w 0 15, pad := bits w 16 6 }

/-- `TCFG` (Table 11.1). -/
def TCfg.word (t : TCfg) : Nat := t.fmt.toNat + 2 ^ 8 * t.rows.toNat + 2 ^ 16 * t.rb.toNat
def TCfg.ofWord (w : Nat) : TCfg := { fmt := BitVec.ofNat 5 w, rows := BitVec.ofNat 7 (bits w 8 7),
                                       rb := BitVec.ofNat 7 (bits w 16 7) }

/-- `BCARRY` (Table 11.3). -/
def Firing.bcarryWord (f : Firing) : Nat := f.bcfmt % 32 + 32 * (f.bcrm % 4)
def Firing.setBcarry (f : Firing) (w : Nat) : Firing :=
  { f with bcfmt := if 9 ≤ bits w 0 5 ∧ bits w 0 5 ≤ 11 then bits w 0 5 else 9, bcrm := bits w 5 2 }

/-- `PSTART` (Table 11.4). -/
def Firing.pstartWord (f : Firing) : Nat := f.panel % 65536 + 65536 * (f.stage % 16)
def Firing.setPstart (f : Firing) (w : Nat) : Firing := { f with panel := bits w 0 16, stage := bits w 16 4 }

/-- `BCFG` (Table 14.1). -/
def Firing.bcfgWord (f : Firing) : Nat := f.bwin % 4 + 4 * f.border.toNat
def Firing.setBcfg (f : Firing) (w : Nat) : Firing :=
  { f with bwin := if bits w 0 2 = 3 then 2 else bits w 0 2, border := bit w 2 }

/-- What a write keeps of an `FXSTATE` register (Table 9.9). -/
def fxKeep (k w : Nat) : Nat :=
  match k with
  | 0 => (if 5 ≤ bits w 0 3 then 0 else bits w 0 3) + 8 * bits w 3 13
  | 6 => bits w 0 32 + 2 ^ 32 * (if bits w 32 2 = 3 then 2 else bits w 32 2)
  | 7 => 0
  | _ => w % 2 ^ 64

/-- `QBANK` (Table 3.3). `FCOUNT` counts the whole blocks held. -/
def QBank.word (b : QBank) : Nat :=
  b.mode.code + 4 * b.busy.toNat + 8 * b.gv.toNat + 16 * (b.gasid % 16384)
    + 2 ^ 32 * (if b.mode = .fifo then b.fifo.length % 8192 else 0)

/-- Poison bits of `x1` to `x31` (Table 4.10). -/
def Firing.vdir (f : Firing) (n : Fin 64) : Nat :=
  let v := f.v[n]
  v.len % 8192 + 2 ^ 13 * v.dirty.toNat + 2 ^ 14 * (f.resident.contains n).toNat + 2 ^ 64 * v.poison.toNat

/-- The scalar registers as an instruction reads them: `x0` reads as zero (R129). -/
def Firing.rx (f : Firing) (r : Fin 32) : Word := if r = 0 then 0 else f.x[r]
/-- A write of a scalar register: `x0` discards it, and the register's poison goes (R129, R93). A latency of an older write
still runs (R22). -/
def Firing.setX (f : Firing) (r : Fin 32) (v : Word) : Firing :=
  if r = 0 then f
  else { f with x := f.x.set r v, xp := f.xp &&& ~~~(1#32 <<< r.val), badX := f.badX &&& ~~~(1#32 <<< r.val) }
/-- Poison a scalar register (R93). -/
def Firing.poisonX (f : Firing) (r : Fin 32) : Firing :=
  if r = 0 then f else { f with xp := f.xp ||| (1#32 <<< r.val) }
/-- A write with a latency of more than one cycle (Table 1.4): the value before it is kept until it is due. -/
def Firing.setLate (f : Firing) (r : Fin 32) (v : Word) (lat : Nat) : Firing :=
  if r = 0 then f
  else
    let p : Pending := { reg := r, old := f.x[r], oldPoison := f.xp.getLsbD r.val, val := v, lat := lat, dist := 0, back := 0 }
    let g := f.setX r v
    { g with pend := p :: g.pend }
def Firing.setLn (f : Firing) (l : Fin 4) (r : LnReg) : Firing := { f with ln := f.ln.set l r }
/-- Maximum length (R158); also the register bound of the moves (R194 to R197). -/
def vlmax (w b : Nat) : Nat :=
  let n := min 16384 (32768 / w)
  if b = 0 then n else n / b * b
/-- Mask registers: `m0` reads as ones (R155). -/
def Firing.rm (f : Firing) (k : Fin 8) : BitVec 16384 := if k = 0 then BitVec.allOnes 16384 else f.m[k]

end Sys2Proof.Machine
end

