-- ==== Sys2Proof/Machine/Overlap.lean ====
section
/-!
DEFINITION. What engine instructions touch, and how far each has come: the dependences between unfinished ones by element group (R20,
R24, R157), the registers they pin (R177), and the bytes they are still to access through the load/store queue (R28). Log entry 5.
-/

namespace Sys2Proof.Machine

/-! Operands. -/

/-- Element `e` of width `w` of a register (R152). -/
def VReg.elem (v : VReg) (w e : Nat) : Nat := Machine.bits v.bits.toNat (e * w) w
/-- First element of group `k` (the group holds an element's bit 0, R152). -/
def groupLo (w k : Nat) : Nat := (512 * k + w - 1) / w
/-- Block length of `VTYPE.BLK` (R161): 0 for none. -/
def blockLen (code : Nat) : Nat := match code with | 1 => 16 | 2 => 32 | 3 => 64 | _ => 0

def fmtOf (n : Nat) : Fmt := (Fmt.ofCode? n).getD .i8
def fxField (f : Firing) (k lo n : Nat) : Nat := bits (f.fx[k]!).toNat lo n
def ipos (f : Firing) (i : Nat) : Nat := fxField f (1 + i / 2) (32 * (i % 2)) 32
def cellKind (w : Nat) : Nat := bits w 0 4
/-- Input streams an IN cell reads. -/
def inStreams (w : Nat) : List Nat :=
  bits w 32 2 :: ((if bits w 34 3 = 2 then [bits w 32 2 + 1] else []) ++ if bit w 47 then [bits w 48 2] else [])
/-- The format an input stream of a mould is read with. -/
def streamFmt (m : Mould) (i : Nat) : Fmt :=
  match m.cells.findSome? fun c =>
    let w := c.word
    if cellKind w ≠ 1 then none
    else if bits w 32 2 = i then some (if bits w 34 3 = 2 then bits w 42 5 else bits w 37 5)
    else if bits w 34 3 = 2 ∧ bits w 32 2 + 1 = i then some (bits w 37 5)
    else if bit w 47 ∧ bits w 48 2 = i then some 5 else none with
  | some c => fmtOf c
  | none => .i8

/-- A register of a dependence between engine instructions. -/
inductive Res
  | vec (v : Fin 64)
  | mask (m : Fin 8)
  | stream (q : Fin 8)
  | len (l : Fin 4)
  deriving DecidableEq, Repr

/-- An operand: is it written, the width of its elements in bits, how many elements of the instruction share one of its own (`per`), or
are read with the first of them (`chunk`); is it taken as a whole, how many of its bits can matter; of a fabric opcode the number of
its stream. -/
structure Touch where
  res : Res
  wr : Bool := false
  w : Nat := 8
  per : Nat := 1
  chunk : Nat := 1
  whole : Bool := false
  upto : Nat := 32768
  idx : Nat := 0
  deriving DecidableEq, Repr

def src (v : Fin 64) (w : Nat) : Touch := { res := .vec v, w := w }
def dst (v : Fin 64) (w : Nat) : Touch := { res := .vec v, wr := true, w := w }
def srcAll (v : Fin 64) : Touch := { res := .vec v, whole := true }
def dstAll (v : Fin 64) : Touch := { res := .vec v, wr := true, whole := true }
def maskIn (m : Fin 8) : Touch := { res := .mask m, w := 1, upto := 16384 }
def maskOut (m : Fin 8) : Touch := { res := .mask m, wr := true, w := 1, upto := 16384 }
/-- The mask of the rows of a product. -/
def rowMask (m : Fin 8) : Touch := { res := .mask m, whole := true, upto := 64 }
/-- A length register is read at the start, once all that write it have committed (R157). -/
def lenIn (l : Fin 4) : Touch := { res := .len l, whole := true, upto := 1 }
def lenOut (l : Fin 4) : Touch := { res := .len l, wr := true, whole := true, upto := 1 }
/-- A stream moves on with every instruction that takes from it or gives to it. -/
def streamUse (q : Fin 8) : Touch := { res := .stream q, wr := true, whole := true, upto := 1 }
def laneIn (w : Nat) : LaneReg → Touch | .vec v => src v w | .stream q => streamUse q
def laneOut (w : Nat) : LaneReg → Touch | .vec v => dst v w | .stream q => streamUse q
def bIn (w : Nat) : LaneB → List Touch | .vec v => [src v w] | _ => []
/-- An element-wise instruction (R183). -/
def laneOp (d a : LaneReg) (b : LaneB) (m : Fin 8) (w : Nat) : List Touch :=
  [laneOut w d, laneIn w a, maskIn m, lenIn 0] ++ bIn w b
def indexWidth (x32 : Bool) : Nat := if x32 then 32 else 16

/-- The operands of a fabric opcode: with its mould those that have a role (R244), without it every register a field names. -/
def fxTouches (mould : Option Mould) (fields : List (Fin 64)) (m : Fin 8) (l : Fin 4) : List Touch :=
  match mould with
  | none => fields.map dstAll ++ [{ maskIn m with whole := true }] ++ (List.finRange 4).map lenOut
  | some x =>
    ((x.role.zip fields).filterMap fun (b, r) =>
      let i := bits b 2 2
      if b % 4 = 1 then some { src r (streamFmt x i).width with idx := i }
      else if b % 4 = 2 then some { dst r (fmtOf (x.ofmt.getD i 0 % 32)).width with idx := i }
      else none)
    ++ (List.range x.nin).map (fun i => lenIn (Fin.ofNat 4 (x.ilen.getD i 0)))
    ++ (((List.range x.nin).filter fun i => bit (x.ilen.getD i 0) 2).map fun i => { maskIn m with idx := i })
    ++ ((List.range x.nout).map fun o => lenOut (l + Fin.ofNat 4 o))

/-- The operands of an engine instruction that is executed beside others; `mould`: of a fabric opcode, if it is known. -/
def operands (f : Firing) (mould : Option Mould) : Instr → List Touch
  | .vadd _ d a b m fmt | .vsub _ d a b m fmt | .vmul _ d a b m fmt | .vmulh _ d a b m fmt | .vmin _ d a b m fmt
  | .vmax _ d a b m fmt | .vand _ d a b m fmt | .vor _ d a b m fmt | .vxor _ d a b m fmt | .vshl _ d a b m fmt
  | .vshr _ d a b m fmt | .vsra _ d a b m fmt | .vfadd _ d a b m fmt | .vfsub _ d a b m fmt | .vfmul _ d a b m fmt
  | .vfma _ d a b m fmt | .vfnma _ d a b m fmt | .vfdiv _ d a b m fmt | .vfmin _ d a b m fmt | .vfmax _ d a b m fmt
  | .vscale _ d a b m fmt | .vmerge _ d a b m fmt => laneOp d a b m fmt.width
  | .vfsqrt _ d a m fmt | .vfrcp _ d a m fmt | .vfexp2 _ d a m fmt => laneOp d a (.imm 0) m fmt.width
  | .vcvt _ d a s blk m fmt =>
    let b := max 1 (blockLen f.vblk)
    [laneOut fmt.width d, { laneIn s.width a with chunk := if blk.isSome then b else 1 }, maskIn m, lenIn 0]
      ++ (blk.map fun v => { dst v 8 with per := b }).toList
  | .vcmp _ _ d a b m fmt | .vfcmp _ _ d a b m fmt => [maskOut d, laneIn fmt.width a, maskIn m, lenIn 0] ++ bIn fmt.width b
  | .mand _ d a b | .mor _ d a b | .mxor _ d a b => [maskOut d, maskIn a, maskIn b, lenIn 0]
  | .mnot _ d a => [maskOut d, maskIn a, lenIn 0]
  | .mpop _ _ a m | .mfirst _ _ a m => [{ maskIn a with whole := true }, { maskIn m with whole := true }, lenIn 0]
  | .vmtx _ _ a _ => [{ maskIn a with whole := true }]
  | .vredsum _ _ a _ m _ | .vfredsum _ _ a _ m _ | .vredmax _ _ a _ m _ | .vredmin _ _ a _ m _ =>
    [srcAll a, { maskIn m with whole := true }, lenIn 0]
  | .vextr _ _ a _ _ _ => [srcAll a]
  | .vscan _ d a _ m _ _ => [dstAll d, srcAll a, { maskIn m with whole := true }, lenIn 0]
  | .viota _ d a m _ _ => [dstAll d, { maskIn a with whole := true }, { maskIn m with whole := true }, lenIn 0]
  | .vslide _ d a _ m _ fmt | .vbcast _ d a _ m _ _ fmt => [dst d fmt.width, srcAll a, maskIn m, lenIn 0]
  | .vgrp _ d a b m n x32 _ fmt =>
    [dst d fmt.width, src b (indexWidth x32), maskIn m, lenIn 0]
      ++ (List.range (n.val + 1)).map fun i => srcAll (a + Fin.ofNat 64 i)
  | .vcomp _ d a b m _ => [dstAll d, srcAll a, { maskIn m with whole := true }, lenIn 0, lenOut b]
  | .vprune _ d a _ m j fmt => [dst d fmt.width, src a fmt.width, maskIn m, maskOut j, lenIn 0]
  | .vappend _ _ _ _ _ b m fmt => [src b fmt.width, { maskIn m with whole := true }, lenIn 0]
  | .vld _ _ d _ m _ fmt | .vlds _ d _ _ m _ fmt => [dst d fmt.width, maskIn m, lenIn 0]
  | .vst _ _ d _ m _ fmt | .vsts _ d _ _ m _ fmt => [src d fmt.width, maskIn m, lenIn 0]
  | .vldx _ _ d _ b _ m x32 _ fmt => [dst d fmt.width, src b (indexWidth x32), maskIn m, lenIn 0]
  | .vstx _ _ d _ b _ m x32 _ fmt | .vscadd _ _ _ d _ b _ m x32 _ _ fmt | .vstc _ _ _ d _ b _ m x32 _ _ fmt =>
    [src d fmt.width, src b (indexWidth x32), maskIn m, lenIn 0]
  | .vamo _ _ _ _ d _ b c m x32 _ _ j fmt =>
    [dst d fmt.width, src b (indexWidth x32), src c fmt.width, maskIn m, maskOut j, lenIn 0]
  | .vspill _ d _ b _ _ => [src d 8, lenIn b]
  | .vfill _ d _ b _ _ => [dst d 8, lenOut b]
  | .tldRegister _ _ a | .aldRegister _ _ a _ => [srcAll a]
  | .tstRegister _ d _ | .astRegister _ d _ _ _ => [dstAll d]
  | .bfly _ _ d a _ s fmt | .bchain _ _ d a _ _ s fmt => [dst d fmt.width, src a s.width, lenIn 0]
  | .bblk _ _ _ _ _ m _ | .bmma _ _ _ _ _ m _ | .tmac _ _ _ _ _ m => [rowMask m]
  | .bmmx _ _ _ _ c m vsb => [srcAll c, srcAll vsb, rowMask m]
  | .fx _ _ _ d a b c m e l | .fxres _ d a b c m e l => fxTouches mould [d, a, b, c, e] m l
  | .qbind _ _ q _ | .qrel _ q | .qsync _ q => [streamUse q]
  | _ => []

/-- Those of an entry; `m0` never changes. -/
def touchesOf (s : State) (e : DumpEntry) (j : Instr) : List Touch :=
  (operands s.core.f (mouldOf s e j) j).filter fun t => t.res != .mask 0

/-! Progress. -/

/-- How many of the first bits of a mask are set, up to `n`; and one past the last set one. -/
def leadingOnes (m : BitVec 16384) (n : Nat) : Nat := ((List.range n).find? fun e => !m.getLsbD e).getD n
def lastOne (m : BitVec 16384) (n : Nat) : Nat := (((List.range n).reverse.find? m.getLsbD).map (· + 1)).getD 0
/-- The mask register of an access of the lanes. -/
def maskField : Instr → Fin 8
  | .vld _ _ _ _ m _ _ | .vlds _ _ _ _ m _ _ | .vst _ _ _ _ m _ _ | .vsts _ _ _ _ m _ _ | .vldx _ _ _ _ _ _ m _ _ _
  | .vstx _ _ _ _ _ _ m _ _ _ | .vscadd _ _ _ _ _ _ _ m _ _ _ _ | .vstc _ _ _ _ _ _ _ m _ _ _ _
  | .vamo _ _ _ _ _ _ _ _ m _ _ _ _ _ | .vappend _ _ _ _ _ _ m _ => m
  | _ => 0

/-- Pair panels of a stage of `bfly` and `bchain` over the count taken (R273). -/
def stagePanels (count : Nat) : Instr → Nat
  | .bfly _ _ _ _ _ src dst | .bchain _ _ _ _ _ _ src dst => (min count (vlmax (max src.width dst.width) 0) / 2 + 63) / 64
  | _ => 0
/-- The stages of `bfly` and `bchain`, and the field of `BSTRIDE` of the first (R273). -/
def stagesOf : Instr → Option (Nat × Nat)
  | .bfly _ j .. => some (1, j.val)
  | .bchain _ j .. => some (j.val + 1, 0)
  | _ => none
/-- The elements that the first `64 * panel` pairs of a stage of stride `s` hold below, and those they may reach to. -/
def pairReach (s panel : Nat) : Nat × Nat := (64 * panel / s * (2 * s), (64 * panel + s - 1) / s * (2 * s))

/-- Of a started instruction: the number of its first elements that it has done with in an operand, and one past the last that it may have
touched there. A fabric opcode reads again from its cut when it is restarted (R251), and its outputs are done once they are counted. -/
def progress (s : State) (e : DumpEntry) (j : Instr) (t : Touch) : Nat × Nat :=
  let f := s.core.f
  if e.pcm then
    let n := min e.vlen (vlmax e.wide 0)
    (leadingOnes e.mask n, if t.wr && e.pad != 0 then n else lastOne (e.mask &&& f.rm (maskField j)) n)
  else match j with
  | .vspill .. | .vfill .. => (64 * e.prog, 64 * e.prog)
  | .fx .. | .fxres .. =>
    if t.wr then
      let n := fxField f 3 (32 * t.idx) 32 - fxField f 5 (32 * t.idx) 32
      (n, n)
    else
      let read := match s.core.vat with
        | none => []
        | some r => (r.mould.cells.zip r.cells).filterMap fun ((c, x) : MouldCell × VCell) =>
            if cellKind c.word = 1 ∧ t.idx ∈ inStreams c.word then some (max (x.pos + 1) (x.spos + 1)) else none
      (ipos f t.idx, read.foldl max (ipos f t.idx))
  | _ =>
    match stagesOf j with
    | some (ns, field) =>
      let stage := e.prog / 65536 % 65536
      let at' := if t.wr then ns - 1 else 0
      if stage < at' then (0, 0)
      else if at' < stage then (32768, 32768)
      else pairReach (2 ^ bits f.bstride.toNat (4 * (field + at')) 4) (e.prog % 65536)
    | none => (groupLo e.wide e.prog, groupLo e.wide e.prog)

/-- The same in bits of the operand. -/
def reach (s : State) (e : DumpEntry) (j : Instr) (t : Touch) : Nat × Nat :=
  if !e.started then (0, 0)
  else if t.whole then (0, t.upto)
  else
    let (lo, hi) := progress s e j t
    (lo / t.chunk * t.chunk / t.per * t.w, (ceilTo hi t.chunk + t.per - 1) / t.per * t.w)

/-- The grains of the scoreboard (R24): 64 bytes of a vector register, 8 bits of a mask. -/
def Res.grain : Res → Nat
  | .vec _ => 512
  | .mask _ => 8
  | .stream _ | .len _ => 1

/-- Has the younger of two instructions touched a grain that the older one is still to read or write, where one of them writes it (R24)? -/
def conflict (s : State) (older younger : DumpEntry) (i j : Instr) : Bool :=
  (touchesOf s older i).any fun x => (touchesOf s younger j).any fun y =>
    x.res == y.res && (x.wr || y.wr) &&
      let g := x.res.grain
      let lo := (reach s older i x).1 / g * g
      decide (lo < x.upto) && decide (lo < ceilTo (reach s younger j y).2 g)

/-! Registers that instructions name (R177). -/

/-- The vector registers an entry names. -/
def namedVecs (s : State) (e : DumpEntry) : List (Fin 64) :=
  match e.instr? with
  | none => []
  | some j => (touchesOf s e j).filterMap fun t => match t.res with | .vec v => some v | _ => none
/-- The registers that the started instructions of the queue pin until they commit. -/
def pinnedVecs (s : State) : List (Fin 64) := (s.core.f.queue.filter (·.started)).flatMap (namedVecs s)
/-- Do the registers that an instruction names, with those of the older ones that have not started, fit beside the pinned ones? -/
def vecsFit (s : State) (e : DumpEntry) : Bool :=
  decide ((pinnedVecs s ++ namedVecs s e ++ (s.older.filter (!·.started)).flatMap (namedVecs s)).eraseDups.length ≤ 32)

/-! The bytes that unfinished instructions are still to access (R28). -/

/-- How an instruction forms its element addresses (R205). -/
inductive LaneAddr
  | unit (o : Nat)
  | strided
  | indexed (b : Fin 64) (x32 : Bool) (scale : Nat) (bounded : Bool)
  deriving DecidableEq, Repr

def LaneAddr.vecs : LaneAddr → List (Fin 64) | .indexed b _ _ _ => [b] | _ => []
def LaneAddr.wide (w : Nat) : LaneAddr → Nat | .indexed _ x32 _ _ => max w (indexWidth x32) | _ => w

/-- The exclusive bound of the indices (R206). -/
def indexLimit (x32 bounded : Bool) (bound : Word) : Nat :=
  let cap := if x32 then 0xFFFFFFFF else 0xFFFF
  if bounded then min bound.toNat cap else cap

/-- The address of an element and its bit offset (R205); `none`: refused (R206). -/
def elementAddress (k : LaneAddr) (sc : Vector Word 4) (disp : BitVec 8) (f : Firing) (w e : Nat) : Option (Word × Nat) :=
  let base := sc[1] + disp.signExtend 64
  match k with
  | .unit o => let p := o + e * w; some (base + b64 (p / 8), p % 8)
  | .strided => some (base + b64 e * sc[2], 0)
  | .indexed b x32 s bounded =>
    let j := f.v[b].elem (indexWidth x32) e
    if indexLimit x32 bounded sc[3] ≤ j then none else some (sc[1] + b64 (j * 2 ^ s), 0)

/-- The accesses of an element: bytes at an address, aligned to their number (R175, R205). -/
def elementPieces (w : Nat) (va : Word) (bo : Nat) : List (Word × Nat) :=
  if 8 ≤ w then [(va, w / 8)] else if bo + w ≤ 8 then [(va, 1)] else [(va, 1), (va + 1, 1)]

/-- The elements of an access of the lanes: how they are addressed, its displacement and its width. -/
def laneAccess : Instr → Option (LaneAddr × BitVec 8 × Nat)
  | .vld _ o _ _ _ disp fmt | .vst _ o _ _ _ disp fmt => some (.unit o.val, disp, fmt.width)
  | .vlds _ _ _ _ _ disp fmt | .vsts _ _ _ _ _ disp fmt => some (.strided, disp, fmt.width)
  | .vldx _ sc _ _ b c _ x32 _ fmt | .vstx _ sc _ _ b c _ x32 _ fmt => some (.indexed b x32 sc.val (c != 0), 0, fmt.width)
  | .vscadd _ _ _ _ _ b c _ x32 _ sc fmt | .vstc _ _ _ _ _ b c _ x32 _ sc fmt => some (.indexed b x32 sc.val (c != 0), 0, fmt.width)
  | .vamo _ _ _ _ _ _ b _ _ x32 _ sc _ fmt => some (.indexed b x32 sc.val false, 0, fmt.width)
  | _ => none

/-- The place of each of some pieces as their agent now finds it; `none`: one cannot be told. -/
def placesOf (s : State) : List (Word × Nat) → Option (List (Nat × Nat))
  | [] => some []
  | (va, n) :: r =>
    let g : Agent := { core := s.core.id, asid := s.core.info.asid, level := s.core.f.level }
    match peek (locate g needLoad aLoad va n) (.error ⟨0, va, 0⟩) s, placesOf s r with
    | .ok p, some l => some ((p.loc, n) :: l)
    | _, _ => none

/-- The bytes that an entry of the queue is still to access through the load/store queue or at beaters; `before`: the entries older than
it. Where they depend on what is not known yet (the vector of indices or the count is still to be written, the descriptor to be read, a
memory port to be addressed, a page to be mapped) there is no answer. -/
def unfinishedBytes (s : State) (before : List DumpEntry) (e : DumpEntry) (j : Instr) : Option (List (Nat × Nat)) :=
  let f := s.core.f
  let changes := fun (r : Res) => before.any fun x => x.done.isNone && match x.instr? with
    | some i => (touchesOf s x i).any fun t => t.wr && t.res == r
    | none => true
  match laneAccess j with
  | some (k, disp, w) =>
    if k.vecs.any (fun v => changes (.vec v)) || (!e.started && changes (.len 0)) then none
    else
      let n := min (if e.started then e.vlen else f.ln[0].count) (vlmax (k.wide w) 0)
      placesOf s (((List.range n).filter fun i => !(e.started && e.mask.getLsbD i)).flatMap fun i =>
        match elementAddress k e.scal disp f w i with
        | some (va, bo) => elementPieces w va bo
        | none => [])
  | none =>
    match j with
    | .vspill _ _ _ b disp fmt =>
      if !e.started && changes (.len b) then none
      else
        let size := (min (if e.started then e.vlen else f.ln[b].count) (vlmax fmt.width 0) * fmt.width + 7) / 8
        placesOf s ((List.range (1 + (size + 63) / 64)).map fun g => (e.scal[1] + disp.signExtend 64 + b64 (64 * g), 64))
    | .vfill _ _ _ _ disp _ => placesOf s ((List.range 65).map fun g => (e.scal[1] + disp.signExtend 64 + b64 (64 * g), 64))
    | .vappend _ _ _ _ _ _ _ fmt =>
      match e.old with
      | some (base, cap, old) =>
        placesOf s (((List.range e.vlen).filter fun i => decide (old + i < cap)).map fun i =>
          (b64 (base + (old + i) * (fmt.width / 8)), fmt.width / 8))
      | none => none
    | _ => if queueEntries s e j = 0 then some [] else none

/-- Do `n` bytes at a location lie apart from all that the unfinished older instructions are still to access (R28)? -/
def apart (s : State) (loc n : Nat) : Bool :=
  (List.range s.older.length).all fun i => match s.older[i]? with
    | none => true
    | some e => e.done.isSome || match e.instr? with
      | none => false
      | some j => match unfinishedBytes s (s.older.take i) e j with
        | none => false
        | some l => l.all fun (a, m) => decide (a + m ≤ loc) || decide (loc + n ≤ a)

/-- The entries that the load/store queue of the core in focus holds (R28): its stores on their way, by instruction, and its unfinished
vector and vat accesses. -/
def queueHeld (s : State) : Nat :=
  let mine := s.stores.filter fun x => !x.press && x.core == s.core.id
  let es := s.unfinished.filterMap fun e => e.instr?.map fun j => (e.name, queueEntries s e j)
  let names := (es.filter (·.2 != 0)).map (·.1)
  ((mine.map (·.writer)).eraseDups.filter (!names.contains ·)).length + (es.map (·.2)).sum

/-! The front. -/

/-- Does an unfinished engine instruction hold the issue of every younger one: a `cwait` (Table 1.2)? -/
def holdsIssue : Instr → Bool
  | .cwait .. => true
  | _ => false
/-- May the front go on while the instructions of the queue are unfinished? What an instruction waits for besides, its own meaning says. -/
def aheadAllowed (f : Firing) : Bool := f.queue.all fun e => e.instr?.any (!holdsIssue ·)

/-! An engine behind unfinished instructions. -/

/-- The engines that take part in chaining are the lanes, the vat and the press; the lanes serve two engine codes. -/
def engineKind (n : Nat) : Nat := if n = 5 then 1 else n
/-- Does an instruction take draws of the firing's generator (R168, R201)? -/
def takesDraws (f : Firing) : Instr → Bool
  | .vprune .. => true
  | .vcvt .. => f.vrm == 4
  | _ => false

/-- May an engine perform parts of an instruction behind those of the queue, whatever its operands? Each engine takes its own in turn, the lanes
as many as have started, the vat and the press one (R107); what depends on `VSTART` or on the order of draws waits for those before it; its
registers fit (R177); and a headbox or link instruction has no part of an effect. -/
def mayStart (s : State) (e : DumpEntry) (i : Instr) : Bool :=
  decide (e.engine ≠ 4) && decide (e.engine ≠ 6) && vecsFit s e && s.older.all fun x => match x.instr? with
    | none => false
    | some j =>
      (engineKind x.engine != engineKind e.engine || (engineKind e.engine == 1 && x.started && s.core.f.vstart == 0)) &&
        !(takesDraws s.core.f i && takesDraws s.core.f j && x.done.isNone)

/-- Has an instruction done by now only what the older ones allow (R24), and do at most four instructions keep a mask (R107)? -/
def partAllowed (s : State) (e : DumpEntry) (i : Instr) : Bool :=
  decide (((e :: s.core.f.queue).filter (·.pcm)).length ≤ 4) && s.older.all fun x => x.done.isSome || match x.instr? with
    | none => false
    | some j => !conflict s x e j i

/-- May an instruction that has done all its work wait in the queue for its commit? Its progress tells a reissue that nothing is left. -/
def endsEarly : Instr → Bool
  | .vspill .. | .vfill .. | .vappend .. | .vcomp .. | .vscan .. | .viota .. | .vredsum .. | .vfredsum .. | .vredmax .. | .vredmin ..
  | .vextr .. | .vmtx .. | .mpop .. | .mfirst .. | .fx .. | .fxres .. | .fxstat .. | .mbind .. | .munbind .. | .mprobe .. | .pstat ..
  | .tset .. | .tldRegister .. | .tstRegister .. | .tzero .. | .azero .. | .aldRegister .. | .astRegister .. => false
  | i => orderOf i == .rlx

end Sys2Proof.Machine
end

