-- ==== Sys2Proof/Machine/SaveArea.lean ====
section
/-!
DEFINITION. The save area of a slot (R117 to R121, Tables 4.5, 4.10, 4.11): writing it at a stop. What lies in memory
already, the trap dump and the words held from trap entry, is not written again. Of a confidential context everything from
0x0080 on is ciphertext (R124, log entry 11); `sealed` tells its slots.
-/

namespace Sys2Proof.Machine

/-- The slot of a firing (R117). -/
def slotBase (asid slot : Nat) : M Nat := do return (← ctxField asid 0x10 8) + 2 ^ 20 * slot
def mySlotBase : M Nat := do let i := (← getS).core.info; slotBase i.asid i.slot
def myKey : M Nat := do let i := (← getS).core.info; return slotKey i.asid i.slot

/-- Blocks of 16 bytes of a slot, each keyed by its physical address (R124). -/
def cryptBlocks (crypt : Nat → Nat → List Byte → List Byte) (key pa n v : Nat) : Nat :=
  ((List.range (n / 16)).map fun i =>
    2 ^ (128 * i) * (ofBytes (crypt key (pa + 16 * i) (bytesOf 16 (bits v (128 * i) 128))) % 2 ^ 128)).sum
/-- Bytes of a slot from offset 0x0080 on, which stand in memory as ciphertext when the context is confidential (R124). -/
def areaRead (asid pa n : Nat) : M Nat := do
  if ← isConf asid then
    let lo := pa / 16 * 16
    let m := ceilTo (pa + n - lo) 16
    let v ← physRead lo m
    return bits (cryptBlocks xtsDecrypt (← ctxKey asid) lo m v) (8 * (pa - lo)) (8 * n)
  else physRead pa n
def areaFill (asid pa n v : Nat) : M Unit := do
  if ← isConf asid then
    let lo := pa / 16 * 16
    let m := ceilTo (pa + n - lo) 16
    let old ← if lo = pa ∧ m = n then pure 0 else areaRead asid lo m
    let at' := 8 * (pa - lo)
    let new := old % 2 ^ at' + 2 ^ at' * (v % 2 ^ (8 * n) + 2 ^ (8 * n) * (old / 2 ^ (at' + 8 * n)))
    physFill lo m (cryptBlocks xtsEncrypt (← ctxKey asid) lo m new)
    modS fun s => { s with sealed := SMap.put 0 (pa / 2 ^ 20) (asid + 1) s.sealed }
  else physFill pa n v

def ceil64 (n : Nat) : Nat := ceilTo n 64
def ceil8 (n : Nat) : Nat := (n + 7) / 8

/-- A dump entry (Table 4.5) with the index of its mask. -/
def DumpEntry.image (e : DumpEntry) (maskIdx : Nat) : Nat :=
  let stat := e.engine % 8 + 8 * e.started.toNat + 16 * e.pcm.toNat + (if e.pcm then 32 * (maskIdx % 4) else 0)
    + 128 * e.raiser.toNat
  e.word % 2 ^ 64 + 2 ^ 64 * e.pc.toNat + ((List.range 4).map fun j => 2 ^ (128 + 64 * j) * (e.scal[j]!).toNat).sum
    + 2 ^ 384 * (e.prog % 2 ^ 64) + 2 ^ 448 * (e.vlen % 65536) + 2 ^ 464 * stat + 2 ^ 480 * (e.ordn % 2 ^ 32)
def DumpEntry.ofImage (n mask : Nat) : DumpEntry :=
  { word := bits n 0 64, pc := b64 (bits n 64 64), scal := #v[b64 (bits n 128 64), b64 (bits n 192 64),
      b64 (bits n 256 64), b64 (bits n 320 64)], prog := bits n 384 64, vlen := bits n 448 16, engine := bits n 464 3,
    started := bit n 467, pcm := bit n 468, raiser := bit n 471, ordn := bits n 480 32, mask := BitVec.ofNat 16384 mask }
def imageMaskIdx (n : Nat) : Nat := bits n 469 2

/-- Entries with the indices of their masks (R106). -/
def maskIndexed : Nat → List DumpEntry → List (DumpEntry × Nat)
  | _, [] => []
  | k, e :: r => (e, k) :: maskIndexed (if e.pcm then k + 1 else k) r

def writeDump (asid base : Nat) (es : List DumpEntry) : M Unit :=
  ((maskIndexed 0 es).zipIdx).forM fun ((e, k), i) => areaFill asid (base + 64 * i) 64 (e.image k)

/-- The registers saved in the variable part (R119). -/
def Firing.savedV (f : Firing) : List (Fin 64) :=
  (List.finRange 64).filter fun n => f.v[n].dirty && f.resident.contains n
def Firing.usedT (f : Firing) : List (Fin 16) := (List.finRange 16).filter fun n => f.t[n].written
def Firing.usedA (f : Firing) : List (Fin 8) := (List.finRange 8).filter fun n => f.a[n].written

/-- The bytes of a vector register that a save takes: those of its `LEN`, a field of 13 bits (Table 4.10). -/
def Firing.savedLen (f : Firing) (n : Fin 64) : Nat := ceil64 (f.v[n].len % 8192)

/-- The variable part as (bytes, value) pieces in order (R120). -/
def Firing.varParts (f : Firing) : List (Nat × Nat) :=
  f.savedV.map (fun n => (f.savedLen n, f.v[n].bits.toNat % 2 ^ (8 * f.savedLen n)))
    ++ f.usedT.map (fun n => (4096, f.t[n].bits.toNat))
    ++ f.usedA.map (fun n => (16384, f.a[n].bits.toNat))
    ++ (f.queue.filter (·.pcm)).map fun e => (ceil64 (ceil8 e.vlen), e.mask.toNat % 2 ^ (8 * ceil64 (ceil8 e.vlen)))

def Firing.varSize (f : Firing) : Nat := (f.varParts.map (·.1)).sum

def writeParts (asid base : Nat) : List (Nat × Nat) → M Unit
  | [] => return ()
  | (n, v) :: r => do
    areaFill asid base n v
    writeParts asid (base + n) r

/-- Sum of shifted fields: (bit offset, value). -/
def packAt (l : List (Nat × Nat)) : Nat := (l.map fun (o, v) => 2 ^ o * v).sum

/-- The grains of a struck word, as a save leaves them: it reads every word, and poisons what fails (R282): DEDUCED, log entry
120. -/
def struckGrains (n per : Nat) (bad : Nat → Bool) : Nat :=
  ((List.range n).map fun g => if (List.range per).any fun i => bad (per * g + i) then 2 ^ g else 0).sum
def Tile.saved (t : Tile) : Nat :=
  if t.bad = 0 then t.poison.toNat else t.poison.toNat ||| struckGrains 512 2 t.bad.getLsbD
def Acc.saved (a : Acc) : Nat :=
  if a.bad = 0 then a.poison.toNat else a.poison.toNat ||| struckGrains 512 8 a.bad.getLsbD

/-- The fixed part but for the header, 0x0380 and the trap dump (Table 4.10). -/
def writeFixed (base : Nat) (c : Core) : M Unit := do
  let f := c.f
  let asid := c.info.asid
  areaFill asid (base + 0x80) 256 (packAt ((List.finRange 32).map fun r => (64 * r.val, (f.rx r).toNat)))
  areaFill asid (base + 0x180) 64 (packAt [(0, f.fpc.toNat), (64, f.level % 256), (96, f.xp.toNat), (128, f.prog.toNat),
    (192, f.fid % 2 ^ 32), (224, f.ordinal % 2 ^ 32), (256, f.session % 65536), (272, f.paused.toNat)])
  areaFill asid (base + 0x1C0) 128 (packAt ([(0, f.vtypeWord), (64, f.vstart % 16384)]
    ++ (List.finRange 4).map (fun k => (128 + 64 * k.val, f.ln[k].word))
    ++ [(384, f.fflags.toNat), (448, f.pseed0.toNat), (512, f.pseed1.toNat), (576, f.bcfgWord)]))
  areaFill asid (base + 0x240) 128 (packAt ((List.finRange 16).map fun k => (64 * k.val, f.tcfg[k].word)))
  areaFill asid (base + 0x2C0) 64 (packAt [(0, f.bstride.toNat), (64, f.bcarryWord), (128, f.pstartWord),
    (192, f.panels.toNat)])
  areaFill asid (base + 0x300) 64 (packAt ((List.finRange 8).map fun k => (64 * k.val, f.fx[k].toNat)))
  areaFill asid (base + 0x340) 64 (packAt [(0, f.trap.word), (64, f.trap.val.toNat), (128, f.trap.pc.toNat)])
  areaFill asid (base + 0x400) 512 (packAt ((List.finRange 8).map fun k => (512 * k.val, streamImage f.q[k])))
  areaFill asid (base + 0x600) 256 (packAt (((c.moulds.filter (·.asid = c.info.asid)).take 4).zipIdx.map fun (r, i) =>
    (512 * i, r.slot + 2 ^ 64 * r.mould.quads + 2 ^ 128 * r.va.toNat)))
  areaFill asid (base + 0x700) 1024 (packAt ((List.finRange 64).map fun n => (128 * n.val, f.vdir n)))
  areaFill asid (base + 0xB00) 1536 (packAt ((List.finRange 16).map (fun n => (512 * n.val, f.t[n].saved))
    ++ (List.finRange 8).map fun n => (512 * (16 + n.val), f.a[n].saved)))
  areaFill asid (base + 0x1100) 2048 0
  writeDump asid (base + 0x1100) (f.queue.take 32)
  areaFill asid (base + 0x2100) 14336 (packAt ((List.finRange 7).map fun k => (16384 * k.val, (f.m[k.val + 1]!).toNat)))

/-- The integrity tag of a confidential save area, over its ciphertext (R124). -/
def saveTag (asid base size : Nat) (act : Bool) : M Nat := do
  let key ← ctxKey asid
  let head ← physBytes base 0x40
  let body ← physBytes (base + 0x80) (size - 0x80)
  let trap ← if act then physBytes (base + 0x64000) 0x2000 else pure []
  return Config.hmacSha512 key (head ++ body ++ trap) % 2 ^ 256

/-- Save the firing of the core in focus into its slot, with a stop code (R117 to R120, R124). -/
def saveImage (stop : Nat) (pending : Bool) : M Unit := do
  let s ← getS
  let c := s.core
  let f := c.f
  let asid := c.info.asid
  let base ← mySlotBase
  let conf ← isConf asid
  writeFixed base c
  writeParts asid (base + 0x5900) f.varParts
  let size := 22784 + f.varSize
  let flags := conf.toNat + 2 + 4 * pending.toNat
  physFill base 0x80 (packAt [(0, 0x45564153), (32, 1), (48, flags), (64, size), (96, asid), (112, c.id), (128, stop),
    (136, f.queue.length), (144, (f.queue.filter (·.pcm)).length), (152, (f.usedA.map fun n => 2 ^ n.val).sum),
    (160, (f.usedT.map fun n => 2 ^ n.val).sum), (192, (f.savedV.map fun n => 2 ^ n.val).sum),
    (256, s.cycle.toNat)])
  modS fun s => { s with sealed := SMap.put 0 (base / 2 ^ 20) (if conf then asid + 1 else 0) s.sealed }
  if conf then physFill (base + 0x40) 32 (← saveTag asid base size f.trap.act)

/-- Set `RECORD` or `FLAGS` of a saved header, and the tag with it. -/
def patchHeader (asid base off n v : Nat) : M Unit := do
  physFill (base + off) n v
  if ← isConf asid then
    let size ← physRead (base + 8) 4
    physFill (base + 0x40) 32 (← saveTag asid base size (bit (← areaRead asid (base + 0x340) 8) 13))

/-- What a debugger must not change: header, directory and dumps (R128). -/
def snapBytes (base : Nat) : M (List Byte) := do
  return (← physBytes base 0x80) ++ (← physBytes (base + 0x700) 0x400) ++ (← physBytes (base + 0x1100) 0x1000)

/-- A change that the device itself makes to a save area, which is not the debugger's (R128). -/
def keepSnap (key base : Nat) (x : M Unit) : M Unit := do
  match SMap.get none key (← getS).slots with
  | some i =>
    if i.stop = 5 ∧ (← snapBytes base) = i.snap then
      x
      let now ← snapBytes base
      modS fun s => { s with slots := s.slots.map fun (k, o) => (k, if k = key then o.map fun j => { j with snap := now } else o) }
    else x
  | none => x

/-- The words kept at 0x0380 from trap entry to `eret` (R103, R104). -/
def keepTrapWords (asid base : Nat) (f : Firing) : M Unit :=
  areaFill asid (base + 0x380) 128 (packAt ((0, f.pstartWord) :: (List.finRange 8).map fun k => (64 + 64 * k.val, f.fx[k].toNat)))

end Sys2Proof.Machine
end

