-- ==== Sys2Proof/Machine/Tokens.lean ====
section
/-!
DEFINITION. The windows of the beaters (R310, R311), and accesses of the load/store queue, which follow the core's own older accesses to the
same bytes (R28, R318), with the order of releases (R76).
-/

namespace Sys2Proof.Machine

/-- Tokens an instruction may have in its window (Table 14.1). -/
def winSize (code : Nat) : Nat := match code with | 0 => 16 | 1 => 32 | _ => 64

/-- Does a waiting token have to be performed before its beater accepts another one, of an instruction that sends several or of none
(R310, rules 2 and 4)? -/
def Token.due (x : Token) (instr : Option Nat) : Bool :=
  decide (64 ≤ x.age + 1) || (some x.instr == instr && decide (winSize x.win ≤ x.iage + 1)) ||
    x.merged.any fun y => some y.instr == instr && decide (winSize y.win ≤ y.iage + 1)
/-- A waiting token grows older as its beater accepts another one. -/
def Token.older (x : Token) (instr : Option Nat) : Token :=
  let more := fun (i : Nat) => if some i = instr then 1 else 0
  { x with age := x.age + 1, iage := x.iage + more x.instr,
           merged := x.merged.map fun y => { y with iage := y.iage + more y.instr } }
/-- The beater of a location accepts a token: those that must be performed before it are, and the others grow older. -/
def beaterAccepts (loc : Nat) (instr : Option Nat) : M Unit := do
  let s ← getS
  let b := s.beater loc
  flushTokens fun x => s.beater x.loc == b && x.due instr
  modS fun s => { s with tokens := s.tokens.map fun x => if s.beater x.loc = b then x.older instr else x }

/-- An access waits while an unfinished older instruction of its core is still to make one to its bytes (R28). -/
def awaitBytes (core loc n : Nat) : M Unit := do
  let s ← getS
  if s.core.id = core ∧ !apart s loc n then stopWith (.wait .background)
/-- What is on its way from a core to some bytes is performed. -/
def drainBytes (core loc n : Nat) : M Unit := do
  performStores (·.touches core loc n)
  flushTokens (touches core loc n)
  showTo core loc n
/-- The core's own older accesses to some bytes are performed (R28, R318). -/
def settleBytes (core loc n : Nat) : M Unit := do
  awaitBytes core loc n
  drainBytes core loc n

/-- A load of the load/store queue: from the store in the queue that holds its bytes (R28), else from the L1 or the home. -/
def lsqRead (g : Agent) (p : Place) (n : Nat) : M (Nat × Bool) := do
  awaitBytes g.core p.loc n
  match (← getS).stores.find? (·.holds g.core p.loc n) with
  | some x => return (bits x.value (8 * (p.loc - x.loc)) (8 * n), x.poison)
  | none =>
    settleBytes g.core p.loc n
    readPlace g .lsq p n
/-- A load at the home, never from the L1 (R142, R144). -/
def homeLoad (g : Agent) (p : Place) (n : Nat) : M (Nat × Bool) := do
  settleBytes g.core p.loc n
  readPlace g .head p n
/-- A store of the load/store queue, of all bits but those to `keep` (R209). -/
def lsqWrite (g : Agent) (va : Word) (p : Place) (n v : Nat) (poisoned : Bool) (keep : Nat := 0) : M StoreResult := do
  settleBytes g.core p.loc n
  storeBits g .lsq va p n v keep poisoned

/-- Does the firing still have tokens the beaters have not acknowledged (R320)? -/
def tokensOf (asid slot : Nat) (t : Token) : Bool := t.asid == asid && (t.slot == slot || t.merged.any (·.slot == slot))
/-- What an access that orders older ones waits for: every unfinished older access of the core, those of the press included (R76). -/
def olderAccesses : M Unit := do
  let s ← getS
  if s.anyUnfinished (isAccess s) then stopWith (.wait .background)
/-- The order of a release of scope `.dm` (R76, R318): every store and every token of the core is performed first. -/
def releaseTokens : M Unit := do
  olderAccesses
  releaseCore (← getS).core.id 3

def TokenOp.isStore : TokenOp → Bool | .store _ => true | .add _ => false
/-- Can two waiting tokens be one update (R311): relaxed adds or combining stores of one format, of one context on one location? -/
def mergeable (x y : Token) : Bool := x.asid == y.asid && x.loc == y.loc && x.n == y.n && x.op == y.op
/-- Do two tokens hold floating-point adds of one instruction under `BCFG.ORDER`, which add to memory one after the other? -/
def orderedAdds (x y : Token) : Bool :=
  (match x.op with | .add f => !f.isInt | .store _ => false) && x.instrs.any fun i => i.2 && y.instrs.any (·.1 == i.1)
/-- May token `j` merge into the older token `i` now (R311): nothing else that waits must be performed before either, but adds that may
merge with it too; and the context is not logged (R363)? -/
def State.mayMerge (s : State) (i j : Nat) (x y : Token) : Bool :=
  decide (i < j) && mergeable x y && !orderedAdds x y && bits (s.ctxRaw x.asid 0 4) 2 2 == 0 &&
    (s.tokens.zipIdx.all fun (z, k) => k == i || k == j ||
      ((!decide (k < j) || !z.precedes y || (mergeable z y && !y.op.isStore && !orderedAdds z y)) &&
        (!decide (k < i) || !orderedAdds z x)))

/-- Token `j` merges into the older token `i` (R311): sums add as the beater adds (R314), a later store replaces. -/
def State.merge (s : State) (i j : Nat) : State :=
  match s.tokens[i]?, s.tokens[j]? with
  | some x, some y =>
    if s.mayMerge i j x y then
      let (v, fl) : Nat × Flags := match x.op with
        | .add f => if f.isInt then ((x.value + y.value) % 2 ^ (8 * x.n), 0) else beaterAdd f x.value y.value
        | .store _ => (y.value, 0)
      let z := { x with value := v, poison := if x.op.isStore then y.poison else x.poison || y.poison,
                        va := if x.op.isStore then y.va else x.va
                        shown := match x.shown, y.shown with | some a, some b => some (max a b) | a, b => a.or b
                        merged := x.merged ++
                          ⟨y.core, y.slot, y.poison, y.win, y.order, y.instr, y.iage⟩ :: y.merged }
      ({ s with tokens := (s.tokens.set i z).eraseIdx j } : State).raiseFlags x.loc x.asid fl
    else s
  | _, _ => s
/-- The merges that the beaters choose to make now (`State.merges`, R311). -/
def State.mergeTokens (s : State) : State := s.merges.foldl (fun s (i, j) => s.merge i j) { s with merges := [] }
/-- A token with an order, and every post, join and barrier token, is performed after every older token of its core at its beater (R310,
rule 1). -/
def orderAt (loc : Nat) : M Unit := do
  let s ← getS
  if s.anyUnfinished fun _ => isBeaterOp then stopWith (.wait .background)
  flushTokens fun t => t.ofCore s.core.id && s.beater t.loc == s.beater loc
/-- The release of an access (R76), at its scope (R16). -/
def releaseFor (o : Order) (sc : Scope) : M Unit := do
  if Order.isRel o then
    olderAccesses
    releaseCore (← getS).core.id sc.code

end Sys2Proof.Machine
end

