-- ==== Sys2Proof/Machine/Ops.lean ====
section
/-!
DEFINITION. Stops and their deliveries: leaving a core, taking a trap (R101, R103, R105) and returning from it (R104), the
replayable-fault protocol (R112), and how an instruction is issued at the front, dispatched to an engine, held, or
stopped (R18 to R23).
-/

namespace Sys2Proof.Machine

/-- Every engine instruction that is older has committed: what the front does now comes after all of them. -/
def awaitQueue : M Unit := do
  if !(← getS).older.isEmpty then stopWith (.wait .background)

/-! Leaving a core. -/

/-- The charge of `DEFICIT` for the cycles held and not charged yet (R341). -/
def chargeDeficit : M Unit := do
  let s ← getS
  match ← submitPa s.core.info.spost with
  | none => pure ()
  | some pa =>
    let d ← physRead (pa + 0x38) 8
    physWrite (pa + 0x38) 8 ((d + (2 ^ 64 - (s.held - s.core.charged) % 2 ^ 64)) % 2 ^ 64)
  modC fun c => { c with charged := s.held }

/-- The firing leaves the core (R13, R408, R415). -/
def leaveCore (code : Nat) : M Unit := do
  settleStopped (← getS).core.id
  spend 1
  lastSamples
  trTrace 6 0 0 (← getS).core.info.slot code
  if ← isConf (← getS).core.info.asid then modT fun t => { t with timeFirst := true }
  modS fun s => s.stallClear s.core.info.asid s.core.id
  chargeDeficit
  addTotals
  modC fun c =>
    { c with running := false, f := {}, info := {}, wait := none, watch := none, cur := none, vat := none, ahead := none, budget := none, accepted := [], since := 0,
             charged := 0, issued := 0, bkptPassed := none, expired := false }

/-- Is a command one of a slot's firing? -/
def Cmd.ownedBy (key : Nat) (c : Cmd) : Bool := !c.orphan && slotKey c.owner.1 c.owner.2 == key
/-- Must it move its bytes before the firing runs again (R303)? -/
def followPending (key : Nat) (c : Cmd) : Bool :=
  c.ownedBy key && c.follow.isSome && decide (c.done < c.n) && !c.failed
/-- Does a saved firing still wait for drains, accesses, tokens, copies or its bank switch (R108, R298, R303, Table 4.8)? -/
def slotPending (s : State) (key : Nat) : Bool :=
  (SMap.get none key s.slots).any (!·.draining.isEmpty) || s.late.any (fun l => l.slotKey == key && !l.orphan) || s.banks.any (fun (_, b) => b.switchTo.any (·.2 == key)) || s.tokens.any (tokensOf (key / 65536) (key % 65536)) || s.cores.any fun c => c.cmds.toList.any fun o => o.any (followPending key)

/-- Run an event with a core in focus, and bring back the focus afterwards. -/
def withCore {α : Type} (k : Nat) (x : M α) : M α := do
  let back := (← getS).core.id
  modS (·.focus k)
  let r ← x
  modS (·.focus back)
  return r

/-- The blocks that a stop has left held drain, as far as they do not wait (R298): by the core that saved the firing, which stands in
for it meanwhile. -/
def drainSaved (key : Nat) : M Unit := do
  match SMap.get none key (← getS).slots with
  | none => return ()
  | some i =>
    if i.onCore.isSome || i.draining.isEmpty then return ()
    let base ← slotBase i.info.asid i.info.slot
    let image ← areaRead i.info.asid (base + 0x400) 512
    let level ← areaRead i.info.asid (base + 0x188) 1
    withCore i.info.lastCore do
      let c := (← getS).core
      modC fun c => { c with info := i.info, f := { c.f with
        level := level, acqFence := i.acqFence, poisonOut := i.poisonOut,
        q := Vector.ofFn fun k => { streamOfImage (bits image (512 * k.val) 512) with
          held := i.held.getD k.val [], drainFault := i.drainFaults.getD k.val none } } }
      i.draining.forM fun k => do drainReady k (← getQ k).held.length
      let f ← getF
      modC fun x => { x with info := c.info, f := c.f }
      let i := { i with held := (List.finRange 8).map fun k => f.q[k].held, poisonOut := f.poisonOut,
                        drainFaults := (List.finRange 8).map fun k => f.q[k].drainFault,
                        draining := i.draining.filter fun k => f.q[k].leftToDrain }
      modS fun s => { s with slots := SMap.put none key (some i) s.slots }

/-- Change the commands of one slot's firing on every core. -/
def mapCmds (key : Nat) (g : Cmd → Cmd) : M Unit :=
  modS fun s => s.modifyCores fun c =>
    { c with cmds := c.cmds.map fun o => o.map fun x => if x.ownedBy key then g x else x }

/-- A resumable record (Table 15.1); its `ARG` is not defined. -/
def resumeRec (info : FiringInfo) : M Rec := do
  let k ← fresh
  return { code := info.slot + 2 ^ 16 * clusterOf info.lastCore, frame := info.frame.toNat,
           arg := (Config.freeWord k).toNat, meta32 := mkMeta info.asid info.lid 1 }

/-- Once a saved firing waits for nothing, its header shows it (R108), and its record, if it is to run again, is pushed
(R343); a full domain post leaves it owed. -/
def pushOwed (key : Nat) : M Unit := do
  drainSaved key
  match SMap.get none key (← getS).slots with
  | none => return ()
  | some i =>
    if i.onCore.isNone && !slotPending (← getS) key then
      let base ← slotBase i.info.asid i.info.slot
      let fl ← physRead (base + 6) 2
      if bit fl 2 then keepSnap key base (patchHeader i.info.asid base 6 2 (fl - 4))
      if i.owed then
        let r ← resumeRec i.info
        if ← pushRun i.info.spost (160 + clusterOf i.info.lastCore) r none then
          modS fun s => { s with slots := SMap.put none key (some { i with owed := false }) s.slots }

/-- A pop makes room: records still owed are pushed, in slot order. -/
def retryOwed : M Unit := do
  (← getS).slots.forM fun (k, o) => if o.any (·.owed) then pushOwed k else return ()

/-- Element groups, panels or rows a dumped entry has completed (Table 18.3): of its groups from the one of `VSTART` on (R179), with a
mask those whose elements all are. -/
def DumpEntry.unitsDone (e : DumpEntry) (vstart : Nat) : Nat :=
  let first := vstart * e.wide / 512
  if e.pcm then
    let evl := min e.vlen (vlmax e.wide 0)
    ((List.range ((evl * e.wide + 511) / 512)).filter fun g =>
      decide (first ≤ g) && (List.range evl).all fun i => i * e.wide / 512 != g || e.mask.getLsbD i).length
  else if e.engine = 3 then
    let np := match decode e.word with | .ok i => stagePanels e.vlen i | .error _ => 0
    e.prog / 65536 % 65536 * np + e.prog % 65536 - e.skip
  else if e.engine = 1 then e.prog % 65536 - first
  else e.prog % 65536

/-- Entries dumped at a stop end in the trace (R407). -/
def endDumped (e : DumpEntry) (raised : Bool) : M Unit := do
  match e.seq with
  | some n => trTrace 3 (1 + 2 * raised.toNat) e.engine n (min (e.unitsDone (← getF).vstart) 127)
  | none => return ()
def closeQueue : M Unit := do
  for e in (← getF).queue do endDumped e false
  modF fun f => { f with queue := f.queue.map fun e => { e with seq := none, begun := false } }

/-- Does a submit post hold a runnable record, or have a firing on a core (R341)? -/
def postBusy (s : State) (post pa : Nat) : Bool :=
  let run := Memory.read s.mem (pa + 0x28) 8
  s.cores.any (fun c => c.running && c.info.spost == post) ||
    (List.range 209).any fun i => Memory.read s.mem (run + 64 * i + 8) 4 != Memory.read s.mem (run + 64 * i + 12) 4
/-- A submit post with neither has `DEFICIT` 0 (R341). -/
def idlePosts : M Unit := do
  (← getS).submits.forM fun (p, o) => do
    match o with
    | some x =>
      if !postBusy (← getS) p x.pa && Memory.read (← getS).mem (x.pa + 0x38) 8 != 0 then physWrite (x.pa + 0x38) 8 0
    | none => return ()

/-- DEBUGHOLD of a context, toward every device of the domain (R128, R396). -/
def setHold (asid : Nat) : M Unit :=
  modS fun s =>
    if s.debugHold.contains asid then s
    else { s with debugHold := insertSorted asid s.debugHold, outbox := s.outbox ++ [.link "debugHold" 0xFFFF [asid, 1] []] }

/-- Save the firing of the core in focus and leave the core (R112 step 3, R128, R343). -/
def stopFiring (code : Nat) (cause : Nat := 0) : M Unit := do
  settleStopped (← getS).core.id
  closeQueue
  stopStreams
  let key ← myKey
  mapCmds key fun c => { c with stopped := true }
  let s ← getS
  let c := s.core
  let info := { c.info with lastCore := c.id }
  let draining := (List.finRange 8).filter fun k => c.f.q[k].leftToDrain
  saveImage code (slotPending s key || !draining.isEmpty)
  let base ← mySlotBase
  let snap ← if code = 5 then snapBytes base else pure []
  let slot : SlotInfo :=
    { info := info, stop := code, owed := code == 1 || code == 4, bkptPassed := c.bkptPassed,
      beatFlags := c.f.beatFlags, poisonOut := c.f.poisonOut, faultOwed := c.f.faultOwed, linkCauses := c.f.linkCauses,
      relFence := c.f.relFence, acqFence := c.f.acqFence, badX := c.f.badX, badM := c.f.badM,
      held := (List.finRange 8).map fun k => c.f.q[k].held,
      drainFaults := (List.finRange 8).map fun k => c.f.q[k].drainFault, draining := draining, snap := snap, cause := cause, side := c.f.queue,
      trapSide := c.f.trapSide, fxEnds := c.f.fxEnds, trapEnds := c.f.trapEnds }
  modS fun s => { s with slots := SMap.put none key (some slot) s.slots }
  if code = 2 then
    let r ← resumeRec info
    match ← faultPostWrite info.asid r.bytes with
    | some va => patchHeader info.asid base 0x28 8 va.toNat
    | none => pure ()
  if code = 5 then setHold info.asid
  if code = 2 ∨ code = 3 ∨ code = 5 then modS (·.raiseMint 2)
  leaveCore code
  pushOwed key
  idlePosts

/-- The slot of a firing that ends is free again (R117, R148); what stands there is the save area of no firing. -/
def freeSlot (key : Nat) : M Unit := do
  let kept := fun (l : Late) =>
    if l.slotKey ≠ key ∨ l.orphan then some l else if l.amo.isSome then some { l with orphan := true } else none
  let base ← slotBase (key / 65536) (key % 65536)
  modS fun s => { s with slots := SMap.put none key none s.slots, late := s.late.filterMap kept,
                         sealed := SMap.put 0 (base / 2 ^ 20) 0 s.sealed }

/-- A firing of an actor has ended: the last one of a closing binding retires the binding's count (R350). -/
def actorEnded (info : FiringInfo) : M Unit := do
  match info.actor with
  | none => return ()
  | some k =>
    match SMap.get none k (← getS).actors with
    | none => return ()
    | some a =>
      if a.closing && a.live ≤ 1 then
        modS fun s => { s with actors := SMap.put none k none s.actors }
        endSteps a.lid 0 0 true false none { asid := a.asid, mode := 0, fid := 0, ord := 0, counts := false }
      else modS fun s => { s with actors := SMap.put none k (some { a with live := a.live - 1 }) s.actors }

/-- A firing that the management complex ends, as the maker of its join (R338, Table 16.3): on a core, or as its slot holds it. -/
def retiredWho (info : FiringInfo) : M OlWho := do
  let s ← getS
  let mode ← olMode info.asid
  let who := fun (paused : Bool) (fid ord session : Nat) =>
    ({ asid := info.asid, mode := if paused then 0 else mode, fid := fid, ord := ord, counts := false, key := retiredKey info.asid info.slot,
       stale := session != (s.session info.asid).num } : OlWho)
  match s.cores.find? fun c => c.running && c.info.asid == info.asid && c.info.slot == info.slot with
  | some c => return who c.f.paused c.f.fid c.f.ordinal c.f.session
  | none =>
    let w ← areaRead info.asid ((← slotBase info.asid info.slot) + 0x198) 11
    return who (bit w 80) (bits w 0 32) (bits w 32 32) (bits w 64 16)

/-- What a retired firing leaves: its held follow-on commands are discarded and its copies complete, those that no answer can name too
(R303, log entry 122); its tokens are performed; its slot is free. -/
def discardSlot (info : FiringInfo) : M Unit := do
  let key := slotKey info.asid info.slot
  mapCmds key fun c => { c with follow := none, orphan := true, paused := if c.paused = some (2 ^ 32) then none else c.paused }
  flushTokens (tokensOf info.asid info.slot)
  freeSlot key

/-- Retire a firing as failed (R92, R114, R121, R338). The entry that a `launch` of it has reserved in the log stays empty. -/
def retireFailed (info : FiringInfo) : M Unit := do
  let who ← retiredWho info
  drainSaved (slotKey info.asid info.slot)
  if who.mode = 1 then olClose info.asid who.fid 0
  discardSlot info
  endSteps info.lid cwFAULT 1 true (info.kind == 3) (some info.lastCore) who
  actorEnded info

/-! Taking a trap and returning from one. -/

/-- The causes that Table 4.1 delivers to a handler; in a confidential context every fault parks (R125): DEDUCED, log entry 35. -/
def handlerCause (conf : Bool) (cause : Nat) : Bool :=
  if conf then cause == cBRK
  else cause != cCONFPAGE && cause != cDIVERGE && cause != cLOGBAD && cause != cSYS && cause != cHALT

/-- Vector entry (R103). -/
def vectorEnter (t : Trap) (val ret : Word) (newLevel vec : Nat) : M Unit := do
  settleStopped (← getS).core.id
  closeQueue
  stopStreams
  let key ← myKey
  mapCmds key fun c => { c with stopped := true, trapHeld := true }
  let f ← getF
  let base ← mySlotBase
  let asid := (← getS).core.info.asid
  writeDump asid (base + 0x1900) f.queue
  (maskIndexed 0 f.queue).forM fun (e, k) => do
    if e.pcm then areaFill asid (base + 0x64000 + 2048 * k) 2048 e.mask.toNat
  keepTrapWords asid base f
  let didx := if t.eKind then (f.queue.findIdx? (·.raiser)).getD 0 else 0
  modF fun f =>
    { f with
      trap := { cause := t.cause, level := f.level, engine := t.engine, act := true, dumpn := f.queue.length, didx := didx,
                dvalid := t.eKind, skip := false, val := val, pc := ret &&& 0xFFFFFFFFFFF8 },
      level := newLevel, fpc := b64 (vec / 8 % 2 ^ 45 * 8), queue := [], trapSide := f.queue, panel := 0,
      stage := 0, trapEnds := f.fxEnds }
  modC fun c => { c with wait := none, watch := none, vat := none, ahead := none, bkptPassed := none, expired := false }
  modS fun s => s.stallClear s.core.info.asid s.core.id
  spend 12

/-- Delivery of a cause that stops the running firing, by the first rule of R101 that applies (R105 while a handler is
active). -/
def deliver (t : Trap) : M Unit := do
  let s ← getS
  let f := s.core.f
  let info := s.core.info
  let flags ← ctxFlags info.asid
  let conf := bit flags 1
  let pc := if t.eKind then ((f.queue.find? (·.raiser)).map (·.pc)).getD f.fpc else f.fpc
  let addr := t.addr.getD pc
  let val := t.val.getD addr
  let ret := if t.next then f.fpc + 8 else f.fpc
  modF fun f => { f with pend := [] }
  let rec' : FRec := { cause := t.cause, engine := t.engine, asid := info.asid, core := s.core.id, slot := info.slot,
                       addr := addr.toNat, index := t.index, count := t.count, access := t.access, detail := t.detail }
  let sv ← ctxField info.asid 0x50 8
  let uv ← ctxField info.asid 0x48 8
  let vec := if f.level = 0 then uv else sv
  if t.cause = cHWERR ∨ t.cause = cSEALBAD then
    retireFailed { info with lastCore := s.core.id }
    leaveCore 0
    idlePosts
  else
    trTrace 7 0 t.engine (t.cause + 256 * f.queue.length) ret.toNat
    if t.next then modC fun c => { c with issued := c.issued + 1 }
    if conf && t.cause == cNOTMAPPED then
      let _ ← writeFRec { rec' with replay := true }
      stopFiring 3
    else if t.cause = cSYS ∧ !f.trap.act ∧ bit sv 0 then vectorEnter t val ret 1 sv
    else if (t.cause = cBRK ∧ bit flags 5 ∧ !conf) ∨ t.cause = cHALT then
      modF fun f => { f with fpc := ret, trap := { f.trap with val := val, pc := ret } }
      let _ ← writeFRec (if t.cause = cHALT then { rec' with addr := f.fpc.toNat, index := 0, count := 0 }
                         else { rec' with addr := f.fpc.toNat })
      stopFiring 5
    else if handlerCause conf t.cause ∧ !f.trap.act ∧ bit vec 0 then vectorEnter t val ret f.level vec
    else
      if t.next then
        modF fun f => { f with fpc := ret, trap := { f.trap with val := val, pc := ret } }
      let lid := info.lid
      stopFiring 2 t.cause
      let _ ← writeFRec rec'
      launchFlag lid cwFAULT s.core.id

/-- The replayable-fault protocol (R112): a record for each page, then stop code 3. In a confidential context every cause
but NOTMAPPED parks (R125). -/
def deliverReplay (engine : Nat) (pages : List PageFault) : M Unit := do
  let s ← getS
  let info := s.core.info
  let conf ← isConf info.asid
  match if conf then pages.find? (·.cause ≠ cNOTMAPPED) else none with
  | some p =>
    deliver { cause := p.cause, eKind := true, engine := engine, addr := some p.va, index := p.index, count := p.count,
              access := p.access, detail := p.detail }
  | none =>
    modF fun f => { f with pend := [] }
    match pages with
    | p :: _ => trTrace 7 0 engine (p.cause + 256 * s.core.f.queue.length) s.core.f.fpc.toNat
    | [] => pure ()
    pages.forM fun p => do
      let _ ← writeFRec { cause := p.cause, replay := true, engine := engine, asid := info.asid, core := s.core.id,
                          slot := info.slot, addr := p.va.toNat, index := p.index, count := p.count, access := p.access,
                          detail := p.detail }
    stopFiring 3

/-- A trap raised by the front: kind P. -/
def trapP {α : Type} (cause : Nat) : M α := stopWith (.trap { cause := cause })
/-- A failed check of a front access: kind P (R141). -/
def trapAt {α : Type} (e : AErr) : M α :=
  stopWith (.trap { cause := e.cause, addr := some e.va, access := e.access })

/-- A write of `n` elements of width `w` (R153). -/
def Firing.grow (f : Firing) (d : Fin 64) (w n : Nat) : Firing :=
  let v := f.v[d]
  { f with v := f.v.set d { v with len := max v.len (min 4096 (ceil8 (n * w))), dirty := true } }
/-- The registers of an instruction grow to what its commit gives them (R153). -/
def growAll (l : List (Fin 64 × Nat)) : M Unit := modF fun f => l.foldl (fun f (d, n) => f.grow d 8 n) f

/-- An entry committed by `SKIP` with its unfinished elements unchanged (R104, R253). A `vfill` leaves its length register as it
was: DESIGN CHOICE, log entry 133. A started `fx` leaves `IPOS` at its cut: DESIGN CHOICE, log entry 143. -/
def commitSkipped (e : DumpEntry) : M Unit := do
  if e.started then growAll e.grow
  match decode e.word with
  | .ok (.vmtx ..) | .ok (.vextr ..) | .ok (.vspill ..) | .ok (.vfill ..) => pure ()
  | _ => if e.engine = 1 ∨ e.engine = 5 then modF fun f => { f with vstart := 0 }
  match decode e.word with
  | .ok (.tld ..) | .ok (.tst ..) | .ok (.ald ..) | .ok (.ast ..) | .ok (.bfly ..) | .ok (.bchain ..) | .ok (.bblk ..)
  | .ok (.bmma ..) | .ok (.bmmx ..) | .ok (.tmac ..) => modF fun f => { f with panel := 0, stage := 0 }
  | _ => pure ()
  if e.started then
    match decode e.word with
    | .ok (.fx _ _ _ _ _ _ _ _ _ l) | .ok (.fxres _ _ _ _ _ _ _ l) =>
      let f ← getF
      let w := fun k => (f.fx[k]!).toNat
      let cnt := fun o => bits (w 3) (32 * o) 32 - bits (w 5) (32 * o) 32
      let n := bits (w 6) 32 2
      modF fun f => { f with fx := (f.fx.set 0 (b64 (w 0 / 8 * 8 + 4))).set 4 f.fx[3] }
      if 1 ≤ n then modF fun f => f.setLn l { count := cnt 0, pad := 0 }
      if 2 ≤ n then modF fun f => f.setLn (l + 1) { count := cnt 1, pad := 0 }
    | _ => return ()

/-- An entry read back from its image, with what the device has kept beside it (log entry 113); a debugger that has put another
instruction in its place finds it without. -/
def DumpEntry.withSide (e : DumpEntry) (side : Option DumpEntry) : DumpEntry :=
  match side with
  | some k =>
    if k.word = e.word ∧ k.pc = e.pc then
      { e with sp := k.sp, logged := k.logged, foll := k.foll, pad := k.pad, blk := k.blk, lens := k.lens, skip := k.skip, grow := k.grow, pois := k.pois,
               win := k.win, order := k.order, instr := k.instr, name := k.name, wide := k.wide, dead := k.dead,
               done := if k.prog = e.prog ∧ k.mask = e.mask then k.done else none }
    else e
  | none => e
def withSides (es side : List DumpEntry) : List DumpEntry := es.zipIdx.map fun (e, i) => e.withSide side[i]?

/-- The entries of a dump in a slot, with their masks. -/
def readDump (asid : Nat) (base maskOf : Nat → Nat) : Nat → Nat → M (List DumpEntry)
  | 0, _ => return []
  | n + 1, i => do
    let w ← areaRead asid (base i) 64
    let m ← if bit w 468 then areaRead asid (maskOf (imageMaskIdx w)) 2048 else pure 0
    let e := DumpEntry.ofImage w m
    return { e with logged := !(← getF).paused || e.ordn != 0 } :: (← readDump asid base maskOf n (i + 1))

/-- Entries that are reissued take new trace numbers, in order (R407). -/
def renumber : List DumpEntry → M (List DumpEntry)
  | [] => return []
  | e :: r => do
    let n := (← getT).seq
    modT fun t => { t with seq := (t.seq + 1) % 65536 }
    return { e with seq := some n, again := true, begun := false } :: (← renumber r)

/-- The return from a handler (R104): where it goes. -/
def returnFromTrap : M Word := do
  let f ← getF
  if !f.trap.act then trapP cILLOP
  let base ← mySlotBase
  let asid := (← getS).core.info.asid
  let kept ← areaRead asid (base + 0x380) 72
  let es ← readDump asid (fun i => base + 0x1900 + 64 * i) (fun k => base + 0x64000 + 2048 * k) f.trap.dumpn 0
  let es := withSides es f.trapSide
  modF fun f => { f.setPstart (bits kept 0 64) with
    fx := Vector.ofFn fun k => b64 (fxKeep k.val (bits kept (64 + 64 * k.val) 64)), level := f.trap.level, fxEnds := f.trapEnds }
  let skip := f.trap.skip && f.trap.dvalid
  if skip then
    match es[f.trap.didx]? with
    | some e => commitSkipped e
    | none => pure ()
  mapCmds (← myKey) fun c => { c with trapHeld := false }
  let keep ← renumber ((if skip then es.eraseIdx f.trap.didx else es).map fun e => { e with raiser := false })
  modF fun f => { f with trap := { f.trap with act := false, skip := false }, trapSide := [], queue := keep }
  return f.trap.pc

/-! Issue, dispatch, hold. -/

/-- What a consumer may see of a register that it reads too early (R23): of each producer still inside its latency the value
before its write or the one it writes, and what the register holds in program order. -/
def earlyValues (f : Firing) (early : List Pending) (r : Fin 32) : List (Word × Bool) :=
  ((early.filter (·.reg = r)).flatMap fun p => [(p.old, p.oldPoison), (p.val, false)]) ++ [(f.x[r], f.xp.getLsbD r.val)]

/-- One free choice for each register read too early. -/
def earlyChoices (f : Firing) (early : List Pending) : List (Fin 32) → M (List (Fin 32 × Word × Bool))
  | [] => return []
  | r :: rs => do
    let k ← fresh
    let vs := earlyValues f early r
    let v := vs.getD (Config.earlyRead k % vs.length) (f.x[r], f.xp.getLsbD r.val)
    return (r, v) :: (← earlyChoices f early rs)

/-- Is one of some registers still to be written by an older engine instruction (Table 1.2)? -/
def State.awaits (s : State) (reads : List (Fin 32)) : Bool :=
  s.older.any fun e => e.owes.any fun d => d != 0 && reads.contains d

/-- The scalar registers as an instruction reads them at issue: those of engine instructions interlocked (R18), interlocked or spaced reads
(R22), STALLCHK or a free choice for others (R23), HWERR and POISON (R92, R94). Of several producers read too early, STALLCHK names the youngest:
DESIGN CHOICE, log entry 114. -/
def issue (reads : List (Fin 32)) : M (Fin 32 → Word) := do
  let s ← getS
  let f := s.core.f
  olCheckBad s.core.info.asid f.fid
  if s.awaits reads then stopWith (.wait .background)
  if reads.any fun r => r != 0 && f.badX.getLsbD r.val then trapP cHWERR
  let early := f.pend.filter fun p => reads.contains p.reg && decide (p.dist < p.lat)
  match early with
  | [] =>
    if reads.any fun r => r != 0 && f.xp.getLsbD r.val then trapP cPOISON
    return f.rx
  | p :: _ =>
    if s.core.schk then
      stopWith (.trap { cause := cSTALLCHK, val := some (b64 (p.back + 256 * p.dist + 65536 * (p.lat - p.dist))),
                        index := p.back, count := p.dist, detail := p.lat - p.dist })
    let seen ← earlyChoices f early (early.map (·.reg)).eraseDups
    if reads.any fun r => r != 0 &&
        (match seen.find? (·.1 = r) with | some (_, _, p) => p | none => f.xp.getLsbD r.val) then trapP cPOISON
    return fun r => match seen.find? (·.1 = r) with
      | some (_, v, _) => if r = 0 then 0 else v
      | none => f.rx r

/-- The end of a front instruction's issue: the counter moves on or jumps, distances grow (R22), time passes: the stall count, or the
two bubbles of a taken branch or jump, whichever is longer (R18). -/
def advance (st : Fin 16) (target : Option Word) : M Unit := do
  modF fun f =>
    { f with fpc := target.getD (f.fpc + 8),
             pend := (f.pend.map fun p => { p with dist := p.dist + 1 + st.val, back := p.back + 1 }).filter
               fun p => decide (p.dist < p.lat) }
  modC fun c => { c with wait := none, watch := none, issued := c.issued + 1, bkptPassed := none, expired := false }
  storesAdvance
  let bubbles := if target.isSome then 2 else 0
  because 0 0
  if st ≠ 0 then because 1 1
  if st.val < bubbles then because (1 + st.val) 2
  spend (1 + max st.val bubbles)

/-- What a stop of the delivery itself comes to: a full domain post holds the machine as it was. -/
def settle (before : State) (r : Except Stop Unit × State) : Host.Outcome State Fault Refusal :=
  match r with
  | (.error (.fault f), _) => .fault f
  | (.error (.wait w), _) => .next (({ before with core := { before.core with wait := some w } } : State).waiting w)
  | (_, s) => .next s

/-- The instruction in which a quantum ends lasts until then (R343, log entry 84). -/
def untilQuantum : M Unit := do
  let s ← getS
  if s.held < s.mgmt.schedq then spend (s.mgmt.schedq - s.held)

/-- Is there no stop on its way? -/
def Core.noStop (c : Core) : Bool := match c.ahead with | none | some (.going, _) => true | some _ => false

/-- A pre-emption that waits for the instruction boundary (R115). -/
def boundary (s : State) : Host.Outcome State Fault Refusal :=
  if s.core.budget.isSome && s.core.running && s.core.noStop then settle s ((do untilQuantum; stopFiring 1) s) else .next s

/-- An instruction that is held: nothing of a front instruction or of an undispatched entry is kept but what its
meaning recorded; a started entry stays at the head of the queue. One that does not wait for room in the log marks no stall (R369). -/
def hold (before s : State) (w : Wait) : Host.Outcome State Fault Refusal :=
  let s' := match s.core.cur with
    | none => s
    | some e =>
      if before.core.cur.isNone && !e.started then { before with freeCtr := s.freeCtr }
      else { s with core := { s.core with cur := none, f := { s.core.f with queue := e :: s.core.f.queue } } }
  let s' := match w with | .logRoom .. => s' | _ => s'.stallClear s'.core.info.asid s'.core.id
  boundary ((do because 0 (holdReason w); spendIn (holdCode w) 1) (({ s' with core := { s'.core with wait := some w } } : State).waiting w)).2

/-- Put the entry in execution at the head of the queue, where a stop dumps it. -/
def requeue (raiser : Bool) : M Unit := do
  match (← getS).core.cur with
  | none => return ()
  | some e =>
    endDumped e raiser
    modC fun c => { c with cur := none, vat := none, f := { c.f with queue := { e with raiser := raiser, seq := none, begun := false } :: c.f.queue } }

/-- Deliver a stop an engine instruction raised. -/
def deliverStop (e : EngineStop) : M Unit := do
  modC fun c => { c with ahead := none }
  match e with
  | .trap t => deliver t
  | .replay k ps => deliverReplay k ps
  | .going => return ()

/-- A stop an engine instruction raises: the front may have issued some instructions more by then (R18, R21); how many is
the schedule's choice (`leads`). -/
def engineStop (e : EngineStop) : M Unit := do
  requeue true
  match (← getS).leads with
  | [] => deliverStop e
  | n :: r =>
    modS fun s => { s with leads := r }
    if n = 0 then deliverStop e else modC fun c => { c with ahead := some (e, n) }

/-- A delivery, after which a pre-emption that arrived with the trap finds the firing at the first instruction of its handler
(R105). -/
def delivered (before : State) (r : Except Stop Unit × State) : Host.Outcome State Fault Refusal :=
  match settle before r with
  | .next s => boundary s
  | o => o

/-- What a step of an instruction comes to. -/
def finish (before : State) (r : Except Stop Unit × State) : Host.Outcome State Fault Refusal :=
  match r with
  | (.ok (), s) => boundary s
  | (.error .left, s) => .next s
  | (.error (.fault f), _) => .fault f
  | (.error (.wait w), s) => hold before s w
  | (.error .budget, s) => settle before ((do untilQuantum; requeue false; stopFiring 1) s)
  | (.error (.replay e ps), s) => delivered before (engineStop (.replay e ps) s)
  | (.error (.trap t), s) =>
    if t.eKind && s.core.cur.isSome then delivered before (engineStop (.trap t) s)
    else delivered before ((do requeue false; deliver t) s)

/-- What an instruction comes to that the front issues while the oldest entry of the queue is unfinished. One that is held issues later:
the engine goes on first. One that traps stops the firing with what is unfinished in the dump (R21). -/
def finishGoing (before : State) (r : Except Stop Unit × State) : Host.Outcome State Fault Refusal :=
  match r with
  | (.ok (), s) => boundary { s with core := { s.core with ahead := s.core.ahead.map fun (e, n) => (e, n - 1) } }
  | (.error (.wait _), s) => boundary { before with freeCtr := s.freeCtr, core := { before.core with ahead := none } }
  | (r, s) => finish before (r, { s with core := { s.core with ahead := none } })

/-- What an instruction comes to that the front issues before an engine stop is delivered: held or trapping ones do not
issue, and the older stop is delivered (R105). -/
def finishAhead (before : State) (e : EngineStop) (r : Except Stop Unit × State) : Host.Outcome State Fault Refusal :=
  match r with
  | (.ok (), s) => .next { s with core := { s.core with ahead := s.core.ahead.map fun (e, n) => (e, n - 1) } }
  | (.error (.fault f), _) => .fault f
  | (.error _, s) => delivered before (deliverStop e { before with freeCtr := s.freeCtr })

/-- How an instruction ends: in the ordinary way, or issued ahead of unfinished engine instructions. -/
def conclude (before : State) (r : Except Stop Unit × State) : Host.Outcome State Fault Refusal :=
  match before.core.ahead with
  | none => finish before r
  | some (.going, _) => finishGoing before r
  | some (e, _) => finishAhead before e r

/-- An instruction executed at the front: its scalar reads, and its effect, which answers a jump's target. -/
def runFront (st : Fin 16) (reads : List (Fin 32)) (body : (Fin 32 → Word) → M (Option Word)) (s : State) :
    Host.Outcome State Fault Refusal :=
  conclude s ((do
    let x ← issue reads
    let target ← body x
    advance st target) s)

/-- A front instruction of level `level` (R99): PRIV comes before its reads. -/
def runPriv (level : Nat) (st : Fin 16) (reads : List (Fin 32)) (body : (Fin 32 → Word) → M (Option Word)) (s : State) :
    Host.Outcome State Fault Refusal :=
  conclude s ((do
    if (← getF).level < level then trapP cPRIV
    let x ← issue reads
    let target ← body x
    advance st target) s)

/-- A pre-emption request is counted down by the units an engine instruction performs (R115). -/
def unit : M Unit := do
  match (← getS).core.budget with
  | some 0 => stopWith .budget
  | some (n + 1) => modC fun c => { c with budget := some n }
  | none => return ()

def getCur : M DumpEntry := do
  match (← getS).core.cur with
  | some e => return e
  | none => return { word := 0, pc := 0, scal := #v[0, 0, 0, 0], prog := 0, vlen := 0, engine := 0, started := false,
                     pcm := false, raiser := false, ordn := 0, mask := 0 }
def modCur (g : DumpEntry → DumpEntry) : M Unit := modC fun c => { c with cur := c.cur.map g }

/-- The event of the engine instruction in execution: its ordinal is the one it took at dispatch (R360, R361). -/
def entryWho : M OlWho := do
  let w ← myWho
  let e ← getCur
  let mode ← if e.logged then olMode w.asid else pure 0
  return { w with mode := mode, ord := e.ordn, counts := false }

/-- Is a read stream empty, or a write stream full (Table 1.2)? -/
def streamHolds (s : State) (q : Stream) : Bool :=
  q.bound && decide (q.pos < q.total) &&
    if q.fifo then match peek (fifoBank q) (.error ⟨0, 0, 0⟩) s with
      | .ok b => if q.dir then decide (4096 ≤ (s.bank b).fifo.length + (s.bank b).reserved) else (s.bank b).fifo.isEmpty
      | .error _ => false
    else if q.dir then decide (16 ≤ q.held.length) else !q.fetched.any fun b => b.idx == q.pos / 64
/-- A command that takes one of the 16 slots (R299, R387). -/
def isCommand : Instr → Bool
  | .cpy .. | .cpym .. | .cpyf .. | .cfill .. | .lput .. | .lget .. | .lsend .. | .coll .. => true
  | _ => false

/-- What holds an engine instruction at its dispatch beside others, for as long as the oldest of them is unfinished (Table 1.2): a stream it
reads is empty or one it writes full, all copy slots are taken; one that is dispatched alone waits for them as it begins. -/
def dispatchHeld (s : State) (i : Instr) : Bool :=
  s.core.ahead.isSome &&
    ((isCommand i && s.core.cmds.toList.all (·.isSome)) ||
      (operands s.core.f none i).any fun t => match t.res with
        | .stream q => (match i with
            | .qbind .. | .qrel .. | .qsync .. => false
            | _ => streamHolds s s.core.f.q[q])
        | _ => false)

/-- Dispatch of an engine instruction (R19): its scalar operands by field, `D`, `A`, `B`, `C`. Fabric opcodes read all
four interlocked and consume no poison. `pre`: what a `cpym` decodes and reads besides (R301). -/
def dispatch (i : Instr) (st : Fin 16) (engine : Nat) (scalars : List (Fin 4 × Fin 32)) (fabric : Bool)
    (pre : (Fin 32 → Word) → M (Option (Vector Word 4))) : M Unit := do
  let x ← if fabric then do
      let _ ← issue []
      if (← getS).awaits (scalars.map (·.2)) then stopWith (.wait .background)
      let f ← getF
      if scalars.any fun (_, r) => r != 0 && f.badX.getLsbD r.val then trapP cHWERR
      pure f.rx
    else issue (scalars.map (·.2))
  let foll ← pre x
  let s ← getS
  let f := s.core.f
  if dispatchHeld s i then stopWith (.wait .background)
  let scal := scalars.foldl (fun (v : Vector Word 4) (k, r) => v.set k (x r)) #v[0, 0, 0, 0]
  let sp := scalars.foldl (fun (v : BitVec 4) (k, r) => if r != 0 && f.xp.getLsbD r.val then v ||| (1 <<< k.val) else v) 0
  let e : DumpEntry :=
    { word := (encode i).getD 0, pc := f.fpc, scal := scal, prog := 0, vlen := 0, engine := engine, started := false,
      pcm := false, raiser := false, ordn := 0, mask := 0, sp := sp, foll := foll, name := s.issueName }
  if 0 < queueEntries s e i && decide (96 < queueHeld s + queueEntries s e i) then stopWith (.wait .queueFull)
  if makesEvent i && !f.paused then
    modC fun c => { c with cur := some { e with ordn := f.ordinal, logged := true }, curAt := f.queue.length }
    modF fun f => { f with ordinal := f.ordinal + 1 }
  else modC fun c => { c with cur := some e, curAt := f.queue.length }
  advance st none

/-- An instruction goes to its place in the queue: a dispatched one behind all others, if there is room (Table 1.2), one that has gone on in the
middle where it stood. -/
def queueUp : M Unit := do
  let c := (← getS).core
  if 32 ≤ c.f.queue.length then stopWith (.wait .background)
  modC fun c => { c with f := { c.f with queue := c.f.queue.take c.curAt ++ c.cur.toList ++ c.f.queue.drop c.curAt }, cur := none }

/-- The entry in execution has begun (R407). -/
def beginEntry (engine : Nat) : M Unit := do
  let e ← getCur
  if !e.begun then
    trTrace 2 e.again.toNat engine (e.seq.getD 0) e.pc.toNat
    modCur fun e => { e with begun := true }

/-- How an attempt of an engine to perform some units of an instruction ends: all that the instruction has, just those, or not at all. -/
inductive Attempt
  | all (units : Nat)
  | part
  | fails
  deriving DecidableEq, Repr

/-- An instruction performs up to `u` units. -/
def attempt (u : Nat) (body : M Nat) : M Attempt := do
  modC fun c => { c with budget := some u, accepted := [] }
  try return .all (← body)
  catch
    | .budget => return .part
    | _ => return .fails

/-- What an instruction behind unfinished ones performs (R20, R24): up to `u` units, as many as the scoreboard lets it. One that has come to
its end waits in the queue for its commit, if its progress shows that; another that would finish, fault or wait has not come so far. -/
def performBehind (i : Instr) (engine : Nat) (body : M Nat) : Nat → M Unit
  | 0 => return ()
  | u + 1 => do
    let before ← getS
    let r ← attempt (u + 1) body
    let s ← getS
    let e ← getCur
    let ends := match r with
      | .all n => if endsEarly i && before.core.f.vstart == 0 then some (some n) else none
      | .part => some none
      | .fails => none
    match ends with
    | some done =>
      if partAllowed s e i then
        modC fun c => { c with budget := before.core.budget, accepted := before.core.accepted }
        beginEntry engine
        modCur fun e => { e with done := done }
      else
        set before
        performBehind i engine body u
    | none =>
      set before
      performBehind i engine body u

/-- The same, by what the schedule has (`starts`). -/
def startBehind (i : Instr) (engine : Nat) (body : M Nat) : M Unit := do
  match (← getS).starts with
  | [] => return ()
  | u :: r =>
    modS fun s => { s with starts := r }
    let s ← getS
    let e ← getCur
    if e.done.isNone && mayStart s e i then performBehind i engine body u

/-- The trace number of the entry in execution (R407). -/
def takeSeq : M Unit := do
  let n := (← getT).seq
  modT fun t => { t with seq := (t.seq + 1) % 65536 }
  modCur fun e => { e with seq := some n }

/-- The entry in execution begins, performs its units and ends (R407). -/
def performEntry (engine : Nat) (body : M Nat) : M Unit := do
  if (← getCur).seq.isNone then takeSeq
  let seq := (← getCur).seq.getD 0
  beginEntry engine
  let n ← match (← getCur).done with
    | some n => pure n
    | none => body
  modC fun c => { c with cur := none, wait := none, vat := if engine = 2 then none else c.vat, expired := false }
  spend 1
  trTrace 3 0 engine seq (min n 127)

/-- The entry in execution stays unfinished at the head of the queue while the front issues up to `n` instructions (R18). -/
def goOn (n : Nat) : M Unit :=
  modC fun c => { c with cur := none, ahead := some (.going, n), f := { c.f with queue := c.cur.toList ++ c.f.queue } }

/-- The entry in execution performs so many units as the schedule has it, then the front goes on before it does. One that is done by
then has committed. -/
def performPart (engine u n : Nat) (body : M Nat) : M Unit := do
  if u = 0 then goOn n
  else
    modC fun c => { c with budget := some u }
    try
      performEntry engine body
      modC fun c => { c with budget := none }
    catch x =>
      modC fun c => { c with budget := none }
      match x with
      | .budget => goOn n
      | x => throw x

/-- An engine instruction: dispatched, or reissued from the queue (R109). `body` answers the units it completed. What the schedule has
of its overlap with younger ones, `overlaps` says. -/
def runEngine (i : Instr) (st : Fin 16) (engine : Nat) (scalars : List (Fin 4 × Fin 32)) (body : M Nat)
    (s : State) (fabric : Bool := false) (pre : (Fin 32 → Word) → M (Option (Vector Word 4)) := fun _ => return none) :
    Host.Outcome State Fault Refusal :=
  conclude s ((do
    let again := (← getS).core.cur.isSome
    if !again then
      dispatch i st engine scalars fabric pre
      takeSeq
    if (← getS).core.ahead.isSome then
      startBehind i engine body
      queueUp
    else
      match (← getS).overlaps, (← getS).core.budget with
      | (u, n) :: r, none =>
        modS fun s => { s with overlaps := r }
        if holdsIssue i then performEntry engine body else performPart engine u n body
      | _, _ => performEntry engine body) s)

/-- A younger instruction writes a register that older engine instructions are still to write: theirs comes too late (R18, log entry 139). -/
def Firing.overtakes (f : Firing) (d : Fin 32) : Firing :=
  { f with queue := f.queue.map fun e => if e.owes == some d then { e with dead := true } else e }
/-- A write of a scalar register. -/
def writeReg (d : Fin 32) (g : Firing → Firing) : M Unit := do
  let c := (← getS).core
  if !c.cur.any (·.dead) then
    if c.ahead.isSome && c.cur.isNone then modF (·.overtakes d)
    modF g
/-- A scalar result of an instruction, with its poison (R93). -/
def writeX (d : Fin 32) (v : Word) : M Unit := writeReg d (·.setX d v)
def poisonResult (d : Fin 32) : M Unit := writeReg d fun f => (f.setX d (BitVec.allOnes 64)).poisonX d

/-- The bank switches that are in progress and the accesses in flight since a stop: what an event that waits may wait for (R64, R73,
R108). -/
def State.switchEvents (s : State) : List Instr :=
  s.busyBanks.map (fun (k, m) => .modeSwitch (k / 32) (k % 32) m) ++ if s.late.isEmpty then [] else [.accessPerformedAfterStop 0]

/-- An event that waits, with what it may wait for: tried again once the core in focus has gone on (log entry 4). -/
def State.park (s : State) (i : Instr) : State :=
  { s with blocked := s.blocked ++ s.switchEvents.filter (fun x => x != i && !s.blocked.contains x) ++ [i] }

/-- Does an event need the core clock, which P2 gates (R425): it moves data or performs an access? -/
def needsClock : Instr → Bool
  | .streamFetch .. | .streamDrain .. | .copyTransfer .. | .followOnCommand .. | .modeSwitch .. | .tokenPerformed ..
  | .accessPerformedAfterStop .. | .linkTransfer .. | .collectiveInstance .. | .fxStall .. | .waitaWake .. | .barrierWake .. => true
  | _ => false

/-- Does an event reach this device's memory from outside: in P2, HBM refreshing itself, it waits, and in P3 there is nothing to
reach (R425)? -/
def fromOutside : Instr → Bool
  | .apertureAccess _ | .messageReceive .. | .submitRecordWrite .. | .deviceLaunchShare .. => true
  | .remoteAccess _ a => match a with
    | .debugHold .. | .collTimeout .. | .mint .. => false
    | _ => true
  | _ => false

/-- An event of the table outside the instruction stream: what does not apply leaves the state as it is. -/
def runEvent (i : Instr) (body : M Unit) (s : State) : Host.Outcome State Fault Refusal :=
  if needsClock i && decide (2 ≤ s.mgmt.pstate) then .next s
  else if fromOutside i && decide (2 ≤ s.mgmt.pstate) then .next (if s.mgmt.pstate = 2 then s.park i else s)
  else match body s with
  | (.ok (), s') => .next s'
  | (.error .left, s') => .next s'
  | (.error (.fault f), _) => .fault f
  | (.error (.wait w), _) => .next ((s.park i).waiting w)
  | (.error .budget, s') => settle s ((do untilQuantum; requeue false; stopFiring 1) s')
  | (.error (.replay e ps), s') => settle s ((do requeue true; deliverReplay e ps) s')
  | (.error (.trap t), s') => settle s ((do requeue t.eKind; deliver t) s')

end Sys2Proof.Machine
end

