-- ==== Sys2Proof/Machine/Flags.lean ====
section
/-!
DEFINITION. What a result leaves besides its value: sticky flags (R167), poison (R93, R94), draws (R168), and the length,
dirtiness and residency of vector registers (R153, R176).
-/

namespace Sys2Proof.Machine

/-- OR flags into `FFLAGS` (R167). -/
def Firing.raise (f : Firing) (fl : Flags) : Firing := { f with fflags := f.fflags ||| fl }

/-- One draw of the firing's generator (R168, R169). -/
def Firing.draw (f : Firing) : Nat × Firing :=
  let (d, a, b) := drawStep f.pseed0 f.pseed1
  (d.toNat, { f with pseed0 := a, pseed1 := b })

/-- The rounding of `VTYPE.RM` outside narrowing conversions (R159, R160). -/
def Firing.round (f : Firing) : Round :=
  match f.vrm with
  | 1 => .rtz
  | 2 => .rup
  | 3 => .rdn
  | _ => .rne

/-- The rounding of a conversion; a stochastic narrowing takes its draw (R168). -/
def Firing.roundCvt (f : Firing) (narrow : Bool) : Round × Firing :=
  if f.vrm = 4 && narrow then let (d, g) := f.draw; (.stoch d, g) else (f.round, f)

/-- The element groups that hold bits `lo` to `hi - 1` of a register, as a mask. -/
def groupMask (lo hi : Nat) : Nat :=
  if lo < hi then 2 ^ ((hi - 1) / 512 + 1) - 2 ^ (lo / 512) else 0

/-- Replace the poison of a register: some groups cleared, some set. -/
def Firing.setPoison (f : Firing) (d : Fin 64) (clear set : Nat) : Firing :=
  let v := f.v[d]
  { f with v := f.v.set d { v with poison := (v.poison &&& ~~~(BitVec.ofNat 64 clear)) ||| BitVec.ofNat 64 set } }

/-- Where a vector register lies in its slot when it is not resident (R176). -/
def overflowAddr (base : Nat) (n : Fin 64) : Nat := base + 0x80000 + 4096 * n.val

/-- Evict the least recently used resident register that is not pinned, writing its groups out (R176). -/
def evictOne (pinned : List (Fin 64)) : M Unit := do
  let f ← getF
  match f.resident.reverse.find? (fun n => !pinned.contains n) with
  | none => return ()
  | some n =>
    let v := f.v[n]
    if v.dirty then
      areaFill (← getS).core.info.asid (overflowAddr (← mySlotBase) n) (ceil64 v.len) (v.bits.toNat % 2 ^ (8 * ceil64 v.len))
    modF fun f => { f with resident := f.resident.filter (· ≠ n) }

/-- An instruction that names registers makes them resident and pins them (R176, R177), as the started ones of the queue have theirs; a
source without bytes takes no slot. The most recently used stand first. -/
def useVecs (dests sources : List (Fin 64)) : M Unit := do
  let f ← getF
  let pinned := pinnedVecs (← getS)
  let names := (dests ++ sources.filter fun n => f.v[n].len != 0 || f.resident.contains n).eraseDups
  let missing := names.filter fun n => !f.resident.contains n
  upTo (f.resident.length + missing.length - 32) fun _ => evictOne (names ++ pinned)
  modF fun f => { f with resident := names ++ f.resident.filter fun n => !names.contains n }

end Sys2Proof.Machine
end

