-- ==== Sys2Proof/Machine/Operands.lean ====
section
/-!
DEFINITION. Operands of the lane instructions: elements of vector registers (R152), scalars and immediates (R181), stream
registers (R182, R294), masks (R155), effective lengths (R158), and the run of an instruction over its element groups
(R107, R162, R178, R183).
-/

namespace Sys2Proof.Machine

/-- Replace `w` bits of a register at bit `lo`. -/
def patchBits (x lo w y : Nat) : Nat := x / 2 ^ (lo + w) * 2 ^ (lo + w) + y % 2 ^ w * 2 ^ lo + x % 2 ^ lo
def Firing.setElem (f : Firing) (d : Fin 64) (w e x : Nat) : Firing :=
  let v := f.v[d]
  { f with v := f.v.set d { v with bits := BitVec.ofNat 32768 (patchBits v.bits.toNat (e * w) w x) } }
/-- Does an element lie in a poisoned group? A 6-bit element may touch two (R152). -/
def VReg.elemPoison (v : VReg) (w e : Nat) : Bool :=
  v.poison.getLsbD (e * w / 512) || v.poison.getLsbD ((e * w + w - 1) / 512)

def Firing.setMaskBit (f : Firing) (d : Fin 8) (e : Nat) (b : Bool) : Firing :=
  if d = 0 then f
  else { f with m := f.m.set d (if b then f.m[d] ||| BitVec.ofNat 16384 (2 ^ e)
                                else f.m[d] &&& ~~~(BitVec.ofNat 16384 (2 ^ e))),
                badM := f.badM &&& ~~~(1#8 <<< d.val) }

/-- What an instruction over elements runs with: its widest format `w` in bits, the count taken, the effective length,
the first pad element, the first that is neither active nor pad (of a block form, R186), `VSTART` and the mask. -/
structure LaneRun where
  w : Nat
  count : Nat
  evl : Nat
  padFrom : Nat
  tail : Nat
  vstart : Nat
  mask : BitVec 16384
  deriving DecidableEq, Repr

def LaneRun.isPad (c : LaneRun) (e : Nat) : Bool := decide (c.padFrom ≤ e) && decide (e < c.tail) && decide (c.vstart ≤ e)
/-- An active element (R154). -/
def LaneRun.active (c : LaneRun) (e : Nat) : Bool :=
  decide (c.vstart ≤ e) && decide (e < c.padFrom) && c.mask.getLsbD e
/-- An element the instruction writes: active or pad. -/
def LaneRun.written (c : LaneRun) (e : Nat) : Bool := c.isPad e || c.active e
/-- Nothing to do (R178). -/
def LaneRun.empty (c : LaneRun) : Bool := decide (c.evl ≤ c.vstart)

/-- Parity of a mask register that an instruction reads (Table 3.7). -/
def checkMask (k : Fin 8) : M Unit := do
  if k != 0 && (← getS).core.f.badM.getLsbD k.val then trapP cHWERR

/-- The count and pad an instruction takes when it starts (R157, R109), its effective length for widest width `w`
(0: no vector operand), and its mask. A reissued one keeps what it took, but for `VSTART` and the mask, which stand as a handler has
left them: DESIGN CHOICE, log entry 132. -/
def laneRun (w : Nat) (m : Fin 8) : M LaneRun := do
  checkMask m
  let f ← getF
  let e ← getCur
  let count := if e.started then e.vlen else f.ln[0].count
  let pad := if e.started then e.pad else f.ln[0].pad
  let evl := if w = 0 then min count 16384 else min count (vlmax w 0)
  modCur fun e => { e with wide := max 1 w }
  return { w := if w = 0 then 1 else w, count := count, evl := evl, padFrom := evl - min pad evl, tail := evl,
           vstart := f.vstart, mask := f.rm m }

/-- The instruction starts: it keeps its count, the pad of `vl` and `VTYPE.BLK` (R157, R161). -/
def markStarted (count : Nat) : M Unit := do
  let f ← getF
  modCur fun e => if e.started then { e with vlen := count }
    else { e with started := true, vlen := count, pad := f.ln[0].pad, blk := f.vblk }

/-- An instruction that writes registers of given lengths: they grow when it commits (R153). One that a stop finds with
completed groups grows them before the save, as a load does (R215): DEDUCED, log entry 115. -/
def committingIf (wrote : M Bool) (l : List (Fin 64 × Nat)) (body : M Unit) : M Unit := do
  modCur fun e => { e with grow := l }
  try body
  catch x => do
    if ← wrote then growAll l
    throw x
  growAll l
def committing : List (Fin 64 × Nat) → M Unit → M Unit := committingIf (do let e ← getCur; return e.pcm || e.prog != 0)
/-- The lengths of an element-wise destination. -/
def laneGrows (d : LaneReg) (w n : Nat) : List (Fin 64 × Nat) := match d with | .vec v => [(v, ceil8 (n * w))] | .stream _ => []

/-- Run the groups that are not complete, `step` at a time, in index order: `body k lo hi` performs the elements from
`lo` to `hi - 1`. -/
def eachGroup (c : LaneRun) (step : Nat) (body : Nat → Nat → Nat → M Unit) : Nat → Nat → M Unit
  | 0, _ => return ()
  | n + 1, k => do
    if (← getCur).prog ≤ k then
      unit
      body k (groupLo c.w k) (min c.evl (groupLo c.w (k + step)))
      modCur fun e => { e with prog := k + step }
    eachGroup c step body n (k + step)

/-- Groups of a run, up to the one that holds element evl - 1. -/
def LaneRun.groups (c : LaneRun) : Nat := if c.evl = 0 then 0 else (c.evl - 1) * c.w / 512 + 1

/-- The element groups that an instruction covers, those from the group of element `VSTART` on (R179). -/
def LaneRun.covers (c : LaneRun) : Nat := c.groups - c.vstart * c.w / 512

/-- All groups of a run from the one of element `first`. -/
def runGroups (c : LaneRun) (first step : Nat) (body : Nat → Nat → Nat → M Unit) : M Unit :=
  let k0 := first * c.w / 512
  eachGroup c step body ((c.groups - k0 + step - 1) / step) k0

/-- The end of an instruction that takes `VSTART` (R162). -/
def takeVstart : M Unit := modF fun f => { f with vstart := 0 }

/-- A trap of the lanes at an element (Table 4.7). -/
def laneTrap {α : Type} (cause e : Nat) : M α :=
  stopWith (.trap { cause := cause, eKind := true, engine := 1, index := e, count := 1 })
/-- BOUND carries no address (R213). -/
def boundTrap {α : Type} (engine e : Nat) (access : Nat := 0) : M α :=
  stopWith (.trap { cause := cBOUND, eKind := true, engine := engine, addr := some 0, index := e, count := 1, access := access })

/-- Where an element operand comes from: a register, one value, or stream bytes from bit `org` on with the poison of
their blocks. -/
inductive Src
  | vec (v : Fin 64)
  | one (x : Nat)
  | data (org x : Nat) (poison : Nat)
  deriving DecidableEq, Repr

def Src.value (f : Firing) (w e : Nat) : Src → Nat
  | .vec v => f.v[v].elem w e
  | .one x => x % 2 ^ w
  | .data org x _ => bits x (e * w - org) w
def Src.poisoned (f : Firing) (w e : Nat) : Src → Bool
  | .vec v => f.v[v].elemPoison w e
  | .one _ => false
  | .data org _ p => bit p ((e * w - org) / 512) || bit p ((e * w + w - 1 - org) / 512)

/-- The immediate of an operand (R181): as wide as the format, or sign-extended to it. -/
def immValue (w : Nat) (i : BitVec 8) : Nat :=
  if w ≤ 8 then i.toNat % 2 ^ w else (i.signExtend w).toNat

/-- Scalar operands of layout FL-A, for the dispatch. -/
def laneScalars : LaneB → List (Fin 4 × Fin 32)
  | .scalar x => [(2, x)]
  | _ => []
/-- The `B` operand (R181). -/
def laneB (w : Nat) (b : LaneB) : M Src := do
  match b with
  | .vec v => return .vec v
  | .scalar _ => return .one (← getCur).scal[2].toNat
  | .imm i => return .one (immValue w i)
def bVecs : LaneB → List (Fin 64) | .vec v => [v] | _ => []
def regVecs : LaneReg → List (Fin 64) | .vec v => [v] | .stream _ => []

/-- A stream operand must be bound in the right direction (R294). -/
def checkStream (wr : Bool) : LaneReg → M Unit
  | .vec _ => return ()
  | .stream k => do
    let q ← getQ k
    if !q.bound || q.dir != wr then qpattern 4

/-- Blocks `b` to `b + n - 1` of a stream, counted from the one at `POS`: bytes, and a poison bit for each. -/
def loadBlocks (k : Fin 8) (first b : Nat) : Nat → M (Nat × Nat)
  | 0 => return (0, 0)
  | n + 1 => do
    let (x, p) ← loadBlocks k first b n
    let blk ← peekBlock k (first + b + n)
    return (x + blk.bits.toNat * 2 ^ (512 * n), p + (if blk.poison then 2 ^ n else 0))

/-- The `A` operand for elements `lo` to `hi - 1` (R182). -/
def laneA (a : LaneReg) (w lo hi : Nat) : M Src := do
  match a with
  | .vec v => return .vec v
  | .stream k =>
    let q ← getQ k
    let b := lo * w / 512
    let n := (hi * w + 511) / 512 - b
    let (x, p) ← loadBlocks k (q.pos / 64) 0 n
    return .data (512 * b) x p

/-- The blocks that a completed group has taken whole; the last group takes the rest (R182, R298). -/
def takeBlocks (c : LaneRun) (a : LaneReg) (w lo hi : Nat) : M Unit := do
  match a with
  | .vec _ => return ()
  | .stream k =>
    let done := if hi = c.evl then (hi * w + 511) / 512 else hi * w / 512
    upTo (done - lo * w / 512) fun _ => popBlock k

/-- Room for a block of a write stream, after `before` new ones, with the causes its write raises (R294, R297, R298). -/
def roomFor (k : Fin 8) (n before : Nat) : M Unit := do
  let q ← getQ k
  if q.total ≤ 64 * n then qpattern 3 (64 * n)
  raiseDrain k
  if !q.held.any (·.idx = n) then
    if q.fifo then
      match ← fifoBank q with
      | .error e => streamFault e (64 * n)
      | .ok b =>
        let bk := (← getS).bank b
        if 4096 ≤ bk.fifo.length + bk.reserved + before then stopWith (.wait (.stream k))
    else if 16 ≤ q.held.length then
      drainOldest k
      raiseDrain k

/-- Room for what elements `lo` to `hi - 1` give to a stream. -/
def laneRoom (d : LaneReg) (w lo hi : Nat) : M Unit := do
  match d with
  | .vec _ => return ()
  | .stream k =>
    let q ← getQ k
    let b := lo * w / 512
    let first := q.pos / 64
    upTo ((hi * w + 511) / 512 - b) fun i =>
      roomFor k (first + i) ((List.range i).filter fun j => !q.held.any (·.idx = first + j)).length

/-- Give bytes from `lo` on of block `n` and what follows it: `len` bytes of `x`. -/
def giveBytes (k : Fin 8) : Nat → Nat → Nat → Nat → Nat → Nat → M Unit
  | 0, _, _, _, _, _ => return ()
  | fuel + 1, n, lo, len, x, p => do
    if len = 0 then return ()
    let m := min len (64 - lo)
    giveBlock k n lo (lo + m) (x % 2 ^ (8 * m)) (bit p 0)
    giveBytes k fuel (n + 1) 0 (len - m) (x / 2 ^ (8 * m)) (p / 2)

/-- The elements of a group go to a stream (R182): bits `x` of elements `lo` to `hi - 1`, with the poison of each block;
the last group fills its block with zeros. -/
def giveGroup (c : LaneRun) (d : LaneReg) (w lo hi x p : Nat) : M Unit := do
  match d with
  | .vec _ => return ()
  | .stream k =>
    let q ← getQ k
    let from' := lo * w / 8
    let till := if hi = c.evl then ceil64 (ceil8 (hi * w)) else hi * w / 8
    giveBytes k 66 (q.pos / 64) (from' % 64) (till - from') x p

/-- Groups at a time: a 6-bit stream destination is produced by whole bytes and blocks (log entry 30). -/
def laneStep (c : LaneRun) (d : LaneReg) : Nat := match d with | .stream _ => (if c.w = 6 then 3 else 1) | .vec _ => 1

/-- The groups whose first bit lies in elements `lo` to `hi - 1` and of which every element satisfies `p`. -/
def coveredGroups (p : Nat → Bool) (w lo hi : Nat) : Nat :=
  ((List.range 64).map fun g =>
    let first := 512 * g / w
    let last := min ((512 * g + 511) / w) (vlmax w 0 - 1)
    if lo * w ≤ 512 * g ∧ 512 * g < hi * w ∧ (List.range (last + 1 - first)).all (fun i => p (first + i))
    then 2 ^ g else 0).sum
/-- The groups of a destination whose first bit an operation on elements `lo` to `hi - 1` writes, and which the whole
instruction writes in full: their old poison goes (R93). -/
def clearedGroups (c : LaneRun) (w lo hi : Nat) : Nat := coveredGroups c.written w lo hi

/-- The groups whose last element an operation on elements `lo` to `hi - 1` writes, and which the whole instruction writes. -/
def finishedGroups (c : LaneRun) (w lo hi : Nat) : Nat :=
  ((List.range 64).map fun g =>
    let first := 512 * g / w
    let last := min ((512 * g + 511) / w) (vlmax w 0 - 1)
    if lo ≤ last ∧ last < hi ∧ (List.range (last + 1 - first)).all (fun i => c.written (first + i)) then 2 ^ g else 0).sum
/-- Elements `lo` to `hi - 1` of a destination are written, `f` with them: the groups they poison, and those now written whole,
whose older poison goes (R93). -/
def writeGroups (c : LaneRun) (d : LaneReg) (w lo hi : Nat) (f : Firing) (pois : Nat) : M Unit := do
  modCur fun e => { e with pois := e.pois ||| BitVec.ofNat 64 pois }
  let set := (← getCur).pois.toNat &&& groupMask (lo * w) (hi * w)
  modF fun _ => match d with
    | .vec v => f.setPoison v (finishedGroups c w lo hi) set
    | .stream _ => f

/-- The effect of one element: its index, the operands, the destination's old value, and the firing (flags, draws). -/
abbrev ElemOp := Nat → Nat → Nat → Nat → Firing → Nat × Firing

/-- What a group has produced: the firing, the bits for a stream, the poisoned groups of the destination, the poisoned
blocks of the stream. -/
structure GroupAcc where
  f : Firing
  out : Nat := 0
  pois : Nat := 0
  outPois : Nat := 0

/-- One element of an element-wise instruction (R183): destination of width `w`, sources `A` of width `wa` and `B`. An element of
6 bits that lies in two groups is poisoned by either and poisons both: DESIGN CHOICE, log entry 141. -/
def elemStep (c : LaneRun) (d : LaneReg) (w wa lo : Nat) (usesD : Bool) (A B : Src) (op : ElemOp) (g : GroupAcc)
    (e : Nat) : GroupAcc :=
  let f := g.f
  let old := match d with | .vec v => f.v[v].elem w e | .stream _ => 0
  if c.isPad e then
    match d with
    | .vec v => { g with f := f.setElem v w e 0 }
    | .stream _ => g
  else if c.active e then
    let p := A.poisoned f wa e || B.poisoned f w e
      || (usesD && (match d with | .vec v => f.v[v].elemPoison w e | .stream _ => false))
    let (y, f') := op e (A.value f wa e) (B.value f w e) old f
    let y := y % 2 ^ w
    match d with
    | .vec v => { g with f := f'.setElem v w e y, pois := if p then g.pois ||| groupMask (e * w) (e * w + w) else g.pois }
    | .stream _ =>
      let o := lo * w / 512 * 512
      { g with f := f', out := g.out + y * 2 ^ ((e - lo) * w),
               outPois := if p then g.outPois ||| groupMask (e * w - o) (e * w + w - o) else g.outPois }
  else g

/-- One group of an element-wise instruction. -/
def elemGroup (c : LaneRun) (d a : LaneReg) (B : Src) (w wa : Nat) (usesD : Bool) (ahead : Nat) (op : ElemOp)
    (lo hi : Nat) : M Unit := do
  let A ← laneA a wa lo (max hi (min c.evl ahead))
  laneRoom d w lo hi
  let f ← getF
  let g := ((List.range (hi - lo)).map (lo + ·)).foldl (elemStep c d w wa lo usesD A B op) { f := f }
  writeGroups c d w lo hi g.f g.pois
  giveGroup c d w lo hi g.out g.outPois
  takeBlocks c a wa lo hi

/-- The stream operands of an instruction, at its start (R294), one of length zero included. -/
def checkStreams (d a : LaneReg) : M Unit := do
  checkStream false a
  checkStream true d

/-- What an instruction of layout FL-A does before its first group (R181, R182): registers resident, first blocks at hand,
count taken. -/
def laneStart (c : LaneRun) (d a : LaneReg) (w wa : Nat) (dests sources : List (Fin 64)) : M Unit := do
  useVecs dests sources
  if !(← getCur).started then
    let hi := min c.evl (groupLo c.w 1)
    match a with
    | .vec _ => pure ()
    | .stream _ => let _ ← laneA a wa 0 (min hi ((511 + wa) / wa))
    laneRoom d w 0 (min hi ((511 + w) / w))
    markStarted c.count

/-- The first element whose group an instruction runs: with a stream, from element 0 (R182). -/
def laneFirst (c : LaneRun) (d a : LaneReg) : Nat :=
  match d, a with
  | .vec _, .vec _ => c.vstart
  | _, _ => 0

/-- An element-wise instruction (R183); answers the groups completed. -/
def elementwise (d a : LaneReg) (b : LaneB) (m : Fin 8) (w : Nat) (usesD : Bool) (op : ElemOp) : M Nat := do
  let c ← laneRun w m
  checkStreams d a
  if c.empty then
    takeVstart
    return 0
  laneStart c d a w w (regVecs d) (regVecs a ++ bVecs b)
  let B ← laneB w b
  committing (laneGrows d w c.evl)
    (runGroups c (laneFirst c d a) (laneStep c d) fun _ lo hi => elemGroup c d a B w w usesD 0 op lo hi)
  takeVstart
  return c.covers

end Sys2Proof.Machine
end

