-- ==== Sys2Proof/Machine/LaneInt.lean ====
section
/-!
DEFINITION. Integer and logical lane instructions (R184).
-/

namespace Sys2Proof.Machine

/-- `wrap` (R184): the encoding of an exact integer modulo 2^w. -/
def wrapInt (f : Fmt) (i : Int) : Nat := encInt f i

/-- Table 7.2: the operation on two encodings. -/
inductive IntOp | add | sub | mul | mulh | min | max | and | or | xor | shl | shr | sra
  deriving DecidableEq, Repr

def intOp (o : IntOp) (f : Fmt) (a b : Nat) : Nat :=
  let w := f.width
  let x := intValue f a
  let y := intValue f b
  match o with
  | .add => wrapInt f (x + y)
  | .sub => wrapInt f (x - y)
  | .mul => wrapInt f (x * y)
  | .mulh => wrapInt f (x * y / 2 ^ w)
  | .min => if x ≤ y then a else b
  | .max => if x ≤ y then b else a
  | .and => a &&& b
  | .or => a ||| b
  | .xor => a ^^^ b
  | .shl => if b < w then a * 2 ^ b % 2 ^ w else 0
  | .shr => if b < w then a / 2 ^ b else 0
  | .sra => wrapInt f (sext w a / 2 ^ min b w)

def intElem (o : IntOp) (fmt : Fmt) : ElemOp := fun _ a b _ f => (intOp o fmt a b, f)

/-- `vadd` (R184, Table 7.2). -/
def execVadd (st : Fin 16) (d a : LaneReg) (b : LaneB) (m : Fin 8) (fmt : Fmt) (s : State) :
    Host.Outcome State Fault Refusal :=
  runEngine (.vadd st d a b m fmt) st 1 (laneScalars b) (elementwise d a b m fmt.width false (intElem .add fmt)) s

/-- `vsub` (R184, Table 7.2). -/
def execVsub (st : Fin 16) (d a : LaneReg) (b : LaneB) (m : Fin 8) (fmt : Fmt) (s : State) :
    Host.Outcome State Fault Refusal :=
  runEngine (.vsub st d a b m fmt) st 1 (laneScalars b) (elementwise d a b m fmt.width false (intElem .sub fmt)) s

/-- `vmul` (R184, Table 7.2). -/
def execVmul (st : Fin 16) (d a : LaneReg) (b : LaneB) (m : Fin 8) (fmt : Fmt) (s : State) :
    Host.Outcome State Fault Refusal :=
  runEngine (.vmul st d a b m fmt) st 1 (laneScalars b) (elementwise d a b m fmt.width false (intElem .mul fmt)) s

/-- `vmulh` (R184, Table 7.2). -/
def execVmulh (st : Fin 16) (d a : LaneReg) (b : LaneB) (m : Fin 8) (fmt : Fmt) (s : State) :
    Host.Outcome State Fault Refusal :=
  runEngine (.vmulh st d a b m fmt) st 1 (laneScalars b) (elementwise d a b m fmt.width false (intElem .mulh fmt)) s

/-- `vmin` (R184, Table 7.2). -/
def execVmin (st : Fin 16) (d a : LaneReg) (b : LaneB) (m : Fin 8) (fmt : Fmt) (s : State) :
    Host.Outcome State Fault Refusal :=
  runEngine (.vmin st d a b m fmt) st 1 (laneScalars b) (elementwise d a b m fmt.width false (intElem .min fmt)) s

/-- `vmax` (R184, Table 7.2). -/
def execVmax (st : Fin 16) (d a : LaneReg) (b : LaneB) (m : Fin 8) (fmt : Fmt) (s : State) :
    Host.Outcome State Fault Refusal :=
  runEngine (.vmax st d a b m fmt) st 1 (laneScalars b) (elementwise d a b m fmt.width false (intElem .max fmt)) s

/-- `vand` (R184, Table 7.2). -/
def execVand (st : Fin 16) (d a : LaneReg) (b : LaneB) (m : Fin 8) (fmt : Fmt) (s : State) :
    Host.Outcome State Fault Refusal :=
  runEngine (.vand st d a b m fmt) st 1 (laneScalars b) (elementwise d a b m fmt.width false (intElem .and fmt)) s

/-- `vor` (R184, Table 7.2). -/
def execVor (st : Fin 16) (d a : LaneReg) (b : LaneB) (m : Fin 8) (fmt : Fmt) (s : State) :
    Host.Outcome State Fault Refusal :=
  runEngine (.vor st d a b m fmt) st 1 (laneScalars b) (elementwise d a b m fmt.width false (intElem .or fmt)) s

/-- `vxor` (R184, Table 7.2). -/
def execVxor (st : Fin 16) (d a : LaneReg) (b : LaneB) (m : Fin 8) (fmt : Fmt) (s : State) :
    Host.Outcome State Fault Refusal :=
  runEngine (.vxor st d a b m fmt) st 1 (laneScalars b) (elementwise d a b m fmt.width false (intElem .xor fmt)) s

/-- `vshl` (R184, Table 7.2). -/
def execVshl (st : Fin 16) (d a : LaneReg) (b : LaneB) (m : Fin 8) (fmt : Fmt) (s : State) :
    Host.Outcome State Fault Refusal :=
  runEngine (.vshl st d a b m fmt) st 1 (laneScalars b) (elementwise d a b m fmt.width false (intElem .shl fmt)) s

/-- `vshr` (R184, Table 7.2). -/
def execVshr (st : Fin 16) (d a : LaneReg) (b : LaneB) (m : Fin 8) (fmt : Fmt) (s : State) :
    Host.Outcome State Fault Refusal :=
  runEngine (.vshr st d a b m fmt) st 1 (laneScalars b) (elementwise d a b m fmt.width false (intElem .shr fmt)) s

/-- `vsra` (R184, Table 7.2). -/
def execVsra (st : Fin 16) (d a : LaneReg) (b : LaneB) (m : Fin 8) (fmt : Fmt) (s : State) :
    Host.Outcome State Fault Refusal :=
  runEngine (.vsra st d a b m fmt) st 1 (laneScalars b) (elementwise d a b m fmt.width false (intElem .sra fmt)) s

end Sys2Proof.Machine
end

