-- ==== Sys2Proof/Machine/LaneFp.lean ====
section
/-!
DEFINITION. Floating-point lane instructions (R185), scaling (R187) and conversion (R186, R171).
-/

namespace Sys2Proof.Machine

/-- Deliver an exact result (R166, R185): its flags and those of the rounding. -/
def deliverFp (fmt : Fmt) (r : Ex × Flags) (f : Firing) : Nat × Firing :=
  let (y, fl) := cvt r.1 fmt f.round
  (y, f.raise (r.2 ||| fl))

/-- The smaller (`lt`) or larger of two values, as encodings: -0 is below +0, one NaN gives the other (R185). -/
def minMaxFp (fmt : Fmt) (smaller : Bool) (a b : Nat) : Nat :=
  let x := valueOf fmt a
  let y := valueOf fmt b
  if x.isNan then (if y.isNan then fmt.nan?.getD 0 else b)
  else if y.isNan then a
  else
    let c := cmpEx x y
    let aLow := if c = 0 then x.sign else decide (c < 0)
    if aLow = smaller then a else b

/-- Table 7.3. -/
inductive FpOp | add | sub | mul | fma | fnma | div | sqrt | min | max | rcp | exp2
  deriving DecidableEq, Repr

def fpElem (o : FpOp) (fmt : Fmt) : ElemOp := fun _ a b d f =>
  let x := valueOf fmt a
  let y := valueOf fmt b
  let z := valueOf fmt d
  match o with
  | .add => deliverFp fmt (addEx f.round x y) f
  | .sub => deliverFp fmt (addEx f.round x y.neg) f
  | .mul => deliverFp fmt (mulEx x y) f
  | .fma => deliverFp fmt (fmaEx f.round z x y) f
  | .fnma => deliverFp fmt (fmaEx f.round z x.neg y) f
  | .div => deliverFp fmt (divEx x y) f
  | .sqrt => deliverFp fmt (sqrtEx x) f
  | .min => (minMaxFp fmt true a b, f)
  | .max => (minMaxFp fmt false a b, f)
  | .rcp => deliverFp fmt (rcpEx x) f
  | .exp2 => deliverFp fmt (exp2Ex x) f

/-- `vscale` (R187): a × 2^k; infinities and zeros unchanged. A `k` past ±5,000 takes every other value past every
format's range, as ±5,000 does. -/
def scaleElem (fmt : Fmt) : ElemOp := fun _ a b _ f =>
  let x := valueOf fmt a
  if x.isInf || x.isZero then (a, f) else deliverFp fmt (scaleEx (max (-5000) (min 5000 (sext fmt.width b))) x, 0) f

/-- `vfadd` (R185, Table 7.3). -/
def execVfadd (st : Fin 16) (d a : LaneReg) (b : LaneB) (m : Fin 8) (fmt : Fmt) (s : State) :
    Host.Outcome State Fault Refusal :=
  runEngine (.vfadd st d a b m fmt) st 1 (laneScalars b) (elementwise d a b m fmt.width false (fpElem .add fmt)) s

/-- `vfsub` (R185, Table 7.3). -/
def execVfsub (st : Fin 16) (d a : LaneReg) (b : LaneB) (m : Fin 8) (fmt : Fmt) (s : State) :
    Host.Outcome State Fault Refusal :=
  runEngine (.vfsub st d a b m fmt) st 1 (laneScalars b) (elementwise d a b m fmt.width false (fpElem .sub fmt)) s

/-- `vfmul` (R185, Table 7.3). -/
def execVfmul (st : Fin 16) (d a : LaneReg) (b : LaneB) (m : Fin 8) (fmt : Fmt) (s : State) :
    Host.Outcome State Fault Refusal :=
  runEngine (.vfmul st d a b m fmt) st 1 (laneScalars b) (elementwise d a b m fmt.width false (fpElem .mul fmt)) s

/-- `vfma` (R185, Table 7.3). -/
def execVfma (st : Fin 16) (d a : LaneReg) (b : LaneB) (m : Fin 8) (fmt : Fmt) (s : State) :
    Host.Outcome State Fault Refusal :=
  runEngine (.vfma st d a b m fmt) st 1 (laneScalars b) (elementwise d a b m fmt.width true (fpElem .fma fmt)) s

/-- `vfnma` (R185, Table 7.3). -/
def execVfnma (st : Fin 16) (d a : LaneReg) (b : LaneB) (m : Fin 8) (fmt : Fmt) (s : State) :
    Host.Outcome State Fault Refusal :=
  runEngine (.vfnma st d a b m fmt) st 1 (laneScalars b) (elementwise d a b m fmt.width true (fpElem .fnma fmt)) s

/-- `vfdiv` (R185, Table 7.3). -/
def execVfdiv (st : Fin 16) (d a : LaneReg) (b : LaneB) (m : Fin 8) (fmt : Fmt) (s : State) :
    Host.Outcome State Fault Refusal :=
  runEngine (.vfdiv st d a b m fmt) st 1 (laneScalars b) (elementwise d a b m fmt.width false (fpElem .div fmt)) s

/-- `vfsqrt` (R185, Table 7.3). -/
def execVfsqrt (st : Fin 16) (d a : LaneReg) (m : Fin 8) (fmt : Fmt) (s : State) :
    Host.Outcome State Fault Refusal :=
  runEngine (.vfsqrt st d a m fmt) st 1 [] (elementwise d a (.imm 0) m fmt.width false (fpElem .sqrt fmt)) s

/-- `vfmin` (R185, Table 7.3). -/
def execVfmin (st : Fin 16) (d a : LaneReg) (b : LaneB) (m : Fin 8) (fmt : Fmt) (s : State) :
    Host.Outcome State Fault Refusal :=
  runEngine (.vfmin st d a b m fmt) st 1 (laneScalars b) (elementwise d a b m fmt.width false (fpElem .min fmt)) s

/-- `vfmax` (R185, Table 7.3). -/
def execVfmax (st : Fin 16) (d a : LaneReg) (b : LaneB) (m : Fin 8) (fmt : Fmt) (s : State) :
    Host.Outcome State Fault Refusal :=
  runEngine (.vfmax st d a b m fmt) st 1 (laneScalars b) (elementwise d a b m fmt.width false (fpElem .max fmt)) s

/-- `vfrcp` (R185, Table 7.3). -/
def execVfrcp (st : Fin 16) (d a : LaneReg) (m : Fin 8) (fmt : Fmt) (s : State) :
    Host.Outcome State Fault Refusal :=
  runEngine (.vfrcp st d a m fmt) st 1 [] (elementwise d a (.imm 0) m fmt.width false (fpElem .rcp fmt)) s

/-- `vfexp2` (R185, Table 7.3). -/
def execVfexp2 (st : Fin 16) (d a : LaneReg) (m : Fin 8) (fmt : Fmt) (s : State) :
    Host.Outcome State Fault Refusal :=
  runEngine (.vfexp2 st d a m fmt) st 1 [] (elementwise d a (.imm 0) m fmt.width false (fpElem .exp2 fmt)) s

/-- `vscale` (R187). -/
def execVscale (st : Fin 16) (d a : LaneReg) (b : LaneB) (m : Fin 8) (fmt : Fmt) (s : State) :
    Host.Outcome State Fault Refusal :=
  runEngine (.vscale st d a b m fmt) st 1 (laneScalars b) (elementwise d a b m fmt.width false (scaleElem fmt)) s

/-! Conversion. -/

/-- `vcvt`, plain form, of one element (R186): `tern` 0b10 raises NV, a narrowing conversion draws (R168). -/
def cvtElem (src fmt : Fmt) : ElemOp := fun _ a _ _ f =>
  let (rm, f) := f.roundCvt (narrows src fmt)
  let (y, fl) := cvt (valueOf src a) fmt rm
  (y, f.raise (readFlags src a ||| fl))

/-- Is |x| above |y|, both finite? -/
def magAbove (x y : Ex) : Bool :=
  let pos := fun z : Ex => if z.sign then z.neg else z
  cmpEx (pos x) (pos y) == 1

/-- The value with the largest magnitude. -/
def maxMag : List Ex → Ex
  | [] => Ex.zero false
  | x :: r => let y := maxMag r; if magAbove x y then x else y

/-- ⌊log₂ |x|⌋ of a finite value other than zero. -/
def exLog2 : Ex → Int
  | .num _ n d e _ => log2Ratio n d + e
  | _ => 0

/-- `block_scale` (R171). -/
def blockScale (fmt : Fmt) (l : List Ex) : Nat × Flags :=
  if l.any (fun x => x.isNan || x.isInf) then (0xFF, fNV)
  else
    let a := maxMag l
    if a.isZero then (0, 0)
    else
      let emax := exLog2 (valueOf fmt fmt.maxEnc)
      ((max 0 (min 254 (exLog2 a - emax + 127))).toNat, 0)

/-- An element of a block, converted with its scale (R171, R186): no infinity, no OF. -/
def toBlockElem (src fmt : Fmt) (scale a : Nat) (f : Firing) : Nat × Firing :=
  let (rm, f) := f.roundCvt (narrows src fmt)
  if scale = 0xFF then (fmt.nan?.getD 0, f)
  else
    let x := scaleEx (127 - (scale : Int)) (valueOf src a)
    let (y, fl) := cvt x fmt rm
    if fl &&& fOF != 0 then (signed fmt x.sign fmt.maxEnc, f.raise ((fl &&& ~~~fOF) ||| fNX)) else (y, f.raise fl)

/-- An element of a block-scaled source (R170, R186). -/
def fromBlockElem (src fmt : Fmt) (scale a : Nat) (f : Firing) : Nat × Firing :=
  let (rm, f) := f.roundCvt (narrows src fmt)
  let x := if scale = 0xFF then Ex.nan else scaleEx ((scale : Int) - 127) (valueOf src a)
  let (y, fl) := cvt x fmt rm
  (y, f.raise fl)

/-- The scale of the block that begins at element `e` (R186): over its real elements, written whatever the mask. -/
def putScale (c : LaneRun) (src fmt : Fmt) (b : Nat) (vc : Fin 64) (A : Src) (e : Nat) (f : Firing) : Firing :=
  let real := ((List.range b).map (e + ·)).filter c.active
  let (s, fl) := blockScale fmt (real.map fun i => valueOf src (A.value f src.width i))
  let p := real.any fun i => A.poisoned f src.width i
  let f := (f.setElem vc 8 (e / b) s).raise fl
  let g := e / b / 64
  let whole := decide (64 * (g + 1) ≤ c.tail / b) && e / b % 64 == 0
  f.setPoison vc (if whole then 2 ^ g else 0) (if p then 2 ^ g else 0)

/-- The groups of the destination that take the poison of the blocks beginning in elements `lo` to `hi - 1`: a block's scale comes
from all its real elements. -/
def blockPois (c : LaneRun) (src fmt : Fmt) (b : Nat) (A : Src) (f : Firing) (lo hi : Nat) : Nat :=
  ((List.range (hi - lo)).map (lo + ·)).foldl (fun p e =>
    if e % b == 0 && decide (e < c.tail) then
      let real := ((List.range b).map (e + ·)).filter c.active
      if real.any fun i => A.poisoned f src.width i then
        real.foldl (fun p i => p ||| groupMask (i * fmt.width) (i * fmt.width + fmt.width)) p
      else p
    else p) 0

/-- One group of the block form (R186): towards a block format each block's scale comes before its first element. An element takes
the poison of its scale, and so of every element that set it: DESIGN CHOICE, log entry 131. -/
def blockGroup (c : LaneRun) (d a : LaneReg) (src fmt : Fmt) (b : Nat) (vc : Fin 64) (toBlock : Bool) (lo hi : Nat) :
    M Unit := do
  let A ← laneA a src.width lo (if toBlock then min c.evl (max hi ((hi + b - 1) / b * b)) else hi)
  laneRoom d fmt.width lo hi
  let f ← getF
  let step := fun (g : GroupAcc) (e : Nat) =>
    let g := if toBlock && e % b == 0 && decide (e < c.tail) then { g with f := putScale c src fmt b vc A e g.f } else g
    elemStep c d fmt.width src.width lo false A (.one 0)
      (fun e x _ _ f =>
        let s := f.v[vc].elem 8 (e / b)
        if toBlock then toBlockElem src fmt s x f else fromBlockElem src fmt s x f) g e
  if toBlock then modCur fun e => { e with pois := e.pois ||| BitVec.ofNat 64 (blockPois c src fmt b A f lo hi) }
  let kept := (← getCur).pois
  let scalePois := fun e => c.active e &&
    (if toBlock then kept.getLsbD (e * fmt.width / 512) || kept.getLsbD ((e * fmt.width + fmt.width - 1) / 512)
     else f.v[vc].elemPoison 8 (e / b))
  let g := ((List.range (hi - lo)).map (lo + ·)).foldl (fun (g : GroupAcc) e =>
    let g := step g e
    let o := match d with | .vec _ => 0 | .stream _ => lo * fmt.width / 512 * 512
    let at' := groupMask (e * fmt.width - o) (e * fmt.width + fmt.width - o)
    if scalePois e then { g with pois := g.pois ||| at', outPois := g.outPois ||| at' } else g) { f := f }
  writeGroups c d fmt.width lo hi g.f g.pois
  giveGroup c d fmt.width lo hi g.out g.outPois
  takeBlocks c a src.width lo hi

/-- `vcvt` (R186). The block length is the one of its start (R161); a reissued instruction rounds as `VTYPE.RM` then says:
DESIGN CHOICE, log entry 121. -/
def vcvtRun (d a : LaneReg) (src : Fmt) (blk : Option (Fin 64)) (m : Fin 8) (fmt : Fmt) : M Nat := do
  let c ← laneRun (max src.width fmt.width) m
  checkStreams d a
  match blk with
  | none =>
    if c.empty then
      takeVstart
      return 0
    laneStart c d a fmt.width src.width (regVecs d) (regVecs a)
    committing (laneGrows d fmt.width c.evl) (runGroups c (laneFirst c d a) (laneStep c d) fun _ lo hi =>
      elemGroup c d a (.one 0) fmt.width src.width false 0 (cvtElem src fmt) lo hi)
    takeVstart
    return c.covers
  | some vc =>
    let f ← getF
    let e ← getCur
    let b := blockLen (if e.started then e.blk else f.vblk)
    if b = 0 then stopWith (.trap { cause := cILLFMT, eKind := true, engine := 1 })
    let toBlock := blockFmt fmt
    let n := c.evl / b * b
    let c := { c with padFrom := min c.padFrom n, tail := n }
    if c.empty then
      takeVstart
      return 0
    laneStart c d a fmt.width src.width (regVecs d ++ (if toBlock then [vc] else []))
      (regVecs a ++ (if toBlock then [] else [vc]))
    committing (laneGrows d fmt.width c.evl ++ if toBlock then [(vc, n / b)] else [])
      (runGroups c 0 (laneStep c d) fun _ lo hi => blockGroup c d a src fmt b vc toBlock lo hi)
    takeVstart
    return c.covers

/-- `vcvt` (R186). -/
def execVcvt (st : Fin 16) (d a : LaneReg) (src : Fmt) (blk : Option (Fin 64)) (m : Fin 8) (fmt : Fmt) (s : State) :
    Host.Outcome State Fault Refusal :=
  runEngine (.vcvt st d a src blk m fmt) st 1 [] (vcvtRun d a src blk m fmt) s

end Sys2Proof.Machine
end

