-- ==== Sys2Proof/Machine/LaneMask.lean ====
section
/-!
DEFINITION. Compares and merge (R188, R189), and the mask instructions (R190).
-/

namespace Sys2Proof.Machine

/-- Elements `lo` to `hi - 1`. -/
def span (lo hi : Nat) : List Nat := (List.range (hi - lo)).map (lo + ·)

/-- A condition on two elements: whether it holds, and its flags. -/
abbrev CmpOp := Nat → Nat → Bool × Flags

/-- One group of a compare (R188): a poisoned active element stops it with the bits below it written. -/
def cmpGroup (c : LaneRun) (d : Fin 8) (a : LaneReg) (B : Src) (w : Nat) (op : CmpOp) (lo hi : Nat) : M Unit := do
  let A ← laneA a w lo hi
  let f ← getF
  let bad := (span lo hi).find? fun e => c.active e && (A.poisoned f w e || B.poisoned f w e)
  modF fun f => (span lo (bad.getD hi)).foldl (fun (f : Firing) e =>
    if c.isPad e then f.setMaskBit d e false
    else if c.active e then
      let (b, fl) := op (A.value f w e) (B.value f w e)
      (f.setMaskBit d e b).raise fl
    else f) f
  match bad with
  | some e => laneTrap cPOISON e
  | none => takeBlocks c a w lo hi

def compareRun (d : Fin 8) (a : LaneReg) (b : LaneB) (m : Fin 8) (w : Nat) (op : CmpOp) : M Nat := do
  let c ← laneRun w m
  checkStreams (.vec 0) a
  if c.empty then
    takeVstart
    return 0
  laneStart c (.vec 0) a w w [] (regVecs a ++ bVecs b)
  let B ← laneB w b
  runGroups c (laneFirst c (.vec 0) a) 1 fun _ lo hi => cmpGroup c d a B w op lo hi
  takeVstart
  return c.covers

/-- `vcmp` conditions (R188): signed, or unsigned with the `n` suffix, whatever the format. -/
def intCond (k : IntCond) (f : Fmt) (a b : Nat) : Bool :=
  let x := sext f.width a
  let y := sext f.width b
  match k with
  | .eq => a == b
  | .ne => a != b
  | .lt => decide (x < y)
  | .le => decide (x ≤ y)
  | .gt => decide (y < x)
  | .ge => decide (y ≤ x)
  | .ltn => decide (a < b)
  | .len => decide (a ≤ b)
  | .gtn => decide (b < a)
  | .gen => decide (b ≤ a)

/-- `vfcmp` conditions (R188): a NaN makes all but `ne` and `un` false, and raises NV in an ordering. -/
def fpCond (k : FpCond) (f : Fmt) (a b : Nat) : Bool × Flags :=
  let x := valueOf f a
  let y := valueOf f b
  if x.isNan || y.isNan then
    match k with
    | .ne | .un => (true, 0)
    | .eq | .ord => (false, 0)
    | .lt | .le | .gt | .ge => (false, fNV)
  else
    let c := cmpEx x y
    match k with
    | .eq => (c == 0, 0)
    | .ne => (c != 0, 0)
    | .lt => (decide (c < 0), 0)
    | .le => (decide (c ≤ 0), 0)
    | .gt => (decide (0 < c), 0)
    | .ge => (decide (0 ≤ c), 0)
    | .un => (false, 0)
    | .ord => (true, 0)

/-- `vcmp` (R188). -/
def execVcmp (st : Fin 16) (cond : IntCond) (d : Fin 8) (a : LaneReg) (b : LaneB) (m : Fin 8) (fmt : Fmt) (s : State) :
    Host.Outcome State Fault Refusal :=
  runEngine (.vcmp st cond d a b m fmt) st 1 (laneScalars b)
    (compareRun d a b m fmt.width fun x y => (intCond cond fmt x y, 0)) s

/-- `vfcmp` (R188). -/
def execVfcmp (st : Fin 16) (cond : FpCond) (d : Fin 8) (a : LaneReg) (b : LaneB) (m : Fin 8) (fmt : Fmt) (s : State) :
    Host.Outcome State Fault Refusal :=
  runEngine (.vfcmp st cond d a b m fmt) st 1 (laneScalars b) (compareRun d a b m fmt.width (fpCond cond fmt)) s

/-- One group of `vmerge` (R189). -/
def mergeGroup (c : LaneRun) (sel : BitVec 16384) (d a : LaneReg) (B : Src) (w lo hi : Nat) : M Unit := do
  let A ← laneA a w lo hi
  laneRoom d w lo hi
  let f ← getF
  let g := (span lo hi).foldl (fun g e =>
    elemStep c d w w lo false (if sel.getLsbD e then B else A) (.one 0) (fun _ x _ _ f => (x, f)) g e) { f := f }
  writeGroups c d w lo hi g.f g.pois
  giveGroup c d w lo hi g.out g.outPois
  takeBlocks c a w lo hi

/-- `vmerge` (R189): the mask selects, and disables nothing. -/
def execVmerge (st : Fin 16) (d a : LaneReg) (b : LaneB) (m : Fin 8) (fmt : Fmt) (s : State) :
    Host.Outcome State Fault Refusal :=
  runEngine (.vmerge st d a b m fmt) st 1 (laneScalars b) (do
    let c0 ← laneRun fmt.width m
    let c := { c0 with mask := BitVec.allOnes 16384 }
    checkStreams d a
    if c.empty then
      takeVstart
      return 0
    laneStart c d a fmt.width fmt.width (regVecs d) (regVecs a ++ bVecs b)
    let B ← laneB fmt.width b
    committing (laneGrows d fmt.width c.evl)
      (runGroups c (laneFirst c d a) (laneStep c d) fun _ lo hi => mergeGroup c c0.mask d a B fmt.width lo hi)
    takeVstart
    return c.covers) s

/-! Mask instructions (R190): no vector operand, groups of 512 bits. -/

/-- Bits `lo` to `hi - 1` of a mask. -/
def maskSpan (lo hi : Nat) : BitVec 16384 := BitVec.ofNat 16384 (if lo < hi then 2 ^ hi - 2 ^ lo else 0)

/-- A mask operation over its groups. -/
def maskRun (d a b : Fin 8) (op : BitVec 16384 → BitVec 16384 → BitVec 16384) : M Nat := do
  let c ← laneRun 0 0
  checkMask a
  checkMask b
  if c.empty then
    takeVstart
    return 0
  markStarted c.count
  runGroups c c.vstart 1 fun _ lo hi => modF fun f =>
    let keep := ~~~(maskSpan (max lo c.vstart) hi)
    let new := op (f.rm a) (f.rm b) &&& maskSpan (max lo c.vstart) (min hi c.padFrom)
    if d = 0 then f else { f with m := f.m.set d ((f.m[d] &&& keep) ||| new), badM := f.badM &&& ~~~(1#8 <<< d.val) }
  takeVstart
  return c.covers

/-- `mand` (R190). -/
def execMand (st : Fin 16) (d a b : Fin 8) (s : State) : Host.Outcome State Fault Refusal :=
  runEngine (.mand st d a b) st 1 [] (maskRun d a b (· &&& ·)) s
/-- `mor` (R190). -/
def execMor (st : Fin 16) (d a b : Fin 8) (s : State) : Host.Outcome State Fault Refusal :=
  runEngine (.mor st d a b) st 1 [] (maskRun d a b (· ||| ·)) s
/-- `mxor` (R190). -/
def execMxor (st : Fin 16) (d a b : Fin 8) (s : State) : Host.Outcome State Fault Refusal :=
  runEngine (.mxor st d a b) st 1 [] (maskRun d a b (· ^^^ ·)) s
/-- `mnot` (R190). -/
def execMnot (st : Fin 16) (d a : Fin 8) (s : State) : Host.Outcome State Fault Refusal :=
  runEngine (.mnot st d a) st 1 [] (maskRun d a 0 fun x _ => ~~~x) s

/-- Active elements whose bit of a mask is set. -/
def activeBits (c : LaneRun) (a : BitVec 16384) : Nat := (a &&& c.mask &&& maskSpan c.vstart c.padFrom).toNat

/-- The number of ones. -/
def onesOf : Nat → Nat → Nat
  | 0, _ => 0
  | k + 1, n => if n = 0 then 0 else n % 2 + onesOf k (n / 2)
/-- The place of the lowest one. -/
def lowestOne : Nat → Nat → Nat
  | 0, _ => 0
  | k + 1, n => if n % 2 = 1 then 0 else 1 + lowestOne k (n / 2)

/-- A mask instruction with a scalar result. -/
def maskToScalar (d : Fin 32) (a m : Fin 8) (res : Nat → Word) : M Nat := do
  let c ← laneRun 0 m
  checkMask a
  unit
  let f ← getF
  writeX d (res (activeBits c (f.rm a)))
  takeVstart
  return c.covers

/-- `mpop` (R190). -/
def execMpop (st : Fin 16) (d : Fin 32) (a m : Fin 8) (s : State) : Host.Outcome State Fault Refusal :=
  runEngine (.mpop st d a m) st 1 [] (maskToScalar d a m fun n => b64 (onesOf 16384 n)) s
/-- `mfirst` (R190): all ones when there is none. -/
def execMfirst (st : Fin 16) (d : Fin 32) (a m : Fin 8) (s : State) : Host.Outcome State Fault Refusal :=
  runEngine (.mfirst st d a m) st 1 []
    (maskToScalar d a m fun n => if n = 0 then BitVec.allOnes 64 else b64 (lowestOne 16384 n)) s
/-- `vmtx` (R190): it takes no element count. -/
def execVmtx (st : Fin 16) (d : Fin 32) (a : Fin 8) (k : BitVec 8) (s : State) : Host.Outcome State Fault Refusal :=
  runEngine (.vmtx st d a k) st 1 [] (do
    checkMask a
    unit
    writeX d (b64 (bits ((← getF).rm a).toNat (64 * k.toNat) 64))
    return 1) s

end Sys2Proof.Machine
end

