-- ==== Sys2Proof/Machine/LaneRed.lean ====
section
/-!
DEFINITION. Reductions (R191), scans (R192) and `viota` (R193).
-/

namespace Sys2Proof.Machine

/-- A combination with its flags. -/
abbrev Comb := Nat → Nat → Nat × Flags

/-- `pair` of R191: an absent leaf passes the other through. -/
def pairLeaf (comb : Comb) : Option Nat × Flags → Option Nat × Flags → Option Nat × Flags
  | (none, f), (q, g) => (q, f ||| g)
  | (p, f), (none, g) => (p, f ||| g)
  | (some p, f), (some q, g) => let (r, h) := comb p q; (some r, f ||| g ||| h)

/-- The tree over 2^k leaves from `base` on (R191). -/
def treeFrom (comb : Comb) (leaf : Nat → Option Nat × Flags) : Nat → Nat → Option Nat × Flags
  | 0, base => leaf base
  | k + 1, base => pairLeaf comb (treeFrom comb leaf k base) (treeFrom comb leaf k (base + 2 ^ k))

/-- `reduce` (R191): the tree of each group, the tree of the groups, and `init` last. -/
def reduceTree (comb : Comb) (levels : Nat) (leaf : Nat → Option Nat) (groups init : Nat) : Nat × Flags :=
  let group := fun g => if g < groups then treeFrom comb (fun e => (leaf e, 0)) levels (g * 2 ^ levels) else (none, 0)
  match treeFrom comb group 6 0 with
  | (none, fl) => (init, fl)
  | (some r, fl) => let (s, g) := comb init r; (s, fl ||| g)

/-- Combinations of the four reductions. -/
def sumInt (fmt : Fmt) : Comb := fun a b => (intOp .add fmt a b, 0)
def sumFp (fmt : Fmt) (rm : Round) : Comb := fun a b =>
  let (x, f) := addEx rm (valueOf fmt a) (valueOf fmt b)
  let (y, g) := cvt x fmt rm
  (y, f ||| g)
def extreme (fmt : Fmt) (smaller : Bool) : Comb := fun a b =>
  (if fpFmt fmt then minMaxFp fmt smaller a b else intOp (if smaller then .min else .max) fmt a b, 0)

/-- An element as a scalar register takes it (R191, R197). -/
def extendElem (fmt : Fmt) (x : Nat) : Word := if fmt.signed then wordOf (sext fmt.width x) else b64 x

/-- A reduction (R191). -/
def reduceRun (d : Fin 32) (a : Fin 64) (m : Fin 8) (fmt : Fmt) (comb : Firing → Comb) : M Nat := do
  let w := fmt.width
  let c ← laneRun w m
  unit
  useVecs [] [a]
  markStarted c.count
  let f ← getF
  let init := (← getCur).scal[2].toNat % 2 ^ w
  let v := f.v[a]
  match (span c.vstart c.padFrom).find? fun e => c.active e && v.elemPoison w e with
  | some e => laneTrap cPOISON e
  | none =>
    let leaf := fun e => if c.active e then some (v.elem w e) else none
    let (r, fl) :=
      if fpFmt fmt then reduceTree (comb f) (Nat.log2 (512 / w)) leaf c.groups init
      else (span c.vstart c.padFrom).foldl (fun (s, fl) e => match leaf e with
        | some x => let (y, g) := comb f s x; (y, fl ||| g)
        | none => (s, fl)) (init, (0 : Flags))
    modF fun f => f.raise fl
    writeX d (extendElem fmt r)
    takeVstart
    return c.covers

/-- `vredsum` (R191). -/
def execVredsum (st : Fin 16) (d : Fin 32) (a : Fin 64) (b : Fin 32) (m : Fin 8) (fmt : Fmt) (s : State) :
    Host.Outcome State Fault Refusal :=
  runEngine (.vredsum st d a b m fmt) st 1 [(2, b)] (reduceRun d a m fmt fun _ => sumInt fmt) s
/-- `vfredsum` (R191): by the fixed tree. -/
def execVfredsum (st : Fin 16) (d : Fin 32) (a : Fin 64) (b : Fin 32) (m : Fin 8) (fmt : Fmt) (s : State) :
    Host.Outcome State Fault Refusal :=
  runEngine (.vfredsum st d a b m fmt) st 1 [(2, b)] (reduceRun d a m fmt fun f => sumFp fmt f.round) s
/-- `vredmax` (R191). -/
def execVredmax (st : Fin 16) (d : Fin 32) (a : Fin 64) (b : Fin 32) (m : Fin 8) (fmt : Fmt) (s : State) :
    Host.Outcome State Fault Refusal :=
  runEngine (.vredmax st d a b m fmt) st 1 [(2, b)] (reduceRun d a m fmt fun _ => extreme fmt false) s
/-- `vredmin` (R191). -/
def execVredmin (st : Fin 16) (d : Fin 32) (a : Fin 64) (b : Fin 32) (m : Fin 8) (fmt : Fmt) (s : State) :
    Host.Outcome State Fault Refusal :=
  runEngine (.vredmin st d a b m fmt) st 1 [(2, b)] (reduceRun d a m fmt fun _ => extreme fmt true) s

/-- A destination written in one go from element 0 to evl (R153, R154): `step` gives each active element's value and
poison from what has been carried so far. -/
structure ScanAcc where
  f : Firing
  carry : Nat
  carryPois : Bool := false
  pois : Nat := 0

/-- One element of `vscan` (R192). -/
def scanStep (c : LaneRun) (d a : Fin 64) (fmt : Fmt) (exc : Bool) (comb : Comb) (g : ScanAcc) (e : Nat) : ScanAcc :=
  let w := fmt.width
  if c.isPad e then { g with f := g.f.setElem d w e 0 }
  else if c.active e then
    let p := g.carryPois || g.f.v[a].elemPoison w e
    let (s, fl) := comb g.carry (g.f.v[a].elem w e)
    let f := (g.f.setElem d w e (if exc then g.carry else s)).raise fl
    { f := f, carry := s, carryPois := p,
      pois := if (if exc then g.carryPois else p) then g.pois ||| groupMask (e * w) (e * w + w) else g.pois }
  else g

/-- `vscan` (R192). -/
def execVscan (st : Fin 16) (d a : Fin 64) (b : Fin 32) (m : Fin 8) (exc : Bool) (fmt : Fmt) (s : State) :
    Host.Outcome State Fault Refusal :=
  runEngine (.vscan st d a b m exc fmt) st 1 [(2, b)] (do
    let w := fmt.width
    let c ← laneRun w m
    if c.empty then
      takeVstart
      return 0
    unit
    useVecs [d] [a]
    markStarted c.count
    let init := (← getCur).scal[2].toNat % 2 ^ w
    modF fun f =>
      let comb := if fpFmt fmt then sumFp fmt f.round else sumInt fmt
      let g := (span c.vstart c.evl).foldl (scanStep c d a fmt exc comb) { f := f.grow d w c.evl, carry := init }
      g.f.setPoison d (clearedGroups c w 0 c.evl) g.pois
    takeVstart
    return c.covers) s

/-- `viota` (R193): the index, or the number of active set bits below it. -/
def execViota (st : Fin 16) (d : Fin 64) (a m : Fin 8) (cnt : Bool) (fmt : Fmt) (s : State) :
    Host.Outcome State Fault Refusal :=
  runEngine (.viota st d a m cnt fmt) st 1 [] (do
    let w := fmt.width
    let c ← laneRun w m
    if cnt then checkMask a
    if c.empty then
      takeVstart
      return 0
    unit
    useVecs [d] []
    markStarted c.count
    modF fun f =>
      let ma := f.rm a
      let g := (span c.vstart c.evl).foldl (fun (g : ScanAcc) e =>
        if c.isPad e then { g with f := g.f.setElem d w e 0 }
        else if c.active e then
          { g with f := g.f.setElem d w e (if cnt then g.carry else e), carry := g.carry + (ma.getLsbD e).toNat }
        else g) { f := f.grow d w c.evl, carry := 0 }
      g.f.setPoison d (clearedGroups c w 0 c.evl) 0
    takeVstart
    return c.covers) s

end Sys2Proof.Machine
end

