-- ==== Sys2Proof/Machine/LaneMove.lean ====
section
/-!
DEFINITION. Moves of elements (R194 to R198) and stochastic pruning (R201).
-/

namespace Sys2Proof.Machine

/-- What a move gives an active element: a register's element, one value with its poison, zero, or BOUND. -/
inductive Pickd
  | elem (v : Fin 64) (e : Nat)
  | one (x : Nat)
  | zero
  | bound
  deriving DecidableEq, Repr

/-- One element of a move; the groups it poisons. -/
def moveStep (c : LaneRun) (d : Fin 64) (w : Nat) (pick : Firing → Nat → Pickd × Bool) (g : ScanAcc) (e : Nat) : ScanAcc :=
  if c.isPad e then { g with f := g.f.setElem d w e 0 }
  else if c.active e then
    let (k, p0) := pick g.f e
    let (x, p) := match k with
      | .elem v i => (g.f.v[v].elem w i, p0 || g.f.v[v].elemPoison w i)
      | .one x => (x, p0)
      | .zero | .bound => (0, p0)
    { g with f := g.f.setElem d w e x, pois := if p then g.pois ||| groupMask (e * w) (e * w + w) else g.pois }
  else g

/-- One group of a move; BOUND stops it with the elements below complete. The register grows with them, as it does for completed
groups: DEDUCED, log entry 115. -/
def moveGroup (c : LaneRun) (d : Fin 64) (w : Nat) (pick : Firing → Nat → Pickd × Bool) (lo hi : Nat) : M Unit := do
  let f ← getF
  let bad := (span lo hi).find? fun e => c.active e && (pick f e).1 == .bound
  let g := (span lo (bad.getD hi)).foldl (moveStep c d w pick) { f := f, carry := 0 }
  writeGroups c (.vec d) w lo (bad.getD hi) g.f g.pois
  match bad with
  | some e =>
    if (span lo e).any c.written then growAll (← getCur).grow
    boundTrap 1 e
  | none => return ()

/-- A move with widest width `wide` (R158). -/
def moveRun (d : Fin 64) (sources : List (Fin 64)) (m : Fin 8) (w wide : Nat) (first : M Unit)
    (pick : LaneRun → Vector Word 4 → Firing → Nat → Pickd × Bool) : M Nat := do
  let c ← laneRun wide m
  if c.empty then
    takeVstart
    return 0
  useVecs [d] sources
  first
  markStarted c.count
  let sc := (← getCur).scal
  committing [(d, ceil8 (c.evl * w))] (runGroups c c.vstart 1 fun _ lo hi => moveGroup c d w (pick c sc) lo hi)
  takeVstart
  return c.covers

/-- `vslide` (R194). -/
def execVslide (st : Fin 16) (d a : Fin 64) (b : Fin 32) (m : Fin 8) (up : Bool) (fmt : Fmt) (s : State) :
    Host.Outcome State Fault Refusal :=
  runEngine (.vslide st d a b m up fmt) st 1 [(2, b)] (moveRun d [a] m fmt.width fmt.width (return ())
    fun c sc _ e =>
      let n := sc[2].toNat
      if up then (if n ≤ e then (.elem a (e - n), false) else (.zero, false))
      else (if e + n < c.evl then (.elem a (e + n), false) else (.zero, false))) s

/-- The registers of a group. -/
def groupRegs (a : Fin 64) (n : Nat) : List (Fin 64) := (List.range n).map fun i => Fin.ofNat 64 (a.val + i)

/-- `vgrp` (R195): indices of 16 or 32 bits, out of range zero or BOUND. -/
def execVgrp (st : Fin 16) (d a b : Fin 64) (m n : Fin 8) (x32 bnd : Bool) (fmt : Fmt) (s : State) :
    Host.Outcome State Fault Refusal :=
  runEngine (.vgrp st d a b m n x32 bnd fmt) st 1 []
    (let iw := if x32 then 32 else 16
     let bound := vlmax fmt.width 0
     let full := (n.val + 1) * bound
     let lim := if x32 then full else min full 0xFFFF
     moveRun d (b :: groupRegs a (n.val + 1)) m fmt.width (max fmt.width iw) (return ()) fun _ _ f e =>
      let j := f.v[b].elem iw e
      let p := f.v[b].elemPoison iw e
      if j < lim then (.elem (Fin.ofNat 64 (a.val + j / bound)) (j % bound), p)
      else if bnd then (.bound, p) else (.zero, p)) s

/-- `vbcast` (R196): a scalar, or one element of a register. -/
def execVbcast (st : Fin 16) (d a : Fin 64) (b : Fin 32) (m : Fin 8) (el bnd : Bool) (fmt : Fmt) (s : State) :
    Host.Outcome State Fault Refusal :=
  if el then
    runEngine (.vbcast st d a b m el bnd fmt) st 1 [(2, b)] (moveRun d [a] m fmt.width fmt.width (do
        if bnd && decide (vlmax fmt.width 0 ≤ (← getCur).scal[2].toNat) then boundTrap 1 0)
      fun _ sc _ _ =>
        if sc[2].toNat < vlmax fmt.width 0 then (.elem a sc[2].toNat, false) else (.zero, false)) s
  else
    runEngine (.vbcast st d a b m el bnd fmt) st 1 [(2, b)]
      (moveRun d [] m fmt.width fmt.width (return ()) fun _ sc _ _ => (.one sc[2].toNat, false)) s

/-- `vextr` (R197): it takes no element count. -/
def execVextr (st : Fin 16) (d : Fin 32) (a : Fin 64) (b : Fin 32) (bnd : Bool) (fmt : Fmt) (s : State) :
    Host.Outcome State Fault Refusal :=
  runEngine (.vextr st d a b bnd fmt) st 1 [(2, b)] (do
    unit
    useVecs [] [a]
    let i := (← getCur).scal[2].toNat
    let v := (← getF).v[a]
    if vlmax fmt.width 0 ≤ i then
      if bnd then boundTrap 1 0
      writeX d 0
    else
      if v.elemPoison fmt.width i then laneTrap cPOISON i
      writeX d (extendElem fmt (v.elem fmt.width i))
    return 1) s

/-- `vcomp` (R198): the active elements packed, and their count to a length register. -/
def execVcomp (st : Fin 16) (d a : Fin 64) (b : Fin 4) (m : Fin 8) (fmt : Fmt) (s : State) :
    Host.Outcome State Fault Refusal :=
  runEngine (.vcomp st d a b m fmt) st 1 [] (do
    let w := fmt.width
    let c ← laneRun w m
    if c.empty then
      takeVstart
      return 0
    unit
    useVecs [d] [a]
    markStarted c.count
    modF fun f =>
      let act := (span c.vstart c.padFrom).filter c.active
      let n := act.length
      let out : LaneRun := { c with vstart := 0, evl := n, padFrom := n, tail := n, mask := BitVec.allOnes 16384 }
      let g := (act.zipIdx).foldl (fun (g : ScanAcc) (e, k) =>
        { g with f := g.f.setElem d w k (g.f.v[a].elem w e),
                 pois := if g.f.v[a].elemPoison w e then g.pois ||| groupMask (k * w) (k * w + w) else g.pois })
        { f := f.grow d w n, carry := 0 }
      (g.f.setPoison d (clearedGroups out w 0 n) g.pois).setLn b { count := n, pad := 0 }
    takeVstart
    return c.covers) s

/-- Is `d[63:32] < (|a| / t) * 2^32` (R201), exactly? -/
def keeps (draw : Nat) (a t : Ex) : Bool :=
  match a, t with
  | .num _ n1 _ e1 _, .num _ n2 _ e2 _ =>
    let q := min e1 e2
    decide (draw / 2 ^ 32 * (n2 * 2 ^ (e2 - q).toNat) < n1 * 2 ^ (e1 - q).toNat * 2 ^ 32)
  | _, _ => false

/-- One element of `vprune` (R201): its result, whether it is kept, and the firing. -/
def pruneElem (fmt : Fmt) (t : Nat) (ok : Bool) (a : Nat) (f : Firing) : Nat × Bool × Firing :=
  let x := valueOf fmt a
  let y := valueOf fmt t
  if x.isNan then (fmt.nan?.getD 0, true, f)
  else if !ok || !magAbove y x then (a, true, f)
  else
    let (d, f) := f.draw
    if keeps d x y then (signed fmt x.sign (t % 2 ^ (fmt.width - 1)), true, f) else (signed fmt x.sign 0, false, f)

/-- One element of a run of `vprune`: its destination and its mask bit. -/
def pruneStep (c : LaneRun) (d a : Fin 64) (j : Fin 8) (fmt : Fmt) (t : Nat) (ok : Bool) (g : ScanAcc) (e : Nat) : ScanAcc :=
  let w := fmt.width
  if c.isPad e then { g with f := (g.f.setElem d w e 0).setMaskBit j e false }
  else if c.active e then
    let p := g.f.v[a].elemPoison w e
    let (x, keep, f) := pruneElem fmt t ok (g.f.v[a].elem w e) g.f
    { g with f := (f.setElem d w e x).setMaskBit j e keep,
             pois := if p then g.pois ||| groupMask (e * w) (e * w + w) else g.pois }
  else g

/-- One group of `vprune`. A mask written from a poisoned active element raises POISON there (R94): nothing of its group is
performed then, so that no draw is taken twice (DESIGN CHOICE, log entry 116). With no mask the group is poisoned and drawn for. -/
def pruneGroup (c : LaneRun) (d a : Fin 64) (j : Fin 8) (fmt : Fmt) (t : Nat) (ok : Bool) (lo hi : Nat) : M Unit := do
  let f ← getF
  match if j = 0 then none else (span lo hi).find? fun e => c.active e && f.v[a].elemPoison fmt.width e with
  | some e => laneTrap cPOISON e
  | none =>
    let g := (span lo hi).foldl (pruneStep c d a j fmt t ok) { f := f, carry := 0 }
    writeGroups c (.vec d) fmt.width lo hi g.f g.pois

/-- `vprune` (R201). -/
def execVprune (st : Fin 16) (d a : Fin 64) (b : Fin 32) (m j : Fin 8) (fmt : Fmt) (s : State) :
    Host.Outcome State Fault Refusal :=
  runEngine (.vprune st d a b m j fmt) st 1 [(2, b)] (do
    let w := fmt.width
    let c ← laneRun w m
    if c.empty then
      takeVstart
      return 0
    useVecs [d] [a]
    markStarted c.count
    let t := (← getCur).scal[2].toNat % 2 ^ w
    let y := valueOf fmt t
    let ok := !y.isNan && !y.isInf && !y.isZero && !y.sign
    modF fun f => if !ok && activeBits c (BitVec.allOnes 16384) != 0 then f.raise fNV else f
    committing [(d, ceil8 (c.evl * w))] (runGroups c c.vstart 1 fun _ lo hi => pruneGroup c d a j fmt t ok lo hi)
    takeVstart
    return c.covers) s

end Sys2Proof.Machine
end

