-- ==== Sys2Proof/Machine/ScalarMem.lean ====
section
/-!
DEFINITION. Scalar loads, stores, atomics, fences and `waita` (R141 to R144), the wake of a sleeping `waita`, and a line
leaving the L1 (R68).
-/

namespace Sys2Proof.Machine

def invalidateL1 : M Unit := modC fun c => { c with l1 := [] }
/-- An acquire of scope `sc` performs (R75). -/
def acquire (sc : Scope) : M Unit := if sc = .co then return () else invalidateL1
/-- The acquire after an access (R75). -/
def acquireFor (o : Order) (sc : Scope) : M Unit := if Order.isAcq o then acquire sc else return ()
/-- A read at the home also leaves the core's own L1 without an older copy (R70). -/
def dropLine (loc : Nat) : M Unit := modC fun c => l1Drop c (loc / 128)
/-- Parity of the load/store queue's data (Table 3.7). -/
def lsqParity : M Unit := do if (← getS).core.badLsq then trapP cHWERR

/-- Bytes of a width code of layout FL-W. -/
def widthBytes (w : Fin 8) : Nat := 2 ^ (w.val / 2)
/-- Extension of a loaded value (R141). -/
def extendLoad (w : Fin 8) (v : Nat) : Word :=
  if w.val % 2 = 0 then wordOf (sext (8 * widthBytes w) v) else b64 v

/-- An access of the front takes an entry of the load/store queue (Table 1.2). -/
def awaitEntry : M Unit := do
  if 96 ≤ queueHeld (← getS) then stopWith (.wait .queueFull)
/-- The place of a front access, or its fault (R141). -/
def frontPlace (need : Need) (kind : Nat) (va : Word) (n : Nat) : M Place := do
  awaitEntry
  match ← locate (← me) need kind va n with
  | .error e => trapAt e
  | .ok p => return p

/-- SCOPEMEM, after the other checks (R17, R142). -/
def checkScope (sc : Scope) (va : Word) (kind : Nat) : M Unit :=
  if scopeBad sc va then trapAt ⟨cSCOPEMEM, va, kind⟩ else return ()

/-- `ld` (R141). -/
def execLd (st : Fin 16) (w : Fin 8) (d a : Fin 32) (imm : BitVec 32) (s : State) : Host.Outcome State Fault Refusal :=
  runFront st [a] (fun x => do
    let p ← frontPlace needLoad aLoad (x a + imm.signExtend 64) (widthBytes w)
    lsqParity
    let (v, poison) ← lsqRead (← me) p (widthBytes w)
    writeX d (extendLoad w v)
    if poison then modF fun f => f.poisonX d
    return none) s

/-- `st` (R141); a store dropped over poison (R95). -/
def execSt (st : Fin 16) (w : Fin 8) (d a : Fin 32) (imm : BitVec 32) (s : State) : Host.Outcome State Fault Refusal :=
  runFront st [a, d] (fun x => do
    let va := x a + imm.signExtend 64
    let p ← frontPlace needStore aStore va (widthBytes w)
    lsqParity
    match ← lsqWrite (← me) va p (widthBytes w) ((x d).toNat % 2 ^ (8 * widthBytes w)) false with
    | .stored => return none
    | .poisoned =>
      notePoison
      return none
    | .dropped =>
      poisonStore (← me) va
      notePoison
      return none) s

/-- The value an atomic writes, and the flags of `.fadd` (R142). -/
def amoNew (op : AmoOp) (f : Fmt) (w old b c : Nat) : Nat × Flags :=
  let sb := sext w b
  let so := sext w old
  match op with
  | .swap => (b, 0)
  | .cas => (if old = c then b else old, 0)
  | .add => ((old + b) % 2 ^ w, 0)
  | .and => (old &&& b, 0)
  | .or => (old ||| b, 0)
  | .xor => (old ^^^ b, 0)
  | .min => (if so < sb then old else b, 0)
  | .max => (if so < sb then b else old, 0)
  | .minn => (min old b, 0)
  | .maxn => (max old b, 0)
  | .fadd => beaterAdd f old b

/-- One atomic at its home: the old value and its poison (R142, R96). A read that meets poison writes nothing. -/
def amoAt (op : AmoOp) (f : Fmt) (p : Place) (b c : Nat) : M (Nat × Bool) := do
  let g ← me
  let n := f.width / 8
  beaterAccepts p.loc none
  let (old, poison) ← homeLoad g p n
  dropLine p.loc
  if poison then
    acknowledge p.loc g.asid (← getS).core.info.slot false
    return (2 ^ f.width - 1, true)
  else
    let (new, fl) := amoNew op f f.width old b c
    raiseSticky p.loc g.asid fl
    let _ ← writePlace g .head p n new false
    acknowledge p.loc g.asid (← getS).core.info.slot false
    return (old, false)

/-- The old value as `x[D]` takes it (R142). -/
def amoExtend (f : Fmt) (old : Nat) : Word := if f = .i32 then wordOf (sext 32 old) else b64 old

/-- `amo` (R142). -/
def execAmo (st : Fin 16) (op : AmoOp) (ord : Order) (scope : Scope) (d a b c : Fin 32) (disp : BitVec 8) (fmt : Fmt)
    (s : State) : Host.Outcome State Fault Refusal :=
  runFront st (if op = .cas then [a, b, c] else [a, b]) (fun x => do
    let va := x a + disp.signExtend 64
    let p ← frontPlace needBoth aAtomic va (fmt.width / 8)
    checkScope scope va aAtomic
    lsqParity
    olderLoads (← getS).core.id
    releaseFor ord scope
    if ord ≠ .rlx then orderAt p.loc
    let v := fun r => (x r).toNat % 2 ^ fmt.width
    let (old, poison) ← olBeat (← myWho) 3 op.code va p.loc 0 (amoAt op fmt p (v b) (v c))
      fun (old, poison) => (poison.toNat, old)
    acquireFor ord scope
    writeX d (if poison then BitVec.allOnes 64 else amoExtend fmt old)
    if poison then modF fun f => f.poisonX d
    return none) s

/-- `fence` (R143). -/
def execFence (st : Fin 16) (ord : Order) (scope : Scope) (s : State) : Host.Outcome State Fault Refusal :=
  runFront st [] (fun _ => do
    releaseFor ord scope
    acquireFor ord scope
    return none) s

/-- `waita` (R144): asleep, it holds issue; in replay it wakes only on the recorded value (R372), and its window
runs from the first other value that satisfies it (R373). A poisoned word wakes it by the
bits it holds, and its poison goes to `x[D]`: DESIGN CHOICE, log entry 118. -/
def execWaita (st : Fin 16) (ord : Order) (scope : Scope) (d a b c : Fin 32) (disp : BitVec 8) (fmt : Fmt) (s : State) :
    Host.Outcome State Fault Refusal :=
  runFront st (if c = 0 then [a, b] else [a, c]) (fun x => do
    let va := x a + disp.signExtend 64
    let n := fmt.width / 8
    let p ← frontPlace needLoad aLoad va n
    checkScope scope va aLoad
    lsqParity
    let v := (x (if c = 0 then b else c)).toNat % 2 ^ fmt.width
    let now ← homeLoad (← me) p n
    let read := match (← getS).core.watch with
      | some y => if y.loc = p.loc ∧ y.seen ≠ [] then y.seen else [now]
      | none => [now]
    let watch : Watch := { loc := p.loc, n := n, neq := c = 0, value := v, only := none }
    let past := ((← getS).core.watch.filter (·.loc == p.loc)).bind (·.only)
    let w ← olNow (← myWho)
    match read.find? fun y => watch.wakes y.1 with
    | none =>
      let slept := if w.mode = 2 then past else none
      modC fun k => { k with watch := some { watch with only := slept } }
      if slept.isSome then holdEvent .waita w va aLoad 0 else stopWith (.wait .waita)
    | some first =>
      let (m, poison) ← if w.mode = 2 then do
          let (_, r) ← olFind w va aLoad 0 fun r => olKind r == 8 && olAddr r == va.toNat
          match read.find? fun y => y.1 == bits r 128 64 && watch.wakes y.1 with
          | some y => pure y
          | none =>
            modC fun k => { k with watch := some { watch with only := some (bits r 128 64) } }
            holdEvent .waita w va aLoad 0
        else pure first
      olPlain w 8 (n + 2 ^ 32 * m + 2 ^ 96 * va.toNat) va aLoad none
      dropLine p.loc
      acquireFor ord scope
      writeX d (b64 m)
      if poison then modF fun f => f.poisonX d
      return none) s

/-- A core whose instruction waits for one reason looks again: the instruction is issued anew on its next step. -/
def wakeCore (core : Nat) (p : Wait → Bool) : M Unit :=
  modS fun s => s.modifyCore core fun c => match c.wait with
    | some w => if p w then { c with wait := none } else c
    | none => c

/-- WAITA_WAKE (R144): a write to the line has been performed; the sleeping `waita` reads its word again. -/
def execWaitaWake (core : Nat) (s : State) : Host.Outcome State Fault Refusal :=
  runEvent (.waitaWake core) (wakeCore core (· == .waita)) s

/-- A line leaves an L1 (R68). -/
def execLineLeavesL1 (core line : Nat) (s : State) : Host.Outcome State Fault Refusal :=
  runEvent (.lineLeavesL1 core line) (modS fun s => s.modifyCore core fun c => l1Drop c line) s

end Sys2Proof.Machine
end

