-- ==== Sys2Proof/Machine/LaneMem.lean ====
section
/-!
DEFINITION. Vector loads and stores (R203 to R215), spill and fill (R216 to R219), and appends to a work vector (R199).
-/

namespace Sys2Proof.Machine

/-- Is the index of an element poisoned (R212, step 1)? -/
def indexPoison (k : LaneAddr) (f : Firing) (e : Nat) : Bool :=
  match k with
  | .indexed b x32 _ _ => f.v[b].elemPoison (indexWidth x32) e
  | _ => false

/-- A fault of an element, with the address of its faulting byte. -/
structure ElemFault where
  e : Nat
  err : AErr
  deriving DecidableEq, Repr

/-- The checks of every piece before any is performed (R212): the places, or what each piece that fails raises (R214). -/
def locateAll (need : Need) (kind : Nat) : List (Word × Nat) → M (Except (List AErr) (List Place))
  | [] => return .ok []
  | (va, n) :: r => do
    let p ← locate (← me) need kind va n
    let l ← locateAll need kind r
    return match p, l with
      | .ok p, .ok l => .ok (p :: l)
      | .ok _, .error es => .error es
      | .error e, .ok _ => .error [e]
      | .error e, .error es => .error (e :: es)

def replayable (cause : Nat) : Bool := cause == cNOTMAPPED || cause == cPROT
/-- The place of a cause in the order of the checks of an element (R212, Table 3.6). -/
def checkRank (cause : Nat) : Nat :=
  [cNONCANON, cMISALIGN, cQUIREMODE, cQUIREOWN, cNOTMAPPED, cPTEBAD, cPROT, cCONFPAGE].idxOf cause
/-- The first failed check of an element whose pieces may fail differently (R212). -/
def firstErr : List AErr → Option AErr
  | [] => none
  | x :: r => match firstErr r with
    | some y => some (if checkRank y.cause < checkRank x.cause then y else x)
    | none => some x

/-- What an element raises for the pieces that fail (R212 to R214): the cause of its first failed check, at its own address; when
that is a replayable one, each page to be replayed, with the cause of its own byte, and the element counts on each: DESIGN CHOICE,
log entry 142. -/
def elementErrs (va : Word) (errs : List AErr) : List AErr :=
  match firstErr errs with
  | none => []
  | some x => if replayable x.cause then errs.filter (replayable ·.cause) else [{ x with va := va }]

/-- Read an element at its pieces. -/
def readPieces (w bo : Nat) (ps : List Place) : M (Nat × Bool) := do
  let n := if 8 ≤ w then w / 8 else 1
  let rec go : List Place → M (Nat × Bool)
    | [] => return (0, false)
    | p :: r => do
      let (x, a) ← lsqRead (← me) p n
      let (y, b) ← go r
      return (x + 2 ^ (8 * n) * y, a || b)
  let (v, p) ← go ps
  return (v / 2 ^ bo % 2 ^ w, p)

/-- Write an element at its pieces: below 8 bits, only its bits (R209). A part over poison is dropped (R95). -/
def writePieces (w bo : Nat) (va : Word) (x : Nat) (poison : Bool) (ps : List Place) : M Unit := do
  let store := fun (p : Place) (n v keep : Nat) (a : Word) => do
    match ← lsqWrite (← me) a p n v poison keep with
    | .dropped =>
      poisonStore (← me) a
      notePoison
    | .poisoned => notePoison
    | .stored => pure ()
  if 8 ≤ w then ps.forM fun p => store p (w / 8) x 0 va
  else (ps.zipIdx).forM fun (p, i) => do
    let lo := if i = 0 then bo else 0
    let hi := if i = 0 then min 8 (bo + w) else bo + w - 8
    let part := if i = 0 then x % 2 ^ (hi - lo) else x / 2 ^ (8 - bo)
    store p 1 (part % 2 ^ (hi - lo) * 2 ^ lo) (255 - (2 ^ hi - 2 ^ lo)) (va + b64 i)

/-- Is element `e` finished (R213)? -/
def elemDone (e : Nat) : M Bool := do return (← getCur).mask.getLsbD e
def finishElem (e : Nat) : M Unit := modCur fun c => { c with mask := c.mask ||| BitVec.ofNat 16384 (2 ^ e) }

/-- The stop of a pre-emption between elements: `late` notes the accesses that homes have accepted (R108, R115). -/
def elemUnit (late : List Nat → M Unit) : M Unit := do
  match (← getS).core.budget with
  | some 0 =>
    late (← getS).core.accepted
    stopWith .budget
  | some (n + 1) => modC fun c => { c with budget := some n }
  | none => return ()

/-- Perform every active element that is not finished (R207, R213), in index order; the faults met. A reissued instruction takes
the mask register and `VSTART` as they then stand: DESIGN CHOICE, log entry 132. -/
def eachElem (c : LaneRun) (late : List Nat → M Unit) (one : Nat → M (List AErr)) : List Nat → M (List ElemFault)
  | [] => return []
  | e :: r => do
    if c.active e && !(← elemDone e) then
      elemUnit late
      match ← one e with
      | [] =>
        finishElem e
        eachElem c late one r
      | errs => return errs.map (⟨e, ·⟩) ++ (← eachElem c late one r)
    else eachElem c late one r

def pageOf (va : Word) : Nat := va.toNat / 4096
/-- The faulting elements of a page. -/
def samePage (l : List ElemFault) (va : Word) : Nat :=
  (((l.filter fun x => pageOf x.err.va == pageOf va).map (·.e)).eraseDups).length

/-- The records of the faulting pages, in ascending order of their lowest element (R214). -/
def faultPages (all : List ElemFault) : List Nat → List ElemFault → List PageFault
  | _, [] => []
  | seen, x :: r =>
    if seen.contains (pageOf x.err.va) then faultPages all seen r
    else ⟨x.err.cause, x.err.va, x.e, samePage all x.err.va, x.err.access, 0⟩ :: faultPages all (pageOf x.err.va :: seen) r

/-- The stop that the faults of an instruction's elements make (R213, R214). -/
def raiseElems (l : List ElemFault) : M Unit := do
  match l.find? fun x => !replayable x.err.cause with
  | some x =>
    if x.err.cause = cBOUND then boundTrap 1 x.e x.err.access
    else stopWith (.trap { cause := x.err.cause, eKind := true, engine := 1, addr := some x.err.va, index := x.e,
                           count := samePage l x.err.va, access := x.err.access })
  | none => if l.isEmpty then return () else stopWith (.replay 1 (faultPages l [] l))

/-- Start an instruction that keeps a partial-completion mask: what needs no work is finished (R213). -/
def startMasked (c : LaneRun) : M Unit := do
  if !(← getCur).started then
    markStarted c.count
    let act := BitVec.ofNat 16384 (activeBits c (BitVec.allOnes 16384))
    modCur fun e => { e with pcm := true, mask := maskSpan 0 c.count &&& ~~~act }

/-- Do two lists of locations of `n` bytes share a byte? -/
def sharesByte (n : Nat) (a b : List Nat) : Bool := a.any fun x => b.any fun y => decide (x < y + n) && decide (y < x + n)

/-- The loads that homes had accepted when a pre-emption stopped the instruction (R108), of the unfinished elements in ascending order:
those of `l`, but none of a byte that an earlier element, not accepted, is still to read (R70, R211). `left`: what those still read. -/
def noteLate (k : LaneAddr) (disp : BitVec 8) (d : Fin 64) (w : Nat) (l : List Nat) : List Nat → List Nat → M Unit
  | [], _ => return ()
  | e :: r, left => do
    if (← elemDone e) || indexPoison k (← getF) e then noteLate k disp d w l r left
    else
      match elementAddress k (← getCur).scal disp (← getF) w e with
      | none => noteLate k disp d w l r left
      | some (va, bo) =>
        match ← locateAll needLoad aLoad (elementPieces w va bo) with
        | .error _ => noteLate k disp d w l r left
        | .ok ps =>
          let n := if 8 ≤ w then w / 8 else 1
          let locs := ps.map (·.loc)
          if l.contains e && !sharesByte n locs left then
            let x : Late :=
              { slotKey := ← myKey, locs := locs, n := n, bo := bo, w := w, reg := d.val, elem := e, core := (← getS).core.id,
                amo := none, vas := (elementPieces w va bo).map (·.1) }
            modS fun s => { s with late := s.late ++ [x] }
            noteLate k disp d w l r left
          else noteLate k disp d w l r (locs ++ left)

/-- The poison of a load's destination: it goes from the groups of which every element is written, but for those that took
poison (R93, R215). -/
def settlePoison (c : LaneRun) (d : Fin 64) (w : Nat) : M Unit := do
  let e ← getCur
  let done := fun i => c.isPad i || (c.active i && e.mask.getLsbD i)
  modF fun f => f.setPoison d (coveredGroups done w 0 c.evl) e.pois.toNat

/-- One element of a load (R207, R210). -/
def loadElem (k : LaneAddr) (disp : BitVec 8) (bnd : Bool) (d : Fin 64) (w e : Nat) : M (List AErr) := do
  match elementAddress k (← getCur).scal disp (← getF) w e with
  | none =>
    if bnd then return [⟨cBOUND, 0, 0⟩]
    modF fun f => f.setElem d w e 0
    return []
  | some (va, bo) =>
    if indexPoison k (← getF) e then return [⟨cPOISON, va, aLoad⟩]
    match ← locateAll needLoad aLoad (elementPieces w va bo) with
    | .error errs => return elementErrs va errs
    | .ok ps =>
      lsqParity
      let (x, p) ← readPieces w bo ps
      modF fun f => f.setElem d w e x
      if p then modCur fun c => { c with pois := c.pois ||| BitVec.ofNat 64 (groupMask (e * w) (e * w + w)) }
      return []

/-- One element of a store (R207, R210). -/
def storeElem (k : LaneAddr) (disp : BitVec 8) (bnd : Bool) (d : Fin 64) (w e : Nat) : M (List AErr) := do
  match elementAddress k (← getCur).scal disp (← getF) w e with
  | none => return if bnd then [⟨cBOUND, 0, 0⟩] else []
  | some (va, bo) =>
    if indexPoison k (← getF) e then return [⟨cPOISON, va, aStore⟩]
    match ← locateAll needStore aStore (elementPieces w va bo) with
    | .error errs => return elementErrs va errs
    | .ok ps =>
      lsqParity
      let v := (← getF).v[d]
      writePieces w bo va (v.elem w e) (v.elemPoison w e) ps
      return []

/-- A vector load (R207, R215). -/
def vectorLoad (k : LaneAddr) (disp : BitVec 8) (bnd : Bool) (d : Fin 64) (m : Fin 8) (w : Nat) : M Nat := do
  let c ← laneRun (k.wide w) m
  if c.empty then
    takeVstart
    return 0
  useVecs [d] k.vecs
  if !(← getCur).started then
    startMasked c
    modF fun f => (span c.padFrom c.evl).foldl (fun f e => if c.isPad e then f.setElem d w e 0 else f) (f.grow d w c.evl)
  let faults ← eachElem c (fun l => do
    settlePoison c d w
    noteLate k disp d w l ((span c.vstart c.padFrom).filter c.active) []) (loadElem k disp bnd d w) (span c.vstart c.padFrom)
  settlePoison c d w
  raiseElems faults
  takeVstart
  return c.covers

/-- A vector store (R207). -/
def vectorStore (k : LaneAddr) (disp : BitVec 8) (bnd : Bool) (d : Fin 64) (m : Fin 8) (w : Nat) : M Nat := do
  let c ← laneRun (k.wide w) m
  if c.empty then
    takeVstart
    return 0
  useVecs [] (d :: k.vecs)
  startMasked c
  raiseElems (← eachElem c (fun _ => return ()) (storeElem k disp bnd d w) (span c.vstart c.padFrom))
  takeVstart
  return c.covers

/-- `vld` (R207): unit stride, with a bit offset. -/
def execVld (st : Fin 16) (o : Fin 8) (d : Fin 64) (a : Fin 32) (m : Fin 8) (disp : BitVec 8) (fmt : Fmt) (s : State) :
    Host.Outcome State Fault Refusal :=
  runEngine (.vld st o d a m disp fmt) st 1 [(1, a)] (vectorLoad (.unit o.val) disp false d m fmt.width) s
/-- `vlds` (R207): strided. -/
def execVlds (st : Fin 16) (d : Fin 64) (a b : Fin 32) (m : Fin 8) (disp : BitVec 8) (fmt : Fmt) (s : State) :
    Host.Outcome State Fault Refusal :=
  runEngine (.vlds st d a b m disp fmt) st 1 [(1, a), (2, b)] (vectorLoad .strided disp false d m fmt.width) s
/-- `vldx` (R207): indexed. -/
def execVldx (st : Fin 16) (sc : Fin 4) (d : Fin 64) (a : Fin 32) (b : Fin 64) (c : Fin 32) (m : Fin 8) (x32 bnd : Bool)
    (fmt : Fmt) (s : State) : Host.Outcome State Fault Refusal :=
  runEngine (.vldx st sc d a b c m x32 bnd fmt) st 1 [(1, a), (3, c)]
    (vectorLoad (.indexed b x32 sc.val (c != 0)) 0 bnd d m fmt.width) s
/-- `vst` (R207). -/
def execVst (st : Fin 16) (o : Fin 8) (d : Fin 64) (a : Fin 32) (m : Fin 8) (disp : BitVec 8) (fmt : Fmt) (s : State) :
    Host.Outcome State Fault Refusal :=
  runEngine (.vst st o d a m disp fmt) st 1 [(1, a)] (vectorStore (.unit o.val) disp false d m fmt.width) s
/-- `vsts` (R207). -/
def execVsts (st : Fin 16) (d : Fin 64) (a b : Fin 32) (m : Fin 8) (disp : BitVec 8) (fmt : Fmt) (s : State) :
    Host.Outcome State Fault Refusal :=
  runEngine (.vsts st d a b m disp fmt) st 1 [(1, a), (2, b)] (vectorStore .strided disp false d m fmt.width) s
/-- `vstx` (R207). -/
def execVstx (st : Fin 16) (sc : Fin 4) (d : Fin 64) (a : Fin 32) (b : Fin 64) (c : Fin 32) (m : Fin 8) (x32 bnd : Bool)
    (fmt : Fmt) (s : State) : Host.Outcome State Fault Refusal :=
  runEngine (.vstx st sc d a b c m x32 bnd fmt) st 1 [(1, a), (3, c)]
    (vectorStore (.indexed b x32 sc.val (c != 0)) 0 bnd d m fmt.width) s

/-! Spill and fill. -/

/-- The place of a 64-byte access of a frame, or its fault (R219). -/
def framePlace (need : Need) (kind : Nat) (frame : Word) (off : Nat) : M Place := do
  match ← locate (← me) need kind (frame + b64 off) 64 with
  | .ok p => return p
  | .error e =>
    if replayable e.cause then
      modF fun f => { f with trap := { f.trap with val := e.va } }
      stopWith (.replay 1 [⟨e.cause, e.va, off, 1, e.access, 0⟩])
    else stopWith (.trap { cause := e.cause, eKind := true, engine := 1, addr := some e.va, index := off, count := 1,
                           access := e.access })

/-- Store some bytes of a frame by the load/store queue: nothing of a later turn is performed before them (R219). -/
def frameStore (p : Place) (turn : Nat) (va : Word) (n x : Nat) (poison : Bool) : M Unit := do
  let g ← me
  settleBytes g.core p.loc n
  writeSpan g .lsq turn va 16 p n x poison

/-- The header of a frame (Table 8.4). -/
def spillHeader (fmt : Fmt) (n pad poison size : Nat) : Nat :=
  fmt.code + 2 ^ 16 * n + 2 ^ 32 * pad + 2 ^ 64 * poison + 2 ^ 128 * size

/-- Data groups in ascending order from the one that `PROG` names (R219). -/
def frameGroups (body : Nat → M Unit) : Nat → Nat → M Unit
  | 0, _ => return ()
  | k + 1, g => do
    if (← getCur).prog ≤ g then
      unit
      body g
      modCur fun e => { e with prog := g + 1 }
    frameGroups body k (g + 1)

/-- `vspill` (R217, R219). -/
def execVspill (st : Fin 16) (d : Fin 64) (a : Fin 32) (b : Fin 4) (disp : BitVec 8) (fmt : Fmt) (s : State) :
    Host.Outcome State Fault Refusal :=
  runEngine (.vspill st d a b disp fmt) st 1 [(1, a)] (do
    let frame := (← getCur).scal[1] + disp.signExtend 64
    let l := (← getF).ln[b]
    let e ← getCur
    let count := if e.started then e.vlen else l.count
    let pad := if e.started then e.pad else l.pad
    let n := min count (vlmax fmt.width 0)
    let size := ceil8 (n * fmt.width)
    let groups := (size + 63) / 64
    useVecs [] [d]
    markStarted count
    modCur fun e => { e with pad := pad }
    let v := (← getF).v[d]
    let p ← framePlace needStore aStore frame 0
    lsqParity
    frameStore p 1 frame 64 (spillHeader fmt n (min pad n) (v.poison.toNat % 2 ^ groups) size) false
    frameGroups (fun g => do
      let va := frame + b64 (64 + 64 * g)
      let p ← framePlace needStore aStore frame (64 + 64 * g)
      let k := min 64 (size - 64 * g)
      frameStore p (g + 2) va k (bits v.bits.toNat (512 * g) (8 * k)) (v.poison.getLsbD g)) groups 0
    return groups) s

/-- `vfill` (R218, R219). The poison of the header itself goes nowhere: DESIGN CHOICE, log entry 133. -/
def execVfill (st : Fin 16) (d : Fin 64) (a : Fin 32) (b : Fin 4) (disp : BitVec 8) (fmt : Fmt) (s : State) :
    Host.Outcome State Fault Refusal :=
  runEngine (.vfill st d a b disp fmt) st 1 [(1, a)] (do
    let frame := (← getCur).scal[1] + disp.signExtend 64
    useVecs [d] []
    markStarted 0
    let p ← framePlace needLoad aLoad frame 0
    lsqParity
    let (h, _) ← lsqRead (← me) p 64
    let n := min (bits h 16 16) (vlmax fmt.width 0)
    let size := ceil8 (n * fmt.width)
    modF fun f => f.grow d fmt.width n
    frameGroups (fun g => do
      let p ← framePlace needLoad aLoad frame (64 + 64 * g)
      let k := min 64 (size - 64 * g)
      let (x, px) ← lsqRead (← me) p k
      modF fun f =>
        let v := f.v[d]
        let f := { f with v := f.v.set d { v with bits := BitVec.ofNat 32768 (patchBits v.bits.toNat (512 * g) (8 * k) x) } }
        f.setPoison d (if k = 64 then 2 ^ g else 0) (if px || bit h (64 + g) then 2 ^ g else 0)) ((size + 63) / 64) 0
    modF fun f => f.setLn b { count := n, pad := min (bits h 32 6) n }
    return (size + 63) / 64) s

/-! Appending. -/

/-- A check of the descriptor of an append, of kind E (R199). -/
def appendPlace (need : Need) (kind : Nat) (va : Word) : M Place := do
  match ← locate (← me) need kind va 8 with
  | .ok p => return p
  | .error e =>
    if replayable e.cause then stopWith (.replay 1 [⟨e.cause, e.va, 0, 1, e.access, 0⟩])
    else stopWith (.trap { cause := e.cause, eKind := true, engine := 1, addr := some e.va, count := 1, access := e.access })

/-- A trap of the scope or a poisoned read at the descriptor. -/
def appendTrap {α : Type} (cause : Nat) (va : Word) (access : Nat) : M α :=
  stopWith (.trap { cause := cause, eKind := true, engine := 1, addr := some va, count := 1, access := access })

/-- The tail add of an append, as an atomic token of lane 0 (R199, R96): the old tail, or none over poison. -/
def tailAdd (p : Place) (c : Nat) : M (Option Nat) := do
  let g ← me
  beaterAccepts p.loc none
  let (old, poison) ← homeLoad g p 8
  dropLine p.loc
  let slot := (← getS).core.info.slot
  if poison then
    acknowledge p.loc g.asid slot false
    return none
  else
    let _ ← writePlace g .head p 8 ((old + c) % 2 ^ 64) false
    acknowledge p.loc g.asid slot false
    return some old

/-- One element of an append (R199): stored below the capacity, at the position of its rank among the active ones. -/
def appendElem (c : LaneRun) (b : Fin 64) (w base old cap : Nat) (e : Nat) : M (List AErr) := do
  let j := ((span c.vstart e).filter c.active).length
  if cap ≤ old + j then return []
  let va : Word := b64 (base + (old + j) * (w / 8))
  match ← locateAll needStore aStore [(va, w / 8)] with
  | .error errs => return errs
  | .ok ps =>
    let v := (← getF).v[b]
    writePieces w 0 va (v.elem w e) (v.elemPoison w e) ps
    return []

/-- `vappend` (R199); reissued after a stop, it makes no add, reads the descriptor again and takes the old tail from `x[D]`. `SCOPEMEM` comes after the other checks of the descriptor, and a poisoned `BASE` or `CAP` raises POISON before
the add, whether an element is active or not: DESIGN CHOICE, log entry 117. -/
def execVappend (st : Fin 16) (ord : Order) (scope : Scope) (d a : Fin 32) (b : Fin 64) (m : Fin 8) (fmt : Fmt)
    (s : State) : Host.Outcome State Fault Refusal :=
  runEngine (.vappend st ord scope d a b m fmt) st 1 [(1, a)] (do
    let w := fmt.width
    let c ← laneRun w m
    let va := (← getCur).scal[1]
    unit
    useVecs [] [b]
    let (base, cap, old) ← match (← getCur).old with
      | some x => pure x
      | none => begin' c va
    raiseElems (← eachElem c (fun _ => return ()) (appendElem c b w base old cap) (span c.vstart c.padFrom))
    takeVstart
    return c.covers) s
where
  /-- The descriptor and the add, of an entry that starts or is reissued. -/
  begin' (c : LaneRun) (va : Word) : M (Nat × Nat × Nat) := do
    if va.toNat % 8 ≠ 0 then appendTrap cMISALIGN va aLoad
    let pb ← appendPlace needLoad aLoad va
    let pc ← appendPlace needLoad aLoad (va + 16)
    let again := (← getCur).started
    let pt ← if again then pure pc else appendPlace needBoth aAtomic (va + 8)
    if scopeBad scope va then appendTrap cSCOPEMEM va aAtomic
    lsqParity
    let (base, p1) ← lsqRead (← me) pb 8
    let (cap, p2) ← lsqRead (← me) pc 8
    if p1 || p2 then appendTrap cPOISON va aLoad
    let old ← do
      if again then
        if d != 0 && (← getF).badX.getLsbD d.val then trapP cHWERR
        pure ((← getF).rx d).toNat
      else
        let n := onesOf 16384 (activeBits c (BitVec.allOnes 16384))
        let old ← olBeat (← entryWho) 3 16 (va + 8) pt.loc 1 (tailAdd pt n) fun
          | some x => (0, x)
          | none => (1, 2 ^ 32 - 1)
        startMasked c
        match old with
        | some x =>
          writeX d (b64 x)
          pure x
        | none =>
          poisonResult d
          modCur fun e => { e with mask := BitVec.allOnes 16384 }
          pure 0
    modCur fun e => { e with old := some (base, cap, old) }
    return (base, cap, old)

end Sys2Proof.Machine
end

