-- ==== Sys2Proof/Machine/System.lean ====
section
/-!
DEFINITION. Control registers (R129 to R134, R145), traps by instruction (R127, R146), the end of a firing (R148, R348),
`tlbinv` (R88), and the grants of quire banks (R62, R65).
-/

namespace Sys2Proof.Machine

/-! Quire banks. -/

/-- All data and poison of a bank zero, the FIFO pointers reset (R64 step 5). -/
def zeroBank (k : Nat) : M Unit := do
  let lo := quireBase + k * bankSize
  modS fun s =>
    let s := { s with mem := Memory.clearRange s.mem lo bankSize }.clearPoison lo bankSize
    s.setBank k { s.bank k with fifo := [], fifoHead := 0, fifoBad := 0, reserved := 0 }

/-- Wait for accesses that homes have accepted of firings since stopped (R108). -/
def awaitLate (p : Late → Bool) : M Unit := do
  if (← getS).late.any p then stopWith (.wait .background)
/-- What a bank has accepted and the operations in its beater's window are performed (R64 step 2). -/
def drainBeater (k : Nat) : M Unit := do
  let s ← getS
  awaitLate fun l => l.locs.any fun loc => s.homeBank loc == some k
  performStores fun x => s.homeBank x.loc == some k
  flushTokens fun t => s.beater t.loc == k

/-- A write of a grant (R65). -/
def writeGrant (k : Nat) (gv : Bool) (gasid : Nat) : M Unit := do
  if ((← getS).bank k).mode ≠ .cache then
    drainBeater k
    zeroBank k
  modS fun s => s.setBank k { s.bank k with gv := gv, gasid := gasid }

/-- QBANK_GRANT_WRITE (R62, R65): a write of `GV` and `GASID` of a bank. -/
def execQbankGrantWrite (cluster bank : Nat) (gv : Bool) (gasid : Nat) (s : State) : Host.Outcome State Fault Refusal :=
  runEvent (.qbankGrantWrite cluster bank gv gasid)
    (if cluster < 40 ∧ bank < 32 then writeGrant (32 * cluster + bank) gv (gasid % 16384) else return ()) s

/-! Control registers. -/

/-- `ISAID` (Table 5.3). -/
def isaid (m : Mgmt) : Nat := 1 + 4 * 2 ^ 8 + m.xver.toNat * 2 ^ 16 + 9 * 2 ^ 32 + m.stepping.toNat * 2 ^ 48
/-- `COREID` (Table 5.4, R2). -/
def coreid (s : State) : Nat :=
  let k := s.core.id
  k % 256 + 2 ^ 8 * (clusterOf k % 64) + 2 ^ 14 * (groupOf k % 8) + 2 ^ 17 * (k / 40 % 4) + 2 ^ 19 * (s.mgmt.device % 1024)
    + 2 ^ 29 * (if s.core.running then s.core.info.asid % 16384 else 0)

/-- The value `mfc` reads (R130, Table 5.1). -/
def readCReg (s : State) : CReg → Word
  | .corectl => b64 s.core.schk.toNat
  | .isaid => b64 (isaid s.mgmt)
  | .coreid => b64 (coreid s)
  | .cycle => s.cycle
  | .trcause => b64 s.core.f.trap.word
  | .trval => s.core.f.trap.val
  | .trpc => s.core.f.trap.pc
  | .trslot => b64 (s.core.info.slot % 65536)
  | .vtype => b64 s.core.f.vtypeWord
  | .vstart => b64 (s.core.f.vstart % 16384)
  | .fflags => b64 s.core.f.fflags.toNat
  | .pseed0 => s.core.f.pseed0
  | .pseed1 => s.core.f.pseed1
  | .bstride => s.core.f.bstride
  | .bcarry => b64 s.core.f.bcarryWord
  | .pstart => b64 s.core.f.pstartWord
  | .tcfg k => b64 s.core.f.tcfg[k].word
  | .fxstate k => s.core.f.fx[k]
  | .qbank b => b64 (s.bank (32 * clusterOf s.core.id + b.val)).word

/-- The level a write requires (Table 5.1). -/
def CReg.writeLevel : CReg → Nat
  | .corectl | .qbank _ => 1
  | _ => 0

/-- A write of a register of the firing: the fields marked RW (R145). -/
def writeFReg (w : Word) (f : Firing) : CReg → Firing
  | .trcause => { f with trap := { f.trap with skip := w.getLsbD 26 } }
  | .trpc => { f with trap := { f.trap with pc := w &&& 0xFFFFFFFFFFF8 } }
  | .vtype => f.setVtype w.toNat
  | .vstart => { f with vstart := w.toNat % 16384 }
  | .fflags => { f with fflags := BitVec.ofNat 5 w.toNat }
  | .pseed0 => { f with pseed0 := w }
  | .pseed1 => { f with pseed1 := w }
  | .bstride => { f with bstride := w }
  | .bcarry => f.setBcarry w.toNat
  | .pstart => f.setPstart w.toNat
  | .tcfg k => { f with tcfg := f.tcfg.set k (TCfg.ofWord w.toNat) }
  | .fxstate k => { f with fx := f.fx.set k (b64 (fxKeep k.val w.toNat)) }
  | .corectl | .isaid | .coreid | .cycle | .trval | .trslot | .qbank _ => f

/-- What `mtc` writes (R130, R132, R145). -/
def writeCReg (cr : CReg) (w : Word) : M Unit := do
  match cr with
  | .corectl => modC fun c => { c with schk := w.getLsbD 0 }
  | .qbank b => writeGrant (32 * clusterOf (← getS).core.id + b.val) (w.getLsbD 3) (bits w.toNat 4 14)
  | cr => modF fun f => writeFReg w f cr

/-- The engines that own a control register (R131). -/
def ownersOf : CReg → List Nat
  | .vtype => [1, 5, 3]
  | .fflags => [1, 5, 2, 3]
  | .vstart | .pseed0 | .pseed1 => [1, 5]
  | .bstride | .bcarry | .pstart | .tcfg _ => [3]
  | .fxstate _ => [2]
  | .corectl | .isaid | .coreid | .cycle | .trcause | .trval | .trpc | .trslot | .qbank _ => []
/-- An access of an engine register waits until its owners have committed every older instruction (R131). -/
def awaitOwners (cr : CReg) : M Unit := do
  if (← getS).older.any fun e => (ownersOf cr).contains e.engine then stopWith (.wait .background)

/-- `mfc` (R145): latency 2. -/
def execMfc (st : Fin 16) (d : Fin 32) (cr : CReg) (s : State) : Host.Outcome State Fault Refusal :=
  runFront st [] (fun _ => do
    awaitOwners cr
    let v := readCReg (← getS) cr
    writeReg d (·.setLate d v 2)
    return none) s

/-- `mtc` (R145); PRIV below the level of the register (R130). -/
def execMtc (st : Fin 16) (a : Fin 32) (cr : CReg) (s : State) : Host.Outcome State Fault Refusal :=
  runPriv (CReg.writeLevel cr) st [a] (fun x => do
    awaitOwners cr
    writeCReg cr (x a)
    return none) s

/-! Traps by instruction. -/

/-- `sys` (R146). -/
def execSys (st : Fin 16) (imm : BitVec 32) (s : State) : Host.Outcome State Fault Refusal :=
  runFront st [] (fun _ => stopWith (.trap { cause := cSYS, val := some (imm.zeroExtend 64), next := true })) s
/-- `brk` (R146). -/
def execBrk (st : Fin 16) (imm : BitVec 32) (s : State) : Host.Outcome State Fault Refusal :=
  runFront st [] (fun _ => stopWith (.trap { cause := cBRK, val := some (imm.zeroExtend 64), next := true })) s
/-- `halt` (R127): of level S. -/
def execHalt (st : Fin 16) (a : Fin 32) (s : State) : Host.Outcome State Fault Refusal :=
  runPriv 1 st [a] (fun x => stopWith (.trap { cause := cHALT, val := some (x a), next := true })) s
/-- `eret` (R104). -/
def execEret (st : Fin 16) (s : State) : Host.Outcome State Fault Refusal :=
  runFront st [] (fun _ => do
    awaitQueue
    let t ← returnFromTrap
    spend (7 + 2 * (← getF).queue.length)
    return some t) s

/-- ILLEGAL_INSTRUCTION (R42, R38): the word at the counter does not decode. -/
def execIllegalInstruction (core : Nat) (fmt : Bool) (s : State) : Host.Outcome State Fault Refusal :=
  runEvent (.illegalInstruction core fmt) (do
    modS (·.focus core)
    if (← getS).core.running then trapP (if fmt then cILLFMT else cILLOP)) s

/-- The instruction word at the counter (R126): its fetch faults, or its poison, are raised at the instruction. -/
def fetchWord : M Nat := do
  let f ← getF
  let s ← getS
  match ← locate { core := s.core.id, asid := s.core.info.asid, level := f.level } needFetch aFetch f.fpc 8 with
  | .error e => trapAt e
  | .ok p =>
    let beat ← takeBeat (← getS).core.id
    showTo (← getS).core.id p.loc 8
    let s ← getS
    if beat || s.isPoisoned p.loc 8 then stopWith (.trap { cause := cPOISON, access := aFetch })
    return Memory.read s.mem p.loc 8

/-- INSTRUCTION_FETCH_FAULT (R126): an instruction whose fetch faults issues. -/
def execInstructionFetchFault (core : Nat) (s : State) : Host.Outcome State Fault Refusal :=
  runEvent (.instructionFetchFault core) (do
    modS (·.focus core)
    if (← getS).core.running then
      let _ ← fetchWord
      return ()) s

/-! The end of a firing. -/

/-- Commands of the firing that are not complete: copies and link commands, on any core (R148, R303). -/
def cmdsOf (s : State) (key : Nat) : Nat :=
  (s.cores.map fun c => (c.cmds.toList.filter fun o => match o with
    | some x => x.ownedBy key
    | none => false).length).sum

/-- The waits of `end` (R148, R296, R298, R320): drains, tokens, commands. -/
def awaitAll : M Unit := do
  awaitQueue
  settleStores (← getS).core.id
  for k in List.finRange 8 do raiseDrain k
  let s ← getS
  let i := s.core.info
  if s.core.f.q.toList.any Stream.draining || s.tokens.any (tokensOf i.asid i.slot)
      || cmdsOf s (slotKey i.asid i.slot) != 0 then stopWith (.wait .background)

/-- A cause of an ended link command that names no status word, the oldest first, of kind P (R387). -/
def raiseLinkCause : M Unit := do
  match (← getF).linkCauses with
  | [] => return ()
  | (_, c) :: r =>
    modF fun f => { f with linkCauses := r }
    trapP c

/-- The words of the control blocks that a commit of an actor firing advances (R352), `HEAD` of an input and `TAIL` of an output
of the `TOKRING` ports alone; a fault of one stops the commit before any is changed. -/
def portWords (g : Agent) (nin : Nat) : List ActorPort → Nat → M (List (Nat × Nat))
  | [], _ => return []
  | p :: r, i => do
    if p.bank.isSome then portWords g nin r (i + 1)
    else
      match ← locate g needBoth aAtomic (p.cb + 8) 8 with
      | .error e => trapAt e
      | .ok pl => return (if i < nin then pl.loc else pl.loc + 4, p.rate) :: (← portWords g nin r (i + 1))
/-- The advance of one of them, a token at its beater. -/
def advancePort (w : Nat × Nat) : M Unit := do
  let _ ← bseqNext w.1
  homePut w.1 4 ((Memory.read (← getS).mem w.1 4 + w.2) % 2 ^ 32)

/-- The commit of an actor firing (R352), in firing order. -/
def actorCommit : M Unit := do
  let s ← getS
  match s.core.info.actor with
  | none => return ()
  | some k =>
    if s.core.info.fcommitted then return ()
    else
      match SMap.get none k s.actors with
      | none => return ()
      | some a =>
        if a.committed ≠ s.core.info.actorN then stopWith (.wait .background)
        releaseTokens
        (← portWords (← me) a.nin a.ports 0).forM advancePort
        modS fun s => { s with actors := SMap.put none k (some { a with committed := (a.committed + 1) % 2 ^ 32 }) s.actors }
        modC fun c => { c with info := { c.info with fcommitted := true } }

/-- The END record of a firing (R368, R372): DIVERGE 4 while the log holds more of it. -/
def logEnd (w : OlWho) : M Unit := do
  let n := (← getF).ordinal
  match (← olNow w).mode with
  | 1 =>
    olReserve w.asid w.key
    olAppend w.asid 0x0D (← getS).core.id w.fid n 0
  | 2 =>
    let live := (← olLive w.asid).filter fun (_, r) => olFid r == w.fid && olKind r != 2
    match live.find? (fun (_, r) => olKind r == 0x0D && olEord r == n) with
    | some (c, _) => olConsume w.asid c 0
    | none =>
      let w := { w with ord := n }
      if live.isEmpty then holdEvent (.replay w.asid w.key) w (← getF).fpc 0 0 else diverge w 4 (← getF).fpc 0 0
  | _ => return ()

/-- A firing that reaches `end` while the log holds records of it at or above its count raises DIVERGE 4 (R372); the
join of its end takes one more ordinal. -/
def checkEnd (w : OlWho) (joins : Bool) : M Unit := do
  if w.mode = 2 then
    if w.stale then diverge w 31 (← getF).fpc 0 0
    let n := w.ord
    if (← olLive w.asid).any fun (_, r) => olFid r == w.fid && olKind r != 2 &&
        (if olKind r == 0x0D then decide (n + joins.toNat < olEord r)
         else decide (n ≤ olEord r) && !(joins && olKind r == 6 && olEord r == n)) then
      diverge w 4 (← getF).fpc 0 0

/-- `end` (R148, R338, R352). Bit 40 of the front's progress word says that the steps of R338 are made; a stop finds it so after a
join whose result differed from its record (R374). -/
def execEndF (st : Fin 16) (s : State) : Host.Outcome State Fault Refusal :=
  runFront st [] (fun _ => orUndo do
    awaitAll
    raiseLinkCause
    actorCommit
    let c := (← getS).core
    let w ← olNow (← myWho)
    let joins ← do
      if c.info.kind = 3 ∧ (← launchInUse c.info.lid) then pure ((← leField c.info.lid 0x20 8) != 0) else pure false
    if bit c.f.prog.toNat 40 then freeIfDone c.info.lid
    else
      checkEnd w joins
      if joins && w.mode == 2 then
        let _ ← olReady w 6 2 (b64 (← leField c.info.lid 0x20 8)) 0
      let fl := (c.f.fflags ||| c.f.beatFlags).toNat
      let orBits := 2 * fl + (if c.f.poisonOut then cwPOISON else 0) + (if c.f.faultOwed then cwFAULT else 0)
      modF fun f => { f with prog := b64 (2 ^ 40) }
      endSteps c.info.lid orBits 1 true (c.info.kind == 3) (some c.id) w
    logEnd w
    freeSlot (← myKey)
    actorEnded c.info
    modC fun c => { c with issued := c.issued + 1 }
    spend 6
    leaveCore 0
    idlePosts
    stopWith .left) s

/-- `yield` (R348): saved with stop code 4, after the waits of `end`. -/
def execYield (st : Fin 16) (s : State) : Host.Outcome State Fault Refusal :=
  runFront st [] (fun _ => do
    awaitAll
    modF fun f => { f with fpc := f.fpc + 8, pend := [] }
    modC fun c => { c with issued := c.issued + 1, wait := none }
    stopFiring 4
    stopWith .left) s

/-! Translation. -/

/-- Does `tlbinv` drop an entry (R88)? -/
def tlbDrops (kind : TlbKind) (va : Word) (asid : Nat) (e : TlbEntry) : Bool :=
  match kind with
  | .all => true
  | .asid => e.asid == asid
  | .page => e.covers asid (va.toNat % 2 ^ 48 / 4096 * 4096)

/-- The clusters a `tlbinv` covers (R88). -/
def tlbCovers (scope : Scope) (core cluster : Nat) : Bool :=
  match scope with
  | .co | .cl => cluster == clusterOf core
  | .sg => cluster / 5 == groupOf core
  | .dm => true

/-- Is an address translated through an entry that a `tlbinv` drops? -/
def translatedBy (s : State) (kind : TlbKind) (scope : Scope) (va : Word) (asid : Nat) (a : Nat) (x : Word) : Bool :=
  let hit := fun (e : TlbEntry) => tlbDrops kind va asid e && e.covers a x.toNat
  s.cores.any (fun c => tlbCovers scope s.core.id (clusterOf c.id) && c.tlb.any hit) ||
    s.ctlbs.any fun (cl, l) => tlbCovers scope s.core.id cl && l.any hit

/-- Every access of any agent that was translated through a dropped entry is performed (R88). -/
def settleTranslated (kind : TlbKind) (scope : Scope) (va : Word) (asid : Nat) : M Unit := do
  let by' := translatedBy (← getS) kind scope va asid
  awaitLate fun l => l.vas.any (by' (l.slotKey / 65536))
  performStores fun x => by' x.asid x.va
  flushTokens fun t => by' t.asid t.va

def tlbInvalidate (kind : TlbKind) (scope : Scope) (va : Word) (asid : Nat) : M Unit :=
  modS fun s =>
    let k := s.core.id
    let keep := fun (e : TlbEntry) => !tlbDrops kind va asid e
    let s := s.modifyCores fun c => if tlbCovers scope k (clusterOf c.id) then { c with tlb := c.tlb.filter keep } else c
    { s with ctlbs := s.ctlbs.map fun (cl, l) => (cl, if tlbCovers scope k cl then l.filter keep else l) }

/-- `tlbinv` (R88): of level S. -/
def execTlbinv (st : Fin 16) (kind : TlbKind) (scope : Scope) (d a : Fin 32) (s : State) :
    Host.Outcome State Fault Refusal :=
  runPriv 1 st [d, a] (fun x => do
    releaseTokens
    settleTranslated kind scope (x d) ((x a).toNat % 16384)
    tlbInvalidate kind scope (x d) ((x a).toNat % 16384)
    invalidateL1
    return none) s

end Sys2Proof.Machine
end

