-- ==== Sys2Proof/Machine/Beaters.lean ====
section
/-!
DEFINITION. The beaters (14_beaters.md): scatter-add, vector atomics and the combining store, `BCFG`, barriers, posts and
joins. Tokens are sent in the order of `State.tokens`; which of them merge is the schedule's choice (R311, log entry 16).
-/

namespace Sys2Proof.Machine

/-! Tokens of the lanes. -/

/-- A beater accepts a token, which waits in its window (R310). -/
def acceptToken (t : Token) : M Unit := do
  beaterAccepts t.loc (some t.instr)
  modS fun s => { s with tokens := s.tokens ++ [t] }

/-- May a token be performed now: no older one must come before it (R310, R318)? -/
def mayPerform (l : List Token) (i : Nat) (t : Token) : Bool := !(l.take i).any (·.precedes t)

/-- TOKEN_PERFORMED (R310). -/
def execTokenPerformed (idx : Nat) (s : State) : Host.Outcome State Fault Refusal :=
  runEvent (.tokenPerformed idx) (do
    let s ← getS
    match s.tokens[idx]? with
    | none => return ()
    | some t =>
      if mayPerform s.tokens idx t then
        set { s with tokens := s.tokens.eraseIdx idx }
        performToken t
        (t.slot :: t.merged.map (·.slot)).forM fun k => pushOwed (slotKey t.asid k)
        t.cores.forM fun k => wakeCore k (· == .background)) s

/-- What an instruction that sends tokens carries through its elements: the ring records its beaters share (R366). -/
abbrev OpenRecs := List (Nat × OlGroup)

/-- Every active element that is not finished, in index order (R317, R319); the faults met. -/
def eachToken (c : LaneRun) (late : List Nat → M Unit) (one : OpenRecs → Nat → M (Except AErr OpenRecs)) :
    OpenRecs → List Nat → M (List ElemFault)
  | _, [] => return []
  | g, e :: r => do
    if c.active e && !(← elemDone e) then
      elemUnit late
      match ← one g e with
      | .error err => return ⟨e, err⟩ :: (← eachToken c late one g r)
      | .ok g =>
        finishElem e
        eachToken c late one g r
    else eachToken c late one g r

/-- An element performed as an event of the chain log (R363, R366). -/
def loggedElem {α : Type} (src e : Nat) (va : Word) (loc : Nat) (g : OpenRecs) (perform : M (α × Bool)) :
    M (α × OpenRecs) := do
  let b := (← getS).beater loc
  let (a, o) ← olElement (← entryWho) src e va loc ((g.find? (·.1 = b)).map (·.2)) perform
  return (a, match o with
    | some x => (b, x) :: g.filter (·.1 ≠ b)
    | none => g)

/-- The checks of an element (R206, R212, R17) and of its queue entry (Table 3.7): its place, or none for a refused index that does not trap. -/
def tokenPlace (k : LaneAddr) (bnd : Bool) (scope : Scope) (need : Need) (kind w e : Nat) :
    M (Except AErr (Option (Word × Place))) := do
  match elementAddress k (← getCur).scal 0 (← getF) w e with
  | none => return if bnd then .error ⟨cBOUND, 0, kind⟩ else .ok none
  | some (va, _) =>
    if indexPoison k (← getF) e then return .error ⟨cPOISON, va, kind⟩
    match ← locate (← me) need kind va (w / 8) with
    | .error err => return .error err
    | .ok p =>
      if scopeBad scope va then return .error ⟨cSCOPEMEM, va, kind⟩
      lsqParity
      olderLoads (← getS).core.id
      awaitBytes (← getS).core.id p.loc (w / 8)
      performStores (·.touches (← getS).core.id p.loc (w / 8))
      showTo (← getS).core.id p.loc (w / 8)
      return .ok (some (va, p))

/-- `vscadd` and `vstc` (R317, R318). -/
def scatterBody (src : Nat) (op : TokenOp) (need : Need) (k : LaneAddr) (bnd : Bool) (ord : Order) (scope : Scope)
    (d : Fin 64) (m : Fin 8) (w : Nat) : M Nat := do
  let c ← laneRun (k.wide w) m
  if c.empty then
    takeVstart
    return 0
  useVecs [] (d :: k.vecs)
  releaseFor ord scope
  if !(← getCur).started then
    let instr ← fresh
    let f ← getF
    modCur fun e => { e with instr := instr, win := f.bwin, order := f.border }
  startMasked c
  let cur ← getCur
  let logged := (← entryWho).mode != 0
  raiseElems (← eachToken c (fun _ => return ()) (fun g e => do
    match ← tokenPlace k bnd scope need aScatter w e with
    | .error err => return .error err
    | .ok none => return .ok g
    | .ok (some (va, p)) =>
      let s ← getS
      let v := s.core.f.v[d]
      let t : Token :=
        { core := s.core.id, asid := s.core.info.asid, slot := s.core.info.slot, lane := e % 64, va := va, loc := p.loc,
          n := w / 8, op := op, value := v.elem w e, poison := v.elemPoison w e || (← takeBeat s.core.id), win := cur.win,
          order := cur.order, instr := cur.instr }
      dropLine p.loc
      if logged then
        let (_, g) ← loggedElem src e va p.loc g (do
          flushTokens (touches t.core p.loc (w / 8))
          if ord ≠ .rlx then orderAt p.loc
          beaterAccepts p.loc (some t.instr)
          let met := !op.isStore && (← getS).isPoisoned p.loc (w / 8)
          let _ ← tokenEffect t
          return ((), met))
        return .ok g
      else if ord = .rlx then acceptToken t
      else
        orderAt p.loc
        beaterAccepts p.loc (some t.instr)
        performToken t
      return .ok g) [] (span c.vstart c.padFrom))
  takeVstart
  return c.covers

/-- `vscadd` (R316, R317). -/
def execVscadd (st : Fin 16) (ord : Order) (scope : Scope) (d : Fin 64) (a : Fin 32) (b : Fin 64) (c : Fin 32) (m : Fin 8)
    (x32 bnd : Bool) (sc : Fin 4) (fmt : Fmt) (s : State) : Host.Outcome State Fault Refusal :=
  runEngine (.vscadd st ord scope d a b c m x32 bnd sc fmt) st 5 [(1, a), (3, c)]
    (scatterBody 0 (.add fmt) needBoth (.indexed b x32 sc.val (c != 0)) bnd ord scope d m fmt.width) s

/-- `vstc` (R316, R317). -/
def execVstc (st : Fin 16) (ord : Order) (scope : Scope) (d : Fin 64) (a : Fin 32) (b : Fin 64) (c : Fin 32) (m : Fin 8)
    (x32 bnd : Bool) (sc : Fin 4) (fmt : Fmt) (s : State) : Host.Outcome State Fault Refusal :=
  runEngine (.vstc st ord scope d a b c m x32 bnd sc fmt) st 5 [(1, a), (3, c)]
    (scatterBody 1 (.store fmt) needStore (.indexed b x32 sc.val (c != 0)) bnd ord scope d m fmt.width) s

/-- One element of `vamo` at its beater: the old value and the poison met (R317, R96). -/
def vamoAt (op : AmoOp) (f : Fmt) (p : Place) (b c : Nat) (poison : Bool) (instr : Nat) : M (Nat × Bool) := do
  let g ← me
  let n := f.width / 8
  beaterAccepts p.loc (some instr)
  let (old, met) ← homeLoad g p n
  dropLine p.loc
  let slot := (← getS).core.info.slot
  if met then
    acknowledge p.loc g.asid slot false
    return (2 ^ f.width - 1, true)
  else
    let (new, fl) := amoNew op f f.width old b c
    raiseSticky p.loc g.asid fl
    let r ← writePlace g .head p n new poison
    acknowledge p.loc g.asid slot (r != .stored)
    return (old, false)

/-- The elements of a `vamo` whose tokens were sent and had not returned when a pre-emption stopped it (R319, R108): as many as
the event names, the lowest unfinished ones. With the chain log off only (log entry 56). -/
def noteLateAmo (op : AmoOp) (fmt : Fmt) (r : LaneRun) (k : LaneAddr) (scope : Scope) (d c : Fin 64) (j : Fin 8) (l : List Nat) :
    M Unit := do
  let w := fmt.width
  let key ← myKey
  let f ← getF
  let cur ← getCur
  let sent := ((span r.vstart r.padFrom).filter fun e => r.active e && !cur.mask.getLsbD e).take l.length
  if (← entryWho).mode = 0 then
    sent.forM fun e => do
      match ← tokenPlace k true scope needBoth aAtomic w e with
      | .error _ | .ok none => return ()
      | .ok (some (_, p)) =>
        let a : LateAmo :=
          { op := op, fmt := fmt, b := f.v[c].elem w e, c := f.v[d].elem w e,
            poison := f.v[c].elemPoison w e || (op == .cas && f.v[d].elemPoison w e), mask := j.val }
        let s ← getS
        let l : Late :=
          { slotKey := key, locs := [p.loc], n := w / 8, bo := 0, w := w, reg := d.val, elem := e, core := s.core.id,
            amo := some a, vas := (elementAddress k cur.scal 0 f w e).toList.map (·.1) }
        set { s with late := s.late ++ [l] }

/-- `vamo` (R316 to R318). -/
def execVamo (st : Fin 16) (op : AmoOp) (ord : Order) (scope : Scope) (d : Fin 64) (a : Fin 32) (b c : Fin 64) (m : Fin 8)
    (x32 bnd : Bool) (sc : Fin 4) (j : Fin 8) (fmt : Fmt) (s : State) : Host.Outcome State Fault Refusal :=
  runEngine (.vamo st op ord scope d a b c m x32 bnd sc j fmt) st 5 [(1, a)] (do
    let w := fmt.width
    let k : LaneAddr := .indexed b x32 sc.val false
    let r ← laneRun (k.wide w) m
    if r.empty then
      takeVstart
      return 0
    useVecs [d] [b, c]
    releaseFor ord scope
    if !(← getCur).started then
      let instr ← fresh
      modCur fun e => { e with instr := instr }
      startMasked r
      modF fun f => (span r.padFrom r.evl).foldl (fun f e =>
          if r.isPad e then (f.setElem d w e 0).setMaskBit j e false else f) f
    committing [(d, ceil8 (r.evl * w))] do
     let faults ← eachToken r (fun l => do
       settlePoison r d w
       noteLateAmo op fmt r k scope d c j l) (fun g e => do
       match ← tokenPlace k bnd scope needBoth aAtomic w e with
       | .error err => return .error err
       | .ok none =>
         modF fun f => f.setElem d w e 0
         return .ok g
       | .ok (some (va, p)) =>
         let f ← getF
         if ord ≠ .rlx then orderAt p.loc
         let perform : M ((Nat × Bool) × Bool) := do
           let x ← vamoAt op fmt p (f.v[c].elem w e) (f.v[d].elem w e)
             (f.v[c].elemPoison w e || (op == .cas && f.v[d].elemPoison w e)) (← getCur).instr
           return (x, x.2)
         let ((old, met), g) ← loggedElem 2 e va p.loc g perform
         modF fun f => (f.setElem d w e old).setMaskBit j e met
         if met then modCur fun c => { c with pois := c.pois ||| BitVec.ofNat 64 (groupMask (e * w) (e * w + w)) }
         return .ok g) [] (span r.vstart r.padFrom)
     settlePoison r d w
     raiseElems faults
    acquireFor ord scope
    takeVstart
    return r.covers) s

/-! `BCFG`. -/

/-- `bcfg` (R313). -/
def execBcfg (st : Fin 16) (d a : Fin 32) (s : State) : Host.Outcome State Fault Refusal :=
  runFront st [a] (fun x => do
    if (← getS).anyUnfinished fun e i => !e.started && isBeaterOp i then stopWith (.wait .background)
    writeX d (b64 (← getF).bcfgWord)
    modF fun f => f.setBcfg (x a).toNat
    return none) s

/-! Barriers. -/

/-- What a token of the front works on, of `n` aligned bytes: a barrier word, a post's control block (R331), a record (R327); its
checks (R141, R17). -/
def frontToken (scope : Scope) (va : Word) (n : Nat) : M Place := do
  let p ← frontPlace needBoth aAtomic va n
  checkScope scope va aAtomic
  lsqParity
  olderLoads (← getS).core.id
  return p
/-- What comes before such a token is performed: the release of its order (R76), and in any case its core's older tokens at its beater
(R310) and older accesses to its bytes (R28). -/
def beforeToken (ord : Order) (scope : Scope) (p : Place) (n : Nat) : M Unit := do
  releaseFor ord scope
  orderAt p.loc
  settleBytes (← getS).core.id p.loc n
/-- The acknowledgement of a front token (R320). -/
def acknowledgeFront (loc : Nat) : M Unit := do
  let i := (← getS).core.info
  acknowledge loc i.asid i.slot false

/-- The arrival of R322 at the beater: the generation arrived at, or none over poison; the front's progress word keeps it. -/
def arrive (p : Place) : M (Option Nat) := do
  beaterAccepts p.loc none
  dropLine p.loc
  let s ← getS
  if s.isPoisoned p.loc 8 then
    acknowledgeFront p.loc
    modF fun f => { f with prog := b64 (2 ^ 33) }
    return none
  else
    let w := Memory.read s.mem p.loc 8
    let arrived := bits w 16 16
    let gen := bits w 32 32
    let (arrived, gen') := if bits w 0 16 ≤ arrived + 1 then (0, (gen + 1) % 2 ^ 32) else (arrived + 1, gen)
    let _ ← writePlace (← me) .head p 8 (bits w 0 16 + 2 ^ 16 * arrived + 2 ^ 32 * gen') false
    acknowledgeFront p.loc
    modF fun f => { f with prog := b64 (2 ^ 32 + gen) }
    return some gen

/-- `bar` and `phend` (R322); bit 32 of the front's progress word says that the arrival is made, at the generation of its
low bits, bit 33 that it has met poison. An arrival that meets poison completes at once, with a poisoned result: DESIGN CHOICE, log
entry 78. Whichever instruction finds bit 32 has arrived: DESIGN CHOICE, log entry 146. -/
def barrierBody (phase : Bool) (ord : Order) (scope : Scope) (d : Fin 32) (va : Word) : M Unit := do
  let p ← frontToken scope va 8
  let s ← getS
  if s.core.f.prog.toNat / 2 ^ 32 % 4 = 0 then
    if phase && (s.anyUnfinished (fun _ => isBeaterOp) || s.tokens.any (tokensOf s.core.info.asid s.core.info.slot)) then
      stopWith (.wait .background)
    beforeToken ord scope p 8
    let _ ← olBeat (← myWho) 7 (if phase then 2 else 1) va p.loc 0 (arrive p) fun
      | some g => (0, g)
      | none => (0, 2 ^ 32 - 1)
  let prog := (← getF).prog.toNat
  if bit prog 32 then
    let (w, _) ← homeLoad (← me) p 8
    if bits w 32 32 = bits prog 0 32 then stopWith (.wait .barrier)
    dropLine p.loc
    acquireFor ord scope
    writeX d (b64 (bits prog 0 32))
  else poisonResult d
  modF fun f => { f with prog := 0 }

/-- `bar` (R322). -/
def execBar (st : Fin 16) (ord : Order) (scope : Scope) (d a : Fin 32) (disp : BitVec 8) (s : State) :
    Host.Outcome State Fault Refusal :=
  runFront st [a] (fun x => do
    barrierBody false ord scope d (x a + disp.signExtend 64)
    return none) s
/-- `phend` (R322). -/
def execPhend (st : Fin 16) (ord : Order) (scope : Scope) (d a : Fin 32) (disp : BitVec 8) (s : State) :
    Host.Outcome State Fault Refusal :=
  runFront st [a] (fun x => do
    barrierBody true ord scope d (x a + disp.signExtend 64)
    return none) s

/-- BARRIER_WAKE (R322): the generation has changed; the waiting instruction reads it again. -/
def execBarrierWake (core : Nat) (s : State) : Host.Outcome State Fault Refusal :=
  runEvent (.barrierWake core) (wakeCore core (· == .barrier)) s

/-! Posts. -/

inductive PostOp | post | take | steal
  deriving DecidableEq, Repr
def PostOp.code : PostOp → Nat | .post => 1 | .take => 2 | .steal => 3

/-- The places of a record's four words. -/
def recPlaces (need : Need) (kind : Nat) (va : Word) : Nat → M (List Place)
  | 0 => return []
  | n + 1 => do
    let p ← frontPlace need kind va 8
    return p :: (← recPlaces need kind (va + 8) n)

/-- Copy a record word by word, with its poison. -/
def moveRecord : List (Place × Place) → M Unit
  | [] => return ()
  | (src, dst) :: r => do
    let (x, poison) ← homeLoad (← me) src 8
    dropLine src.loc
    settleBytes (← me).core dst.loc 8
    if (← writePlace (← me) .head dst 8 x poison) ≠ .stored then notePoison
    dropLine dst.loc
    moveRecord r

/-- What a post operation answers over poison: a read half of ones (R96). -/
def poisonedPost : Nat × Nat := (2 ^ 64 - 1, 2 ^ 32 - 1)
/-- A post operation at the beater of the control block (R323): the status and the index used. -/
def postAt (op : PostOp) (p : Place) (buf : List Place) : M (Nat × Nat) := do
  beaterAccepts p.loc none
  if (← getS).isPoisoned p.loc 24 then
    acknowledgeFront p.loc
    return poisonedPost
  let m := (← getS).mem
  let ring := Memory.read m p.loc 8
  let head := Memory.read m (p.loc + 8) 4
  let tail := Memory.read m (p.loc + 12) 4
  let cap := Memory.read m (p.loc + 16) 4
  let held := (tail + 2 ^ 32 - head) % 2 ^ 32
  let slotAt := fun n => b64 (ring + 32 * (n % cap))
  let put := fun off n => do
    dropLine p.loc
    homePut (p.loc + off) 4 (n % 2 ^ 32)
    acknowledgeFront p.loc
  let turnedAway := fun (r : Nat × Nat) => do
    acknowledgeFront p.loc
    return r
  match op with
  | .post =>
    if held = cap then turnedAway (2, tail)
    else
      let slot ← recPlaces needStore aStore (slotAt tail) 4
      moveRecord (buf.zip slot)
      put 12 (tail + 1)
      return (0, tail)
  | .take =>
    if held = 0 then turnedAway (1, tail)
    else
      let i := (tail + 2 ^ 32 - 1) % 2 ^ 32
      let slot ← recPlaces needLoad aLoad (slotAt i) 4
      moveRecord (slot.zip buf)
      put 12 i
      return (0, i)
  | .steal =>
    if held = 0 then turnedAway (1, head)
    else
      let slot ← recPlaces needLoad aLoad (slotAt head) 4
      moveRecord (slot.zip buf)
      put 8 (head + 1)
      return (0, head)

/-- `cpost`, `ctake` and `csteal` (R323). The faults of its record come before LAUNCHBAD, FULL and EMPTY: DESIGN CHOICE, log
entry 147. -/
def postBody (op : PostOp) (ord : Order) (scope : Scope) (d : Fin 32) (va buf : Word) : M Unit := do
  let p ← frontToken scope va 64
  settleBytes (← getS).core.id p.loc 64
  let bp ← if op = .post then recPlaces needLoad aLoad buf 4 else recPlaces needStore aStore buf 4
  if !(← getS).isPoisoned p.loc 24 && bit (Memory.read (← getS).mem (p.loc + 20) 2) 0 then
    stopWith (.trap { cause := cLAUNCHBAD, detail := 4 })
  beforeToken ord scope p 64
  let r ← olBeat (← myWho) 5 op.code va p.loc 0 (postAt op p bp) id
  acquireFor ord scope
  if r = poisonedPost then poisonResult d else writeX d (b64 r.1)

/-- `cpost` (R323). -/
def execCpost (st : Fin 16) (ord : Order) (scope : Scope) (d a b : Fin 32) (disp : BitVec 8) (s : State) :
    Host.Outcome State Fault Refusal :=
  runFront st [a, b] (fun x => do
    postBody .post ord scope d (x a + disp.signExtend 64) (x b)
    return none) s
/-- `ctake` (R323). -/
def execCtake (st : Fin 16) (ord : Order) (scope : Scope) (d a b : Fin 32) (disp : BitVec 8) (s : State) :
    Host.Outcome State Fault Refusal :=
  runFront st [a, b] (fun x => do
    postBody .take ord scope d (x a + disp.signExtend 64) (x b)
    return none) s
/-- `csteal` (R323). -/
def execCsteal (st : Fin 16) (ord : Order) (scope : Scope) (d a b : Fin 32) (disp : BitVec 8) (s : State) :
    Host.Outcome State Fault Refusal :=
  runFront st [a, b] (fun x => do
    postBody .steal ord scope d (x a + disp.signExtend 64) (x b)
    return none) s

/-- `cjoin` (R323, R329). -/
def execCjoin (st : Fin 16) (ord : Order) (scope : Scope) (d a b : Fin 32) (disp : BitVec 8) (s : State) :
    Host.Outcome State Fault Refusal :=
  runFront st [a, b] (fun x => orUndo do
    let va := x a + disp.signExtend 64
    let p ← frontToken scope va 32
    beforeToken ord scope p 32
    let w ← myWho
    let i := (← getS).core.info
    let n := (x b).toNat % 2 ^ 32
    dropLine p.loc
    let poisoned := (← getS).isPoisoned (p.loc + 0x18) 4
    let old ← olBeat w 6 1 va p.loc 0 (do
        beaterAccepts p.loc none
        let old ← joinDec p.loc n i.asid i.lid (some (← getS).core.id) w.fid w.ord
        acknowledgeFront p.loc
        return old) fun old =>
      ((!poisoned && decide (old ≠ 0) && decide (old ≤ n)).toNat, old)
    acquireFor ord scope
    if poisoned then poisonResult d else writeX d (b64 old)
    return none) s

end Sys2Proof.Machine
end

