-- ==== Sys2Proof/Machine/Press.lean ====
section
/-!
DEFINITION. The press (11_press.md): tiles and accumulators, their moves, butterfly stages and matrix products.
-/

namespace Sys2Proof.Machine

/-! Tiles and accumulators. -/

def TCfg.fmt? (t : TCfg) : Option Fmt := Fmt.ofCode? t.fmt.toNat
/-- Elements of a row, and of the tile (R263). -/
def TCfg.perRow (t : TCfg) (w : Nat) : Nat := 8 * t.rb.toNat / w
def rowsOk (t : TCfg) : Bool := decide (1 ≤ t.rows.toNat) && decide (t.rows.toNat ≤ 64)
/-- A fit tile (R263). -/
def TCfg.fit (t : TCfg) : Bool :=
  rowsOk t && decide (1 ≤ t.rb.toNat) && decide (t.rb.toNat ≤ 64) &&
    (match t.fmt? with
      | some f => 8 * t.rb.toNat % f.width == 0
      | none => false)
/-- Is the format of a tile one of some? -/
def TCfg.isOneOf (t : TCfg) (l : List Fmt) : Bool := match t.fmt? with | some f => l.contains f | none => false
def TCfg.width (t : TCfg) : Nat := match t.fmt? with | some f => f.width | none => 8

/-- Element `c` of row `r` of a tile (R263), and its poison. -/
def Tile.elem (t : Tile) (w r c : Nat) : Nat := Machine.bits t.bits.toNat (512 * r + c * w) w
def Tile.elemPoison (t : Tile) (w r c : Nat) : Bool :=
  t.poison != 0 && (t.poison.getLsbD ((512 * r + c * w) / 64) || t.poison.getLsbD ((512 * r + c * w + w - 1) / 64))
/-- Row `r` of a tile replaced, with the poison of its 8 grains. -/
def Tile.setRow (t : Tile) (r x p : Nat) : Tile :=
  { bits := BitVec.ofNat 32768 (patchBits t.bits.toNat (512 * r) 512 x),
    poison := BitVec.ofNat 512 (patchBits t.poison.toNat (8 * r) 8 p), written := true,
    bad := BitVec.ofNat 1024 (patchBits t.bad.toNat (16 * r) 16 0) }
/-- The press reads bits `lo` to `hi - 1` of row `r`: the grains of words whose parity fails are poisoned (R282). -/
def Tile.reads (t : Tile) (r lo hi : Nat) : Tile :=
  if t.bad = 0 then t
  else
    let fails := (List.range 16).filter fun w => decide (32 * w < hi) && decide (lo < 32 * w + 32) && t.bad.getLsbD (16 * r + w)
    { t with poison := fails.foldl (fun p w => p ||| BitVec.ofNat 512 (2 ^ (8 * r + w / 2))) t.poison }
/-- Element (`m`, `n`) of an accumulator (R262). -/
def Acc.elem (a : Acc) (m n : Nat) : Nat := Machine.bits a.bits.toNat (2048 * m + 32 * n) 32
def Acc.grain (a : Acc) (m n : Nat) : Bool := a.poison.getLsbD (8 * m + n / 8)
def Acc.setElem (a : Acc) (m n x : Nat) : Acc :=
  { a with bits := BitVec.ofNat 131072 (patchBits a.bits.toNat (2048 * m + 32 * n) 32 x), written := true,
           bad := a.bad &&& ~~~(BitVec.ofNat 4096 (2 ^ (64 * m + n))) }
def Acc.poisonGrain (a : Acc) (g : Nat) : Acc := { a with poison := a.poison ||| BitVec.ofNat 512 (2 ^ g) }
/-- The press reads element (`m`, `n`) (R282). -/
def Acc.reads (a : Acc) (m n : Nat) : Acc := if a.bad.getLsbD (64 * m + n) then a.poisonGrain (8 * m + n / 8) else a
/-- It reads the first `n` elements of row `m`. -/
def Acc.readsRow (a : Acc) (m n : Nat) : Acc := if a.bad = 0 then a else (List.range n).foldl (fun a i => a.reads m i) a
/-- The poison of some grains after writes: a grain written whole loses its old bit (R282). -/
def Acc.settle (a : Acc) (whole set : Nat) : Acc :=
  { a with poison := (a.poison &&& ~~~(BitVec.ofNat 512 whole)) ||| BitVec.ofNat 512 set }

def modTile (d : Fin 16) (g : Tile → Tile) : M Unit := modF fun f => { f with t := f.t.set d (g f.t[d]) }
def modAcc (d : Fin 8) (g : Acc → Acc) : M Unit := modF fun f => { f with a := f.a.set d (g f.a[d]) }

/-- Elements of tiles that the press reads, as (tile, width, row, column) (R282). -/
def Firing.readsTiles (f : Firing) (l : Unit → List (Fin 16 × Nat × Nat × Nat)) : Firing :=
  if f.t.toList.all (·.bad == 0) then f
  else (l ()).foldl (fun f (k, w, r, c) => { f with t := f.t.set k (f.t[k].reads r (c * w) (c * w + w)) }) f

/-- The rounding of every press result (R264). -/
def Firing.pressRound (f : Firing) : Round :=
  match f.bcrm % 4 with
  | 0 => .rne
  | 1 => .rtz
  | 2 => .rup
  | _ => .rdn

/-- TILECFG with its reason (R266). -/
def tilecfg {α : Type} (reason : Nat) : M α :=
  stopWith (.trap { cause := cTILECFG, eKind := true, engine := 3, count := 1, detail := reason })
/-- Tile numbers from a base on. -/
def tileNo (n : Nat) : Fin 16 := Fin.ofNat 16 n
/-- The lowest reason that applies. -/
def tileChecks : List (Bool × Nat) → M Unit
  | [] => return ()
  | (b, k) :: r => if b then tilecfg k else tileChecks r

/-! Panels (R280, R281). -/

/-- An instruction that takes panels starts at `PSTART`, or at its dumped progress; `np`: the panels of a stage. -/
def startPanels (count np : Nat) : M Unit := do
  let e ← getCur
  if e.started then modF fun f => f.setPstart e.prog
  else
    markStarted count
    let f ← getF
    modCur fun e => { e with prog := f.pstartWord, skip := f.stage * np + f.panel }

/-- A panel retires: `PSTART` names the next one. -/
def retirePanel (stage panel : Nat) : M Unit := do
  modF fun f => { f with panel := panel, stage := stage, panels := f.panels + 1 }
  let f ← getF
  modCur fun e => { e with prog := f.pstartWord }

/-- The panels from `k` on, `n` of them. -/
def panelLoop (stage : Nat) (body : Nat → M Unit) : Nat → Nat → M Unit
  | 0, _ => return ()
  | n + 1, k => do
    unit
    body k
    retirePanel stage (k + 1)
    panelLoop stage body n (k + 1)

/-- A run of `total` panels from `PSTART.PANEL`, and its commit; the panels it has completed. -/
def runPanels (total : Nat) (body : Nat → M Unit) : M Nat := do
  startPanels 0 0
  let k := (← getF).panel
  panelLoop (← getF).stage body (total - k) k
  modF fun f => { f with panel := 0, stage := 0 }
  return total - (← getCur).skip

/-! Memory rows. -/

/-- Bytes `n` from `va`, split where pages and banks may change. -/
def rowPieces (va : Word) (n : Nat) : List (Word × Nat) :=
  let first := min n (4096 - va.toNat % 4096)
  if n = 0 then [] else if n ≤ first then [(va, n)] else [(va, first), (va + b64 first, n - first)]

/-- The places of a row, each piece checked (R269, R271), or the fault at the row. -/
def rowPlaces (need : Need) (kind align row : Nat) : List (Word × Nat) → M (List (Place × Word × Nat))
  | [] => return []
  | (va, n) :: r => do
    match ← locate (← me) need kind va align with
    | .error e =>
      stopWith (.trap { cause := e.cause, eKind := true, engine := 3, addr := some e.va, index := row, count := 1,
                        access := e.access })
    | .ok p => return (p, va, n) :: (← rowPlaces need kind align row r)

/-- Bytes of a row, beat by beat of 64 bytes: which of them are poisoned, in memory or by the beat that brought them (Table 3.7). -/
def rowPoison (core loc n : Nat) : Nat → M (List Bool)
  | 0 => return []
  | fuel + 1 => do
    if n = 0 then return []
    let k := min n (64 - loc % 64)
    let beat ← takeBeat core
    let s ← getS
    return ((List.range k).map fun i => beat || s.isPoisoned (loc + i) 1) ++ (← rowPoison core (loc + k) (n - k) fuel)
/-- The bytes of a row as one number, and which of them are poisoned. -/
def readRow : List (Place × Word × Nat) → M (Nat × List Bool)
  | [] => return (0, [])
  | (p, _, n) :: r => do
    let k := (← me).core
    performStores fun x => x.press && x.core == k
    showTo k p.loc n
    let x := Memory.read (← getS).mem p.loc n
    let ps ← rowPoison k p.loc n (n / 64 + 2)
    let (y, qs) ← readRow r
    return (x + 2 ^ (8 * n) * y, ps ++ qs)

/-- Write a row by aligned words, each poisoned when a byte of it is (R71, R282). -/
def writeRow (poisoned : Nat → Bool) : Nat → Nat → List (Place × Word × Nat) → M Unit
  | _, _, [] => return ()
  | i, x, (p, va, n) :: r => do
    let rec words : Nat → Place → Word → Nat → Nat → Nat → M Unit
      | 0, _, _, _, _, _ => return ()
      | fuel + 1, p, va, n, i, x => do
        if n = 0 then return ()
        let k := min n (8 - p.loc % 8)
        writeSpan (← me) .press 0 va 2 p k (x % 2 ^ (8 * k)) ((List.range k).any fun j => poisoned (i + j))
        words fuel { p with loc := p.loc + k } (va + b64 k) (n - k) (i + k) (x / 2 ^ (8 * k))
    words (n + 1) p va n i x
    writeRow poisoned (i + n) (x / 2 ^ (8 * n)) r

/-- A store of the press commits once its last write has been performed (R284). -/
def storingPanels (total : Nat) (body : Nat → M Unit) : M Nat := do
  let n ← runPanels total body
  let k := (← getS).core.id
  performStores fun x => x.press && x.core == k
  return n

/-- Address of row `r` (R269). -/
def rowAddr (sc : Vector Word 4) (disp : BitVec 8) (r : Nat) : Word := sc[1] + disp.signExtend 64 + b64 r * sc[2]

/-- Some of a list of bytes. -/
def anyIn (l : List Bool) (lo n : Nat) : Bool := ((l.drop lo).take n).any id

/-! Configuring and moving tiles (R267 to R270). -/

def tsetBody (d : Fin 16) : M Nat := do
  let w := (← getCur).scal[1].toNat
  modF fun f => { f with tcfg := f.tcfg.set d (TCfg.ofWord w) }
  return 1

def tldBody (d : Fin 16) (disp : BitVec 8) : M Nat := do
  let cfg := (← getF).tcfg[d]
  tileChecks [(!cfg.fit, 2)]
  let sc := (← getCur).scal
  let rb := cfg.rb.toNat
  let n ← runPanels cfg.rows.toNat fun r => do
    let (x, ps) ← readRow (← rowPlaces needLoad aLoad 1 r (rowPieces (rowAddr sc disp r) rb))
    modTile d fun t => t.setRow r x (((List.range 8).map fun g => if anyIn ps (8 * g) 8 then 2 ^ g else 0).sum)
  if n ≠ 0 then
    let rows := cfg.rows.toNat
    modTile d fun t => { t with bits := BitVec.ofNat 32768 (t.bits.toNat % 2 ^ (512 * rows)),
                                poison := BitVec.ofNat 512 (t.poison.toNat % 2 ^ (8 * rows)), written := true,
                                bad := BitVec.ofNat 1024 (t.bad.toNat % 2 ^ (16 * rows)) }
  return n

def tldRegisterBody (d : Fin 16) (a : Fin 64) : M Nat := do
  let cfg := (← getF).tcfg[d]
  tileChecks [(!rowsOk cfg, 2)]
  unit
  useVecs [] [a]
  let rows := cfg.rows.toNat
  let v := (← getF).v[a]
  modTile d fun _ =>
    { bits := BitVec.ofNat 32768 (v.bits.toNat % 2 ^ (512 * rows)),
      poison := BitVec.ofNat 512 (((List.range rows).map fun r => if v.poison.getLsbD r then 255 * 2 ^ (8 * r) else 0).sum),
      written := true }
  return 1

def tstBody (d : Fin 16) (disp : BitVec 8) : M Nat := do
  let cfg := (← getF).tcfg[d]
  tileChecks [(!cfg.fit, 2)]
  let sc := (← getCur).scal
  let rb := cfg.rb.toNat
  storingPanels cfg.rows.toNat fun r => do
    let ps ← rowPlaces needStore aStore 1 r (rowPieces (rowAddr sc disp r) rb)
    modTile d fun t => t.reads r 0 (8 * rb)
    let t := (← getF).t[d]
    writeRow (fun i => t.poison.getLsbD (8 * r + i / 8)) 0 (bits t.bits.toNat (512 * r) (8 * rb)) ps

def tstRegisterBody (d : Fin 64) (a : Fin 16) : M Nat := do
  let cfg := (← getF).tcfg[a]
  tileChecks [(!rowsOk cfg, 2)]
  unit
  useVecs [d] []
  let rows := cfg.rows.toNat
  modTile a fun t => (List.range rows).foldl (fun t r => t.reads r 0 512) t
  let t := (← getF).t[a]
  modF fun f =>
    let f := f.grow d 512 rows
    let v := f.v[d]
    let f := { f with v := f.v.set d { v with bits := BitVec.ofNat 32768 (patchBits v.bits.toNat 0 (512 * rows) t.bits.toNat) } }
    f.setPoison d (2 ^ rows - 1)
      (((List.range rows).map fun r => if bits t.poison.toNat (8 * r) 8 ≠ 0 then 2 ^ r else 0).sum)
  return 1

def tzeroBody (d : Fin 16) : M Nat := do
  modTile d fun _ => { written := true }
  return 1
def azeroBody (d : Fin 8) : M Nat := do
  modAcc d fun _ => { written := true }
  return 1

/-! Moving accumulators (R271). -/

/-- An element of memory, widened into an accumulator. -/
def widen (fmt : Fmt) (x : Nat) : Nat :=
  if fmt.isInt then encInt .i32 (intValue fmt x) else (cvtFp (valueOf fmt x) .f32 .rne).1
/-- An accumulator element, converted to a format. -/
def narrowAcc (fmt : Fmt) (rm : Round) (x : Nat) : Nat × Flags :=
  if fmt.isInt then cvt (Ex.ofInt (intValue .i32 x)) fmt rm else cvt (valueOf .f32 x) fmt rm

/-- Rows and columns of a shape scalar. -/
def shapeOf (c : Word) : Nat × Nat := (bits c.toNat 0 7, bits c.toNat 8 7)
def shapeBad (c : Word) : Bool :=
  let (r, n) := shapeOf c
  r == 0 || decide (64 < r) || n == 0 || decide (64 < n)

def aldBody (d : Fin 8) (disp : BitVec 8) (fmt : Fmt) : M Nat := do
  let sc := (← getCur).scal
  tileChecks [(shapeBad sc[3], 7)]
  let (rows, cols) := shapeOf sc[3]
  let b := fmt.width / 8
  runPanels rows fun m => do
    let (x, ps) ← readRow (← rowPlaces needLoad aLoad b m (rowPieces (rowAddr sc disp m) (cols * b)))
    modAcc d fun a =>
      let a := (List.range cols).foldl (fun (a : Acc) n => a.setElem m n (widen fmt (bits x (8 * b * n) (8 * b)))) a
      a.settle (((List.range (cols / 8)).map fun g => 2 ^ (8 * m + g)).sum)
        (((List.range 8).map fun g => if anyIn ps (8 * b * g) (8 * b) then 2 ^ (8 * m + g) else 0).sum)

def aldRegisterBody (d : Fin 8) (a : Fin 64) (row0 : Fin 4) : M Nat := do
  unit
  useVecs [] [a]
  let v := (← getF).v[a]
  let r := 16 * row0.val
  modAcc d fun c =>
    { bits := BitVec.ofNat 131072 (patchBits c.bits.toNat (2048 * r) 32768 v.bits.toNat),
      poison := BitVec.ofNat 512 (patchBits c.poison.toNat (8 * r) 128
        (((List.range 64).map fun g => if v.poison.getLsbD g then 3 * 2 ^ (2 * g) else 0).sum)), written := true,
      bad := BitVec.ofNat 4096 (patchBits c.bad.toNat (64 * r) 1024 0) }
  return 1

/-- Elements `0` to `n - 1` of row `m`, converted: bits, and flags raised. -/
def convertRow (fmt : Fmt) (rm : Round) (a : Acc) (m n : Nat) : Nat × Flags :=
  (List.range n).foldl (fun (x, fl) i =>
    let (y, g) := narrowAcc fmt rm (a.elem m i)
    (x + y * 2 ^ (fmt.width * i), fl ||| g)) (0, 0)

def astBody (d : Fin 8) (disp : BitVec 8) (fmt : Fmt) : M Nat := do
  let sc := (← getCur).scal
  tileChecks [(shapeBad sc[3], 7)]
  let (rows, cols) := shapeOf sc[3]
  let b := fmt.width / 8
  storingPanels rows fun m => do
    let ps ← rowPlaces needStore aStore b m (rowPieces (rowAddr sc disp m) (cols * b))
    modAcc d fun a => a.readsRow m cols
    let f ← getF
    let a := f.a[d]
    let (x, fl) := convertRow fmt f.pressRound a m cols
    modF fun f => f.raise fl
    writeRow (fun i => a.grain m (i / b)) 0 x ps

def astRegisterBody (d : Fin 64) (a : Fin 8) (row0 : Fin 4) (fmt : Fmt) : M Nat := do
  unit
  useVecs [d] []
  let w := fmt.width
  modAcc a fun c => (List.range 16).foldl (fun c i => c.readsRow (16 * row0.val + i) 64) c
  modF fun f =>
    let c := f.a[a]
    let rows := (List.range 16).map fun i => convertRow fmt f.pressRound c (16 * row0.val + i) 64
    let (x, fl) := (rows.zipIdx).foldl (fun (x, fl) ((y, g), i) => (x + y * 2 ^ (64 * w * i), fl ||| g)) (0, (0 : Flags))
    let f := (f.grow d w 1024).raise fl
    let v := f.v[d]
    let f := { f with v := f.v.set d { v with bits := BitVec.ofNat 32768 (patchBits v.bits.toNat 0 (1024 * w) x) } }
    f.setPoison d (2 ^ (2 * w) - 1) (((List.range 1024).map fun e =>
      if c.grain (16 * row0.val + e / 64) (e % 64) then 2 ^ (e * w / 512) else 0).foldl (· ||| ·) 0)
  return 1

/-! Exact sums of several terms (R272, R277). -/

/-- The exact sum of finite terms as an integer and its exponent. -/
def exactSum : List Ex → Int × Int
  | [] => (0, 0)
  | .num s n _ e _ :: r =>
    let (v, q) := exactSum r
    if n = 0 then (v, q)
    else if v = 0 then (dyadic s n, e)
    else
      let m := min e q
      (dyadic s n * 2 ^ (e - m).toNat + v * 2 ^ (q - m).toNat, m)
  | _ :: r => exactSum r

/-- The sum of terms whose products raised `fl`: NaN, infinities, and the sign of a zero (R277). -/
def sumTerms (rm : Round) (fl : Flags) (l : List Ex) : Ex × Flags :=
  let clash := l.contains (.inf true) && l.contains (.inf false)
  let fl := if clash then fl ||| fNV else fl
  if clash || l.any Ex.isNan then (.nan, fl)
  else
    match l.find? Ex.isInf with
    | some x => (x, fl)
    | none =>
      let (v, q) := exactSum l
      if v = 0 then
        (Ex.zero (if l.all fun x => x.isZero && x.sign then true
                  else if l.all fun x => x.isZero && !x.sign then false
                  else decide (rm = .rdn)), fl)
      else (.num (decide (v < 0)) v.natAbs 1 q false, fl)

/-! Butterfly stages (R272 to R274). -/

/-- What a run of stages works with. -/
structure Butterfly where
  n : Nat
  ns : Nat
  field0 : Nat
  d : Fin 64
  a : Fin 64
  tw : Fin 16
  acc : Fin 8
  src : Fmt
  dst : Fmt
  wf : Fmt
  perTile : Nat
  perRow : Nat

def Butterfly.stride (b : Butterfly) (f : Firing) (j : Nat) : Nat := 2 ^ bits f.bstride.toNat (4 * (b.field0 + j)) 4
/-- Weight number `l` of the run, and its poison (R273). -/
def Butterfly.weight (b : Butterfly) (f : Firing) (l : Nat) : Nat × Bool :=
  let t := f.t[tileNo (b.tw.val + l / b.perTile)]
  let e := l % b.perTile
  (t.elem b.wf.width (e / b.perRow) (e % b.perRow), t.elemPoison b.wf.width (e / b.perRow) (e % b.perRow))
/-- Input `k` of stage `j`, and its poison. -/
def Butterfly.input (b : Butterfly) (f : Firing) (j k : Nat) : Ex × Bool :=
  if j = 0 then (valueOf b.src (f.v[b.a].elem b.src.width k), f.v[b.a].elemPoison b.src.width k)
  else (valueOf .f32 (f.a[b.acc].elem (k / 64) (k % 64)), f.a[b.acc].grain (k / 64) (k % 64))
/-- The two elements of pair `p` in a stage of stride `s`. -/
def pairOf (s p : Nat) : Nat × Nat := let i := p / s * (2 * s) + p % s; (i, i + s)

/-- One result of a pair. -/
def Butterfly.result (b : Butterfly) (f : Firing) (j p q : Nat) (x y : Ex) : Ex × Flags :=
  let (w0, _) := b.weight f (4 * (j * (b.n / 2) + p) + q)
  let (w1, _) := b.weight f (4 * (j * (b.n / 2) + p) + q + 1)
  let (t0, f0) := mulEx (valueOf b.wf w0) x
  let (t1, f1) := mulEx (valueOf b.wf w1) y
  sumTerms f.pressRound (f0 ||| f1) [t0, t1]

/-- Deliver a result: to the destination in the last stage, else to the accumulator through the carry format. -/
def Butterfly.deliver (b : Butterfly) (f : Firing) (last : Bool) (k : Nat) (r : Ex × Flags) : Firing :=
  if last then
    let (y, fl) := cvt r.1 b.dst f.pressRound
    (f.setElem b.d b.dst.width k y).raise (r.2 ||| fl)
  else
    let carry := (Fmt.ofCode? f.bcfmt).getD .f32
    let (y, fl) := cvt r.1 carry f.pressRound
    let z := (cvtFp (valueOf carry y) .f32 .rne).1
    { f with a := f.a.set b.acc (f.a[b.acc].setElem (k / 64) (k % 64) z) }.raise (r.2 ||| fl)

/-- One pair of stage `j`: both inputs are read before either output is written (R273). -/
def Butterfly.pair (b : Butterfly) (j : Nat) (f : Firing) (p : Nat) : Firing :=
  let (i, k) := pairOf (b.stride f j) p
  let (x, _) := b.input f j i
  let (y, _) := b.input f j k
  let last := j + 1 == b.ns
  let r0 := b.result f j p 0 x y
  let r1 := b.result f j p 2 x y
  b.deliver (b.deliver f last i r0) last k r1

/-- The poison that pairs give their results: (element, poisoned). -/
def Butterfly.poisons (b : Butterfly) (f : Firing) (j : Nat) (ps : List Nat) : List (Nat × Bool) :=
  ps.flatMap fun p =>
    let (i, k) := pairOf (b.stride f j) p
    let x := (b.input f j i).2 || (b.input f j k).2
    let w := fun q => (b.weight f (4 * (j * (b.n / 2) + p) + q)).2
    [(i, x || w 0 || w 1), (k, x || w 2 || w 3)]

/-- Grains of an accumulator that elements `l` cover whole, and those they poison. -/
def grainsOf (l : List (Nat × Bool)) : Nat × Nat :=
  let gs := (l.map fun (k, _) => k / 8).eraseDups
  ((gs.map fun g => if (List.range 8).all fun i => l.any fun (k, _) => k == 8 * g + i then 2 ^ g else 0).sum,
   (gs.map fun g => if l.any fun (k, p) => k / 8 == g && p then 2 ^ g else 0).sum)

/-- The element groups of the destination that elements `l` of width `w` cover whole, and those they poison. -/
def vgroupsOf (w : Nat) (l : List (Nat × Bool)) : Nat × Nat :=
  let per := 512 / w
  let gs := (l.map fun (k, _) => k / per).eraseDups
  ((gs.map fun g => if (l.filter fun (k, _) => k / per == g).length = per then 2 ^ g else 0).sum,
   (gs.map fun g => if l.any fun (k, p) => k / per == g && p then 2 ^ g else 0).sum)

/-- What the pairs of a stage read of tiles and accumulator, with its parity (R282). -/
def Butterfly.reads (b : Butterfly) (j : Nat) (ps : List Nat) (f : Firing) : Firing :=
  let f := f.readsTiles fun _ => ps.flatMap fun p => (List.range 4).map fun q =>
    let l := 4 * (j * (b.n / 2) + p) + q
    (tileNo (b.tw.val + l / b.perTile), b.wf.width, l % b.perTile / b.perRow, l % b.perTile % b.perRow)
  if j = 0 ∨ f.a[b.acc].bad = 0 then f
  else
    let ks := ps.flatMap fun p => let (i, k) := pairOf (b.stride f j) p; [i, k]
    { f with a := f.a.set b.acc (ks.foldl (fun a k => a.reads (k / 64) (k % 64)) f.a[b.acc]) }

/-- One pair panel of stage `j` (R273). It covers whole groups of the destination, whose poison comes with it (R274). -/
def Butterfly.panel (b : Butterfly) (j q : Nat) : M Unit := do
  let ps := (List.range (min 64 (b.n / 2 - 64 * q))).map (64 * q + ·)
  modF fun f =>
    let f := b.reads j ps f
    let pois := b.poisons f j ps
    let f := ps.foldl (b.pair j) f
    if j + 1 = b.ns then
      let (whole, set) := vgroupsOf b.dst.width pois
      f.setPoison b.d whole set
    else
      let (whole, set) := grainsOf pois
      { f with a := f.a.set b.acc (f.a[b.acc].settle whole set) }

/-- Stages `j` on; `PSTART` goes from the last panel of one to the first of the next only when that retires. -/
def Butterfly.stages (b : Butterfly) : Nat → Nat → M Unit
  | 0, _ => return ()
  | k + 1, j => do
    let f ← getF
    let q0 := if f.stage = j then f.panel else 0
    let np := (b.n / 2 + 63) / 64
    panelLoop j (b.panel j) (np - q0) q0
    b.stages k (j + 1)

/-- `bfly` and `bchain` (R273). From a start past the last panel nothing is written (R280). The range of a `tw` that holds no whole
element is that tile alone: DESIGN CHOICE, log entry 144. -/
def butterflyBody (ns field0 : Nat) (d a : Fin 64) (tw : Fin 16) (acc : Fin 8) (src dst : Fmt) : M Nat := do
  let c ← laneRun (max src.width dst.width) 0
  let n := c.evl
  let f ← getF
  let cur ← getCur
  let cfg := f.tcfg[tw]
  let wf := cfg.fmt?.getD .f32
  let per := cfg.perRow wf.width
  let e := cfg.rows.toNat * per
  let count := if e = 0 then 1 else max 1 ((2 * ns * n + e - 1) / e)
  let others := (List.range (min count (16 - tw.val))).any fun i => f.tcfg[tileNo (tw.val + i)] != cfg
  let b : Butterfly := { n := n, ns := ns, field0 := field0, d := d, a := a, tw := tw, acc := acc, src := src, dst := dst,
                         wf := wf, perTile := e, perRow := per }
  tileChecks [(!cfg.isOneOf [.f32, .bf16, .f16, .e4m3, .e5m2] || others, 1), (!cfg.fit, 2),
    ((if cur.started then cur.pad else f.ln[0].pad) != 0 || (List.range ns).any (fun j => n % (2 * b.stride f j) != 0), 4), (decide (16 < tw.val + count), 5)]
  if n ≠ 0 then useVecs [d] [a]
  let np := stagePanels c.count (.bfly 0 0 d a tw src dst)
  startPanels c.count np
  let j0 := (← getF).stage
  if n ≠ 0 ∧ (j0 + 1 < ns ∨ (j0 + 1 = ns ∧ (← getF).panel < np)) then
    committingIf (do let f ← getF; return f.stage + 1 == ns && f.panel != 0) [(d, ceil8 (n * dst.width))] (b.stages (ns - j0) j0)
  modF fun f => { f with panel := 0, stage := 0 }
  return ns * np - (← getCur).skip

/-! Matrix products (R275 to R279). -/

/-- A matrix product into one accumulator: sizes, the tile, row and column of an element of either operand, the scale registers
and block length of `bmmx`, and whether the result is `i32`. -/
structure Product where
  acc : Fin 8
  m : Nat
  n : Nat
  k : Nat
  int : Bool
  a : Nat → Nat → Nat × Nat × Nat
  b : Nat → Nat → Nat × Nat × Nat
  scales : Option (VReg × VReg × Nat) := none

/-- An element of a tile as an operand: its value, the flags its reading raises, its poison. -/
def tileTerm (f : Firing) : Nat × Nat × Nat → Ex × Flags × Bool
  | (t, r, c) =>
    let cfg := f.tcfg[tileNo t]
    let fmt := cfg.fmt?.getD .f32
    let x := f.t[tileNo t].elem fmt.width r c
    (valueOf fmt x, readFlags fmt x, f.t[tileNo t].elemPoison fmt.width r c)

/-- An operand with its block scale (R278): of row or column `i`, at inner position `k`. -/
def scaled (v : VReg) (perRow b : Nat) (i k : Nat) (x : Ex × Flags × Bool) : Ex × Flags × Bool :=
  let j := i * perRow + k / b
  let s := v.elem 8 j
  (if s = 0xFF then .nan else scaleEx ((s : Int) - 127) x.1, x.2.1, x.2.2 || v.elemPoison 8 j)

/-- The product of inner position `k` for element (`m`, `n`). -/
def Product.term (x : Product) (f : Firing) (m n k : Nat) : Ex × Flags × Bool :=
  let u := tileTerm f (x.a m k)
  let v := tileTerm f (x.b k n)
  let (u, v) := match x.scales with
    | some (sa, sb, b) => (scaled sa (x.k / b) b m k u, scaled sb (x.k / b) b n k v)
    | none => (u, v)
  let (y, g) := mulEx u.1 v.1
  (y, g ||| u.2.1 ||| v.2.1, u.2.2 || v.2.2)

/-- The inner positions of k-panel `q`. -/
def Product.ks (x : Product) (q : Nat) : List Nat := (List.range (min 16 (x.k - 16 * q))).map (16 * q + ·)

/-- Element (`m`, `n`) after k-panel `q` (R277). -/
def Product.elem (x : Product) (q m n : Nat) (f : Firing) : Firing :=
  let ac := f.a[x.acc].reads m n
  let old := ac.elem m n
  let terms := (x.ks q).map (x.term f m n)
  let fl := terms.foldl (fun (g : Flags) t => g ||| t.2.1) 0
  let pois := terms.any (·.2.2) || ac.grain m n
  let (y, fl) :=
    if x.int then
      let (v, e) := exactSum (terms.map (·.1))
      (encInt .i32 (intValue .i32 old + v * 2 ^ e.toNat), fl)
    else
      let (r, g) := sumTerms f.pressRound fl (valueOf .f32 old :: terms.map (·.1))
      let (y, h) := cvt r .f32 f.pressRound
      (y, g ||| h)
  let ac := ac.setElem m n y
  { f with a := f.a.set x.acc (if pois then ac.poisonGrain (8 * m + n / 8) else ac) }.raise fl

/-- The rows and columns of a product that masks select. -/
def Product.cells (x : Product) (rows : BitVec 16384) (cols : Nat → Bool) : List (Nat × Nat) :=
  ((List.range x.m).filter rows.getLsbD).flatMap fun m => ((List.range x.n).filter cols).map fun n => (m, n)

/-- One k-panel of some products: parity of the elements read (R282), then the sums. -/
def productPanel (xs : List Product) (rows : BitVec 16384) (cols : Nat → Bool) (q : Nat) (f : Firing) : Firing :=
  xs.foldl (fun f x =>
    let place := fun (p : Nat × Nat × Nat) => (tileNo p.1, f.tcfg[tileNo p.1].width, p.2.1, p.2.2)
    let f := f.readsTiles fun _ => (x.cells rows cols).flatMap fun (m, n) => (x.ks q).flatMap fun k => [place (x.a m k), place (x.b k n)]
    (x.cells rows cols).foldl (fun f (m, n) => if 16 * q < x.k then x.elem q m n f else f) f) f

/-- The columns that `x[C]` selects; all of them without one (R277). -/
def colMask (c : Fin 32) : M (Nat → Bool) := do
  let w := (← getCur).scal[3]
  return fun n => c == 0 || w.getLsbD n

/-- Formats accepted together (Table 11.8): f32 results, i32 results. -/
def pairOkF (a b : TCfg) : Bool :=
  (a.isOneOf [.bf16] && b.isOneOf [.bf16]) || (a.isOneOf [.f16] && b.isOneOf [.f16]) ||
  (a.isOneOf [.f32] && b.isOneOf [.f32]) || (a.isOneOf [.e4m3, .e5m2] && b.isOneOf [.e4m3, .e5m2])
def pairOkI (a b : TCfg) : Bool := a.isOneOf [.i8, .n8, .i4, .n4] && b.isOneOf [.i8, .n8]
def mxFmts : List Fmt := [.e4m3, .e5m2, .e3m2, .e2m3, .e2m1]

/-- The inner dimensions disagree, or the result is too large (R276). -/
def dimsBad (a b : TCfg) : Bool :=
  a.perRow a.width != b.rows.toNat || decide (64 < a.rows.toNat) || decide (64 < b.perRow b.width)

/-- Does the mask of the rows and that of the columns leave a product any element (R280)? -/
def Product.hasWork (x : Product) (rows : BitVec 16384) (cols : Nat → Bool) : Bool :=
  (List.range x.m).any rows.getLsbD && (List.range x.n).any cols
/-- Products over `k` inner positions, by k-panels; those without work commit without a panel (R280). -/
def runProducts (xs : List Product) (k : Nat) (rows : BitVec 16384) (cols : Nat → Bool) : M Nat :=
  runPanels (if xs.any (·.hasWork rows cols) then (k + 15) / 16 else 0) fun q => modF (productPanel xs rows cols q)

/-- `bmma` and `tmac` (R275, R279). -/
def mmaBody (d : Fin 8) (ta tb : Fin 16) (c : Fin 32) (m : Fin 8) (int : Bool) (ok : TCfg → TCfg → Bool) : M Nat := do
  checkMask m
  let f ← getF
  let a := f.tcfg[ta]
  let b := f.tcfg[tb]
  tileChecks [(!ok a b, 1), (!a.fit || !b.fit, 2), (dimsBad a b, 3)]
  let k := b.rows.toNat
  let x : Product := { acc := d, m := a.rows.toNat, n := b.perRow b.width, k := k, int := int, a := fun r i => (ta.val, r, i),
                       b := fun i n => (tb.val, i, n) }
  runProducts [x] k (f.rm m) (← colMask c)

/-- `bblk` (R275). -/
def bblkBody (d : Fin 8) (tx tw : Fin 16) (c : Fin 32) (m : Fin 8) (fmt : Fmt) : M Nat := do
  checkMask m
  let f ← getF
  let cw := f.tcfg[tw]
  let cx := f.tcfg[tx]
  let agree := (List.range 4).all (fun i => f.tcfg[tileNo (tw.val + i)] == cw) && f.tcfg[tileNo (tx.val + 1)] == cx
  tileChecks [(!(if fmt == .f32 then pairOkF else pairOkI) cw cx || !agree, 1), (!cw.fit || !cx.fit, 2), (dimsBad cw cx, 3)]
  let k := cx.rows.toNat
  let prod := fun (acc : Fin 8) (w : Nat) =>
    ({ acc := acc, m := cw.rows.toNat, n := cx.perRow cx.width, k := 2 * k, int := fmt == .i32,
       a := fun r i => if i < k then (w, r, i) else (w + 1, r, i - k),
       b := fun i n => if i < k then (tx.val, i, n) else (tx.val + 1, i - k, n) } : Product)
  runProducts [prod d tw.val, prod (d + 1) (tw.val + 2)] (2 * k) (f.rm m) (← colMask c)

/-- `bmmx` (R278): the block length is the one of its start (R161), checked before the tiles: DESIGN CHOICE, log entry 145. -/
def bmmxBody (d : Fin 8) (ta tb : Fin 16) (va : Fin 64) (m : Fin 8) (vb : Fin 64) : M Nat := do
  checkMask m
  let f ← getF
  let e ← getCur
  let blk := blockLen (if e.started then e.blk else f.vblk)
  if blk = 0 then stopWith (.trap { cause := cILLFMT, eKind := true, engine := 3 })
  let a := f.tcfg[ta]
  let b := f.tcfg[tb]
  let k := b.rows.toNat
  tileChecks [(!a.isOneOf mxFmts || !b.isOneOf mxFmts, 1), (!a.fit || !b.fit, 2), (dimsBad a b, 3), (k % blk != 0, 6)]
  useVecs [] [va, vb]
  let sa := f.v[va]
  let sb := f.v[vb]
  let x : Product :=
    { acc := d, m := a.rows.toNat, n := b.perRow b.width, k := k, int := false, a := fun r i => (ta.val, r, i),
      b := fun i n => (tb.val, i, n), scales := some (sa, sb, blk) }
  runProducts [x] k (f.rm m) fun _ => true

/-- `pstat` (R283). -/
def pstatBody (d : Fin 32) (sel : Bool) : M Nat := do
  let f ← getF
  let t := ((List.finRange 16).map fun k => if f.t[k].poison != 0 then 2 ^ k.val else 0).sum
  let a := ((List.finRange 8).map fun k => if f.a[k].poison != 0 then 2 ^ (16 + k.val) else 0).sum
  writeX d (if sel then f.panels else b64 (t + a))
  return 1

/-- `tset` (R267). -/
def execTset (st d : Fin 16) (a : Fin 32) (s : State) : Host.Outcome State Fault Refusal :=
  runEngine (.tset st d a) st 3 [(1, a)] (tsetBody d) s
/-- `tld` from memory (R269). -/
def execTld (st d : Fin 16) (a b : Fin 32) (disp : BitVec 8) (s : State) : Host.Outcome State Fault Refusal :=
  runEngine (.tld st d a b disp) st 3 [(1, a), (2, b)] (tldBody d disp) s
/-- `tld` from a register (R270). -/
def execTldRegister (st d : Fin 16) (a : Fin 64) (s : State) : Host.Outcome State Fault Refusal :=
  runEngine (.tldRegister st d a) st 3 [] (tldRegisterBody d a) s
/-- `tst` to memory (R269). -/
def execTst (st d : Fin 16) (a b : Fin 32) (disp : BitVec 8) (s : State) : Host.Outcome State Fault Refusal :=
  runEngine (.tst st d a b disp) st 3 [(1, a), (2, b)] (tstBody d disp) s
/-- `tst` to a register (R270). -/
def execTstRegister (st : Fin 16) (d : Fin 64) (a : Fin 16) (s : State) : Host.Outcome State Fault Refusal :=
  runEngine (.tstRegister st d a) st 3 [] (tstRegisterBody d a) s
/-- `tzero` (R268). -/
def execTzero (st d : Fin 16) (s : State) : Host.Outcome State Fault Refusal :=
  runEngine (.tzero st d) st 3 [] (tzeroBody d) s
/-- `azero` (R268). -/
def execAzero (st : Fin 16) (d : Fin 8) (s : State) : Host.Outcome State Fault Refusal :=
  runEngine (.azero st d) st 3 [] (azeroBody d) s
/-- `ald` from memory (R271). -/
def execAld (st : Fin 16) (d : Fin 8) (a b c : Fin 32) (disp : BitVec 8) (fmt : Fmt) (s : State) : Host.Outcome State Fault Refusal :=
  runEngine (.ald st d a b c disp fmt) st 3 [(1, a), (2, b), (3, c)] (aldBody d disp fmt) s
/-- `ald` from a register (R271). -/
def execAldRegister (st : Fin 16) (d : Fin 8) (a : Fin 64) (row0 : Fin 4) (s : State) : Host.Outcome State Fault Refusal :=
  runEngine (.aldRegister st d a row0) st 3 [] (aldRegisterBody d a row0) s
/-- `ast` to memory (R271). -/
def execAst (st : Fin 16) (d : Fin 8) (a b c : Fin 32) (disp : BitVec 8) (fmt : Fmt) (s : State) : Host.Outcome State Fault Refusal :=
  runEngine (.ast st d a b c disp fmt) st 3 [(1, a), (2, b), (3, c)] (astBody d disp fmt) s
/-- `ast` to a register (R271). -/
def execAstRegister (st : Fin 16) (d : Fin 64) (a : Fin 8) (row0 : Fin 4) (fmt : Fmt) (s : State) : Host.Outcome State Fault Refusal :=
  runEngine (.astRegister st d a row0 fmt) st 3 [] (astRegisterBody d a row0 fmt) s
/-- `bfly` (R273). -/
def execBfly (st j : Fin 16) (d a : Fin 64) (b : Fin 16) (src fmt : Fmt) (s : State) : Host.Outcome State Fault Refusal :=
  runEngine (.bfly st j d a b src fmt) st 3 [] (butterflyBody 1 j.val d a b 0 src fmt) s
/-- `bchain` (R273). -/
def execBchain (st j : Fin 16) (d a : Fin 64) (b : Fin 16) (c : Fin 8) (src fmt : Fmt) (s : State) : Host.Outcome State Fault Refusal :=
  runEngine (.bchain st j d a b c src fmt) st 3 [] (butterflyBody (j.val + 1) 0 d a b c src fmt) s
/-- `bblk` (R275). -/
def execBblk (st : Fin 16) (d : Fin 8) (a b : Fin 16) (c : Fin 32) (m : Fin 8) (fmt : Fmt) (s : State) : Host.Outcome State Fault Refusal :=
  runEngine (.bblk st d a b c m fmt) st 3 [(3, c)] (bblkBody d a b c m fmt) s
/-- `bmma` (R275). -/
def execBmma (st : Fin 16) (d : Fin 8) (a b : Fin 16) (c : Fin 32) (m : Fin 8) (fmt : Fmt) (s : State) : Host.Outcome State Fault Refusal :=
  runEngine (.bmma st d a b c m fmt) st 3 [(3, c)] (mmaBody d a b c m (fmt == .i32) (if fmt == .f32 then pairOkF else pairOkI)) s
/-- `bmmx` (R278). -/
def execBmmx (st : Fin 16) (d : Fin 8) (a b : Fin 16) (c : Fin 64) (m : Fin 8) (vsb : Fin 64) (s : State) : Host.Outcome State Fault Refusal :=
  runEngine (.bmmx st d a b c m vsb) st 3 [] (bmmxBody d a b c m vsb) s
/-- `tmac` (R279). -/
def execTmac (st : Fin 16) (d : Fin 8) (a b : Fin 16) (c : Fin 32) (m : Fin 8) (s : State) : Host.Outcome State Fault Refusal :=
  runEngine (.tmac st d a b c m) st 3 [(3, c)] (mmaBody d a b c m true fun x y => x.isOneOf [.tern] && y.isOneOf [.i8, .n8]) s
/-- `pstat` (R283). -/
def execPstat (st : Fin 16) (d : Fin 32) (sel : Bool) (s : State) : Host.Outcome State Fault Refusal :=
  runEngine (.pstat st d sel) st 3 [] (pstatBody d sel) s

/-- The press instructions as follow-on commands of copies (R285): the scalars they read, and what they do. -/
def pressCommand : Instr → Option (List (Fin 4 × Fin 32) × M Nat)
  | .tset _ d a => some ([(1, a)], tsetBody d)
  | .tld _ d a b disp => some ([(1, a), (2, b)], tldBody d disp)
  | .tldRegister _ d a => some ([], tldRegisterBody d a)
  | .tst _ d a b disp => some ([(1, a), (2, b)], tstBody d disp)
  | .tstRegister _ d a => some ([], tstRegisterBody d a)
  | .tzero _ d => some ([], tzeroBody d)
  | .azero _ d => some ([], azeroBody d)
  | .ald _ d a b c disp fmt => some ([(1, a), (2, b), (3, c)], aldBody d disp fmt)
  | .aldRegister _ d a row0 => some ([], aldRegisterBody d a row0)
  | .ast _ d a b c disp fmt => some ([(1, a), (2, b), (3, c)], astBody d disp fmt)
  | .astRegister _ d a row0 fmt => some ([], astRegisterBody d a row0 fmt)
  | .bfly _ j d a b src fmt => some ([], butterflyBody 1 j.val d a b 0 src fmt)
  | .bchain _ j d a b c src fmt => some ([], butterflyBody (j.val + 1) 0 d a b c src fmt)
  | .bblk _ d a b c m fmt => some ([(3, c)], bblkBody d a b c m fmt)
  | .bmma _ d a b c m fmt => some ([(3, c)], mmaBody d a b c m (fmt == .i32) (if fmt == .f32 then pairOkF else pairOkI))
  | .bmmx _ d a b c m vsb => some ([], bmmxBody d a b c m vsb)
  | .tmac _ d a b c m => some ([(3, c)], mmaBody d a b c m true fun x y => x.isOneOf [.tern] && y.isOneOf [.i8, .n8])
  | _ => none

end Sys2Proof.Machine
end

