-- ==== Sys2Proof/Machine/Headbox.lean ====
section
/-!
DEFINITION. The headbox (13_headbox.md): stream registers, copies and fills with their flags and follow-on commands, and
quire bank modes (R64, R305).
-/

namespace Sys2Proof.Machine

/-- A trap of the headbox: kind E (R293, R302). -/
def headTrap {α : Type} (cause : Nat) (addr : Option Word) (access : Nat) : M α :=
  stopWith (.trap { cause := cause, eKind := true, engine := 4, addr := addr, count := 1, access := access })
/-- A failed check of the headbox; NOTMAPPED and PROT are replayed (R101). -/
def headFault {α : Type} (e : AErr) : M α :=
  if replayable e.cause then stopWith (.replay 4 [⟨e.cause, e.va, 0, 1, e.access, 0⟩]) else headTrap e.cause (some e.va) e.access

/-! Stream registers. -/

/-- Streams bound to read a bank's FIFO, of running firings and of saved ones (R297). -/
def readsBank (q : Stream) (base : Word) : Bool := q.bound && !q.dir && q.fifo && q.base == base
def otherReader (cl : Nat) (base : Word) : M Bool := do
  let s ← getS
  let live := s.cores.any fun c => c.running && clusterOf c.id == cl && c.f.q.toList.any (readsBank · base)
  let saved ← s.slots.filterMapM fun (k, o) => do
    match o with
    | none => return none
    | some i =>
      if i.stop = 0 ∨ clusterOf i.info.lastCore ≠ cl then return none
      let b ← slotBase (k / 65536) (k % 65536)
      let qs ← areaRead (k / 65536) (b + 0x400) 512
      return if (List.range 8).any fun j => readsBank (streamOfImage (bits qs (512 * j) 512)) base then some k else none
  return live || !saved.isEmpty

/-- The conditions of R297 on a FIFO pattern: QPATTERN 5, then the bank's checks. -/
def checkFifo (q : Stream) : M Unit := do
  let aligned := inWindow q.base && q.base.toNat % bankSize == 0
  if !aligned || q.stride.toList.any (· != 0) || q.total % 64 != 0 then qpattern 5
  if !q.dir then
    if ← otherReader (clusterOf (← getS).core.id) q.base then qpattern 5
  match ← fifoBank q with
  | .error e => headFault e
  | .ok _ => return ()

/-- `qbind` (R293). -/
def execQbind (st : Fin 16) (wr : Bool) (d : Fin 8) (a : Fin 32) (s : State) : Host.Outcome State Fault Refusal :=
  runEngine (.qbind st wr d a) st 4 [(1, a)] (do
    unit
    if (← getQ d).bound then qpattern 6
    let va := (← getCur).scal[1]
    if va.toNat % 64 ≠ 0 then headTrap cMISALIGN (some va) aLoad
    releaseTokens
    match ← locate (← me) needLoad aLoad va 64 with
    | .error e => headFault e
    | .ok p =>
      let (x, poison) ← homeLoad (← me) p 64
      if poison then headTrap cPOISON (some va) aLoad
      let q : Stream := { streamOfImage x with dir := wr }
      if bits x 384 64 != 0 || bits x 452 60 != 0 || q.esize = 7 then qpattern 1
      if !q.fifo && (q.base.toNat % q.size != 0 || q.stride.toList.any (fun t => t.toNat % q.size != 0)
          || decide (2 ^ 32 < q.total)) then qpattern 2
      if q.fifo then checkFifo q
      modQ d fun _ => { q with bound := true, pos := 0 }
      return 1) s

/-- What a write stream holds is drained (R295, R296); a fault is raised here (R298). -/
def settleStream (d : Fin 8) : M Unit := do
  raiseDrain d
  drainAll d
  raiseDrain d

/-- `qrel` (R295). A place of a FIFO bank that is still partly written is given up. -/
def execQrel (st : Fin 16) (d : Fin 8) (s : State) : Host.Outcome State Fault Refusal :=
  runEngine (.qrel st d) st 4 [] (do
    unit
    if (← getQ d).bound then
      settleStream d
      let q ← getQ d
      if q.fifo && !q.held.isEmpty then
        match ← fifoBank q with
        | .ok k => modS fun s => s.setBank k { s.bank k with reserved := (s.bank k).reserved - 1 }
        | .error _ => pure ()
      modQ d fun q => { q with bound := false, fetched := [], held := [] }
    return 1) s

/-- `qsync` (R296). -/
def execQsync (st : Fin 16) (d : Fin 8) (s : State) : Host.Outcome State Fault Refusal :=
  runEngine (.qsync st d) st 4 [] (do
    unit
    let q ← getQ d
    if q.bound then
      if q.dir then settleStream d else modQ d fun q => { q with fetched := [] }
    return 1) s

/-- STREAM_FETCH (R294): the next block of a read stream, at most 16 ahead; a fault is raised when it is consumed. -/
def execStreamFetch (core : Nat) (q : Fin 8) (s : State) : Host.Outcome State Fault Refusal :=
  runEvent (.streamFetch core q) (withCore core do
    let x ← getQ q
    let k := x.pos / 64 + x.fetched.length
    if (← getS).core.running && x.bound && !x.dir && decide (x.fetched.length < 16) && decide (64 * k < x.total) then
      match ← fetchBlock x k with
      | .ok (some b) =>
        modQ q fun x => { x with fetched := x.fetched ++ [b] }
        wakeCore core (· == .stream q)
      | _ => return ()) s

/-- STREAM_DRAIN (R294): the oldest held block of a write stream. -/
def execStreamDrain (core : Nat) (q : Fin 8) (s : State) : Host.Outcome State Fault Refusal :=
  runEvent (.streamDrain core q) (withCore core do
    if (← getS).core.running then
      drainOldest q
      wakeCore core (fun w => w == .stream q || w == .background)) s

/-! Commands. -/

def getCmd (core : Nat) (k : Fin 16) : M (Option Cmd) := do return ((← getS).coreAt core).cmds[k]
def putCmd (core : Nat) (k : Fin 16) (c : Option Cmd) : M Unit :=
  modS fun s => s.modifyCore core fun x => { x with cmds := x.cmds.set k c }
def Cmd.key (c : Cmd) : Nat := slotKey c.owner.1 c.owner.2
def Cmd.isCopy (c : Cmd) : Bool := match c.kind with | .copy | .fill _ => true | _ => false
/-- A command's accesses: those of its core, at its firing's level. -/
def Cmd.agent (core : Nat) (c : Cmd) : Agent := { core := core, asid := c.owner.1, level := c.level }

/-- The core that runs a command's firing. -/
def ownerCore (s : State) (c : Cmd) : Option Nat :=
  if c.orphan then none
  else (s.cores.find? fun x => x.running && slotKey x.info.asid x.info.slot == c.key).map (·.id)

/-- What a command leaves for its firing's `end`: poison written (R97), a fault owed (R301), a link cause. -/
def noteOwner (c : Cmd) (poison fault : Bool) : M Unit := do
  if c.orphan then return ()
  let s ← getS
  match ownerCore s c with
  | some k => set (s.modifyCore k fun x =>
      { x with f := { x.f with poisonOut := x.f.poisonOut || poison, faultOwed := x.f.faultOwed || fault } })
  | none =>
    match SMap.get none c.key s.slots with
    | some i =>
      let i := { i with poisonOut := i.poisonOut || poison, faultOwed := i.faultOwed || fault }
      set { s with slots := SMap.put none c.key (some i) s.slots }
    | none => return ()

/-- `FAULT` in the completion word of the launch of a command's firing (R302). -/
def faultOwner (c : Cmd) : M Unit := do
  if c.orphan then return ()
  let s ← getS
  match ownerCore s c with
  | some k => launchFlag (s.coreAt k).info.lid cwFAULT
  | none =>
    match SMap.get none c.key s.slots with
    | some i => launchFlag i.info.lid cwFAULT
    | none => return ()

/-- A command completes: its slot is free, and what waited for it looks again. -/
def finishCmd (core : Nat) (k : Fin 16) (c : Cmd) : M Unit := do
  putCmd core k none
  modS fun s => s.stallClear c.owner.1 (cmdKey core k)
  withCore core (trTraceOf c.owner.1 4 c.failed.toNat (if c.isCopy then 4 else 6) c.seq c.pc.toNat)
  pushOwed c.key
  wakeCore core (· == .copySlot)
  match ownerCore (← getS) c with
  | some o => wakeCore o (· == .background)
  | none => return ()

/-- The command of the instruction in execution, at its commit, in a free slot (R302, R386). -/
def commitCmd (k : Fin 16) (c : Cmd) : M Unit := do
  let s ← getS
  let e ← getCur
  let w ← entryWho
  let c := { c with owner := (s.core.info.asid, s.core.info.slot), level := s.core.f.level, seqNo := s.cmdCtr + 1, pc := e.pc,
                    seq := e.seq.getD 0, fid := w.fid, ordn := e.ordn, session := s.core.f.session, logged := e.logged, fence := s.core.f.relFence }
  modS fun s => { s with cmdCtr := s.cmdCtr + 1 }
  acquireFor c.ord c.scope
  putCmd s.core.id k (some c)

/-- A slot for a command, the lowest: DESIGN CHOICE, log entry 137; it waits while all 16 are taken (Table 1.2). -/
def freeCmd : M (Fin 16) := do
  let s ← getS
  match (List.finRange 16).find? fun k => (s.core.cmds[k]).isNone with
  | some k => return k
  | none => stopWith (.wait .copySlot)

/-- A check of the first page of a range at commit (R302); a scope is checked last. -/
def checkFirst (need : Need) (kind : Nat) (va : Word) (align : Nat) (scope : Option Scope) : M Unit := do
  match ← locate (← me) need kind va align with
  | .error e => headFault e
  | .ok _ =>
    match scope with
    | some sc => if scopeBad sc va then headTrap cSCOPEMEM (some va) kind
    | none => return ()

/-- `cpy`, `cpym`, `cpyf` and `cfill` up to their commit (R299, R302). A length of 0 checks no range. -/
def copyBody (kind : CmdKind) (ord : Order) (scope : Scope) (flag : Option (Word × Nat × Bool)) (follow : Option Word)
    (foll : Vector Word 4) : M Nat := do
  unit
  let k ← freeCmd
  let e ← getCur
  let n := e.scal[2].toNat % 2 ^ 32
  let dst := e.scal[0]
  let src := e.scal[1]
  match kind with
  | .fill w =>
    if n ≠ 0 then checkFirst needStore aStore dst (w / 8) none
    if n % (w / 8) ≠ 0 ∨ dst.toNat % (w / 8) ≠ 0 then headTrap cMISALIGN (some dst) aStore
  | _ =>
    if n ≠ 0 then
      checkFirst needLoad aLoad src 1 none
      checkFirst needStore aStore dst 1 none
  match flag with
  | some (va, _, add) =>
    checkFirst (if add then needBoth else needStore) (if add then aAtomic else aStore) va 8 (some scope)
  | none => pure ()
  commitCmd k { kind := kind, owner := (0, 0), level := 0, seqNo := 0, dst := dst, src := src, value := src, n := n,
                ord := ord, scope := scope, flag := flag, follow := follow, followScal := foll }
  return 1

/-- `cpy` (R299, R300). -/
def execCpy (st : Fin 16) (ord : Order) (scope : Scope) (d a b : Fin 32) (s : State) : Host.Outcome State Fault Refusal :=
  runEngine (.cpy st ord scope d a b) st 4 [(0, d), (1, a), (2, b)] (copyBody .copy ord scope none none #v[0, 0, 0, 0]) s

/-- `cfill` (R299, R300). -/
def execCfill (st : Fin 16) (ord : Order) (scope : Scope) (d a b : Fin 32) (fmt : Fmt) (s : State) :
    Host.Outcome State Fault Refusal :=
  runEngine (.cfill st ord scope d a b fmt) st 4 [(0, d), (1, a), (2, b)]
    (copyBody (.fill fmt.width) ord scope none none #v[0, 0, 0, 0]) s

/-- `cpyf` (R299, R300). -/
def execCpyf (st : Fin 16) (ord : Order) (scope : Scope) (d a b c : Fin 32) (v : Fin 128) (add : Bool) (s : State) :
    Host.Outcome State Fault Refusal :=
  runEngine (.cpyf st ord scope d a b c v add) st 4 [(0, d), (1, a), (2, b), (3, c)] (do
    copyBody .copy ord scope (some ((← getCur).scal[3], v.val, add)) none #v[0, 0, 0, 0]) s

/-- The scalars a follow-on command names, by field. -/
def followScalars (l : List (Fin 4 × Fin 32)) (x : Fin 32 → Word) : Vector Word 4 :=
  l.foldl (fun (v : Vector Word 4) (k, r) => v.set k (x r)) #v[0, 0, 0, 0]

/-- The decoding of a press word at the dispatch of a `cpym`, and the scalars it names (R301). -/
def followPre (word : Word) : M (Option (Vector Word 4)) := do
  let op := word.toNat % 256
  if op < 0x80 ∨ 0x8C < op then trapP cILLOP
  match decode word.toNat with
  | .error .illop => trapP cILLOP
  | .error .illfmt => trapP cILLFMT
  | .ok i =>
    match pressCommand i with
    | none => trapP cILLOP
    | some (l, _) =>
      let x ← issue (l.map (·.2))
      return some (followScalars l x)

/-- The scalars of a reissued `cpym` that a debugger has put into the dump are read now. -/
def followAgain (word : Word) : M (Vector Word 4) := do
  match decode word.toNat with
  | .ok i => match pressCommand i with
    | some (l, _) => return followScalars l (← issue (l.map (·.2)))
    | none => return #v[0, 0, 0, 0]
  | .error _ => return #v[0, 0, 0, 0]

/-- `cpym` (R299, R301). -/
def execCpym (st : Fin 16) (ord : Order) (scope : Scope) (d a b c : Fin 32) (s : State) :
    Host.Outcome State Fault Refusal :=
  runEngine (.cpym st ord scope d a b c) st 4 [(0, d), (1, a), (2, b), (3, c)] (do
    let e ← getCur
    let foll ← match e.foll with
      | some v => pure v
      | none => followAgain e.scal[3]
    copyBody .copy ord scope none (some e.scal[3]) foll) s (pre := fun x => followPre (x c))

/-- The firing's copies that are not complete, on any core (R303, R304). -/
def copiesOf (s : State) (key : Nat) : Nat :=
  (s.cores.map fun c => (c.cmds.toList.filter fun o => match o with
    | some x => x.ownedBy key && x.isCopy
    | none => false).length).sum

/-- `cwait` (R304). -/
def execCwait (st n : Fin 16) (s : State) : Host.Outcome State Fault Refusal :=
  runEngine (.cwait st n) st 4 [] (do
    unit
    if n.val < copiesOf (← getS) (← myKey) then stopWith (.wait .background)
    invalidateL1
    return 1) s

/-! The transfer of a copy, chunk by chunk. -/

/-- A late fault (R302): NOTMAPPED and PROT pause the copy, another cause ends it. A copy whose record found the queue full pauses
too (R113); no answer of R424 can name it, and it stays paused until its firing is retired, when it ends: DEDUCED, log entry 122. -/
def lateFault (core : Nat) (k : Fin 16) (c : Cmd) (e : AErr) : M Unit := do
  let rec' : FRec := { cause := e.cause, engine := if c.isCopy then 4 else 6, asid := c.owner.1, core := core, addr := e.va.toNat, index := c.done,
                       count := 1, access := e.access }
  if replayable e.cause && !c.failed then
    let index ← writeFRec { rec' with replay := true }
    if c.orphan && index.isNone then putCmd core k (some { c with failed := true, ended := true, follow := none })
    else
      putCmd core k (some { c with paused := some (index.getD (2 ^ 32)), pausedBy := e.cause })
      modS (·.raiseMint 2)
  else
    let _ ← writeFRec { rec' with deferred := true }
    faultOwner c
    putCmd core k (some { c with failed := true, ended := true, follow := none })

/-- The source bytes of a piece: at most two naturally aligned parts. -/
def copyRead (g : Agent) : Nat → Word → Nat → M (Except AErr (Nat × Bool))
  | 0, _, _ => return .ok (0, false)
  | fuel + 1, va, n => do
    if n = 0 then return .ok (0, false)
    let m := min n (8 - va.toNat % 8)
    match ← locate g needLoad aLoad va 1 with
    | .error e => return .error e
    | .ok p =>
      let (x, px) ← readPlace g .head p m
      match ← copyRead g fuel (va + b64 m) (n - m) with
      | .error e => return .error e
      | .ok (y, py) => return .ok (x + y * 2 ^ (8 * m), px || py)

/-- The bytes of a fill from offset `i` on: its element repeated. -/
def fillBytes (v w i n : Nat) : Nat :=
  ofBytes ((List.range n).map fun j => BitVec.ofNat 8 (v / 2 ^ (8 * ((i + j) % (w / 8)))))

/-- Move the bytes from `done` on that lie in one aligned 8-byte word of the destination. -/
def copyWord (core : Nat) (c : Cmd) : M (Except AErr Cmd) := do
  let g := c.agent core
  let va := c.dst + b64 c.done
  let n := min (c.n - c.done) (8 - va.toNat % 8)
  let src ← match c.kind with
    | .fill w => pure (.ok (fillBytes c.value.toNat w c.done n, false))
    | _ => copyRead g 3 (c.src + b64 c.done) n
  match src with
  | .error e => return .error e
  | .ok (x, poison) =>
    match ← locate g needStore aStore va 1 with
    | .error e => return .error e
    | .ok p =>
      match ← writePlace g .head p n x poison with
      | .dropped =>
        poisonStore g va
        noteOwner c true false
      | .poisoned => noteOwner c true false
      | .stored => pure ()
      return .ok { c with done := c.done + n }

/-- Move bytes up to the end of the destination's chunk of 64 bytes. -/
def copyChunk (core : Nat) (k : Fin 16) : Nat → Cmd → M Unit
  | 0, c => putCmd core k (some c)
  | fuel + 1, c => do
    match ← copyWord core c with
    | .error e => lateFault core k c e
    | .ok c' => if c'.done = c.n ∨ (c'.dst.toNat + c'.done) % 64 = 0 then putCmd core k (some c') else copyChunk core k fuel c'

/-- The add of a flag at its beater: the old value, or none over poison (R300, R96). -/
def flagAdd (core : Nat) (c : Cmd) (va : Word) (p : Place) (v : Nat) : M (Option Nat) := do
  showTo core p.loc 8
  let s ← getS
  if s.isPoisoned p.loc 8 then
    beaterDrop c.owner.1 va aAtomic
    noteOwner c true false
    return none
  else
    let old := Memory.read s.mem p.loc 8
    let _ ← writePlace (c.agent core) .head p 8 ((old + v) % 2 ^ 64) false
    return some old

/-- The add of a flag as an event of the chain log (Table 16.3). A divergence of its result finds the add made: the copy is done (R374). -/
def flagEvent (core : Nat) (k : Fin 16) (c : Cmd) (va : Word) (p : Place) (v : Nat) : M Unit := do
  let mode ← if c.logged then olMode c.owner.1 else pure 0
  let who : OlWho := { asid := c.owner.1, mode := mode, fid := c.fid, ord := c.ordn, counts := false, key := cmdKey core k,
                       stale := c.session != ((← getS).session c.owner.1).num }
  let beat := fun (w : OlWho) => do
    let _ ← olBeat w 3 17 va p.loc 0 (flagAdd core c va p v) fun
      | some x => (0, x)
      | none => (1, 2 ^ 32 - 1)
  match ownerCore (← getS) c with
  | some o =>
    let back := (← getS).core.id
    modS (·.focus o)
    try beat who
    catch
      | .trap t => do
        if t.detail = 6 then finishCmd core k c
        stopWith (.trap t)
      | e => stopWith e
    modS (·.focus back)
  | none => olUnparked who beat

/-- The release of a command (R79), at its scope. -/
def copyRelease (core : Nat) (c : Cmd) : M Unit := if Order.isRel c.ord then releaseCore core c.scope.code else return ()

/-- The end of a copy after its last byte (R300, R302): its release, its flag. -/
def copyEnd (core : Nat) (k : Fin 16) (c : Cmd) : M Unit := do
  match c.flag with
  | none =>
    copyRelease core c
    finishCmd core k c
  | some (va, v, add) =>
    let v := (v + if c.failed then 2 ^ 63 else 0) % 2 ^ 64
    releaseCore core c.scope.code
    match ← locate (c.agent core) (if add then needBoth else needStore) (if add then aAtomic else aStore) va 8 with
    | .error e =>
      if c.failed then finishCmd core k c else lateFault core k c e
    | .ok p =>
      if add then flagEvent core k c va p v
      else
        let _ ← writePlace (c.agent core) .head p 8 v false
      finishCmd core k c

/-- COPY_TRANSFER (R300): the next chunk of a committed copy, or its end. -/
def execCopyTransfer (core : Nat) (slot : Fin 16) (s : State) : Host.Outcome State Fault Refusal :=
  runEvent (.copyTransfer core slot) (do
    match ← getCmd core slot with
    | none => return ()
    | some c =>
      if c.isCopy && c.paused.isNone then
        if c.done < c.n ∧ !c.failed then
          modS fun s => { s with writer := 2 * c.seqNo }
          copyChunk core slot 8 c
          modS fun s => { s with writer := 0 }
        else if c.follow.isNone then copyEnd core slot c
        pushOwed c.key) s

/-! Follow-on commands. -/

/-- May the follow-on command of a copy run now: its bytes have landed, no started press entry stands in the queue, no handler that
came in between is still active, and those held at a stop run in program order (R285, R303). -/
def followReady (s : State) (o : Core) (c : Cmd) : Bool :=
  decide (c.n ≤ c.done) && !c.failed && c.paused.isNone && !c.trapHeld
    && !o.f.queue.any (fun e => e.engine == 3 && e.started)
    && (!c.stopped || !s.cores.any fun x => x.cmds.toList.any fun y => match y with
          | some y => y.ownedBy c.key && y.stopped && !y.trapHeld && y.follow.isSome && decide (y.seqNo < c.seqNo)
          | none => false)

/-- The cause a follow-on command raises (R301). -/
def followFault (c : Cmd) (t : Trap) : M Unit := do
  let s ← getS
  let _ ← writeFRec { cause := t.cause, deferred := true, engine := 3, asid := s.core.info.asid, core := s.core.id,
                      slot := s.core.info.slot, addr := c.pc.toNat, index := t.index, count := t.count,
                      access := t.access, detail := t.detail }
  modF fun f => { f with panel := 0, stage := 0, faultOwed := true }

/-- The press performs a follow-on command on the core that runs its firing (R285, R301): has it raised a cause? -/
def runFollow (c : Cmd) (word : Word) : M Bool := do
  match decode word.toNat with
  | .error _ => return false
  | .ok i =>
    match pressCommand i with
    | none => return false
    | some (_, body) =>
      let old := (← getS).core
      let e : DumpEntry := { word := word.toNat, pc := c.pc, scal := c.followScal, prog := 0, vlen := 0, engine := 3,
                             started := false, pcm := false, raiser := false, ordn := 0, mask := 0 }
      modC fun x => { x with budget := none, cur := some e, curAt := 0 }
      trTrace 2 0 3 c.seq c.pc.toNat
      let (n, raised) ← (try (do return (← body, false)) catch
        | .trap t => do
          let n := (← getCur).unitsDone 0
          followFault c t
          return (n, true)
        | e => stopWith e)
      spend 1
      trTrace 3 (2 * raised.toNat) 3 c.seq (min n 127)
      modC fun x => { x with cur := old.cur, curAt := old.curAt, budget := old.budget }
      return raised

/-- FOLLOW_ON_COMMAND (R285, R301, R303). -/
def execFollowOnCommand (core : Nat) (slot : Fin 16) (s : State) : Host.Outcome State Fault Refusal :=
  runEvent (.followOnCommand core slot) (do
    match ← getCmd core slot with
    | none => return ()
    | some c =>
      match c.follow, ownerCore (← getS) c with
      | some word, some o =>
        if followReady (← getS) ((← getS).coreAt o) c then
          copyRelease core c
          let raised ← withCore o (runFollow c word)
          finishCmd core slot { c with failed := c.failed || raised }
      | _, _ => return ()) s

/-! Bank modes. -/

/-- Steps 2 to 7 of a switch (R64): the operations that have entered the beaters whose lines move are performed, and the bank takes
the mode unless step 4 refuses. -/
def switchBank (k : Nat) (mode : BankMode) : M Unit := do
  let b := (← getS).bank k
  if b.mode = mode then drainBeater k
  else
    if b.mode = .cache ∨ mode = .cache then
      awaitLate fun _ => true
      performStores fun _ => true
      flushTokens fun _ => true
    else drainBeater k
    if !(b.mode == .fifo && !b.fifo.isEmpty) then
      zeroBank k
      modS fun s => s.setBank k { s.bank k with mode := mode }
  modS fun s =>
    let b := s.bank k
    let ended := b.switchTo.toList.map fun (m, key) => (key, b.mode != m)
    s.setBank k { b with busy := false, switchTo := none, outcomes := ended ++ b.outcomes }

/-- Does a switch that now begins last longer than its `bmode`? The schedule's choice. -/
def takesTime : M Bool := do
  match (← getS).slowSwitches with
  | [] => return false
  | x :: r =>
    modS fun s => { s with slowSwitches := r }
    return x

/-- `bmode` (R305): it begins a switch (R64 step 1), which completes at once or as MODE_SWITCH, and reports whether step 4 has refused
it. One reissued after a stop runs the protocol again. -/
def execBmode (st : Fin 16) (mode : BankMode) (d bank : Fin 32) (s : State) : Host.Outcome State Fault Refusal :=
  runEngine (.bmode st mode d bank) st 4 [] (do
    unit
    let s ← getS
    let k := 32 * clusterOf s.core.id + bank.val
    let key ← myKey
    let b := s.bank k
    if !(← getCur).started || (← getCur).again then
      if !b.gv || b.gasid != s.core.info.asid then headTrap cQUIREOWN none 0
      if b.busy then stopWith (.wait .background)
      performStores fun _ => true
      modCur fun e => { e with started := true, again := false }
      modS fun s => s.setBank k { s.bank k with busy := true, switchTo := some (mode, key), outcomes := b.outcomes.filter (·.1 != key) }
      if ← takesTime then stopWith (.wait .background)
      switchBank k mode
    match ((← getS).bank k).outcomes.find? (·.1 == key) with
    | none => stopWith (.wait .background)
    | some (_, refused) =>
      modS fun s => let b := s.bank k; s.setBank k { b with outcomes := b.outcomes.filter (·.1 != key) }
      writeX d (b64 refused.toNat)
      return 1) s

/-- MODE_SWITCH (R64): a switch that has begun runs to its end whatever becomes of its firing (R66). -/
def execModeSwitch (cluster bank : Nat) (mode : BankMode) (s : State) : Host.Outcome State Fault Refusal :=
  runEvent (.modeSwitch cluster bank mode) (do
    let k := 32 * cluster + bank
    match ((← getS).bank k).switchTo with
    | some (m, key) =>
      if cluster < 40 && bank < 32 && m == mode then
        switchBank k mode
        pushOwed key
        (← getS).slots.forM fun (j, o) => if o.any (!·.draining.isEmpty) then pushOwed j else return ()
    | none => return ()) s

end Sys2Proof.Machine
end

