-- ==== Sys2Proof/Machine/LaneSet.lean ====
section
/-!
DEFINITION. `vsetvl` (R173, R174).
-/

namespace Sys2Proof.Machine

/-- The grant of a length (R173): the real elements, and the length register. -/
def grant (f : Fmt) (blk : Fin 4) (req : Word) : Nat × LnReg :=
  let b := blockLen blk.val
  let n := min req.toNat (vlmax f.width b)
  let cnt := if b = 0 then n else (n + b - 1) / b * b
  (n, { count := cnt, pad := cnt - n })

/-- `vsetvl` waits for older engine instructions that write its length register; the set form for those that read that register or `VTYPE`
too (R174). -/
def awaitLength (b : Fin 4) (set : Bool) : M Unit := do
  let s ← getS
  if s.older.any (fun e => e.instr?.any fun i => (set && readsVtype i) || (touchesOf s e i).any fun t => t.res == .len b && (set || t.wr)) then
    stopWith (.wait .background)

/-- `vsetvl`, set form (R173). -/
def execVsetvl (st : Fin 16) (d a : Fin 32) (b blk : Fin 4) (fmt : Fmt) (s : State) : Host.Outcome State Fault Refusal :=
  runFront st [a] (fun x => do
    awaitLength b true
    let (n, l) := grant fmt blk (x a)
    modF fun f => { f.setLn b l with vfmt := fmt.code, vblk := blk.val }
    writeX d (b64 n)
    return none) s

/-- `vsetvl.rd` (R173). -/
def execVsetvlRd (st : Fin 16) (d : Fin 32) (b : Fin 4) (s : State) : Host.Outcome State Fault Refusal :=
  runFront st [] (fun _ => do
    awaitLength b false
    writeX d (b64 (← getF).ln[b].count)
    return none) s

end Sys2Proof.Machine
end

