-- ==== Sys2Proof/Machine/Mould.lean ====
section
/-!
DEFINITION. Moulds: the configuration word (R225, R226), the image and what refuses it (R229, R235 to R237), slots and
their binding (R239 to R243), and the moulds a core keeps resident (R221).
-/

namespace Sys2Proof.Machine

/-! Fields of a configuration word (Tables 9.1, 9.2). -/

/-- The source of port 0 (`P`), 1 (`Q`) or 2 (`K`). -/
def portSel (w p : Nat) : Nat := bits w (4 + 3 * p) 3
/-- What leaves by side 0 (N), 1 (E), 2 (S) or 3 (W). -/
def sideSel (w s : Nat) : Nat := bits w (13 + 3 * s) 3
def portDepth (w p : Nat) : Nat := bits w (25 + 2 * p) 2 + 1
/-- `MODE` of the kinds that have it in [33:32]. -/
def cellMode (w : Nat) : Nat := bits w 32 2
def cellConst (w : Nat) : Nat := bits w 64 64
def oppSide (s : Nat) : Nat := (s + 2) % 4
def sides : List Nat := [0, 1, 2, 3]

/-- The kind-specific fields: low bit, width, highest valid value (Table 9.2). -/
def kindFields : Nat → List (Nat × Nat × Nat)
  | 1 => [(32, 2, 3), (34, 3, 2), (37, 5, 20), (42, 5, 20), (47, 1, 1), (48, 2, 3), (50, 1, 1), (51, 2, 3)]
  | 2 => [(32, 1, 1), (33, 5, 20), (38, 2, 1), (40, 2, 3)]
  | 3 => [(32, 6, 22), (38, 1, 1), (39, 1, 1), (40, 3, 3)]
  | 4 => [(32, 2, 3), (34, 2, 3), (36, 1, 1), (37, 1, 1), (38, 1, 1)]
  | 5 => [(32, 1, 1), (33, 2, 3), (35, 1, 1)]
  | 6 => [(32, 2, 2), (34, 4, 6), (38, 1, 1)]
  | 7 => [(32, 2, 2), (34, 1, 1), (35, 2, 3), (37, 1, 1)]
  | 8 => [(32, 2, 2), (34, 1, 1), (35, 1, 1), (36, 3, 3)]
  | 9 => [(32, 5, 16)]
  | 10 => [(32, 2, 1), (34, 2, 3), (36, 5, 20), (41, 2, 3), (43, 1, 1), (44, 1, 1), (45, 1, 1), (46, 2, 3), (48, 1, 1)]
  | _ => []

/-- Formats of coordinates (R227), and of memory elements: set WIDE (Table 7.1). -/
def coordFmt (c : Nat) : Bool := c == 1 || c == 3 || c == 5
def wideFmt (c : Nat) : Bool := decide (c ≤ 13) || c == 20

/-- Operations of one operand, and those `FP` is allowed for (Table 9.3). -/
def aluOne (op : Nat) : Bool := [0, 18, 19, 21, 22].contains op
def aluFp (op : Nat) : Bool := [1, 2, 3, 4, 5, 12, 13, 14, 15, 18].contains op

/-- Field values that R237 refuses in one configuration word; of the fields that belong to one mode of a kind, `RLV` of a TABLE that
inserts nothing: DESIGN CHOICE, log entry 135. -/
def wordBad (w : Nat) : Bool :=
  let k := cellKind w
  let fs := kindFields k
  let named := fs.foldl (fun (x : Nat) (lo, n, _) => x ||| (2 ^ n - 1) * 2 ^ lo) 0
  decide (10 < k) || bit w 31 || bit w 63
    || fs.any (fun (lo, n, mx) => decide (mx < bits w lo n))
    || (bits w 32 29 * 2 ^ 32) ^^^ ((bits w 32 29 * 2 ^ 32) &&& named) != 0
    || sides.any (fun s => sideSel w s == 7 || sideSel w s == s + 3)
    || match k with
      | 1 => (bits w 34 3 == 1 && !coordFmt (bits w 37 5)) || (bits w 34 3 == 2 && !coordFmt (bits w 42 5))
      | 3 =>
        let op := bits w 32 6
        (portSel w 1 == 0) != aluOne op || (bit w 38 && !aluFp op) || (bits w 40 3 != 0 && op != 18) || portSel w 2 != 0
      | 8 => cellMode w != 2 && bits w 36 3 != 0
      | 9 => bits w 32 5 == 0
      | 10 => !wideFmt (bits w 36 5)
      | _ => false

/-! Channels (R223). -/

/-- Rows and columns of a mould (R237). -/
def Mould.rows (m : Mould) : Nat := if m.quads = 4 then 16 else 8
def Mould.cols (m : Mould) : Nat := if 2 ≤ m.quads then 16 else 8

/-- The neighbour of a place towards a side. -/
def Mould.neighbour (m : Mould) (y x s : Nat) : Option (Nat × Nat) :=
  match s with
  | 0 => if 0 < y then some (y - 1, x) else none
  | 1 => if x + 1 < m.cols then some (y, x + 1) else none
  | 2 => if y + 1 < m.rows then some (y + 1, x) else none
  | _ => if 0 < x then some (y, x - 1) else none

/-- The index of the cell next to cell `i` towards a side, if the array names one. -/
def Mould.next (m : Mould) (i s : Nat) : Option Nat :=
  match m.cells[i]? with
  | none => none
  | some c =>
    match m.neighbour c.y c.x s with
    | none => none
    | some (y, x) => m.cells.findIdx? fun d => d.y == y && d.x == x
def Mould.word (m : Mould) (i : Nat) : Nat := match m.cells[i]? with | some c => c.word | none => 0

/-- Who takes what enters a cell from side `e`: ports 0 to 2, forwards 3 to 6. -/
def takers (w e : Nat) : List Nat :=
  (([0, 1, 2] : List Nat).filter fun p => portSel w p == e + 1) ++ (sides.filter fun s => sideSel w s == e + 3).map (3 + ·)

/-- Does a channel enter cell `i` from side `s`? -/
def Mould.enters (m : Mould) (i s : Nat) : Bool :=
  match m.next i s with
  | some j => sideSel (m.word j) (oppSide s) != 0
  | none => false

/-- A selected side without a channel, or a driven side where nothing takes (R237), driven by a result or a forward: DESIGN CHOICE,
log entry 135. -/
def Mould.channelsBad (m : Mould) : Bool :=
  (List.range m.cells.length).any fun i =>
    let w := m.word i
    ([0, 1, 2].any fun p => let k := portSel w p; decide (1 ≤ k) && decide (k ≤ 4) && !m.enters i (k - 1))
      || sides.any fun s =>
        let k := sideSel w s
        (decide (3 ≤ k) && !m.enters i (k - 3))
          || (k != 0 && match m.next i s with
            | some j => (takers (m.word j) (oppSide s)).isEmpty
            | none => true)

/-! The token anchor (R236). -/

/-- The cell and result whose tokens enter cell `i` from side `s`, through forwarding hops. -/
def Mould.source (m : Mould) : Nat → Nat → Nat → Option (Nat × Nat)
  | 0, _, _ => none
  | fuel + 1, i, s =>
    match m.next i s with
    | none => none
    | some j =>
      match sideSel (m.word j) (oppSide s) with
      | 0 => none
      | 1 => some (j, 1)
      | 2 => some (j, 2)
      | k => m.source fuel j (k - 3)

/-- The sides that feed a cell's ports. -/
def fedSides (w : Nat) : List Nat :=
  (([0, 1, 2] : List Nat).map (portSel w)).filterMap fun k => if 1 ≤ k ∧ k ≤ 4 then some (k - 1) else none

/-- All the same: their common member. -/
def allSame : List (Option (Nat × Nat)) → Option (Nat × Nat)
  | [] => none
  | x :: r => if r.all (· == x) then x else none

/-- The channel a channel descends from, through ALU, BUF and load cells; `none`: several, or a loop. -/
def Mould.origin (m : Mould) : Nat → Option (Nat × Nat) → Option (Nat × Nat)
  | 0, _ => none
  | _, none => none
  | fuel + 1, some (i, o) =>
    let w := m.word i
    if cellKind w = 3 ∨ cellKind w = 9 ∨ (cellKind w = 10 ∧ cellMode w = 0) then
      match fedSides w with
      | [] => some (i, 1)
      | l => allSame (l.map fun s => m.origin fuel (m.source 1025 i s))
    else some (i, o)

/-- The conditions of a token anchor. -/
def Mould.tokenBad (m : Mould) : Bool :=
  let ks := m.cells.map fun c => cellKind c.word
  ks.count 1 != 1 || ks.contains 5 || ks.contains 6
    || m.cells.any (fun c => (cellKind c.word == 3 && bits c.word 32 6 == 18)
        || ((cellKind c.word == 7 || cellKind c.word == 8) && cellMode c.word == 2))
    || (List.range m.cells.length).any fun i =>
        let l := fedSides (m.word i)
        decide (2 ≤ l.length) && (allSame (l.map fun s => m.origin 257 (m.source 1025 i s))).isNone

/-! The image (R235, R237). -/

/-- Is every number below `n` once in the list, and no other? -/
def eachOnce (n : Nat) (l : List Nat) : Bool := l.length == n && (List.range n).all l.contains

/-- Output streams of a mould: index, format byte expected of `OFMT`. -/
def outCell (c : MouldCell) : Option (Nat × Nat) :=
  let w := c.word
  if cellKind w = 2 then some (bits w 32 1, bits w 33 5)
  else if cellKind w = 10 ∧ cellMode w = 1 then some (bits w 43 1, bits w 36 5 + 32)
  else none

/-- Indices that `ROLE` gives a role. -/
def Mould.roleIdx (m : Mould) (r : Nat) : List Nat :=
  m.role.filterMap fun b => if b % 4 = r then some (bits b 2 2) else none

/-- The counts and stream indices of R237. -/
def Mould.streamsBad (m : Mould) : Bool :=
  let outs := m.cells.filterMap outCell
  let ports := (m.cells.filter fun c => cellKind c.word == 10).map fun c => bits c.word 34 2
  let regs := (List.range m.nout).filter fun o => !bit (m.ofmt.getD o 0) 5
  !eachOnce m.nin ((m.cells.filter fun c => cellKind c.word == 1).flatMap fun c => inStreams c.word)
    || !eachOnce m.nout (outs.map (·.1))
    || (m.cells.filter fun c => cellKind c.word == 8).length != m.ntab
    || ports.length != m.nmem || ports.eraseDups.length != ports.length
    || outs.any (fun (o, f) => m.ofmt.getD o 0 != f)
    || !eachOnce m.nin (m.roleIdx 1)
    || (m.roleIdx 2).length != regs.length || !regs.all (m.roleIdx 2).contains
    || (m.role.getD 4 0) % 4 == 3
    || m.role.any fun b => (b % 4 == 0 || b % 4 == 3) && b / 4 != 0

/-- Header fields outside Table 9.4. A table area of no tables must still begin inside `SIZE`: DESIGN CHOICE, log entry 135. -/
def headerBad (h : Nat) : Bool :=
  let u := fun off n => bits h (8 * off) (8 * n)
  u 0 4 != 0x444C4F4D || u 4 2 != 1 || !([1, 2, 4].contains (u 6 1)) || decide (4 ≤ u 7 1)
    || u 8 2 == 0 || decide (64 * u 6 1 < u 8 2) || decide (4 * u 6 1 < u 0x0A 1) || decide (4 < u 0x0B 1)
    || decide (16 ≤ u 0x0C 1) || u 0x0C 1 % 4 == 0 || u 0x0C 1 % 4 == 3 || decide (4 < u 0x0D 1) || decide (2 < u 0x0E 1)
    || u 0x0F 1 != 0 || (List.range 5).any (fun i => decide (16 ≤ u (0x10 + i) 1))
    || (List.range 4).any (fun i => decide (8 ≤ u (0x15 + i) 1))
    || (List.range 2).any (fun i => decide (64 ≤ u (0x19 + i) 1))
    || (List.range (u 0x0E 1)).any (fun o => decide (20 < u (0x19 + o) 1 % 32))
    || u 0x21 3 != 0 || u 0x30 16 != 0
    || decide (u 0x2C 4 < 64) || decide (u 0x2C 4 < u 0x24 4 + 24 * u 8 2)
    || decide (u 0x2C 4 < u 0x28 4 + 2048 * u 0x0A 1)

/-- Put the blocks of the table area into the TABLE cells, in order. -/
def giveTables : List MouldCell → List (List Nat) → List MouldCell
  | [], _ => []
  | c :: r, ts =>
    if cellKind c.word = 8 then { c with tab := ts.headD [] } :: giveTables r ts.tail else c :: giveTables r ts

/-- The mould of a header, its cell entries and its tables, unless R237 refuses it. -/
def Mould.ofImage (h : Nat) (entries : List Nat) (tabs : List (List Nat)) : Option Mould :=
  let u := fun off n => bits h (8 * off) (8 * n)
  let cells := entries.map fun e => ({ y := bits e 0 8, x := bits e 8 8, word := bits e 64 128 } : MouldCell)
  let m : Mould :=
    { quads := u 6 1, rm := u 7 1, anchor := u 0x0C 1 % 4, level := u 0x0C 1 / 4, nin := u 0x0D 1, nout := u 0x0E 1,
      ntab := u 0x0A 1, nmem := u 0x0B 1, role := (List.range 5).map fun i => u (0x10 + i) 1,
      ilen := (List.range 4).map fun i => u (0x15 + i) 1, ofmt := (List.range 2).map fun i => u (0x19 + i) 1,
      cells := giveTables cells tabs }
  if entries.any (fun e => bits e 16 48 != 0) || cells.any (fun c => decide (m.rows ≤ c.y) || decide (m.cols ≤ c.x))
      || (cells.map fun c => (c.y, c.x)).eraseDups.length != cells.length
      || cells.any (fun c => wordBad c.word) || m.channelsBad || m.streamsBad || (m.anchor == 1 && m.tokenBad)
  then none else some m

/-- A trap of the vat: kind E. -/
def vatTrap {α : Type} (cause : Nat) (addr : Option Word := none) (index access detail : Nat := 0) : M α :=
  stopWith (.trap { cause := cause, eKind := true, engine := 2, addr := addr, index := index, access := access,
                    detail := detail, count := if addr.isSome then 1 else 0 })
/-- A failed check of an access of the vat (R212, R240, R253). -/
def vatFault {α : Type} (e : AErr) (index port : Nat) : M α :=
  if replayable e.cause then stopWith (.replay 2 [⟨e.cause, e.va, index, 1, e.access, port⟩])
  else vatTrap e.cause (some e.va) index e.access port

/-- Read `n` bytes of an image at an address; a poisoned one raises POISON: DESIGN CHOICE, log entry 135. -/
def imageRead : Nat → Word → Nat → M (List Byte)
  | 0, _, _ => return []
  | fuel + 1, va, n => do
    if n = 0 then return []
    let m := min n (64 - va.toNat % 64)
    match ← locate (← me) needLoad aLoad va 1 with
    | .error e => vatFault e 0 0
    | .ok p =>
      let (x, poison) ← lsqRead (← me) p m
      if poison then vatTrap cPOISON (some va) 0 aLoad
      return bytesOf m x ++ (← imageRead fuel (va + b64 m) (n - m))

/-- Cut a list into pieces of `k`. -/
def pieces (k : Nat) : Nat → List Byte → List (List Byte)
  | 0, _ => []
  | n + 1, l => l.take k :: pieces k n (l.drop k)

/-- Read an image (R240, R246): every byte of `SIZE`, and the header, cells and tables in it; MOULDBAD when R237 refuses
it. -/
def readMould (va : Word) : M Mould := do
  let h := ofBytes (← imageRead 2 va 64)
  let u := fun off n => bits h (8 * off) (8 * n)
  let size := u 0x2C 4
  upTo ((va.toNat % 4096 + size + 4095) / 4096) fun k => do
    if 0 < k then
      match ← locate (← me) needLoad aLoad (va + b64 (4096 * k - va.toNat % 4096)) 1 with
      | .error e => vatFault e 0 0
      | .ok _ => return ()
  if headerBad h then vatTrap cMOULDBAD
  let es ← imageRead 1000 (va + b64 (u 0x24 4)) (24 * u 8 2)
  let ts ← imageRead 1000 (va + b64 (u 0x28 4)) (2048 * u 0x0A 1)
  let tabs := (pieces 2048 (u 0x0A 1) ts).map fun t => (pieces 8 256 t).map ofBytes
  match Mould.ofImage h ((pieces 24 (u 8 2) es).map ofBytes) tabs with
  | some m => return m
  | none => vatTrap cMOULDBAD

/-! Slots (R239, Table 9.6). -/

def slotAddr (s : State) (asid slot : Nat) : Nat := s.mgmt.mslotbase + 512 * asid + 16 * slot
/-- The entry of a slot of the firing's context. -/
def readSlot (slot : Nat) : M Nat := do
  let s ← getS
  physRead (slotAddr s s.core.info.asid slot) 16
def writeSlot (slot : Nat) (v : Nat) : M Unit := do
  let s ← getS
  physWrite (slotAddr s s.core.info.asid slot) 16 v
def slotSeq (e : Nat) : Nat := bits e 32 32

/-- `mbind` (R240). -/
def execMbind (st : Fin 16) (a slot : Fin 32) (s : State) : Host.Outcome State Fault Refusal :=
  runEngine (.mbind st a slot) st 2 [(1, a)] (do
    unit
    let va := (← getCur).scal[1]
    if va.toNat % 64 ≠ 0 then vatTrap cMISALIGN (some va) 0 aLoad
    lsqParity
    let m ← readMould va
    let e ← readSlot slot.val
    writeSlot slot.val (1 + 2 ^ 8 * m.quads + 2 ^ 16 * m.nmem + 2 ^ 32 * ((slotSeq e + 1) % 2 ^ 32) + 2 ^ 64 * va.toNat)
    return 1) s

/-- `munbind` (R241). -/
def execMunbind (st : Fin 16) (slot : Fin 32) (s : State) : Host.Outcome State Fault Refusal :=
  runEngine (.munbind st slot) st 2 [] (do
    unit
    let e ← readSlot slot.val
    if bit e 0 then writeSlot slot.val (bits e 8 24 * 2 ^ 8 + 2 ^ 32 * ((slotSeq e + 1) % 2 ^ 32) + 2 ^ 64 * bits e 64 64)
    return 1) s

/-- Is the mould of a slot entry resident on this core? -/
def residentHere (c : Core) (slot seq : Nat) (r : Resident) : Bool :=
  r.asid == c.info.asid && r.slot == slot && r.seq == seq

/-- `mprobe` (R242). -/
def execMprobe (st : Fin 16) (d slot : Fin 32) (addr : Bool) (s : State) : Host.Outcome State Fault Refusal :=
  runEngine (.mprobe st d slot addr) st 2 [] (do
    unit
    let e ← readSlot slot.val
    let c := (← getS).core
    let here := bit e 0 && c.moulds.any (residentHere c slot.val (slotSeq e))
    writeX d (if addr then b64 (bits e 64 64)
      else b64 (e % 2 + 2 * bits e 8 3 + 16 * bits e 16 3 + 128 * here.toNat + 2 ^ 32 * slotSeq e))
    return 1) s

/-! Resident moulds (R221). -/

/-- The first quadrant of a free place for `quads` quadrants among resident moulds: a mould of two takes Q0 and Q1, or Q2 and Q3. -/
def freePlace (quads : Nat) (l : List Resident) : Option Nat :=
  let free := fun q => l.all fun r => decide (q < r.place) || decide (r.place + r.mould.quads ≤ q)
  [0, 1, 2, 3].find? fun p => p % quads == 0 && decide (p + quads ≤ 4) && (List.range quads).all fun i => free (p + i)

/-- Evict the least recently started moulds until another of `quads` quadrants fits, at most four in all: those that stay, and its
place. -/
def fitMoulds (quads : Nat) : Nat → List Resident → List Resident × Nat
  | 0, l => (l, 0)
  | fuel + 1, l =>
    match freePlace quads l with
    | some p => if l.length < 4 then (l, p) else fitMoulds quads fuel l.dropLast
    | none => fitMoulds quads fuel l.dropLast

/-- A parity error in the cells of the mould in use discards it and raises HWERR (Table 3.7). -/
def checkCfg : M Unit := do
  match (← getS).core.moulds with
  | r :: rest =>
    if r.bad then
      modC fun c => { c with moulds := rest }
      vatTrap cHWERR
  | [] => return ()

/-- Make the mould of a slot entry resident, the most recently started first (R221, R246). -/
def residentMould (slot e : Nat) : M Mould := do
  let c := (← getS).core
  match c.moulds.find? (residentHere c slot (slotSeq e)) with
  | some r =>
    modC fun c => { c with moulds := r :: c.moulds.filter (· ≠ r) }
    checkCfg
    return r.mould
  | none =>
    let va := b64 (bits e 64 64)
    let m ← readMould va
    let (stay, place) := fitMoulds m.quads 5 c.moulds
    modC fun c =>
      { c with moulds := { asid := c.info.asid, slot := slot, seq := slotSeq e, va := va, mould := m, place := place } :: stay }
    return m

end Sys2Proof.Machine
end

