-- ==== Sys2Proof/Machine/Start.lean ====
section
/-!
DEFINITION. Starting a popped record (R339, R340), restoring a saved firing (R121), and records refused at their start.
-/

namespace Sys2Proof.Machine

/-! Reading a save area back. -/

/-- The registers of the fixed part (Table 4.10), but for the vector directory, tiles and the queue. -/
def readFixed (asid base : Nat) : M Firing := do
  let xs ← areaRead asid (base + 0x80) 256
  let fr ← areaRead asid (base + 0x180) 64
  let ln ← areaRead asid (base + 0x1C0) 128
  let tc ← areaRead asid (base + 0x240) 128
  let pr ← areaRead asid (base + 0x2C0) 64
  let fx ← areaRead asid (base + 0x300) 64
  let tr ← areaRead asid (base + 0x340) 64
  let qs ← areaRead asid (base + 0x400) 512
  let ms ← areaRead asid (base + 0x2100) 14336
  let w := fun (n k : Nat) => bits n (64 * k) 64
  let f : Firing :=
    { x := Vector.ofFn fun r => if r = 0 then 0 else b64 (w xs r.val)
      xp := BitVec.ofNat 32 (bits fr 96 32 / 2 * 2), fpc := b64 (w fr 0), level := min (bits fr 64 8) 2,
      prog := b64 (w fr 2), fid := bits fr 192 32, ordinal := bits fr 224 32, session := bits fr 256 16,
      paused := bit fr 272, vstart := bits ln 64 14,
      ln := Vector.ofFn fun k => LnReg.ofWord (w ln (2 + k.val)),
      fflags := BitVec.ofNat 5 (w ln 6), pseed0 := b64 (w ln 7), pseed1 := b64 (w ln 8),
      tcfg := Vector.ofFn fun k => TCfg.ofWord (w tc k.val),
      bstride := b64 (w pr 0), panels := b64 (w pr 3),
      fx := Vector.ofFn fun k => b64 (fxKeep k.val (w fx k.val)),
      trap := TrapRegs.ofWords (w tr 0) (w tr 1) (w tr 2),
      q := Vector.ofFn fun k => streamOfImage (bits qs (512 * k.val) 512),
      m := Vector.ofFn fun k => if k = 0 then 0 else BitVec.ofNat 16384 (bits ms (16384 * (k.val - 1)) 16384) }
  return (((f.setVtype (w ln 0)).setBcfg (w ln 9)).setBcarry (w pr 1)).setPstart (w pr 2)

/-- The vector registers (R119, R120): from the variable part, at `off`, or from the overflow area; where the next piece
of the variable part begins. -/
def readVecs (asid base saved dir : Nat) : List (Fin 64) → Nat → Firing → M (Nat × Firing)
  | [], off, f => return (off, f)
  | n :: r, off, f => do
    let d := bits dir (128 * n.val) 128
    let len := min (bits d 0 13) 4096
    let inVar := bit saved n.val
    let x ← if inVar then areaRead asid (base + off) (ceil64 len)
      else if bit d 13 && !bit d 14 then areaRead asid (overflowAddr base n) (ceil64 len) else pure 0
    let v : VReg := { bits := BitVec.ofNat 32768 x, len := len, dirty := bit d 13, poison := BitVec.ofNat 64 (bits d 64 64) }
    readVecs asid base saved dir r (if inVar then off + ceil64 len else off)
      { f with v := f.v.set n v, resident := if bit d 14 then f.resident ++ [n] else f.resident }

/-- The saved tiles and accumulators (R119, R120), and the poison maps of all (R262). -/
def readTiles (asid base used poison : Nat) : List (Fin 16) → Nat → Firing → M (Nat × Firing)
  | [], off, f => return (off, f)
  | n :: r, off, f => do
    let here := bit used n.val
    let x ← if here then areaRead asid (base + off) 4096 else pure 0
    readTiles asid base used poison r (if here then off + 4096 else off)
      { f with t := f.t.set n { bits := BitVec.ofNat 32768 x, poison := BitVec.ofNat 512 (bits poison (512 * n.val) 512), written := here } }
def readAccs (asid base used poison : Nat) : List (Fin 8) → Nat → Firing → M (Nat × Firing)
  | [], off, f => return (off, f)
  | n :: r, off, f => do
    let here := bit used n.val
    let x ← if here then areaRead asid (base + off) 16384 else pure 0
    readAccs asid base used poison r (if here then off + 16384 else off)
      { f with a := f.a.set n { bits := BitVec.ofNat 131072 x, poison := BitVec.ofNat 512 (bits poison (512 * (16 + n.val)) 512),
                                written := here } }

/-- The queue dump (R106), its masks packed in the variable part (R120). -/
def readQueue (asid base : Nat) : Nat → Nat → Nat → M (List DumpEntry)
  | 0, _, _ => return []
  | n + 1, i, off => do
    let w ← areaRead asid (base + 0x1100 + 64 * i) 64
    let size := ceil64 (ceil8 (bits w 448 16))
    let m ← if bit w 468 then areaRead asid (base + off) size else pure 0
    return DumpEntry.ofImage w m :: (← readQueue asid base n (i + 1) (if bit w 468 then off + size else off))

/-- The firing a slot holds. -/
def readImage (asid base : Nat) : M Firing := do
  let h ← physRead base 0x80
  let f ← readFixed asid base
  let dir ← areaRead asid (base + 0x700) 1024
  let poison ← areaRead asid (base + 0xB00) 1536
  let (off, f) ← readVecs asid base (bits h 192 64) dir (List.finRange 64) 0x5900 f
  let (off, f) ← readTiles asid base (bits h 160 16) poison (List.finRange 16) off f
  let (off, f) ← readAccs asid base (bits h 152 8) poison (List.finRange 8) off f
  let queue ← readQueue asid base (min (bits h 136 8) 32) 0 off
  return { f with queue := queue.map fun e => { e with logged := !f.paused || e.ordn != 0 } }

/-- Moulds of the list at 0x0600 that are still bound to their slots are resident again (R121, R243). -/
def reloadMoulds (asid base : Nat) : Nat → M Unit
  | 0 => return ()
  | k + 1 => do
    let w ← areaRead asid (base + 0x600 + 64 * k) 64
    if bits w 64 64 ≠ 0 then
      let slot := bits w 0 64 % 32
      let e ← readSlot slot
      if bit e 0 ∧ bits e 64 64 = bits w 128 64 then
        let before ← getS
        try
          let _ ← residentMould slot e
        catch
          | .fault f => stopWith (.fault f)
          | _ => set before
    reloadMoulds asid base k

/-! Starting. -/

/-- A launch record or a continuation record whose context descriptor is refused (R110): `REFUSED`, `REFLAST`. -/
def countRefused (asid post : Nat) (cont : Bool) : M Unit :=
  modS fun s => ({ s with mgmt := { s.mgmt with
    refused := s.mgmt.refused + 1,
    reflast := b64 (asid % 16384 + 2 ^ 16 * (post % 256) + 2 ^ 24 * cont.toNat) } } : State).raiseMint 1

/-- What the management complex ends without a firing's join: no event of the log. -/
def mgmtWho (asid : Nat) : OlWho := { asid := asid, mode := 0, fid := 0, ord := 0, counts := false }

/-- The binding of an actor firing (R351): its record's origin names it, else the record's index in the cluster of the core. -/
def actorKey (core : Nat) (r : Rec) (o : Option Origin) : Nat :=
  match o.map (·.payload) with
  | some [k] => k.toNat
  | _ => 64 * clusterOf core + bits r.arg 32 6

/-- The firing of a refused record has ended: a saved one leaves its slot, one of an actor leaves the actor (R350, R351). -/
def refusedEnds (r : Rec) (o : Option Origin) : M Unit := do
  if r.kind = 2 then actorEnded { actor := some (actorKey (← getS).core.id r o) }
  else if r.kind = 1 then
    match SMap.get none (slotKey r.asid (bits r.code 0 16)) (← getS).slots with
    | some i =>
      if i.onCore.isNone && i.info.lid == r.lid then
        discardSlot i.info
        actorEnded i.info
    | none => return ()

/-- A refused record (R339); its firing has ended. -/
def refuseStart (post : Nat) (r : Rec) (o : Option Origin) (reason : Nat) : M Unit := do
  let mine ← if ← launchInUse r.lid then pure ((← leField r.lid 0x28 2) == r.asid) else pure false
  if descBad (← getS) r.asid then
    countRefused r.asid post true
    if mine then endSteps r.lid 0 0 false false none (mgmtWho r.asid)
  else
    let _ ← faultPostWrite r.asid r.bytes
    let _ ← writeFRec { cause := cLAUNCHBAD, asid := r.asid, detail := reason }
    if mine then endSteps r.lid cwFAULT 1 true (r.kind == 3) none (mgmtWho r.asid)
  if mine then refusedEnds r o

/-- The body of a START record (Table 16.5). -/
def startBody (o : Origin) : Nat :=
  o.okind % 256 + 2 ^ 8 * (o.spost % 256) + 2 ^ 32 * (o.pfid % 2 ^ 32) + 2 ^ 64 * (o.pord % 2 ^ 32)
    + 2 ^ 96 * (o.num % 2 ^ 32)

/-- The mode of a context's next firing start, its `FID`, and the ring's records (R358, R359). -/
def nextStart (asid : Nat) : M (Nat × Nat × List (Nat × Nat)) := do
  if (← lrStat asid) / 65536 ≠ (← ctxField asid 0x7A 2) then
    return (bits (← ctxFlags asid) 2 2, 1, (← olRing asid).filter fun (_, r) => olKind r != 0)
  else return (← olMode asid, ((← getS).session asid).firings + 1, ← olLive asid)

/-- In replay, the record of the context's next start, when the popped record's origin equals it (R372). -/
def startRecOf (l : List (Nat × Nat)) (fid : Nat) (o : Origin) : Option (Nat × Nat) :=
  l.find? fun (_, r) => olKind r == 2 && olFid r == fid && r / 2 ^ 96 == startBody o

/-- The start of a firing as an event of the log (R358, R359, Table 16.3): its `FID`. -/
def logStart (asid : Nat) (o : Origin) : M Nat := do
  olSession asid (← getS).core.id
  let (mode, fid, live) ← nextStart asid
  match mode with
  | 1 =>
    olReserve asid (← getS).core.id
    olAppend asid 2 (← getS).core.id fid 0 (startBody o)
  | 2 =>
    match startRecOf live fid o with
    | some (c, _) => olConsume asid c 0
    | none => pure ()
  | _ => pure ()
  modS fun s => let x := s.session asid; s.setSession { x with firings := fid }
  return fid

/-- Scalar registers at a firing's start (Table 15.8), but for those of a ragged table entry; of a message's handler
(R390). -/
def startRegs (r : Rec) (o : Origin) (launchArg : Nat) (actor : Option Actor) : Vector Word 32 :=
  let x : Vector Word 32 := Vector.replicate 32 0
  let x := x.set 1 (b64 r.frame)
  match r.kind with
  | 2 => (x.set 2 (match actor with | some a => a.arg | none => 0)).set 3 (b64 (bits r.arg 0 32))
  | 3 => (x.set 2 (b64 launchArg)).set 3 (b64 (bits r.arg 0 32))
  | _ =>
    match o.payload with
    | [a, b, c, d, e] => ((((x.set 2 a).set 3 b).set 4 c).set 5 d).set 6 e
    | _ => x.set 2 (b64 r.arg)

/-- The ragged table entry of a `KIND` 3 firing (R340). A fault parks it before its first instruction. -/
def readTable : M Unit := do
  let s ← getS
  let i := s.core.info
  let tab ← leField i.lid 0x18 8
  let tile ← leField i.lid 0x2C 2
  let sg := bits i.arg.toNat 0 32
  let t := bits i.arg.toNat 32 32
  let finish := modC fun c => { c with info := { c.info with tableOwed := false } }
  let park := fun (e : AErr) => do
    modC fun c => { c with info := { c.info with tableOwed := true } }
    trTrace 7 0 0 e.cause s.core.f.fpc.toNat
    stopFiring 2 e.cause
    let _ ← writeFRec { cause := e.cause, asid := i.asid, core := s.core.id, slot := i.slot, addr := e.va.toNat,
                        access := e.access }
    launchFlag i.lid cwFAULT s.core.id
  if tab = 0 then finish
  else
    let va := b64 (tab + 16 * sg)
    match ← homeRead (← me) va 8 with
    | .error e => park e
    | .ok (w0, p0) =>
      match ← homeRead (← me) (va + 8) 8 with
      | .error e => park e
      | .ok (w1, p1) =>
        modF fun f =>
          let f := ((f.setX 4 (b64 w1)).setX 5 (b64 ((bits w0 32 32 + t * tile) % 2 ^ 32))).setX 6
            (b64 (min tile (bits w0 0 32 - t * tile)))
          let f := if p0 then (f.poisonX 5).poisonX 6 else f
          if p1 then f.poisonX 4 else f
        finish

/-- The core takes a firing: its L1 is invalidated (R330), its counts begin. -/
def takeCore (f : Firing) (i : FiringInfo) (resumed : Bool) : M Unit := do
  let s ← getS
  modC fun c =>
    { c with running := true, f := f, info := i, wait := none, watch := none, cur := none, ahead := none, vat := none, budget := none,
             accepted := [], l1 := [], charged := 0, issued := 0, bkptPassed := none, badLsq := false,
             since := s.cycle }
  modT fun t => { t with spAt := s.cycle.toNat, spGone := 0, why := [] }
  trTrace 5 resumed.toNat 0 i.slot f.fpc.toNat
  spend 40

/-- A firing that is not a resumption starts (R340). -/
def startFresh (post : Nat) (r : Rec) (o : Origin) (slot : Nat) : M Unit := do
  let s ← getS
  let fid ← logStart r.asid o
  let level := if bit (← ctxFlags r.asid) 4 then 2 else 0
  let key := actorKey s.core.id r (some o)
  let actor := if r.kind = 2 then SMap.get none key s.actors else none
  let launchArg ← leField r.lid 0x10 8
  let i : FiringInfo :=
    { asid := r.asid, slot := slot, lid := r.lid, spost := post, kind := r.kind, code := b64 r.code, frame := b64 r.frame,
      arg := b64 r.arg, meta32 := r.meta32, actor := if r.kind = 2 then some key else none, actorN := bits r.arg 0 32,
      lastCore := s.core.id, tableOwed := r.kind == 3 }
  modS fun s => { s with slots := SMap.put none (slotKey r.asid slot) (some { info := i, onCore := some s.core.id }) s.slots }
  takeCore { x := startRegs r o launchArg actor, fpc := b64 (r.code / 8 % 2 ^ 45 * 8), level := level, fid := fid,
             session := ((← getS).session r.asid).num } i false
  if r.kind = 3 then readTable

/-- Why a saved firing may not be restored (R121, R124, R128): a header that is refused, or changed while halted for the
debugger; a tag that does not match. -/
def restoreBad (i : SlotInfo) (base : Nat) : M Bool := do
  let h ← physRead base 0x80
  if bits h 0 32 ≠ 0x45564153 ∨ bits h 32 16 ≠ 1 ∨ !bit h 49 then return true
  if i.stop = 5 then
    if (← snapBytes base) ≠ i.snap then return true
  if ← isConf i.info.asid then
    let tag ← physRead (base + 0x40) 32
    return tag != (← saveTag i.info.asid base (bits h 64 32) (bit (← areaRead i.info.asid (base + 0x340) 8) 13))
  return false

/-- A saved firing resumes (R121, R109). -/
def resume (i : SlotInfo) : M Unit := do
  let asid := i.info.asid
  let key := slotKey asid i.info.slot
  let base ← slotBase asid i.info.slot
  if ← restoreBad i base then retireFailed i.info
  else
    let f ← readImage asid base
    let f := { f with
      beatFlags := i.beatFlags, poisonOut := i.poisonOut, faultOwed := i.faultOwed, linkCauses := i.linkCauses,
      relFence := i.relFence, acqFence := i.acqFence, badX := i.badX, badM := i.badM, queue := withSides f.queue i.side, trapSide := i.trapSide,
      fxEnds := i.fxEnds, trapEnds := i.trapEnds,
      q := Vector.ofFn fun k => { f.q[k] with held := i.held.getD k.val [], drainFault := i.drainFaults.getD k.val none } }
    modS fun s => { s with slots := SMap.put none key (some { info := i.info, onCore := some s.core.id }) s.slots }
    takeCore f i.info true
    modC fun c => { c with bkptPassed := i.bkptPassed }
    let queue ← renumber f.queue
    modF fun f => { f with queue := queue }
    reloadMoulds asid base 4
    spend ((← physRead (base + 8) 4) / 64)
    if i.info.tableOwed then readTable

/-- The lowest free save slot of a context (R117). -/
def freeSlotOf (s : State) (asid : Nat) : Option Nat :=
  let used := s.slots.filterMap fun (k, _) => if k / 65536 = asid then some (k % 65536) else none
  (List.range (min (s.ctxRaw asid 0x18 2) (used.length + 1))).find? fun k => !used.contains k

/-- Start a popped record on the core in focus (R339). -/
def startRecord (post : Nat) (r : Rec) (o : Option Origin) : M Unit := do
  let s ← getS
  if bit r.meta32 31 then refuseStart post r o 2
  else if !(← launchInUse r.lid) then refuseStart post r o 3
  else if (← leField r.lid 0x28 2) ≠ r.asid then refuseStart post r o 2
  else if !(← readDesc r.asid) then refuseStart post r o 7
  else if r.kind = 1 then
    match SMap.get none (slotKey r.asid (bits r.code 0 16)) s.slots with
    | some i => if i.onCore.isNone then resume i else endSteps r.lid cwFAULT 1 true false none (mgmtWho r.asid)
    | none => endSteps r.lid cwFAULT 1 true false none (mgmtWho r.asid)
  else
    match freeSlotOf s r.asid with
    | some slot => startFresh post r (o.getD ⟨0, post, 0, 0, 0, []⟩) slot
    | none => return ()

end Sys2Proof.Machine
end

