-- ==== Sys2Proof/Machine/Sched.lean ====
section
/-!
DEFINITION. Choosing the next record (R341, R342), the quantum and pre-emption (R343, R115), and accesses that a stop left
in flight (R108).
-/

namespace Sys2Proof.Machine

/-- A record at the `HEAD` of a run post: the control block, the ring entry, the record. -/
structure Found where
  cb : Nat
  loc : Nat
  rec' : Rec
  deriving DecidableEq, Repr

/-- The record at the `HEAD` of run post `i` of the submit post at `pa`. -/
def headRecord (s : State) (pa i : Nat) : Option Found :=
  let cb := Memory.read s.mem (pa + 0x28) 8 + 64 * i
  let head := Memory.read s.mem (cb + 8) 4
  if head = Memory.read s.mem (cb + 12) 4 then none
  else
    let loc := Memory.read s.mem cb 8 + 32 * (head % Memory.read s.mem (cb + 16) 4)
    some { cb := cb, loc := loc, rec' := recOf (Memory.readBytes s.mem loc 32) }

/-- May core `c` pop a record (R342, R372, R424)? -/
def mayPop (core : Nat) (x : Found) : M Bool := do
  let s ← getS
  let asid := x.rec'.asid
  if s.mgmt.stops.contains asid then return false
  if x.rec'.kind = 1 then return bits x.rec'.code 16 6 == clusterOf core
  if descBad s asid then return true
  if (freeSlotOf s asid).isNone then return false
  let (mode, fid, live) ← nextStart asid
  if mode ≠ 2 then return true
  match ← getOrigin x.loc with
  | some o => return (startRecOf live fid o).isSome
  | none => return false

/-- `take(p, c)` without popping (R342). -/
def takeAt (pa core : Nat) : List Nat → M (Option Found)
  | [] => return none
  | i :: r => do
    match headRecord (← getS) pa i with
    | none => takeAt pa core r
    | some x => if ← mayPop core x then return some x else takeAt pa core r
def take (pa core : Nat) (rev : Bool) : M (Option Found) :=
  let l := [core, 160 + clusterOf core, 200 + groupOf core, 208]
  takeAt pa core (if rev then l.reverse else l)

/-- Registered submit posts in index order from the device pointer, cyclically (R341). -/
def postsInOrder (s : State) : List (Nat × Nat) :=
  let l := s.submits.filterMap fun (p, o) => o.map fun x => (p, x.pa)
  l.filter (fun (p, _) => decide (s.schedPtr ≤ p)) ++ l.filter fun (p, _) => decide (p < s.schedPtr)

def weight (pa : Nat) : M Nat := physRead (pa + 0x20) 1
def deficit (pa : Nat) : M Int := do return sext 64 (← physRead (pa + 0x38) 8)

/-- The search of one round (R341). -/
def pickRound (core : Nat) (rev : Bool) : List (Nat × Nat) → M (Option (Nat × Found))
  | [] => return none
  | (p, pa) :: r => do
    if 0 < (← weight pa) ∧ 0 < (← deficit pa) then
      match ← take pa core rev with
      | some x => return some (p, x)
      | none => pickRound core rev r
    else pickRound core rev r

/-- How many rounds take a post's `DEFICIT` above 0. -/
def roundsOf (d : Int) (wq : Nat) : Nat := if 0 < d then 0 else d.natAbs / wq + 1

/-- The pick of R341: rounds that find nothing are made at once. A core that has waited for a record adds to the posts before it
searches again. -/
def findRecord (core : Nat) (rev : Bool) : M (Option (Nat × Found)) := do
  let s ← getS
  let posts := postsInOrder s
  match ← (if s.core.picking then return none else pickRound core rev posts) with
  | some x => return some x
  | none =>
    let can ← posts.filterMapM fun (_, pa) => do
      let w ← weight pa
      if w = 0 then return none
      match ← take pa core rev with
      | some _ => return some (roundsOf (← deficit pa) (w * s.mgmt.schedq))
      | none => return none
    match can with
    | [] => return none
    | k :: r =>
      let n := max 1 (r.foldl min k)
      posts.forM fun (p, pa) => do
        let w ← weight pa
        if w ≠ 0 ∧ postBusy s p pa then
          physWrite (pa + 0x38) 8 ((wordOf ((← deficit pa) + (n * w * s.mgmt.schedq : Nat))).toNat)
      pickRound core rev posts

/-- A request that activates firmware, and so drains the device (R419). -/
def activates (code : Nat) : Instr → Bool
  | .activate | .pldmFirmwareUpdate _ => true
  | .managementRegisterWrite .. => code == 8
  | _ => false
/-- Does an activation run, which pauses host acceptance (R419)? -/
def Mgmt.activating (m : Mgmt) : Bool := m.mrun.any (activates m.mcmd)

/-- Does the device start firings now (R418, R419, R425)? -/
def schedulerRuns (s : State) : Bool :=
  s.mgmt.ready && s.mgmt.run && s.mgmt.based == 7 && decide (s.mgmt.pstate ≤ 1) && !s.mgmt.activating

/-- PICK (R341, R342): an idle core chooses a record, pops it and starts it; with none it waits. -/
def execPick (core : Nat) (s : State) : Host.Outcome State Fault Refusal :=
  runEvent (.pick core) (withCore core do
    let s ← getS
    if decide (core < 160) && schedulerRuns s && !s.core.running then
      idlePosts
      modS (·.stallClearAll core)
      s.sessions.forM fun x => olSync x.asid
      match ← findRecord core ((s.core.picks + 1) % 4 == 0) with
      | none => modC fun c => { c with picking := true }
      | some (p, x) =>
        modC fun c => { c with picking := false }
        let o ← getOrigin x.loc
        modC fun c => { c with picks := c.picks + 1 }
        modS fun s => { s with schedPtr := p + 1 }
        let _ ← bseqNext x.cb
        physWrite (x.cb + 8) 4 ((← physRead (x.cb + 8) 4) + 1)
        setOrigin x.loc none
        retryOwed
        startRecord p x.rec' o
        idlePosts) s

/-- Has the firing of the core in focus held it for a quantum since its last charge (R341)? -/
def chargeDue (s : State) : Bool := s.core.running && decide (max 1 s.mgmt.schedq ≤ s.held - s.core.charged)

/-- DEFICIT_CHARGE (R341): every quantum while the firing runs. -/
def execDeficitCharge (core : Nat) (s : State) : Host.Outcome State Fault Refusal :=
  runEvent (.deficitCharge core) (withCore core do
    if chargeDue (← getS) then chargeDeficit) s

/-- The three conditions of R343 on the records that wait: one of them makes the firing of the core in focus give way at its
quantum. -/
def rivalWaits : M Bool := do
  let s ← getS
  let core := s.core.id
  let p := s.core.info.spost
  let rev := (s.core.picks + 1) % 4 == 0
  let mine ← submitPa p
  let w ← match mine with
    | some pa => weight pa
    | none => pure 0
  let others ← (postsInOrder s).filterMapM fun (q, pa) => do
    if q = p ∨ (← weight pa) = 0 then return none
    match ← take pa core rev with
    | some _ => return some (← deficit pa)
    | none => return none
  if others.any (fun d => decide (0 < d)) || (w == 0 && !others.isEmpty) then return true
  match mine with
  | none => return false
  | some pa =>
    match headRecord s pa core with
    | some x => mayPop core x
    | none => return false

/-- Is the firing of the core in focus to be pre-empted at its quantum (R343)? -/
def quantumEnds : M Bool := do
  let s ← getS
  if s.core.running && decide (s.mgmt.schedq ≤ s.held) then rivalWaits else return false

/-- A request stops the firing at its next boundary (R115): now, where no engine instruction is in execution. An engine
stop not delivered yet comes first; the firing is then saved at the first instruction of the handler, if one is entered (R105). -/
def preempt (code : Nat) : M Unit := do
  match (← getS).core.ahead with
  | some (e, _) => deliverStop e
  | none => pure ()
  if (← getS).core.running then stopFiring code

/-- QUANTUM_EXPIRY (R343). -/
def execQuantumExpiry (core : Nat) (s : State) : Host.Outcome State Fault Refusal :=
  runEvent (.quantumExpiry core) (withCore core do
    if ← quantumEnds then
      chargeDeficit
      preempt 1) s

/-- PREEMPTION (R115, R343): the request that ends a quantum reaches the core. `budget`: the quantum ends inside the engine
instruction next in execution (log entry 84), after so many of its units and the loads of its elements that homes have accepted by
then; none: the request finds the core at an instruction boundary. -/
def execPreemption (core : Nat) (budget : Option Nat) (accepted : List Nat) (s : State) :
    Host.Outcome State Fault Refusal :=
  runEvent (.preemption core budget accepted) (withCore core do
    let s ← getS
    if s.core.running then
      match s.core.ahead, budget with
      | none, some n => if ← rivalWaits then modC fun c => { c with budget := some n, accepted := accepted }
      | _, _ => if ← quantumEnds then preempt 1) s

/-! Accesses in flight at a stop (R108). -/

/-- The started entry of a dump that waits for element `e` of register `d`: its index. -/
def lateEntry (es : List DumpEntry) (d e : Nat) : Option Nat :=
  es.findIdx? fun x => x.pcm && !x.mask.getLsbD e && match decode x.word with
    | .ok (.vld _ _ v ..) | .ok (.vlds _ v ..) | .ok (.vldx _ _ v ..) | .ok (.vamo _ _ _ _ v ..) => v.val == d
    | _ => false

/-- The result of an access in flight, when its home performs it: its bits, and its poison (R93, R96). -/
def performLate (l : Late) : M (Nat × Bool) := do
  match l.amo, l.locs with
  | some a, loc :: _ =>
    let asid := l.slotKey / 65536
    let slot := l.slotKey % 65536
    let _ ← bseqNext loc
    beaterAccepts loc none
    drainBytes l.core loc l.n
    let beat ← takeBeat l.core
    let s ← getS
    let old := Memory.read s.mem loc l.n
    if beat || s.isPoisoned loc l.n then
      acknowledge loc asid slot false
      return (2 ^ l.w - 1, true)
    else
      let (new, fl) := amoNew a.op a.fmt l.w old a.b a.c
      raiseSticky loc asid fl
      let (s, r) := s.homeStore loc l.n new a.poison
      set (s.noteWatches.modifyCore l.core fun c => l1Drop c (loc / 128))
      acknowledge loc asid slot (r != .stored)
      return (old, false)
  | _, locs =>
    locs.forM fun loc => drainBytes l.core loc l.n
    let beat ← takeBeat l.core
    let s ← getS
    let x := ((locs.zipIdx).map fun (loc, i) => Memory.read s.mem loc l.n * 2 ^ (8 * l.n * i)).sum
    return (x / 2 ^ l.bo % 2 ^ l.w, beat || locs.any fun loc => s.isPoisoned loc l.n)

/-- Change `w` bits at bit `lo` of an image in memory. -/
def patchImage (asid pa lo w x : Nat) : M Unit := do
  let a := pa + lo / 8
  let n := (lo % 8 + w + 7) / 8
  areaFill asid a n (patchBits (← areaRead asid a n) (lo % 8) w x)

/-- The result of an access performed after its firing's stop, written into the saved image of its destination, with its bit of
the partial-completion mask and, of an atomic, of its status mask (R108, R319). -/
def lateResult (l : Late) (base x : Nat) (poisoned : Bool) : M Unit := do
  let asid := l.slotKey / 65536
  let h ← physRead base 0x80
  let dir ← areaRead asid (base + 0x700) 1024
  let saved := bits h 192 64
  let size := fun n => if bit saved n then ceil64 (bits dir (128 * n) 13) else 0
  let below := fun k => ((List.range k).map size).sum
  let at' := if bit saved l.reg then base + 0x5900 + below l.reg else base + 0x80000 + 4096 * l.reg
  patchImage asid at' (l.elem * l.w) l.w x
  let groups := groupMask (l.elem * l.w) (l.elem * l.w + l.w)
  if poisoned then
    let a := base + 0x700 + 16 * l.reg + 8
    areaFill asid a 8 ((← areaRead asid a 8) ||| groups)
  match l.amo with
  | some a => if a.mask ≠ 0 then patchImage asid (base + 0x2100 + 2048 * (a.mask - 1)) l.elem 1 poisoned.toNat
  | none => pure ()
  let masks := 0x5900 + below 64 + 4096 * ((List.range 16).filter fun k => bit h (160 + k)).length
    + 16384 * ((List.range 8).filter fun k => bit h (152 + k)).length
  let es ← readQueue asid base (min (bits h 136 8) 32) 0 masks
  match lateEntry es l.reg l.elem with
  | none => pure ()
  | some i =>
    let before := ((es.take i).map fun e => if e.pcm then ceil64 (ceil8 e.vlen) else 0).sum
    patchImage asid (base + masks + before) l.elem 1 1
    if poisoned then
      let took := fun (e : DumpEntry) => { e with pois := e.pois ||| BitVec.ofNat 64 groups }
      let note := fun (k : Nat) (o : Option SlotInfo) =>
        (k, if k = l.slotKey then o.map fun x => { x with side := x.side.modify i took } else o)
      modS fun s => { s with slots := s.slots.map fun (k, o) => note k o }
  patchHeader asid base 6 2 (← physRead (base + 6) 2)

/-- Is an access to be performed before another one of its firing: an earlier element of a byte in common (R70, R211)? -/
def Late.precedes (x y : Late) : Bool := x.slotKey == y.slotKey && sharesByte (max x.n y.n) x.locs y.locs

/-- ACCESS_PERFORMED_AFTER_STOP (R108): the load or the atomic is performed at its home. -/
def execAccessPerformedAfterStop (idx : Nat) (s : State) : Host.Outcome State Fault Refusal :=
  runEvent (.accessPerformedAfterStop idx) (do
    let s ← getS
    match s.late[idx]? with
    | none => return ()
    | some l =>
      if (s.late.take idx).any (·.precedes l) then return ()
      let base ← slotBase (l.slotKey / 65536) (l.slotKey % 65536)
      let (x, poisoned) ← performLate l
      if !l.orphan then keepSnap l.slotKey base (lateResult l base x poisoned)
      modS fun s => { s with late := s.late.eraseIdx idx }
      if !l.orphan then pushOwed l.slotKey
      wakeCore l.core (· == .background)) s

end Sys2Proof.Machine
end

