-- ==== Sys2Proof/Machine/Launching.lean ====
section
/-!
DEFINITION. `launch` (R346), host acceptance (R333, R334), launches over several devices (R400), `spawn` (R347), and
actors (R349 to R352).
-/

namespace Sys2Proof.Machine

/-! Launches over several devices (R400). -/

/-- The devices a bitmap names. -/
def namedDevices (bitmap : List Byte) : List Nat := (List.range 1024).filter fun d => bit (ofBytes bitmap) d
/-- May a device be reached (R385)? -/
def reachable (s : State) (d : Nat) : Bool := d == s.mgmt.device || !s.portsUp.isEmpty

/-- A launch record as it is sent to another device, with what the origin knows of it. -/
def shareRecord (asid spost : Nat) (code param arg : Word) (okind pfid pord id : Nat) : List Byte :=
  bytesOf 8 code.toNat ++ bytesOf 8 param.toNat ++ bytesOf 8 arg.toNat ++ bytesOf 4 0 ++ bytesOf 4 asid ++ bytesOf 1 spost
    ++ bytesOf 1 okind ++ bytesOf 2 0 ++ bytesOf 4 pfid ++ bytesOf 4 pord ++ bytesOf 4 id

/-- The origin shares a launch out: its number, the lowest free (DESIGN CHOICE, log entry 137); a device that cannot be reached is counted as ended. A bitmap that names no device
starts no firing, and the word takes `DONE` at once with `FIRED` 0 and no `FAULT`: DESIGN CHOICE, log entry 125. -/
def shareOut (asid spost : Nat) (code param arg : Word) (cword : Word) (devs : List Nat) (okind pfid pord : Nat) : M Nat := do
  let s ← getS
  let used := s.shares.map (·.1)
  let id := ((List.range (used.length + 1)).find? fun i => !used.contains i).getD 0
  let there := devs.filter (reachable s)
  if there.length < devs.length then modS (·.raiseMint 6)
  modS fun s => { s with shares := SMap.put none id (some ⟨there.length + 1, asid, cword, spost, okind == 1⟩) s.shares }
  (there.filter (· != s.mgmt.device)).forM fun d =>
    modS fun s => { s with outbox := s.outbox ++
      [.link "launch" d [] (shareRecord asid spost code param arg okind pfid pord id)] }
  -- the sharing itself counts as one more device until it is done
  shareUpdate id ((if there.length < devs.length then cwFAULT else 0) ||| (if ← diverged asid then cwDIVERGE else 0)) 0 true
  return id

/-- This device's place among the devices named: rank and number. -/
def myShare (s : State) (devs : List Nat) : Option (Nat × Nat) :=
  (devs.findIdx? (· == s.mgmt.device)).map fun r => (r, devs.length)

/-! `launch`. -/

/-- The front's progress word while `launch` runs (R336): entry, next segment, next tile. -/
def launchProg (lid seg tile : Nat) : Word := b64 (lid % 16384 + 2 ^ 14 + 2 ^ 15 * (seg % 2 ^ 24) + 2 ^ 39 * (tile % 2 ^ 25))

/-- The words of a structure as a front instruction reads them: at their homes, its own older writes among them (R28). -/
def frontWords (va : Word) : Nat → M (List Nat)
  | 0 => return []
  | n + 1 => do
    let (v, _) ← homeLoad (← me) (← frontPlace needLoad aLoad va 8) 8
    return v :: (← frontWords (va + 8) n)
/-- A structure a front instruction reads, 8 bytes at a time, with the faults of a scalar load (R55, R334). -/
def frontBytes (va : Word) (align words : Nat) : M (List Byte) := do
  let _ ← frontPlace needLoad aLoad va align
  return (← frontWords va words).flatMap (bytesOf 8)

/-- The checks of `launch` and the allocation of its entry (R346). A launch over several devices that does not name this
one has no entry here. -/
def launchBegin (param code arg : Word) (w : OlWho) : M Bool := do
  let s ← getS
  let i := s.core.info
  if param.toNat % 64 ≠ 0 then trapAt ⟨cMISALIGN, param, aLoad⟩
  if code.toNat % 8 ≠ 0 then trapAt ⟨cMISALIGN, code, aLoad⟩
  let d ← frontBytes (code - 32) 8 4
  if kernelBad d then trapP cVERSION
  let p := paramsOf (← frontBytes param 64 8)
  let frame := ofBytes ((d.drop 8).take 4)
  if paramsBad p frame then stopWith (.trap { cause := cLAUNCHBAD, detail := 1 })
  let devs ← if p.devs = 0 then pure [] else pure (namedDevices (← frontBytes p.devs 8 16))
  releaseTokens
  match ← freeLaunch with
  | none => stopWith (.wait .launchRoom)
  | some lid =>
    olBefore w true s.core.f.fpc
    if p.devs = 0 then
      allocLaunch lid i.asid i.spost frame arg p ⟨2, i.spost, w.fid, w.ord, none⟩
    else
      let id ← shareOut i.asid i.spost code param arg p.cword devs 2 w.fid w.ord
      if devs.contains s.mgmt.device then
        allocLaunch lid i.asid i.spost frame arg p ⟨2, i.spost, w.fid, w.ord, some (s.mgmt.device, id)⟩
    if p.devs = 0 ∨ devs.contains s.mgmt.device then
      modF fun f => { f with prog := launchProg lid 0 0 }
      return true
    else return false

/-- The expansion a `launch` in progress runs. -/
def launchExpand (lid : Nat) (param code : Word) (w : OlWho) : M Expand := do
  let s ← getS
  let p := paramsOf (← frontBytes param 64 8)
  let devs ← if p.devs = 0 then pure [] else pure (namedDevices (← frontBytes p.devs 8 16))
  return { lid := lid, asid := s.core.info.asid, spost := s.core.info.spost, code := code, p := p,
           fsize := (← leField lid 0x30 4), core := some s.core.id, share := if p.devs = 0 then none else myShare s devs,
           who := { w with counts := false } }

/-- The end of an expansion by `launch`, and its ORIG record. `stage`: what a stop at a divergence finds made already, the
final decrement (1), the guard's retirement (2). -/
def launchEnd (x : Expand) (e : Expanded) (pushed stage : Nat) (w : OlWho) : M Unit := orUndo do
  let mark := fun n => modF fun f => { f with prog := launchProg x.lid x.p.count n }
  if stage = 0 then
    reportRefused x e
    try expandJoin x
    catch
      | .trap t => do
        if t.detail = 6 then mark 1
        stopWith (.trap t)
      | e => stopWith e
  if stage < 2 then
    mark 1
    retireGuard x
    mark 2
  olPlain w 0x0C (1 + 2 ^ 32 * (pushed % 2 ^ 32)) (← getF).fpc 0 (some 6)

/-- The pushes of `launch` (R336): it stops for pre-emption between them. -/
def launchRun (param code : Word) (w : OlWho) : M Nat := do
  let prog := (← getF).prog.toNat
  let lid := bits prog 0 14
  let x ← launchExpand lid param code w
  let seg := bits prog 15 24
  let tile := bits prog 39 25
  if x.p.count ≤ seg then
    let n ← pushedAt x x.p.count 0
    launchEnd x .done n tile w
    return n
  else
    let budget := (← getS).core.budget
    let (e, left) ← expandFrom x seg tile budget
    let (s, t) := e.next x.p.count
    modF fun f => { f with prog := launchProg lid s t }
    modC fun c => { c with budget := left }
    match e with
    | .blocked .. => if left = some 0 then stopWith .budget else stopWith (.wait .launchRoom)
    | e =>
      let n ← pushedAt x s t
      launchEnd x e n 0 w
      return n

/-- `launch` (R346). -/
def execLaunch (st : Fin 16) (d a b c : Fin 32) (s : State) : Host.Outcome State Fault Refusal :=
  runFront st [a, b, c] (fun x => do
    let w ← myWho
    let here ← if bit (← getF).prog.toNat 14 then pure true else launchBegin (x a) (x b) (x c) w
    let n ← if here then launchRun (x a) (x b) w
      else do
        olPlain w 0x0C 1 (← getF).fpc 0 (some 6)
        pure 0
    modF fun f => { f with prog := 0 }
    writeX d (b64 n)
    return none) s

/-! Host acceptance. -/

/-- Go on with an expansion that is no firing's; true when it has ended (R333, R336). A divergence of its final decrement
stops no firing: its record names none, and the expansion goes on as in mode off (R374). -/
def expansionStep (e : Expansion) : M Bool := do
  let mode ← olMode e.asid
  let who : OlWho := { asid := e.asid, mode := mode, fid := 0, ord := e.pord, counts := false, key := postKey e.spost }
  let x : Expand := { lid := e.lid, asid := e.asid, spost := e.spost, code := e.code, p := paramsOf e.params,
                      fsize := e.fsize, core := none, share := e.share, who := who }
  let (r, _) ← expandFrom x e.seg e.tile none
  let (s, t) := r.next x.p.count
  modS fun st => { st with expansions := (st.expansions.filter (· != e)) ++ [{ e with seg := s, tile := t }] }
  match r with
  | .blocked .. => return false
  | r =>
    let before ← getS
    try
      reportRefused x r
      expandJoin x
      retireGuard x
      modS fun st => { st with expansions := st.expansions.filter (·.lid ≠ e.lid) }
      return true
    catch
      | .wait w => do
        set (before.waiting w)
        return false
      | e => stopWith e

/-- The head of a submit post's ring (R333): address of the record. -/
def submitHead (s : State) (pa : Nat) : Option Nat :=
  let head := Memory.read s.mem (pa + 8) 4
  if head = Memory.read s.mem (pa + 12) 4 then none
  else some (Memory.read s.mem pa 8 + 32 * (head % Memory.read s.mem (pa + 16) 4))
/-- `HEAD` advances when the device has finished with a record (R333). -/
def submitDone (pa : Nat) : M Unit := do physWrite (pa + 8) 4 ((← physRead (pa + 8) 4) + 1)

/-- A refusal that the completion word reports (R55, R334). -/
def acceptRefused (post asid : Nat) (cword : Word) (flag : Nat) (r : Option FRec) : M Unit := do
  if ← cwordUpdate asid cword (flag ||| cwDONE) 0 then modS (·.raiseMint (8 + post % 56))
  match r with
  | some r =>
    let _ ← writeFRec r
    return ()
  | none => return ()

/-- The entry of an accepted launch record, and its expansion begun (R335, R336, R364). -/
def acceptLaunch (post asid : Nat) (code param arg : Word) (frame : Nat) (p : Params) (devs : List Nat) : M Bool := do
  match ← freeLaunch with
  | none => return false
  | some lid =>
    olSession asid (postKey post)
    let ses := (← getS).session asid
    let pord := SMap.get 0 post ses.accepted
    modS fun s => s.setSession { s.session asid with accepted := SMap.put 0 post (pord + 1) ses.accepted }
    let s ← getS
    let begin' := fun (share : Option (Nat × Nat)) => do
      allocLaunch lid asid post frame arg p ⟨1, post, 0, pord, share⟩
      modS fun s => { s with expansions := s.expansions ++
        [{ lid := lid, spost := post, asid := asid, host := true, code := code, params := p.raw, fsize := ceilTo frame 64,
           seg := 0, tile := 0, share := if share.isSome then myShare s devs else none, pord := pord }] }
    if p.devs = 0 then
      begin' none
      return true
    else
      let id ← shareOut asid post code param arg p.cword devs 1 0 pord
      if devs.contains s.mgmt.device then begin' (some (s.mgmt.device, id))
      return true

/-- The steps of R333 on a launch record; true when the device has finished with it or begun its expansion. A `CODE` that is no
multiple of 8 counts as a failed read of the descriptor, and the record of VERSION names `CODE`: DESIGN CHOICE, log entry 81. The
parameters and the descriptor are read at level 0, in every context: DESIGN CHOICE, log entry 140. -/
def acceptRecord (post : Nat) (bs : List Byte) : M Bool := do
  let f := fun off n => ofBytes ((bs.drop off).take n)
  let asid := f 0x1C 4 % 16384
  let code : Word := b64 (f 0 8)
  let param : Word := b64 (f 8 8)
  let bad := fun (cause detail access : Nat) (va : Word) => do
    let _ ← writeFRec { cause := cause, deferred := detail != 2, asid := asid, addr := va.toNat, access := access,
                        detail := detail }
    return true
  if !(← readDesc asid) then
    countRefused asid post false
    return true
  else if f 0x18 4 ≠ 0 ∨ 16384 ≤ f 0x1C 4 then bad cLAUNCHBAD 2 0 0
  else if param.toNat % 64 ≠ 0 then bad cLAUNCHBAD 1 0 param
  else
    match ← homeBytes (agentOf asid 0) param 8 with
    | .error e => bad e.cause 0 e.access e.va
    | .ok pb =>
      let p := paramsOf pb
      if p.cword.toNat % 8 ≠ 0 then bad cLAUNCHBAD 1 0 p.cword
      else
        match ← (if code.toNat % 8 = 0 then homeBytes (agentOf asid 0) (code - 32) 4
                 else pure (.error ⟨cMISALIGN, code - 32, aLoad⟩)) with
        | .error _ =>
          acceptRefused post asid p.cword cwFAULT none
          return true
        | .ok d =>
          let frame := ofBytes ((d.drop 8).take 4)
          if kernelBad d then
            acceptRefused post asid p.cword cwVERSION (some { cause := cVERSION, asid := asid, addr := code.toNat })
            return true
          else if paramsBad p frame then
            acceptRefused post asid p.cword cwFAULT (some { cause := cLAUNCHBAD, asid := asid, addr := param.toNat, detail := 1 })
            return true
          else
            let devs ← if p.devs = 0 then pure (.ok []) else homeBytes (agentOf asid 0) p.devs 16
            match devs with
            | .error e =>
              acceptRefused post asid p.cword cwFAULT
                (some { cause := e.cause, deferred := true, asid := asid, addr := e.va.toNat, access := e.access })
              return true
            | .ok m => acceptLaunch post asid code param (b64 (f 16 8)) frame p (namedDevices m)

/-- Work on a submit post's launches (R333): an expansion of the post that has begun goes on; else the next launch record of
its ring is taken. `HEAD` advances when the device has finished with a record. -/
def acceptStep (post : Nat) : M Unit := do
  let s ← getS
  if schedulerRuns s then
    match ← submitPa post with
    | none => return ()
    | some pa =>
      match s.expansions.find? fun e => e.spost == post && !s.mgmt.stops.contains e.asid with
      | some e => if (← expansionStep e) && e.host then submitDone pa
      | none =>
        match submitHead s pa with
        | none => return ()
        | some loc =>
          let bs := Memory.readBytes s.mem loc 32
          if !s.mgmt.stops.contains (ofBytes ((bs.drop 28).take 4) % 16384)
              && !s.expansions.any (fun e => e.host && e.spost == post) then
            if ← acceptRecord post bs then
              if !(← getS).expansions.any fun e => e.host && e.spost == post then submitDone pa

/-- LAUNCH_ACCEPTANCE (R333). -/
def execLaunchAcceptance (post : Nat) (s : State) : Host.Outcome State Fault Refusal :=
  runEvent (.launchAcceptance post) (acceptStep post) s

/-- Does work on a post's launches get anywhere now, or does it wait (R333)? -/
def acceptanceMoves (post : Nat) : M Bool := do
  let s ← getS
  match ← submitPa post with
  | none => return false
  | some pa =>
    acceptStep post
    let t ← getS
    return submitHead s pa != submitHead t pa || s.expansions.length != t.expansions.length
      || t.expansions.any fun e => !s.expansions.contains e

/-- DEVICE_LAUNCH_SHARE (R400): a launch arrives from its origin; what cannot be expanded here ends with `FAULT`. -/
def execDeviceLaunchShare (src : Nat) (record : List (BitVec 8)) (s : State) : Host.Outcome State Fault Refusal :=
  runEvent (.deviceLaunchShare src record) (do
    let f := fun off n => ofBytes ((record.drop off).take n)
    let asid := f 0x1C 4 % 16384
    let code : Word := b64 (f 0 8)
    let param : Word := b64 (f 8 8)
    let id := f 44 4
    let fail : M Unit := modS fun s => { s with outbox := s.outbox ++ [.link "complete" src [id, cwFAULT, 0, 1] []] }
    if !(← readDesc asid) then
      countRefused asid (f 32 1) false
      fail
    else
      match ← homeBytes (agentOf asid 0) param 8, ← homeBytes (agentOf asid 0) (code - 32) 4 with
      | .ok pb, .ok d =>
        let p := paramsOf pb
        let frame := ofBytes ((d.drop 8).take 4)
        if kernelBad d || paramsBad p frame || p.devs == 0 then fail
        else
          match ← homeBytes (agentOf asid 0) p.devs 16 with
          | .error _ => fail
          | .ok m =>
            match myShare (← getS) (namedDevices m), ← freeLaunch with
            | none, _ => fail
            | some _, none => stopWith (.wait .launchRoom)
            | some sh, some lid =>
              allocLaunch lid asid (f 32 1) frame (b64 (f 16 8)) p ⟨f 33 1, f 32 1, f 36 4, f 40 4, some (src, id)⟩
              modS fun s => { s with expansions := s.expansions ++
                [{ lid := lid, spost := f 32 1, asid := asid, host := false, code := code, params := p.raw,
                   fsize := ceilTo frame 64, seg := 0, tile := 0, share := some sh, pord := f 40 4 }] }
      | _, _ => fail) s

/-! `spawn`. -/

/-- The registration of a record at its beater (R347): `JOIN` as found, none over poison (R96). -/
def spawnAt (loc : Nat) (w : OlWho) : M (Option Nat) := do
  let s ← getS
  let i := s.core.info
  dropLine loc
  if s.isPoisoned (loc + 0x18) 8 then return none
  let j := Memory.read s.mem (loc + 0x18) 4
  homePut (loc + 0x1C) 4 (mkMeta i.asid i.lid 0 (j != 0))
  leLiveAdd i.lid 1
  let o : Origin := { okind := 3, spost := i.spost, pfid := w.fid, pord := w.ord, num := 0 }
  if j = 0 then
    let lv := bits (← leField i.lid 0x2B 1) 0 2
    let r := recOf (Memory.readBytes (← getS).mem loc 32)
    if !(← pushRun i.spost (runIndex lv (instOf lv s.core.id)) r (some o)) then stopWith (.wait .launchRoom)
  else setOrigin loc (some o)
  return some j

/-- `spawn` (R347). -/
def execSpawn (st : Fin 16) (d a : Fin 32) (s : State) : Host.Outcome State Fault Refusal :=
  runFront st [a] (fun x => orUndo do
    let p ← frontPlace needStore aStore (x a) 32
    lsqParity
    releaseTokens
    let w ← myWho
    let j ← olBeat w 6 5 (x a) p.loc 0 (spawnAt p.loc w) fun j => (0, j.getD (2 ^ 32 - 1))
    match j with
    | some j => writeX d (if j = 0 then 0 else 1)
    | none => poisonResult d
    return none) s

/-! Actors. -/

/-- A breach of Table 15.11: LAUNCHBAD 5. -/
def actorBad {α : Type} : M α := stopWith (.trap { cause := cLAUNCHBAD, detail := 5 })

/-- Is `RING` the window address of a bank? The bank's number in the cluster. -/
def windowBank (ring : Nat) : Option Nat :=
  if inWindow (b64 ring) && (ring - 0xFFFFFF800000) % bankSize == 0 && decide (ring < 2 ^ 48) then
    some ((ring - 0xFFFFFF800000) / bankSize)
  else none

/-- A port of an actor block, as `abind` reads it (R349, R350). -/
def readPort (isIn : Bool) (w : Nat) : M ActorPort := do
  let cb := b64 (bits w 0 48)
  let rate := bits w 48 16
  if cb.toNat % 64 ≠ 0 ∨ rate = 0 then actorBad
  let b := ofBytes (← frontBytes cb 8 8)
  let flags := bits b (8 * 0x14) 16
  let token := bits b (8 * 0x16) 16
  let start := if isIn then bits b 64 32 else bits b 96 32
  if bit flags 2 == bit flags 3 || token == 0 || decide (4096 < token) then actorBad
  if bit flags 2 then return { cb := cb, rate := rate, start := start, bank := none, token := token }
  else
    match windowBank (bits b 0 64) with
    | none => actorBad
    | some k =>
      if token % 64 ≠ 0 then actorBad
      let s ← getS
      let n := 32 * clusterOf s.core.id + k
      let kind := if isIn then aLoad else aStore
      if (s.bank n).mode ≠ .fifo then trapAt ⟨cQUIREMODE, b64 (bits b 0 64), kind⟩
      if !(s.bank n).gv || (s.bank n).gasid ≠ s.core.info.asid then trapAt ⟨cQUIREOWN, b64 (bits b 0 64), kind⟩
      return { cb := cb, rate := rate, start := start, bank := some n, token := token }

def readPorts (nin : Nat) : List Nat → Nat → M (List ActorPort)
  | [], _ => return []
  | w :: r, i => do
    let p ← readPort (decide (i < nin)) w
    return p :: (← readPorts nin r (i + 1))

/-- The actor block at an address, checked (Table 15.11, R350). -/
def readActor (va : Word) (w : OlWho) : M Actor := do
  let b := ofBytes (← frontBytes va 64 16)
  let u := fun off n => bits b (8 * off) (8 * n)
  let nin := u 0x20 1
  let nout := u 0x21 1
  let maxf := u 0x22 1
  if u 0x18 8 ≠ 0 ∨ 4 < nin ∨ 4 < nout ∨ nin + nout = 0 ∨ maxf = 0 ∨ 16 < maxf ∨ u 0x23 13 ≠ 0 ∨ u 0x70 16 ≠ 0
      ∨ u (0x30 + 8 * (nin + nout)) (8 * (8 - (nin + nout))) ≠ 0 then actorBad
  let ports ← readPorts nin ((List.range (nin + nout)).map fun k => u (0x30 + 8 * k) 8) 0
  if maxf ≠ 1 ∧ ports.any (·.bank.isSome) then actorBad
  let i := (← getS).core.info
  return { asid := i.asid, va := va, code := b64 (u 0 8), frame := b64 (u 8 8), arg := b64 (u 16 8), nin := nin,
           maxf := maxf, ports := ports, next := 0, live := 0, committed := 0, lid := i.lid, spost := i.spost,
           closing := false, pfid := w.fid, pord := w.ord }

/-- `abind` (R350): the lowest free place, DESIGN CHOICE, log entry 137. -/
def execAbind (st : Fin 16) (d a : Fin 32) (s : State) : Host.Outcome State Fault Refusal :=
  runFront st [a] (fun x => orUndo do
    let w ← myWho
    let act ← readActor (x a) w
    olBefore w false (← getF).fpc
    let s ← getS
    let base := 64 * clusterOf s.core.id
    let free := (List.range 64).find? fun k => (SMap.get none (base + k) s.actors).isNone
    match free with
    | some k =>
      modS fun s => { s with actors := SMap.put none (base + k) (some act) s.actors }
      leLiveAdd s.core.info.lid 1
    | none => pure ()
    let n := free.getD (2 ^ 64 - 1)
    olPlain w 0x0C (2 + 2 ^ 32 * (n % 2 ^ 32)) (← getF).fpc 0 (some 6)
    writeX d (b64 n)
    return none) s

/-- `abind.off` (R350). -/
def execAbindOff (st : Fin 16) (d a : Fin 32) (s : State) : Host.Outcome State Fault Refusal :=
  runFront st [a] (fun x => do
    let s ← getS
    let c := s.core
    match s.actors.find? fun (k, o) => k / 64 == clusterOf c.id && (match o with
        | some y => y.va == x a && y.asid == c.info.asid && !y.closing
        | none => false) with
    | some (k, some y) =>
      if y.live = 0 then
        modS fun s => { s with actors := SMap.put none k none s.actors }
        endSteps y.lid 0 0 true false none (mgmtWho y.asid)
      else modS fun s => { s with actors := SMap.put none k (some { y with closing := true }) s.actors }
      writeX d 0
    | _ => writeX d 1
    return none) s

/-- `fcommit` (R352). -/
def execFcommit (st : Fin 16) (s : State) : Host.Outcome State Fault Refusal :=
  runFront st [] (fun _ => do
    actorCommit
    return none) s

/-- Does a port's condition hold for firing `n` (R351)? A control block that cannot be read holds nothing. -/
def portReady (g : Agent) (isIn : Bool) (n : Nat) (p : ActorPort) : M Bool := do
  match p.bank with
  | some k =>
    let held := ((← getS).bank k).fifo.length
    let need := p.rate * p.token / 64
    return decide (need ≤ if isIn then held else 4096 - held)
  | none =>
    match ← homeReadWords g (p.cb + 8) 2 with
    | .ok [ht, cf] =>
      let at' := (p.start + (n + 1) * p.rate) % 2 ^ 32
      return if isIn then decide (0 ≤ sext 32 (bits ht 32 32 + 2 ^ 32 - at'))
        else decide (sext 32 (at' + 2 ^ 32 - bits ht 0 32) ≤ (bits cf 0 32 : Int))
    | _ => return false

def portsReady (g : Agent) (nin n : Nat) : List ActorPort → Nat → M Bool
  | [], _ => return true
  | p :: r, i => do
    if ← portReady g (decide (i < nin)) n p then portsReady g nin n r (i + 1) else return false

/-- Is a saved firing neither on a core nor runnable: it waits for an answer, or its record is still owed (R112, R343)? -/
def SlotInfo.asleep (i : SlotInfo) : Bool := i.onCore.isNone && (i.owed || (!i.answered && [2, 3, 5].contains i.stop))
/-- The firings of an actor on cores or runnable (R351). -/
def actorActive (s : State) (key : Nat) (a : Actor) : Nat :=
  a.live - (s.slots.filter fun (_, o) => o.any fun i => i.info.actor == some key && i.asleep).length

/-- May the actor's next firing be made (R351)? -/
def actorReady (key : Nat) (a : Actor) : M Bool := do
  if a.closing || decide (a.maxf ≤ actorActive (← getS) key a) then return false
  let cluster := key / 64
  portsReady (agentOf a.asid 0 (4 * cluster)) a.nin a.next a.ports 0

/-- ACTOR_FIRING (R351). -/
def execActorFiring (cluster idx : Nat) (s : State) : Host.Outcome State Fault Refusal :=
  runEvent (.actorFiring cluster idx) (do
    let key := 64 * cluster + idx
    match SMap.get none key (← getS).actors with
    | none => return ()
    | some a =>
      if decide (idx < 64) && schedulerRuns (← getS) then
        if ← actorReady key a then
          leLiveAdd a.lid 1
          let r : Rec := { code := a.code.toNat, frame := a.frame.toNat, arg := a.next % 2 ^ 32 + 2 ^ 32 * idx,
                           meta32 := mkMeta a.asid a.lid 2 }
          let o : Origin := { okind := 5, spost := a.spost, pfid := a.pfid, pord := a.pord, num := a.next,
                              payload := [b64 key] }
          if !(← pushRun a.spost (runIndex 1 cluster) r (some o)) then stopWith (.wait .launchRoom)
          modS fun s => { s with actors := SMap.put none key (some { a with next := (a.next + 1) % 2 ^ 32, live := a.live + 1 }) s.actors }) s

end Sys2Proof.Machine
end

