-- ==== Sys2Proof/Machine/Links.lean ====
section
/-!
DEFINITION. The link commands and what other devices and the host do to this one (17_links.md): put, get, messages,
collectives, their waits and fences, remote accesses, link ports, submit pages and the memory aperture. What another
device answers is an operand of the event (log entry 12).
-/

namespace Sys2Proof.Machine

def getM : M Mgmt := do return (← getS).mgmt

/-! Commands up to their commit (R387). -/

/-- A trap of a link command, before its commit: kind E. -/
def linkTrap {α : Type} (cause : Nat) (addr : Option Word) (access : Nat) : M α :=
  stopWith (.trap { cause := cause, eKind := true, engine := 6, addr := addr, count := 1, access := access })
/-- A failed check of a link command; NOTMAPPED and PROT are replayed (R302). -/
def linkFault {α : Type} (e : AErr) : M α :=
  if replayable e.cause then stopWith (.replay 6 [⟨e.cause, e.va, 0, 1, e.access, 0⟩])
  else linkTrap e.cause (some e.va) e.access

/-- A check of the first page of a local range, or of the status word, whose scope is checked last (R387, R302). -/
def linkCheck (need : Need) (kind : Nat) (va : Word) (align : Nat) (scope : Option Scope) : M Unit := do
  match ← locate (← me) need kind va align with
  | .error e => linkFault e
  | .ok _ =>
    match scope with
    | some sc => if scopeBad sc va then linkTrap cSCOPEMEM (some va) kind
    | none => return ()

/-- The status word's address is read at dispatch, with the other scalars (R387). -/
def statusPre (sw : Fin 32) : M (Option (Vector Word 4)) := do
  if sw = 0 then return none
  let x ← issue [sw]
  return some #v[x sw, 0, 0, 0]
def statusWord (sw : Fin 32) : M (Option Word) := do
  if sw = 0 then return none
  match (← getCur).foll with
  | some v => return some v[0]
  | none => return some ((← issue [sw]) sw)

/-- The slot, the local pages, the status word, the release of the command's `ORD`, and its commit (R387, R388). -/
def linkBody (sw : Fin 32) (ord : Order) (scope : Scope) (pages : M Unit) (cmd : M Cmd) : M Nat := do
  unit
  let k ← freeCmd
  pages
  let status ← statusWord sw
  match status with
  | some va => linkCheck needBoth aAtomic va 8 (some scope)
  | none => pure ()
  let c ← cmd
  releaseFor ord scope
  commitCmd k { c with status := status }
  return 1

/-- A command before its commit fills in the rest. -/
def newLink (kind : CmdKind) (ord : Order) (scope : Scope) (dst src : Word) (n : Nat) : Cmd :=
  { kind := kind, owner := (0, 0), level := 0, seqNo := 0, dst := dst, src := src, value := 0, n := n, ord := ord, scope := scope }

/-- `lput` (R388). -/
def execLput (st : Fin 16) (ord : Order) (scope : Scope) (d a b c sw : Fin 32) (s : State) : Host.Outcome State Fault Refusal :=
  runEngine (.lput st ord scope d a b c sw) st 6 [(0, d), (1, a), (2, b), (3, c)] (do
    let x := (← getCur).scal
    let n := x[2].toNat % 2 ^ 32
    linkBody sw ord scope (if n ≠ 0 then linkCheck needLoad aLoad x[1] 1 none else return ())
      (return newLink (.lput x[3].toNat) ord scope x[0] x[1] n)) s (pre := fun _ => statusPre sw)

/-- `lget` (R388). -/
def execLget (st : Fin 16) (ord : Order) (scope : Scope) (d a b c sw : Fin 32) (s : State) : Host.Outcome State Fault Refusal :=
  runEngine (.lget st ord scope d a b c sw) st 6 [(0, d), (1, a), (2, b), (3, c)] (do
    let x := (← getCur).scal
    let n := x[2].toNat % 2 ^ 32
    linkBody sw ord scope (if n ≠ 0 then linkCheck needStore aStore x[0] 1 none else return ())
      (return newLink (.lget x[3].toNat) ord scope x[0] x[1] n)) s (pre := fun _ => statusPre sw)

/-- `lsend` (R390): `x[D]` names handler and device; it must hold nothing else. -/
def execLsend (st : Fin 16) (ord : Order) (scope : Scope) (d a b c sw : Fin 32) (s : State) : Host.Outcome State Fault Refusal :=
  runEngine (.lsend st ord scope d a b c sw) st 6 [(0, d), (1, a), (2, b), (3, c)] (do
    let x := (← getCur).scal
    linkBody sw ord scope (return ())
      (return newLink (.lsend x[0] #v[x[1], x[2], x[3]]) ord scope 0 0 0)) s (pre := fun _ => statusPre sw)

/-! Bytes of a range, with a mark for each byte that lies in a poisoned word. -/

def spanRead (g : Agent) : Nat → Word → Nat → M (Except AErr (List Byte × Nat))
  | 0, _, _ => return .ok ([], 0)
  | fuel + 1, va, n => do
    if n = 0 then return .ok ([], 0)
    let m := min n (8 - va.toNat % 8)
    match ← locate g needLoad aLoad va 1 with
    | .error e => return .error e
    | .ok p =>
      let (x, px) ← readPlace g .head p m
      match ← spanRead g fuel (va + b64 m) (n - m) with
      | .error e => return .error e
      | .ok (bs, pm) => return .ok (bytesOf m x ++ bs, (if px then 2 ^ m - 1 else 0) + 2 ^ m * pm)

/-- Write bytes, word by word; a dropped part makes its record (R95). Was one, or was one written poisoned (R97)? -/
def spanWrite (g : Agent) : Nat → Word → List Byte → Nat → M (Except AErr Bool)
  | 0, _, _, _ => return .ok false
  | fuel + 1, va, bs, pm => do
    if bs.isEmpty then return .ok false
    let m := min bs.length (8 - va.toNat % 8)
    match ← locate g needStore aStore va 1 with
    | .error e => return .error e
    | .ok p =>
      let dropped ← do
        match ← writePlace g .head p m (ofBytes (bs.take m)) (pm % 2 ^ m != 0) with
        | .dropped =>
          poisonStore g va
          pure true
        | .poisoned => pure true
        | .stored => pure false
      match ← spanWrite g fuel (va + b64 m) (bs.drop m) (pm / 2 ^ m) with
      | .error e => return .error e
      | .ok d => return .ok (dropped || d)

/-- The first page of a range that a write would fault on: its error and offset. -/
def spanProbe (g : Agent) : Nat → Word → Nat → Nat → M (Option (AErr × Nat))
  | 0, _, _, _ => return none
  | fuel + 1, va, off, n => do
    if n ≤ off then return none
    match ← locate g needStore aStore (va + b64 off) 1 with
    | .error e => return some (e, off)
    | .ok _ => spanProbe g fuel va (off + (4096 - (va + b64 off).toNat % 4096)) n

/-! The ends of commands. -/

/-- Bits a command ends with, from `REMOTEFAULT` up (Table 17.1). -/
def lkREMOTEFAULT := 1
def lkLINKDOWN := 2
def lkNOHANDLER := 4
def lkCOLLTIMEOUT := 8
def lkPOISON := 16

/-- A command's payload is ended. A device that is not reached sets `MINT` bit 6 (Table 19.5). -/
def endPayload (core : Nat) (k : Fin 16) (c : Cmd) (res : Nat) : M Unit := do
  if bit res 1 then modS (·.raiseMint 6)
  putCmd core k (some { c with res := c.res ||| res, ended := true, paused := none })

/-- A cause kept for its firing, in the order of the commands. -/
def insertCause (x : Nat × Nat) : List (Nat × Nat) → List (Nat × Nat)
  | [] => [x]
  | y :: r => if x.1 < y.1 then x :: y :: r else y :: insertCause x r

/-- The causes of LINKDOWN and COLLTIMEOUT that the firing's next `lwait` or `end` raises (R387). -/
def noteCauses (c : Cmd) (l : List (Nat × Nat)) : M Unit := do
  if c.orphan || l.isEmpty then return ()
  let s ← getS
  let add := fun (old : List (Nat × Nat)) => l.foldl (fun r x => insertCause x r) old
  match ownerCore s c with
  | some k => set (s.modifyCore k fun x => { x with f := { x.f with linkCauses := add x.f.linkCauses } })
  | none =>
    match SMap.get none c.key s.slots with
    | some i => set { s with slots := SMap.put none c.key (some { i with linkCauses := add i.linkCauses }) s.slots }
    | none => return ()

/-- The update of a status word (R386): one added to `COUNT`, the bits ORed in; over poison it is dropped (R96). -/
def statusUpdate (core : Nat) (c : Cmd) (va : Word) (p : Place) : M Unit := do
  showTo core p.loc 8
  let _ ← bseqNext p.loc
  let s ← getS
  if s.isPoisoned p.loc 8 then
    beaterDrop c.owner.1 va aAtomic
    noteOwner c true false
  else
    let old := Memory.read s.mem p.loc 8
    let new := (old % 2 ^ 32 + 1) % 2 ^ 32 + 2 ^ 32 * (old / 2 ^ 32 ||| c.res)
    let _ ← writePlace (c.agent core) .head p 8 new false

/-- The completion of a command whose payload is ended (R386, R387). -/
def linkEnd (core : Nat) (k : Fin 16) (c : Cmd) : M Unit := do
  let endC := { c with failed := c.failed || c.res % 32 != 0 }
  match c.status with
  | none =>
    copyRelease core c
    noteCauses c ((if bit c.res 1 then [(c.seqNo, cLINKDOWN)] else []) ++
      (if bit c.res 3 then [(c.seqNo, cCOLLTIMEOUT)] else []))
    noteOwner c (bit c.res 4) (bit c.res 0 || bit c.res 2)
    finishCmd core k endC
  | some va =>
    releaseCore core c.scope.code
    match ← locate (c.agent core) needBoth aAtomic va 8 with
    | .error e => if c.failed then finishCmd core k endC else lateFault core k c e
    | .ok p =>
      statusUpdate core c va p
      finishCmd core k endC

/-- A fault of an access for another device, or for this one as its own target: a record of kind A (R387). -/
def farFault (asid : Nat) (e : AErr) : M Unit := do
  let _ ← writeFRec { cause := e.cause, deferred := true, engine := 6, asid := asid, addr := e.va.toNat, count := 1,
                      access := e.access }
  return ()

def sendLink (kind : String) (dev : Nat) (args : List Nat) (data : List Byte) : M Unit :=
  modS fun s => { s with outbox := s.outbox ++ [.link kind dev args data] }

/-- Payloads of a confidential context cross a link as ciphertext under its key (R385). -/
def sealLink (asid tweak : Nat) (bs : List Byte) : M (List Byte) := do
  if ← isConf asid then return xtsEncrypt (← ctxKey asid) (asid * 2 ^ 48 + tweak) bs else return bs
/-- Its receiver decrypts them when it holds the key. -/
def unsealLink (asid tweak : Nat) (bs : List Byte) : M (Option (List Byte)) := do
  if ← isConf asid then
    match ← heldKey asid with
    | some key => return some (xtsDecrypt key (asid * 2 ^ 48 + tweak) bs)
    | none => return none
  else return some bs

/-! Messages (R389, R390). -/

/-- A handler entry, read until its two versions agree (R389). -/
def readHandler (asid h : Nat) : M (Except AErr (Option (Nat × Nat))) := do
  let count ← ctxField asid 0x60 4
  if count ≤ h then return .ok none
  let va := b64 ((← ctxField asid 0x58 8) + 16 * h)
  match ← locate (agentOf asid 1) needLoad aLoad va 16 with
  | .error e => return .error e
  | .ok p =>
    let m := (← getS).mem
    let w0 := Memory.read m p.loc 8
    let w1 := Memory.read m (p.loc + 8) 8
    if bits w0 56 8 ≠ bits w1 56 8 then stopWith (.wait .background)
    return .ok (if bit w0 0 then some (w0, w1) else none)

/-- `receive` (R390, R391): a message accepted, or the answer that there is no handler. -/
def receiveMessage (src asid : Nat) (head : Word) (payload : List Word) : M LinkAnswer := do
  if !(← readDesc asid) then return .remoteFault
  let h := head.toNat % 65536
  match ← readHandler asid h with
  | .error e =>
    farFault asid e
    return .remoteFault
  | .ok none =>
    let _ ← faultPostWrite asid (bytesOf 4 h ++ bytesOf 2 src ++ bytesOf 2 0x70 ++ payload.flatMap fun w => bytesOf 8 w.toNat)
    return .noHandler
  | .ok (some (w0, w1)) =>
    match ← freeLaunch with
    | none => stopWith (.wait .launchRoom)
    | some lid =>
      olSession asid (messageKey src)
      let ses := (← getS).session asid
      let n := SMap.get 0 src ses.messages
      modS fun s => s.setSession { s.session asid with messages := SMap.put 0 src (n + 1) ses.messages }
      let spost := bits w0 48 8
      allocLaunch lid asid spost 0 0
        { cword := b64 (bits w1 0 48), table := 0, count := 0, tile := 0, level := 3, fbase := 0, joinrec := 0, devs := 0,
          place := 0xFFFF, raw := [] } ⟨6, spost, src, n, none⟩
      let o : Origin := { okind := 6, spost := spost, pfid := src, pord := n, num := asid,
                          payload := head :: b64 src :: payload }
      if !(← pushRun spost 208 { code := bits w0 3 45 * 8, frame := 0, arg := 0, meta32 := mkMeta asid lid 0 } (some o)) then
        stopWith (.wait .launchRoom)
      return .done [] 0

/-- MESSAGE_RECEIVE (R390): a message of another device. -/
def execMessageReceive (src asid : Nat) (head : Word) (payload : List Word) (s : State) :
    Host.Outcome State Fault Refusal :=
  runEvent (.messageReceive src asid head payload) (orUndo do
    let asid := asid % 16384
    let answer ← do
      match ← unsealLink asid (head.toNat % 65536) (payload.flatMap fun w => bytesOf 8 w.toNat) with
      | none => pure .remoteFault
      | some bs =>
        receiveMessage src asid head ((List.range 3).map fun i => b64 (ofBytes ((bs.drop (8 * i)).take 8)))
    match answer with
    | .done .. => sendLink "accepted" src [asid] []
    | .noHandler => sendLink "noHandler" src [asid] []
    | _ => sendLink "remoteFault" src [asid] []) s

/-! The transfer of put, get and messages. -/

/-- Has every link command of a firing before an `lfence` moved its last byte (R398)? -/
def fencePassed (s : State) (key fence : Nat) (orphan : Bool) : Bool :=
  !s.cores.any fun x => x.cmds.toList.any fun o => match o with
    | some y => y.key == key && !y.isCopy && decide (y.seqNo < fence) && !y.ended && y.orphan == orphan
    | none => false
/-- May a committed command move bytes? -/
def fenceOpen (s : State) (c : Cmd) : Bool := fencePassed s c.key c.fence c.orphan

/-- An older message of the firing to the same device is not accepted yet (R391). -/
def sendHeld (s : State) (c : Cmd) (dev : Nat) : Bool :=
  s.cores.any fun x => x.cmds.toList.any fun o => match o with
    | some y => y.key == c.key && decide (y.seqNo < c.seqNo) && !y.ended && y.orphan == c.orphan && (match y.kind with
        | .lsend h _ => bits h.toNat 16 10 == dev
        | _ => false)
    | none => false

/-- A chunk written at its target: the answer. -/
def farWrite (asid dev : Nat) (va : Word) (bs : List Byte) (pm : Nat) (answer : LinkAnswer) : M LinkAnswer := do
  let s ← getS
  if dev = s.mgmt.device then
    match ← spanWrite (agentOf asid 0) bs.length va bs pm with
    | .error e =>
      farFault asid e
      return .remoteFault
    | .ok _ => return .done [] 0
  else if s.portsUp.isEmpty then return .linkDown
  else
    sendLink "put" dev [asid, va.toNat, pm] (← sealLink asid va.toNat bs)
    return answer

/-- A chunk read at its target: the answer. -/
def farRead (asid dev : Nat) (va : Word) (n : Nat) (answer : LinkAnswer) : M LinkAnswer := do
  let s ← getS
  if dev = s.mgmt.device then
    match ← spanRead (agentOf asid 0) n va n with
    | .error e =>
      farFault asid e
      return .remoteFault
    | .ok (bs, pm) => return .done bs pm
  else if s.portsUp.isEmpty then return .linkDown
  else
    sendLink "get" dev [asid, va.toNat, n] []
    match answer with
    | .done data pm =>
      match ← unsealLink asid va.toNat data with
      | some bs => return .done bs pm
      | none => return .remoteFault
    | a => return a

/-- The bits a refused answer ends a command with. -/
def answerBits : LinkAnswer → Nat
  | .done .. => 0
  | .remoteFault => lkREMOTEFAULT
  | .linkDown => lkLINKDOWN
  | .noHandler => lkNOHANDLER

/-- The next chunk of `lput` or `lget` (R388): 128 bytes by the destination's alignment. -/
def linkChunk (core : Nat) (k : Fin 16) (c : Cmd) (dev : Nat) (put : Bool) (answer : LinkAnswer) : M Unit := do
  let g := c.agent core
  let asid := c.owner.1
  let dst := c.dst + b64 c.done
  let src := c.src + b64 c.done
  let m := min (c.n - c.done) (128 - dst.toNat % 128)
  if put then
    match ← spanRead g m src m with
    | .error e => lateFault core k c e
    | .ok (bs, pm) =>
      match ← farWrite asid dev dst bs pm answer with
      | .done .. => putCmd core k (some { c with done := c.done + m, res := c.res ||| (if pm = 0 then 0 else lkPOISON) })
      | a => endPayload core k c (answerBits a)
  else
    match ← locate g needStore aStore dst 1 with
    | .error e => lateFault core k c e
    | .ok _ =>
      match ← farRead asid dev src m answer with
      | .done bs pm =>
        if bs.length = m then
          match ← spanWrite g m dst bs pm with
          | .error e => lateFault core k c e
          | .ok poisoned =>
            if poisoned then noteOwner c true false
            putCmd core k (some { c with done := c.done + m, res := c.res ||| (if pm = 0 then 0 else lkPOISON) })
      | a => endPayload core k c (answerBits a)

/-- A message on its way (R390). -/
def linkSend (core : Nat) (k : Fin 16) (c : Cmd) (head : Word) (payload : Vector Word 3) (answer : LinkAnswer) : M Unit := do
  let s ← getS
  let dev := bits head.toNat 16 10
  if head.toNat / 2 ^ 26 ≠ 0 then endPayload core k c lkREMOTEFAULT
  else if sendHeld s c dev then return ()
  else
    let asid := c.owner.1
    let answer ←
      if dev = s.mgmt.device then receiveMessage dev asid head payload.toList
      else if s.portsUp.isEmpty then pure .linkDown
      else do
        sendLink "message" dev [asid, head.toNat]
          (← sealLink asid (head.toNat % 65536) (payload.toList.flatMap fun w => bytesOf 8 w.toNat))
        pure answer
    endPayload core k c (answerBits answer)

/-- LINK_TRANSFER (R386 to R391): the next chunk of a committed link command, or its completion; for a `coll`, that no route leads to one
of its devices (R385). -/
def execLinkTransfer (core : Nat) (slot : Fin 16) (answer : LinkAnswer) (s : State) : Host.Outcome State Fault Refusal :=
  runEvent (.linkTransfer core slot answer) (orUndo do
    match ← getCmd core slot with
    | none => return ()
    | some c =>
      if !c.isCopy && c.paused.isNone then
        if c.ended then linkEnd core slot c
        else if fenceOpen (← getS) c then
          let s ← getS
          let move := fun (dev : Nat) (put : Bool) =>
            if 1024 ≤ dev then endPayload core slot c lkREMOTEFAULT
            else if c.n ≤ c.done then
              let lost := c.n == 0 && dev != s.mgmt.device && (s.portsUp.isEmpty || answer == .linkDown)
              endPayload core slot c (if lost then lkLINKDOWN else 0)
            else if answer = .noHandler then return ()
            else linkChunk core slot c dev put answer
          match c.kind with
          | .lput dev => move dev true
          | .lget dev => move dev false
          | .lsend head payload => linkSend core slot c head payload answer
          | .coll _ _ _ _ _ members =>
            if answer = .linkDown && members.any (· != (← getS).mgmt.device) then endPayload core slot c lkLINKDOWN
          | _ => return ()
        pushOwed c.key) s

/-! Collectives (R392 to R396). -/

/-- Elements a participant reads and writes (Table 17.3), of `p` participants; `root`: it is the root. -/
def collSource (kind : CollKind) (n p : Nat) (root : Bool) : Nat :=
  match kind with
  | .barrier => 0
  | .bcast => if root then n else 0
  | .reduce _ | .allreduce _ | .allgather => n
  | .redscat _ | .alltoall => p * n
def collDest (kind : CollKind) (n p : Nat) (root : Bool) : Nat :=
  match kind with
  | .barrier => 0
  | .bcast | .allreduce _ | .redscat _ => n
  | .reduce _ => if root then n else 0
  | .allgather | .alltoall => p * n
/-- Bytes of some elements. -/
def collBytes (fmt : Fmt) (count : Nat) : Nat := (count * fmt.width + 7) / 8

/-- The group descriptor and the devices its bitmap names (R392). -/
def collGroup (va : Word) : M (Nat × Nat × List Nat) := do
  let g ← me
  if va.toNat % 8 ≠ 0 then linkFault ⟨if 2 ^ 48 ≤ va.toNat then cNONCANON else cMISALIGN, va, aLoad⟩
  match ← spanRead g 32 va 32 with
  | .error e => linkFault e
  | .ok (d, pd) =>
    if pd ≠ 0 then linkTrap cPOISON (some va) aLoad
    let f := fun off n => ofBytes ((d.drop off).take n)
    let mask := b64 (f 8 8)
    match ← spanRead g 128 mask 128 with
    | .error e => linkFault e
    | .ok (m, pm) =>
      if pm ≠ 0 then linkTrap cPOISON (some mask) aLoad
      return (f 0 4, f 4 2, namedDevices m)

/-- `coll` up to its commit (R387, R392, R393), which reads the descriptor, so that an `lfence` holds it (R398). A malformed one
commits with its payload ended. -/
def execColl (st : Fin 16) (kind : CollKind) (ord : Order) (scope : Scope) (d a b c sw : Fin 32) (fmt : Fmt) (s : State) :
    Host.Outcome State Fault Refusal :=
  runEngine (.coll st kind ord scope d a b c sw fmt) st 6 [(0, d), (1, a), (2, b), (3, c)] (do
    let x := (← getCur).scal
    let n := x[2].toNat % 2 ^ 32
    if !fencePassed (← getS) (← myKey) (← getF).relFence false then stopWith (.wait .background)
    let (tag, root, members) ← collGroup x[3]
    let dev := (← getS).mgmt.device
    let src := collBytes fmt (collSource kind n members.length (dev == root))
    let dst := collBytes fmt (collDest kind n members.length (dev == root))
    let bad := !members.contains dev || !members.contains root || (kind == .barrier && n != 0) || decide (2 ^ 32 < src)
      || decide (2 ^ 32 < dst)
    let align := max 1 (fmt.width / 8)
    linkBody sw ord scope
      (do
        if !bad && src != 0 then linkCheck needLoad aLoad x[1] align none
        if !bad && dst != 0 then linkCheck needStore aStore x[0] align none)
      (return { newLink (.coll kind fmt n root tag members) ord scope x[0] x[1] dst with
                res := if bad then lkREMOTEFAULT else 0, ended := bad })) s
    (pre := fun _ => statusPre sw)

/-- What a participant contributes: its bytes as one number, and the marks of those that are poisoned. -/
structure CollInput where
  data : Nat
  poison : Nat
  deriving DecidableEq, Repr

def CollInput.elem (x : CollInput) (w e : Nat) : Nat := bits x.data (w * e) w
def CollInput.bad (x : CollInput) (w e : Nat) : Bool :=
  bits x.poison (w * e / 8) ((w * e + w - 1) / 8 + 1 - w * e / 8) != 0

/-- The combination of a reduction (R394). -/
def redComb (r : RedOp) (fmt : Fmt) : Comb :=
  match r with
  | .sum => if fpFmt fmt then sumFp fmt .rne else sumInt fmt
  | .min => extreme fmt true
  | .max => extreme fmt false
  | .and => fun a b => (intOp .and fmt a b, 0)
  | .or => fun a b => (intOp .or fmt a b, 0)
  | .xor => fun a b => (intOp .xor fmt a b, 0)

/-- Element `e` reduced in ascending rank (R394): value, flags, poison. -/
def redElem (r : RedOp) (fmt : Fmt) (e : Nat) : List CollInput → Nat × Flags × Bool
  | [] => (0, 0, false)
  | x :: rest =>
    rest.foldl (fun (v, fl, p) y =>
        let (v', g) := redComb r fmt v (y.elem fmt.width e)
        (v', fl ||| g, p || y.bad fmt.width e))
      (x.elem fmt.width e, 0, x.bad fmt.width e)

/-- Element `k` of a participant's destination (Table 17.3); `inputs` in rank order. -/
def collElem (kind : CollKind) (fmt : Fmt) (n rank root : Nat) (inputs : List CollInput) (k : Nat) : Nat × Flags × Bool :=
  let from' := fun r e => match inputs[r]? with
    | some x => (x.elem fmt.width e, 0, x.bad fmt.width e)
    | none => (0, 0, false)
  match kind with
  | .barrier => (0, 0, false)
  | .bcast => from' root k
  | .reduce r | .allreduce r => redElem r fmt k inputs
  | .allgather => from' (k / n) (k % n)
  | .redscat r => redElem r fmt (rank * n + k) inputs
  | .alltoall => from' (k / n) (rank * n + k % n)

/-- The destination as bits, the flags, and the marks of its poisoned bytes. -/
def collResult (count w : Nat) (elem : Nat → Nat × Flags × Bool) : Nat × Flags × Nat :=
  (List.range count).foldl (fun (v, fl, pm) k =>
    let (x, g, p) := elem k
    let mark := if p then (2 ^ ((w * k + w - 1) / 8 + 1 - w * k / 8) - 1) * 2 ^ (w * k / 8) else 0
    (v + x % 2 ^ w * 2 ^ (w * k), fl ||| g, pm ||| mark)) (0, 0, 0)

/-- The inputs by rank: the peers' and, for this device, its own. -/
def collInputs (dev : Nat) (own : CollInput) (peers : List CollPeer) (members : List Nat) : List CollInput :=
  members.map fun d =>
    if d = dev then own
    else match peers.find? (·.device == d) with
      | some p => { data := ofBytes p.data, poison := p.poison }
      | none => { data := 0, poison := 0 }

/-- The last nibble of an odd number of 4-bit elements leaves its neighbour as it is. -/
def mergeTail (g : Agent) (va : Word) (bitCount : Nat) (bs : List Byte) : M (List Byte) := do
  if bitCount % 8 = 0 then return bs
  else
    let i := bitCount / 8
    match ← locate g needStore aStore (va + b64 i) 1 with
    | .error _ => return bs
    | .ok p =>
      let old := Memory.read (← getS).mem p.loc 1
      return bs.set i (BitVec.ofNat 8 (bits (bs.getD i 0).toNat 0 (bitCount % 8) + old / 2 ^ (bitCount % 8) * 2 ^ (bitCount % 8)))

/-- An instance with every participant's contribution: this participant's part of it (R393, R394). -/
def collPerform (core : Nat) (k : Fin 16) (c : Cmd) (kind : CollKind) (fmt : Fmt) (n root tag : Nat) (members : List Nat)
    (peers : List CollPeer) : M Unit := do
  let dev := (← getS).mgmt.device
  let g := c.agent core
  let srcBytes := collBytes fmt (collSource kind n members.length (dev == root))
  let count := collDest kind n members.length (dev == root)
  match ← spanRead g srcBytes c.src srcBytes with
  | .error e => lateFault core k c e
  | .ok (bs, pm) =>
    match ← spanProbe g (c.n + 1) c.dst 0 c.n with
    | some (e, off) => lateFault core k { c with done := off } e
    | none =>
      let body ← sealLink c.owner.1 tag bs
      (members.filter (· != dev)).forM fun d => sendLink "contribution" d [c.owner.1, tag, n, root, pm] body
      let inputs := collInputs dev { data := ofBytes bs, poison := pm } peers members
      let rank := fun d => (members.findIdx? (· == d)).getD 0
      let (v, fl, bad) := collResult count fmt.width (collElem kind fmt n (rank dev) (rank root) inputs)
      let out ← mergeTail g c.dst (count * fmt.width) (bytesOf c.n v)
      match ← spanWrite g c.n c.dst out bad with
      | .error e => lateFault core k c e
      | .ok dropped =>
        if dropped then noteOwner c true false
        endPayload core k { c with done := c.n } (32 * fl.toNat + if bad = 0 then 0 else lkPOISON)

/-- An instance of the same context and `TAG` that this device issued before has not ended (R393). -/
def collHeld (s : State) (c : Cmd) (tag : Nat) : Bool :=
  s.cores.any fun x => x.cmds.toList.any fun o => match o with
    | some y => y.owner.1 == c.owner.1 && decide (y.seqNo < c.seqNo) && !y.ended && (match y.kind with
        | .coll _ _ _ _ t _ => t == tag
        | _ => false)
    | none => false

/-- The peers' bytes, decrypted where they cross the link as ciphertext; none without the key (R385). -/
def openPeers (asid tag : Nat) : List CollPeer → M (Option (List CollPeer))
  | [] => return some []
  | p :: r => do
    match ← unsealLink asid tag p.data, ← openPeers asid tag r with
    | some bs, some l => return some ({ p with data := bs } :: l)
    | _, _ => return none

/-- COLLECTIVE_INSTANCE (R393): the instance is matched, with every other participant's parameters and contribution. -/
def execCollectiveInstance (core : Nat) (slot : Fin 16) (peers : List CollPeer) (s : State) :
    Host.Outcome State Fault Refusal :=
  runEvent (.collectiveInstance core slot peers) (do
    match ← getCmd core slot with
    | none => return ()
    | some c =>
      match c.kind with
      | .coll kind fmt n root tag members =>
        let s ← getS
        let others := members.filter (· != s.mgmt.device)
        let agrees := fun (p : CollPeer) =>
          p.kind == kind && p.fmt == fmt && p.n == n && p.root == root && p.members == members
        let fits := peers.all fun p => !agrees p ||
          p.data.length == collBytes fmt (collSource kind n members.length (p.device == root))
        if c.ended || c.paused.isSome || !fenceOpen s c || collHeld s c tag then return ()
        if !others.isEmpty && s.portsUp.isEmpty then
          endPayload core slot c lkLINKDOWN
          pushOwed c.key
        else if peers.map (·.device) == others && fits then
          if !peers.all agrees then endPayload core slot c lkREMOTEFAULT
          else
            match ← openPeers c.owner.1 tag peers with
            | none => endPayload core slot c lkREMOTEFAULT
            | some peers => collPerform core slot c kind fmt n root tag members peers
          pushOwed c.key
      | _ => return ()) s

/-- COLLECTIVE_TIMEOUT (R396): the timeout of the context has run out, which it does not while a debugger holds a firing of the
context on a device named; the destination keeps its old values. -/
def execCollectiveTimeout (core : Nat) (slot : Fin 16) (s : State) : Host.Outcome State Fault Refusal :=
  runEvent (.collectiveTimeout core slot) (do
    match ← getCmd core slot with
    | none => return ()
    | some c =>
      match c.kind with
      | .coll _ _ _ _ tag members =>
        let s ← getS
        let held := s.debugHold.contains c.owner.1 || members.any fun d => s.remoteHolds.contains (d, c.owner.1)
        if !c.ended && !held then
          endPayload core slot c lkCOLLTIMEOUT
          (members.filter (· != s.mgmt.device)).forM fun d => sendLink "collTimeout" d [c.owner.1, tag] []
          pushOwed c.key
      | _ => return ()) s

/-! Waits and fences (R397, R398). -/

/-- The firing's link commands that are not complete, on any core. -/
def linksOf (s : State) (key : Nat) : Nat :=
  (s.cores.map fun c => (c.cmds.toList.filter fun o => match o with
    | some x => x.ownedBy key && !x.isCopy
    | none => false).length).sum

/-- `lwait` and `lfence` speak of the link commands before them, which have committed then. -/
def awaitLinks : M Unit := do
  if (← getS).older.any (·.engine == 6) then stopWith (.wait .background)

/-- `lwait` (R397). -/
def execLwait (st n : Fin 16) (s : State) : Host.Outcome State Fault Refusal :=
  runFront st [] (fun _ => do
    awaitLinks
    if n.val < linksOf (← getS) (← myKey) then stopWith (.wait .background)
    raiseLinkCause
    invalidateL1
    return none) s

/-- `lfence` (R398). -/
def execLfence (st : Fin 16) (ord : Order) (scope : Scope) (s : State) : Host.Outcome State Fault Refusal :=
  runFront st [] (fun _ => do
    awaitLinks
    releaseFor ord scope
    let n := (← getS).cmdCtr + 1
    if Order.isRel ord then modF fun f => { f with relFence := n }
    if Order.isAcq ord then modF fun f => { f with acqFence := n }
    return none) s

/-! The link ports (R385). -/

/-- FLIT_CRC_FAILURE (R385): a detected error (R92) of a flit on a port. The link layer resends the flit up to 15 times; its 16th
failure takes the port down. -/
def execFlitCrcFailure (failure : FlitFailure) (s : State) : Host.Outcome State Fault Refusal :=
  let port := failure.port
  runEvent (.flitCrcFailure failure) (modS fun s =>
    if s.portsUp.contains port && decide (port < portCount) then
      let s := { s with mgmt := { s.mgmt with errors := s.mgmt.errors + 1 } }
      let n := (if failure.again then SMap.get 0 port s.portFails else 0) + 1
      if n < 16 then { s with portFails := SMap.put 0 port n s.portFails }
      else ({ s with portFails := SMap.put 0 port 0 s.portFails, portsUp := s.portsUp.filter (· != port) } : State).raiseMint 6
    else s) s

/-! The bridge (R401 to R403). -/

/-- A write for a submit page of this device (R402): a record appended at `TAIL`, or discarded and counted. -/
def submitAppend (post offset : Nat) (bytes : List Byte) : M Unit := do
  let drop : M Unit := modS fun s => { s with drops := SMap.put 0 post ((SMap.get 0 post s.drops + 1) % 2 ^ 32) s.drops }
  if 0x20 ≤ offset then return ()
  else if offset ≠ 0 ∨ bytes.length ≠ 32 then drop
  else
    match ← submitPa post with
    | none => drop
    | some cb =>
      let ring ← physRead cb 8
      let head ← physRead (cb + 8) 4
      let tail ← physRead (cb + 12) 4
      let cap ← physRead (cb + 16) 4
      if (tail + 2 ^ 32 - head) % 2 ^ 32 = cap then drop
      else
        physWriteBytes (ring + 32 * (tail % cap)) bytes
        physWrite (cb + 12) 4 ((tail + 1) % 2 ^ 32)

/-- SUBMIT_RECORD_WRITE (R402): a write to submit page `page` of BAR 2 of the bridge, for device `page / 256`. -/
def execSubmitRecordWrite (page offset : Nat) (bytes : List Byte) (s : State) : Host.Outcome State Fault Refusal :=
  runEvent (.submitRecordWrite page offset bytes) (do
    if (← getM).ready && (← getM).bridge then
      if page / 256 = (← getS).mgmt.device then submitAppend (page % 256) offset bytes
      else sendLink "submit" (page / 256) [page % 256, offset] bytes) s

/-- Where the aperture stands: device and physical base (Table 19.1). -/
def apertureDevice (m : Mgmt) : Nat := bits m.apbase 0 10
def aperturePa (m : Mgmt) (offset : Nat) : Nat := bits m.apbase 25 14 * 2 ^ 25 + offset
/-- The key of the confidential context that owns a frame (R90). The slots of its firings stand in memory as R124 has them. -/
def frameKey (pa : Nat) : M (Option Nat) := do
  let s ← getS
  if SMap.get 0 (pa / 2 ^ 20) s.sealed ≠ 0 then return none
  match SMap.get 0 (pa / 4096) s.owners with
  | 0 => return none
  | o + 1 => return some (← ctxKey o)

/-- Host bytes stored at their homes in order (R403): whole words first as such, so that they clear poison (R95). -/
def hostStore : Nat → List Byte → M Unit
  | _, [] => return ()
  | pa, bs@(b :: r) => do
    if pa % 8 = 0 ∧ 8 ≤ bs.length then modS fun s => (s.homeStore pa 8 (ofBytes (bs.take 8)) false).1.noteWatches
    else modS fun s => (s.homeStore pa 1 b.toNat false).1.noteWatches
    hostStore (pa + 1) r

/-- An access of the host reaches a device's memory, frame by frame: frames of a confidential context show ciphertext, and take it
(R90, R122). -/
def apertureFrames : Nat → Nat → Nat → M (List Byte)
  | 0, _, _ => return []
  | fuel + 1, pa, n => do
    if n = 0 then return []
    let m := min n (4096 - pa % 4096)
    let bs := Memory.readBytes (← getS).mem pa m
    let bs ← match ← frameKey pa with
      | some key => pure (xtsEncrypt key pa bs)
      | none => pure bs
    return bs ++ (← apertureFrames fuel (pa + m) (n - m))
def apertureRead (pa n : Nat) : M (List Byte) := apertureFrames (n + 1) pa n
def apertureStore : Nat → Nat → List Byte → M Unit
  | 0, _, _ => return ()
  | fuel + 1, pa, bytes => do
    if bytes.isEmpty then return ()
    let m := min bytes.length (4096 - pa % 4096)
    let bs := bytes.take m
    hostStore pa (← match ← frameKey pa with
      | some key => pure (xtsDecrypt key pa bs)
      | none => pure bs)
    apertureStore fuel (pa + m) (bytes.drop m)
def apertureWrite (pa : Nat) (bytes : List Byte) : M Unit := apertureStore (bytes.length + 1) pa bytes

/-- APERTURE_ACCESS (R401): a host access through the memory aperture of the bridge, to any device's memory. -/
def execApertureAccess (access : ApertureReq) (s : State) : Host.Outcome State Fault Refusal :=
  runEvent (.apertureAccess access) (do
    let m ← getM
    if !m.ready || !m.bridge then return ()
    match access with
    | .read offset n =>
      let pa := aperturePa m offset
      if 2 ^ 25 < offset + n then return ()
      else if apertureDevice m ≠ m.device then sendLink "apertureRead" (apertureDevice m) [pa, n] []
      else if !populated pa then return ()
      else
        let bs ← apertureRead pa n
        modS fun s => { s with outbox := s.outbox ++ [.bytes "host" bs] }
    | .write offset bytes =>
      let pa := aperturePa m offset
      if 2 ^ 25 < offset + bytes.length then return ()
      else if apertureDevice m ≠ m.device then sendLink "apertureWrite" (apertureDevice m) [pa] bytes
      else if !populated pa then return ()
      else apertureWrite pa bytes) s

/-! What other devices ask of this one (R384, R385, R400). -/

/-- A peer's timeout ends the oldest instance of the `TAG` that still waits here and names it (R396). -/
def peerTimeout (src asid tag : Nat) : M Unit := do
  let s ← getS
  let waiting := s.cores.flatMap fun x => (List.finRange 16).filterMap fun k => (x.cmds[k]).bind fun y =>
    match y.kind with
    | .coll _ _ _ _ t members =>
      if y.owner.1 = asid ∧ t = tag ∧ members.contains src ∧ !y.ended then some (x.id, k, y) else none
    | _ => none
  let older := fun (a b : Nat × Fin 16 × Cmd) => if b.2.2.seqNo < a.2.2.seqNo then b else a
  match waiting with
  | [] => return ()
  | x :: r =>
    let (core, k, c) := r.foldl older x
    endPayload core k c lkCOLLTIMEOUT
    pushOwed c.key

/-- REMOTE_ACCESS (R384): an access of a context from another device, at level U, with the checks of R212; a fault is
recorded here and answered. -/
def execRemoteAccess (src : Nat) (access : RemoteReq) (s : State) : Host.Outcome State Fault Refusal :=
  runEvent (.remoteAccess src access) (do
    match access with
    | .read asid va n =>
      let asid := asid % 16384
      if !(← readDesc asid) then sendLink "remoteFault" src [asid, va.toNat] []
      else if (← unsealLink asid va.toNat []).isNone then sendLink "remoteFault" src [asid, va.toNat] []
      else
        match ← spanRead (agentOf asid 0) n va n with
        | .error e =>
          farFault asid e
          sendLink "remoteFault" src [asid, va.toNat] []
        | .ok (bs, pm) => sendLink "data" src [asid, va.toNat, pm] (← sealLink asid va.toNat bs)
    | .write asid va bytes pm =>
      let asid := asid % 16384
      if !(← readDesc asid) then sendLink "remoteFault" src [asid, va.toNat] []
      else
        match ← unsealLink asid va.toNat bytes with
        | none => sendLink "remoteFault" src [asid, va.toNat] []
        | some bs =>
          match ← spanWrite (agentOf asid 0) bs.length va bs pm with
          | .error e =>
            farFault asid e
            sendLink "remoteFault" src [asid, va.toNat] []
          | .ok _ => sendLink "done" src [asid, va.toNat] []
    | .complete id orBits fired last => shareUpdate id (orBits % 1024) fired last
    | .debugHold asid held =>
      modS fun s =>
        let others := s.remoteHolds.filter (· != (src, asid))
        { s with remoteHolds := if held then (src, asid) :: others else others }
    | .collTimeout asid tag => peerTimeout src asid tag
    | .apertureRead pa n =>
      if (← getM).ready && populated pa then sendLink "apertureData" src [pa, n] (← apertureRead pa n)
    | .apertureWrite pa bytes => if (← getM).ready && populated pa then apertureWrite pa bytes
    | .submit post offset bytes => if (← getM).ready then submitAppend post offset bytes
    | .mint v => if (← getM).bridge && decide (v < 8) then modS (·.raiseMint v)) s

end Sys2Proof.Machine
end

