-- ==== Sys2Proof/Machine/LogOps.lean ====
section
/-!
DEFINITION. The chain-log instructions (R378 to R380) and the events of its waits (R369, R371, R373).
-/

namespace Sys2Proof.Machine

/-- `olmark` (R379). -/
def execOlmark (st : Fin 16) (a : Fin 32) (s : State) : Host.Outcome State Fault Refusal :=
  runFront st [a] (fun x => do
    let w ← olNow (← myWho)
    if w.mode ≠ 0 then olPlain w 9 (2 ^ 32 * (x a).toNat) (← getF).fpc 0 (some 5)
    return none) s

/-- `olpause` (R379). -/
def execOlpause (st : Fin 16) (s : State) : Host.Outcome State Fault Refusal :=
  runFront st [] (fun _ => do
    let w ← olNow (← myWho)
    if w.mode ≠ 0 then
      olPlain w 0x0A 0 (← getF).fpc 0 none
      modF fun f => { f with paused := true }
    return none) s

/-- `olresume` (R379). -/
def execOlresume (st : Fin 16) (s : State) : Host.Outcome State Fault Refusal :=
  runFront st [] (fun _ => orUndo do
    olSync (← getS).core.info.asid
    let s ← getS
    if s.core.f.paused && (← olMode s.core.info.asid) != 0 then
      modF fun f => { f with paused := false }
      olPlain (← myWho) 0x0B 0 s.core.f.fpc 0 none
    return none) s

/-- The word `olstat` gives (R380); `sel` 3 is refused at decode. -/
def olstatWord (sel : Nat) : M Word := do
  let s ← getS
  let f := s.core.f
  let asid := s.core.info.asid
  let mode := bits (← ctxFlags asid) 2 2
  let st ← lrStat asid
  match sel with
  | 0 => return b64 (mode + 4 * f.paused.toNat + 8 * (bits st 1 1) + 16 * (bits st 0 1) + 32 * bits st 2 5
      + 2 ^ 16 * (f.session % 65536))
  | 1 => return b64 (f.fid % 2 ^ 32 + 2 ^ 32 * (f.ordinal % 2 ^ 32))
  | _ =>
    match mode with
    | 1 => return b64 (← ctxField asid 0x84 4)
    | 2 => return b64 (← ctxField asid 0x80 4)
    | _ => return 0

/-- `olstat` (R380). -/
def execOlstat (st : Fin 16) (d : Fin 32) (sel : Fin 3) (s : State) : Host.Outcome State Fault Refusal :=
  runFront st [] (fun _ => do
    writeX d (← olstatWord sel.val)
    return none) s

/-- LOG_ENTRY_RESERVE (R369): `LRHEAD` has advanced; what waits on a full ring tries again. -/
def execLogEntryReserve (core : Nat) (s : State) : Host.Outcome State Fault Refusal :=
  runEvent (.logEntryReserve core) (wakeCore core fun w => match w with | .logRoom .. => true | _ => false) s

/-- REPLAY_EVENT_MATCH (R371): a held event, or one that waits for its record, is matched again. -/
def execReplayEventMatch (core : Nat) (s : State) : Host.Outcome State Fault Refusal :=
  runEvent (.replayEventMatch core) (wakeCore core fun w => match w with | .replay .. | .waita => true | _ => false) s

/-- Does a context's replay window stand still (R373)? -/
def clockStops (s : State) (asid : Nat) : Bool :=
  s.mgmt.stops.contains asid || s.slots.any fun (k, o) => k / 65536 == asid && (match o with
    | some i => i.onCore.isNone && (i.stop == 3 || i.stop == 5)
    | none => false)

/-- The records of firings that start, not resume, at the `HEAD` of any run post. -/
def headsOf (s : State) : List Found :=
  ((postsInOrder s).flatMap fun (_, pa) => (List.range 209).filterMap (headRecord s pa)).filter (·.rec'.kind != 1)

/-- A context in replay whose next START stands in the log, or one of whose records is at a `HEAD`, while no such record matches. -/
def awaitsStart (heads : List Found) : List Nat → M (Option Nat)
  | [] => return none
  | asid :: r => do
    let s ← getS
    let mine := heads.filter (·.rec'.asid == asid)
    let (mode, fid, live) ← nextStart asid
    let there := !mine.isEmpty || live.any fun (_, x) => olKind x == 2 && olFid x == fid
    let found := mine.any fun x => (SMap.get none x.loc s.origins).any fun o => (startRecOf live fid o).isSome
    if mode == 2 && there && !found && !descBad s asid && !clockStops s asid then return some asid
    else awaitsStart heads r

/-- The contexts of the events that a waiter has held (R373). -/
def heldOf (s : State) (key : Nat) : List Nat := (s.sessions.filter (·.held.contains key)).map (·.asid)

/-- Does the event that a core waits for count its window (R373): one that is held or waits for its record, or a `waita` that has
slept past a satisfying value? -/
def windowRuns (c : Core) : Bool := match c.wait with
  | some (.replay ..) => true
  | some .waita => c.watch.any (·.only.isSome)
  | _ => false

/-- REPLAY_WINDOW_EXPIRY (R373) for a waiter: its event raises DIVERGE 3 when it is tried again; for an awaited START the record
names no firing (R374). -/
def execReplayWindowExpiry (core : Nat) (s : State) : Host.Outcome State Fault Refusal :=
  if 160 ≤ core then runEvent (.replayWindowExpiry core) (do
    let s ← getS
    for asid in heldOf s core do
      if (← olMode asid) == 2 && !clockStops s asid then
        modS fun s => { s with expired := insertSorted core s.expired }) s
  else runEvent (.replayWindowExpiry core) (withCore core do
    let s ← getS
    if s.core.running then
      let asid := s.core.info.asid
      if windowRuns s.core && (← olMode asid) == 2 && !clockStops s asid then
        modC fun c => { c with expired := true, wait := none }
    else if decide (core < coreCount) && schedulerRuns s then
      let heads := headsOf s
      match ← awaitsStart heads (s.sessions.map (·.asid) ++ heads.map (·.rec'.asid)).eraseDups with
      | none => return ()
      | some asid =>
        olEndReplay asid 3
        let _ ← writeFRec { cause := cDIVERGE, asid := asid, count := 1, detail := 3 }
        return ()) s

end Sys2Proof.Machine
end

