-- ==== Sys2Proof/Machine/TraceOps.lean ====
section
/-!
DEFINITION. What reaches the trace unit: its control block (R405), `tmark` and `tsamp` (R413), periodic samples (R411,
R412), LOST records (R410) and the breakpoint (R414).
-/

namespace Sys2Proof.Machine

/-- `tmark` (R413). -/
def execTmark (st : Fin 16) (a : Fin 32) (tag : BitVec 8) (s : State) : Host.Outcome State Fault Refusal :=
  runFront st [a] (fun x => do
    trTrace 8 0 0 tag.toNat (x a).toNat
    return none) s

/-- `tsamp` (R413). -/
def execTsamp (st : Fin 16) (d : Fin 32) (s : State) : Host.Outcome State Fault Refusal :=
  runFront st [] (fun _ => do
    let t ← getT
    let c := (← getS).core
    if trSen t && (← traced) then trRecordOf c.info.asid 9 1 0 (15 + 256 * c.f.queue.length) c.f.fpc.toNat
    let conf ← isConf (← getS).core.info.asid
    writeReg d (·.setLate d (b64 ((trTen t).toNat + 2 * (trSen t).toNat + 4 * conf.toNat + 2 ^ 8 * t.spcur)) 1)
    return none) s

/-- SAMPLE (R411). -/
def execSample (core : Nat) (s : State) : Host.Outcome State Fault Refusal :=
  runEvent (.sample core) (withCore core do
    if ← sampleDue then trSample) s

/-- LOST_RECORD (R410): written once two entries are free again. -/
def execLostRecord (core : Nat) (s : State) : Host.Outcome State Fault Refusal :=
  runEvent (.lostRecord core) (withCore core (do
    trLost (← getS).cycle.toNat)) s

/-- `TRCTL` as last written. -/
def Trace.ctlWritten (t : Trace) : Nat := (t.pending.map (·.2)).getD t.ctl
/-- A field of a control block other than `TRCTL` as the driver writes it (Table 18.1): `TRTAIL`, `TRLOST` and `SPCUR` are the
device's; `TRLOG2` and `TRBASE` stay while a recording is on (R405). -/
def trField (reg w : Nat) (t : Trace) : Trace :=
  let on := t.ctl % 4 != 0 || t.ctlWritten % 4 != 0
  match reg with
  | 0x04 => if on then t else { t with log2 := w % 256 }
  | 0x08 => if on then t else { t with base := w / 4096 * 4096 }
  | 0x10 => { t with head := w % 2 ^ 32 }
  | 0x1C => { t with spmin := w % 2 ^ 32 }
  | 0x28 => { t with bkpt := bits w 0 1 + 2 ^ 3 * bits w 3 45 }
  | _ => t

/-- A write of the control block in a cycle (R405): sizes out of range turn recording off; what changes `TRCTL` is in force from the
next cycle on. -/
def trWrite (reg w now : Nat) (t : Trace) : Trace :=
  let t := t.inForce now
  let n := trField reg w t
  let ctl := if reg = 0 then bits w 0 3 + 2 ^ 16 * bits w 16 14 else t.ctlWritten
  let ctl := if n.log2 < 8 ∨ 24 < n.log2 ∨ n.spmin < 64 ∨ 2 ^ 24 < n.spmin then ctl / 4 * 4 else ctl
  { n with pending := if ctl = t.ctl then none else some (now, ctl) }

/-- The period counts the cycles in which the firing on the core is traced (R411): one that a write ceases to trace keeps what has
passed, and goes on from there when another write traces it again. -/
def Trace.recount (now asid : Nat) (t : Trace) : Trace :=
  let was := ctlTraces (t.inForce now).ctl asid
  let will := ctlTraces t.ctlWritten asid
  if was && !will then { t with spGone := now + 1 - t.spAt }
  else if !was && will then { t with spAt := now + 1 - t.spGone }
  else t
/-- Why the front of a core does not issue when sampling is turned on (R411). -/
def Core.whyNow (c : Core) : Nat := (c.wait.map holdReason).getD 0

/-- A write to the control block of a core, once the samples due under the old values are taken (R405). -/
def traceControlWrite (core reg w : Nat) : M Unit :=
  if core < 160 then withCore core do
    lastSamples
    modS fun s =>
      let now := s.cycle.toNat
      let old := s.core.trace.inForce now
      let t := (trWrite reg w now s.core.trace).recount now s.core.info.asid
      { s with core := { s.core with trace := if trSen old then t else { t with why := [(now, s.core.whyNow)] } } }
  else return ()

/-- TRACE_CONTROL_WRITE (R404, R405): a driver's write to the control block of a core; in recovery no register answers but `MSTAT` and
the mailbox (R418). -/
def execTraceControlWrite (core reg : Nat) (value : Word) (s : State) : Host.Outcome State Fault Refusal :=
  runEvent (.traceControlWrite core reg value) (do
    if (← getS).mgmt.recov then return () else traceControlWrite core reg value.toNat) s

/-- Does the firing in focus halt on `BKPT` before it issues its next instruction (R414)? -/
def bkptNext : M Bool := do
  let c := (← getS).core
  if !c.running || c.bkptPassed == some c.f.fpc || !bit c.trace.bkpt 0 then return false
  let fl ← ctxFlags c.info.asid
  return bit fl 5 && !bit fl 1 && c.f.fpc.toNat == bits c.trace.bkpt 3 45 * 8

/-- A stop on its way comes before the halt (R105). -/
def bkptHit : M Bool := do return (← getS).core.noStop && (← bkptNext)

/-- BREAKPOINT_HALT (R414, R128). `COUNT` 1 of the record is this model's: DESIGN CHOICE, log entry 136. -/
def execBreakpointHalt (core : Nat) (s : State) : Host.Outcome State Fault Refusal :=
  runEvent (.breakpointHalt core) (withCore core do
    if ← bkptHit then
      let c := (← getS).core
      trTrace 7 1 0 (cBRK + 256 * c.f.queue.length) c.f.fpc.toNat
      modC fun c => { c with bkptPassed := some c.f.fpc }
      modF fun f => { f with pend := [] }
      let _ ← writeFRec { cause := cBRK, asid := c.info.asid, core := core, slot := c.info.slot, addr := c.f.fpc.toNat,
                          count := 1, detail := 1 }
      stopFiring 5) s

end Sys2Proof.Machine
end

