-- ==== Sys2Proof/Machine/Platform.lean ====
section
/-!
DEFINITION. The management complex (19_platform.md): bring-up, firmware, identity, the management window and its mailbox,
interrupts, power and temperature, and board management.
-/

namespace Sys2Proof.Machine

def modM (g : Mgmt → Mgmt) : M Unit := modS fun s => { s with mgmt := g s.mgmt }

/-! Stops from the management complex. -/

/-- Stop the firing of the core in focus (R115, R424): an engine stop that is due comes first (R105). `COUNT` 1 of the record of a
debugger's stop is this model's: DESIGN CHOICE, log entry 136. -/
def stopRunning (code : Nat) : M Bool := do
  match (← getS).core.ahead with
  | some (e, _) => deliverStop e
  | none => pure ()
  let c := (← getS).core
  if c.running then
    if code = 5 then
      let _ ← writeFRec { cause := cBRK, asid := c.info.asid, core := c.id, slot := c.info.slot, addr := c.f.fpc.toNat,
                          count := 1, detail := 2 }
      trTrace 7 0 0 (cBRK + 256 * c.f.queue.length) c.f.fpc.toNat
    stopFiring code
    return true
  else return false

/-- Stop every firing that satisfies `p`; how many. -/
def stopAll (code : Nat) (p : FiringInfo → Bool) : M Nat := do
  let cores := ((← getS).cores.filter fun c => c.running && p c.info).map (·.id)
  let l ← cores.filterMapM fun k => do
    return if ← withCore k (stopRunning code) then some k else none
  return l.length

/-- Drain the device (R419). -/
def drainDevice : M Unit := do let _ ← stopAll 1 fun _ => true

/-! The mailbox (R422, R424). -/

/-- Results over the argument bytes. -/
def patchBytes (l : List Byte) (off : Nat) (bs : List Byte) : List Byte :=
  l.take off ++ List.replicate (off - l.length) 0 ++ bs ++ l.drop (off + bs.length)

/-- A mailbox command completes: results, status, `MINT` bit 0. -/
def mailboxDone (s : State) (status : Nat) (res : List Byte) : State :=
  ({ s with mgmt := { s.mgmt with mbusy := false, mbox := none, mrun := none, mstatus := status,
                                  margs := patchBytes s.mgmt.margs 0 res } } : State).raiseMint 0

/-- Is it the turn of a mailbox command or a request of the board controller: nothing runs, or itself, which has waited (R427)? -/
def State.inTurn (s : State) (i : Instr) : Bool := s.mgmt.mrun.isNone || (s.mgmt.mrun == some i && !s.blocked.contains i)

/-- A doorbell (R422, R424): ignored with `MOVR` while another command is accepted. A command that has to wait keeps `MBUSY`. -/
def runMailbox (i : Instr) (code : Nat) (args : List Byte) (body : M (Nat × List Byte)) (s : State) :
    Host.Outcome State Fault Refusal :=
  if s.mgmt.mbusy && (s.mgmt.mbox.map (·.1) != some i || s.blocked.contains i) then
    .next { s with mgmt := { s.mgmt with movr := true } }
  else
    let s0 : State := if s.mgmt.mbusy then s
      else { s with mgmt := { s.mgmt with mbusy := true, mbox := some (i, args), mcmd := code, margs := args } }
    if !s0.inTurn i then .next (s0.park i)
    else
      let s1 : State := { s0 with mgmt := { s0.mgmt with mrun := some i } }
      match body s1 with
      | (.ok (st, res), s') => .next (mailboxDone s' st res)
      | (.error (.fault f), _) => .fault f
      | (.error (.wait w), _) => .next ((s1.park i).waiting w)
      | (.error _, s') => .next (mailboxDone s' 0 [])

/-- A request of the board controller (R427), in its turn. -/
def runRequest (i : Instr) (body : M Unit) (s : State) : Host.Outcome State Fault Refusal :=
  if !s.inTurn i then .next (s.park i)
  else
    runEvent i (do
      body
      modM fun m => { m with mrun := none }) { s with mgmt := { s.mgmt with mrun := some i } }

/-- Is a firing waiting for an answer, with one of these stop codes? -/
def SlotInfo.waits (i : SlotInfo) (codes : List Nat) : Bool := i.onCore.isNone && !i.answered && codes.contains i.stop

/-- DEBUGHOLD ends when no firing of the context is halted (R128). -/
def dropHold (asid : Nat) : M Unit :=
  modS fun s =>
    if s.slots.any fun (k, o) => k / 65536 == asid && (match o with | some i => i.waits [5] | none => false) then s
    else if !s.debugHold.contains asid then s
    else { s with debugHold := s.debugHold.filter (· != asid), outbox := s.outbox ++ [.link "debugHold" 0xFFFF [asid, 0] []] }

/-- The driver's answer makes the saved firing's record runnable (R112, R128). -/
def answerSlot (key : Nat) (i : SlotInfo) : M Unit := do
  modS fun s => { s with slots := SMap.put none key (some { i with owed := true, answered := true }) s.slots }
  pushOwed key

/-- The paused command whose record lies at a queue index (R113): core, slot, command. -/
def pausedCmd (s : State) (asid idx : Nat) : Option (Nat × Fin 16 × Cmd) :=
  (s.cores.flatMap fun c => (List.finRange 16).filterMap fun k => (c.cmds[k]).bind fun x =>
    if x.owner.1 == asid && x.paused == some idx then some (c.id, k, x) else none).head?

/-- The invalidation that an answer may need (R112, R86): every translation of the context (log entry 112). -/
def fixedTlbs (asid : Nat) : M Unit := modS (mapTlbs (fun e => e.asid != asid) id)

/-- `FIXED` (R112, R113). -/
def cmdFixed (asid slot idx : Nat) : M (Nat × List Byte) := do
  let s ← getS
  if 16384 ≤ asid ∨ 65536 ≤ slot then return (1, [])
  else if slot = 0xFFFF then
    match pausedCmd s asid idx with
    | none => return (2, [])
    | some (core, k, c) =>
      fixedTlbs asid
      putCmd core k (some { c with paused := none })
      return (0, [])
  else
    match SMap.get none (slotKey asid slot) s.slots with
    | none => return (2, [])
    | some i =>
      if i.waits [2, 3] then
        fixedTlbs asid
        answerSlot (slotKey asid slot) i
        return (0, [])
      else return (3, [])

/-- `KILL` (R114, R302). -/
def cmdKill (asid slot idx : Nat) : M (Nat × List Byte) := do
  let s ← getS
  if 16384 ≤ asid ∨ 65536 ≤ slot then return (1, [])
  else if slot = 0xFFFF then
    match pausedCmd s asid idx with
    | none => return (2, [])
    | some (core, k, c) =>
      faultOwner c
      putCmd core k (some { c with paused := none, failed := true, ended := true, follow := none })
      pushOwed c.key
      return (0, [])
  else
    match SMap.get none (slotKey asid slot) s.slots with
    | none => return (2, [])
    | some i =>
      if i.waits [2, 3, 5] then
        retireFailed i.info
        dropHold asid
        idlePosts
        return (0, [])
      else return (3, [])

/-- `CTXSTOP` (R424, R128): the number of firings stopped. -/
def cmdCtxstop (asid : Nat) (dbg : Bool) : M (Nat × List Byte) := do
  if 16384 ≤ asid then return (1, [])
  else
    modM fun m => { m with stops := insertSorted asid m.stops }
    let n ← stopAll (if dbg then 5 else 1) (·.asid == asid)
    return (0, bytesOf 4 n)

/-- `CTXGO` (R424). -/
def cmdCtxgo (asid : Nat) : M (Nat × List Byte) := do
  if 16384 ≤ asid then return (1, [])
  else
    modM fun m => { m with stops := m.stops.filter (· != asid) }
    return (0, [])

/-- `DBGGO` (R128). -/
def cmdDbggo (asid slot : Nat) : M (Nat × List Byte) := do
  if 16384 ≤ asid ∨ 65536 ≤ slot then return (1, [])
  else
    match SMap.get none (slotKey asid slot) (← getS).slots with
    | none => return (2, [])
    | some i =>
      if i.waits [5] then
        answerSlot (slotKey asid slot) i
        dropHold asid
        return (0, [])
      else return (3, [])

def powerOfTwo (n : Nat) : Bool := n != 0 && 2 ^ Nat.log2 n == n

/-- The run posts of a submit post (R332): control block and ring of each. -/
def writeRunPosts (runbase rcap : Nat) : M Unit :=
  upTo 209 fun i => do
    let cb := runbase + 64 * i
    physWriteBytes cb (bytesOf 8 (runbase + 16384 + 32 * rcap * i) ++ bytesOf 8 0 ++ bytesOf 4 rcap ++ bytesOf 2 1 ++ bytesOf 42 0)

/-- `SUBREG`, registering (R333, R424). A control block that cannot be one is a bad argument. -/
def cmdSubreg (post : Nat) (pa : Nat) : M (Nat × List Byte) := do
  if 256 ≤ post then return (1, [])
  else if (SMap.get none post (← getS).submits).isSome then return (3, [])
  else if !populated pa ∨ pa % 64 ≠ 0 then return (1, [])
  else
    let runbase ← physRead (pa + 0x28) 8
    let rcap ← physRead (pa + 0x30) 4
    if !populated runbase || !populated (runbase + 16384 + 32 * rcap * 209 - 1) || runbase % 4096 != 0 || !powerOfTwo rcap
        || decide (rcap < 64) || decide (65536 < rcap) then return (1, [])
    else
      writeRunPosts runbase rcap
      modS fun s => { s with submits := SMap.put none post (some ⟨pa⟩) s.submits }
      idlePosts
      return (0, [])

/-- Does a submit post still hold a record, or a firing of it remain (R424)? -/
def submitUsed (s : State) (post pa : Nat) : Bool :=
  (submitHead s pa).isSome || postBusy s post pa || s.expansions.any (·.spost == post)
    || s.slots.any fun (_, o) => match o with | some i => i.info.spost == post | none => false

/-- `SUBREG`, unregistering. -/
def cmdUnregister (post : Nat) : M (Nat × List Byte) := do
  if 256 ≤ post then return (1, [])
  else
    match SMap.get none post (← getS).submits with
    | none => return (2, [])
    | some x =>
      if submitUsed (← getS) post x.pa then return (3, [])
      else
        modS fun s => { s with submits := SMap.put none post none s.submits }
        return (0, [])

/-- The firmware slot that is not active (R419). -/
def Mgmt.inactive (m : Mgmt) : List Byte := if m.activeB then m.slotA else m.slotB
def Mgmt.setInactive (m : Mgmt) (bs : List Byte) : Mgmt := if m.activeB then { m with slotA := bs } else { m with slotB := bs }
def Mgmt.active (m : Mgmt) : List Byte := if m.activeB then m.slotB else m.slotA

/-- `FWWRITE` (R424). -/
def cmdFwwrite (offset : Nat) (bs : List Byte) : M (Nat × List Byte) := do
  if bs.isEmpty ∨ 4080 < bs.length ∨ 2 ^ 32 ≤ offset then return (1, [])
  else
    modM fun m => m.setInactive (patchBytes m.inactive offset bs)
    return (0, [])

/-- `ACTIVATE` (R419): the device is drained; an image that does not authenticate leaves the old one. -/
def cmdActivate : M (Nat × List Byte) := do
  drainDevice
  let good := Config.imageSigned (← getM).inactive
  if good then
    modM fun m => { m with activeB := !m.activeB, xver := BitVec.ofNat 16 (Config.imageXver m.inactive) }
  modS (·.raiseMint 7)
  return (if good then 0 else 4, [])

/-- `KEYLOAD` (R420, R424). -/
def cmdKeyload (slot asid session : Nat) (wrapped : List Byte) : M (Nat × List Byte) := do
  let m ← getM
  if wrapped.length ≠ 96 ∨ 16384 ≤ asid ∨ 65536 ≤ slot then return (1, [])
  else if m.spdm ≠ some session then return (5, [])
  else
    match Config.unwrapKey session wrapped with
    | none => return (4, [])
    | some k =>
      modM fun m => { m with keys := SMap.put none slot (some (asid, k)) m.keys }
      return (0, [])

/-- The command of a code with its packed arguments (Table 19.4). -/
def mailboxCommand (code : Nat) (args : List Byte) : M (Nat × List Byte) :=
  let u := fun off n => ofBytes ((args.drop off).take n)
  match code with
  | 1 => cmdFixed (u 0 2) (u 2 2) (u 4 4)
  | 2 => cmdKill (u 0 2) (u 2 2) (u 4 4)
  | 3 => if u 2 1 / 2 ≠ 0 ∨ u 3 1 ≠ 0 then return (1, []) else cmdCtxstop (u 0 2) (bit (u 2 1) 0)
  | 4 => cmdCtxgo (u 0 2)
  | 5 => cmdDbggo (u 0 2) (u 2 2)
  | 6 =>
    if u 1 1 / 2 ≠ 0 ∨ u 2 2 ≠ 0 then return (1, [])
    else if bit (u 1 1) 0 then cmdUnregister (u 0 1)
    else cmdSubreg (u 0 1) (u 4 8)
  | 7 => if 4080 < u 4 4 then return (1, []) else cmdFwwrite (u 0 4) (bytesOf (u 4 4) (ofBytes ((args.drop 8).take (u 4 4))))
  | 8 => cmdActivate
  | 9 => cmdKeyload (u 0 2) (u 2 2) (u 4 4) (bytesOf 96 (u 8 96))
  | _ => return (1, [])

/-- FIXED (R112, R113, R424). -/
def execFixed (asid slot idx : Nat) (s : State) : Host.Outcome State Fault Refusal :=
  runMailbox (.fixed asid slot idx) 1 (bytesOf 2 asid ++ bytesOf 2 slot ++ bytesOf 4 idx) (cmdFixed asid slot idx) s
/-- KILL (R114, R424). -/
def execKill (asid slot idx : Nat) (s : State) : Host.Outcome State Fault Refusal :=
  runMailbox (.kill asid slot idx) 2 (bytesOf 2 asid ++ bytesOf 2 slot ++ bytesOf 4 idx) (cmdKill asid slot idx) s
/-- CTXSTOP (R128, R424). -/
def execCtxstop (asid : Nat) (dbg : Bool) (s : State) : Host.Outcome State Fault Refusal :=
  runMailbox (.ctxstop asid dbg) 3 (bytesOf 2 asid ++ bytesOf 2 dbg.toNat) (cmdCtxstop asid dbg) s
/-- CTXGO (R424). -/
def execCtxgo (asid : Nat) (s : State) : Host.Outcome State Fault Refusal :=
  runMailbox (.ctxgo asid) 4 (bytesOf 2 asid) (cmdCtxgo asid) s
/-- DBGGO (R128, R424). -/
def execDbggo (asid slot : Nat) (s : State) : Host.Outcome State Fault Refusal :=
  runMailbox (.dbggo asid slot) 5 (bytesOf 2 asid ++ bytesOf 2 slot) (cmdDbggo asid slot) s
/-- SUBREG (R333, R424). -/
def execSubreg (post : Nat) (pa : Word) (s : State) : Host.Outcome State Fault Refusal :=
  runMailbox (.subreg post pa) 6 (bytesOf 4 post ++ bytesOf 8 pa.toNat) (cmdSubreg post pa.toNat) s
/-- SUBREG with its unregister bit (R424). -/
def execSubregUnregister (post : Nat) (s : State) : Host.Outcome State Fault Refusal :=
  runMailbox (.subregUnregister post) 6 (bytesOf 1 post ++ bytesOf 11 1) (cmdUnregister post) s
/-- FWWRITE (R419, R424). -/
def execFwwrite (offset : Nat) (bytes : List Byte) (s : State) : Host.Outcome State Fault Refusal :=
  runMailbox (.fwwrite offset bytes) 7 (bytesOf 4 offset ++ bytesOf 4 bytes.length ++ bytes) (cmdFwwrite offset bytes) s
/-- ACTIVATE (R419, R424). -/
def execActivate (s : State) : Host.Outcome State Fault Refusal := runMailbox .activate 8 [] cmdActivate s
/-- KEYLOAD (R420, R424). -/
def execKeyload (slot asid session : Nat) (wrapped : List Byte) (s : State) : Host.Outcome State Fault Refusal :=
  runMailbox (.keyload slot asid session wrapped) 9
    (bytesOf 2 slot ++ bytesOf 2 asid ++ bytesOf 4 session ++ wrapped) (cmdKeyload slot asid session wrapped) s
/-- BAD_COMMAND_CODE (R424): a code the table does not list completes with status 1. -/
def execBadCommandCode (code : Nat) (s : State) : Host.Outcome State Fault Refusal :=
  if 1 ≤ code ∧ code ≤ 9 then .next s
  else runMailbox (.badCommandCode code) (code % 2 ^ 32) s.mgmt.margs (return (1, [])) s

/-! The registers of the management window (Tables 19.1, 19.2). -/

/-- `MSTAT`. -/
def Mgmt.mstat (m : Mgmt) : Nat :=
  m.ready.toNat + 2 * m.run.toNat + 4 * m.recov.toNat + 8 * m.noid.toNat + 16 * m.cfgbad.toNat + 32 * m.mbusy.toNat
    + 64 * m.movr.toNat + 128 * m.throt.toNat
/-- A write of `MSTAT`: `RUN`, and the bits cleared by writing 1. -/
def Mgmt.writeMstat (m : Mgmt) (w : Word) : Mgmt :=
  { m with run := w.getLsbD 1, movr := m.movr && !w.getLsbD 6, throt := m.throt && !w.getLsbD 7 }

/-- What `SCHEDQ` stores (R341). -/
def clampSchedq (n : Nat) : Nat := if n = 0 then 95000 else min (max n 1900) 1900000

/-- What is left of a device without power: flash, and the schedule of what reaches it (log entry 4). -/
def State.keepEnv (s r : State) : State :=
  { r with
    agenda := s.agenda, turns := s.turns, leads := s.leads, blocked := s.blocked, starts := s.starts, overlaps := s.overlaps, upsets := s.upsets, merges := s.merges,
    storeLags := s.storeLags, slowSwitches := s.slowSwitches, outbox := s.outbox, freeCtr := s.freeCtr }

/-- Enter P3 (R425): contents are lost. -/
def powerOff : M Unit := modS fun s => { s.keepEnv State.reset with mgmt := { s.mgmt with pstate := 3 }, cycle := s.cycle }

/-- A thermal trip abandons an activation that drains the device (R419). -/
def State.abandonActivation (s : State) : State :=
  if s.mgmt.activating then
    let m := s.mgmt
    let boxed := m.mbox.map (·.1) == m.mrun
    { s with agenda := match m.mrun with | some i => if s.blocked.contains i then s.agenda else s.agenda.erase i | none => s.agenda
             blocked := match m.mrun with | some i => s.blocked.erase i | none => s.blocked
             mgmt := { m with mrun := none, mbusy := m.mbusy && !boxed, mbox := if boxed then none else m.mbox } }
  else s

/-- A power state requested (R425): P2 and P3 are entered after a drain; P3 is left by a module reset only. -/
def requestPower (p : Nat) : M Unit := do
  if 3 < p ∨ (← getM).pstate = 3 then return ()
  modM fun m => { m with preq := p }
  if 2 ≤ p then drainDevice
  if p = 3 then powerOff
  else modM fun m => { m with pstate := if m.limited then max 1 p else p }

/-- A write of an 8-byte half of an MSI-X entry; unmasking a vector sends the message it kept (R423). Where table and pending bits lie
in their page is PRESUMED, log entry 129. -/
def msixWrite (off n : Nat) : M Unit := modS fun s =>
  let v := off / 16
  let old := s.mgmt.msixEntry v
  let new := if off % 16 = 0 then old / 2 ^ 64 * 2 ^ 64 + n else old % 2 ^ 64 + 2 ^ 64 * n
  let s := { s with mgmt := { s.mgmt with msix := SMap.put (2 ^ 96) v new s.mgmt.msix } }
  if !bit new 96 && s.mgmt.msixPending.getLsbD v then
    ({ s with mgmt := { s.mgmt with msixPending := s.mgmt.msixPending &&& ~~~BitVec.ofNat 64 (2 ^ v) } } : State).sendMsix v
  else s

/-- A write of a trace control block's 8 bytes at `off`, of those that `mask` selects: one register or two (Table 18.1). -/
def traceBlockWrite (off w mask : Nat) : M Unit := do
  let core := (off - 0x80000) / 64
  let reg := off % 64
  if reg = 0x08 ∨ reg = 0x28 then traceControlWrite core reg w
  else
    if mask % 2 ^ 32 ≠ 0 then traceControlWrite core reg (w % 2 ^ 32)
    if mask / 2 ^ 32 ≠ 0 then traceControlWrite core (reg + 4) (w / 2 ^ 32)

/-- A trace control block as read (Table 18.1). -/
def Trace.block (t : Trace) : Nat :=
  t.ctlWritten + 2 ^ 32 * t.log2 + 2 ^ 64 * t.base + 2 ^ 128 * t.head + 2 ^ 160 * t.tail + 2 ^ 192 * t.lost + 2 ^ 224 * t.spmin
    + 2 ^ 256 * t.spcur + 2 ^ 320 * t.bkpt

/-- The 8 bytes at an offset of BAR 0, a multiple of 8 (R422): reserved space reads as zero, and in recovery all but `MSTAT` and the
mailbox. -/
def managementWord (s : State) (off : Nat) : Nat :=
  let m := s.mgmt
  if off = 0 then m.mstat
  else if off = 0x1000 then m.mcmd + 2 ^ 32 * m.mstatus
  else if 0x1008 ≤ off ∧ off < 0x2000 then ofBytes ((m.margs.drop (off - 0x1008)).take 8)
  else if m.recov then 0
  else if 0x100000 ≤ off ∧ off < 0x100400 then bits (m.msixEntry ((off - 0x100000) / 16)) (8 * (off % 16)) 64
  else if off = 0x100400 then m.msixPending.toNat
  else if 0x80000 ≤ off ∧ off < 0x82800 then bits ((s.coreAt ((off - 0x80000) / 64)).trace.inForce s.cycle.toNat).block (8 * (off % 64)) 64
  else if 0x90000 ≤ off ∧ off < 0xF0000 then
    let t := SMap.get {} ((off - 0x90000) / 24) s.totals
    match (off - 0x90000) % 24 with
    | 0 => t.cycles
    | 8 => t.instrs
    | _ => t.energy
  else
    match off with
    | 0x08 => m.ctxbase
    | 0x10 => m.mslotbase
    | 0x18 => m.ltbase
    | 0x20 => m.schedq
    | 0x28 => m.apbase
    | 0x30 => m.preq
    | 0x38 => m.mint.toNat
    | 0x40 => m.minten.toNat
    | 0x48 => m.refused.toNat
    | 0x50 => m.reflast.toNat
    | _ => 0
/-- What the host reads at an offset: 8 bytes, of which it takes as many as its access has. -/
def managementRead (s : State) (off : Nat) : Nat :=
  bits (managementWord s (off / 8 * 8) + 2 ^ 64 * managementWord s (off / 8 * 8 + 8)) (8 * (off % 8)) 64

/-- A write of the bytes that `mask` selects of the 8 at `off`, a multiple of 8: `w` has them, and zeros elsewhere. The bits that a 1
clears take only those; the other registers keep the bytes that are not written. In recovery only `MSTAT` and the mailbox answer
(R418). -/
def writeWord (off w mask : Nat) : M Unit := do
  let n := managementWord (← getS) off - (managementWord (← getS) off &&& mask) + w
  if off = 0 then modM fun m => (m.writeMstat (b64 (if mask % 256 = 0 then 2 * m.run.toNat else w)))
  else if 0x1008 ≤ off ∧ off < 0x2000 then modM fun m => { m with margs := patchBytes m.margs (off - 0x1008) (bytesOf 8 n) }
  else if (← getM).recov then return ()
  else if 0x100000 ≤ off ∧ off < 0x100400 then msixWrite (off - 0x100000) n
  else if 0x80000 ≤ off ∧ off < 0x82800 then traceBlockWrite off n mask
  else
    match off with
    | 0x08 => modM fun m => { m with ctxbase := n, based := m.based ||| 1 }
    | 0x10 => modM fun m => { m with mslotbase := n, based := m.based ||| 2 }
    | 0x18 => modM fun m => { m with ltbase := n, based := m.based ||| 4 }
    | 0x20 => if mask % 2 ^ 32 ≠ 0 then modM fun m => { m with schedq := clampSchedq (n % 2 ^ 32) }
    | 0x28 => modM fun m => { m with apbase := bits n 0 10 + 2 ^ 25 * bits n 25 14 }
    | 0x30 => if mask % 2 ^ 32 ≠ 0 then requestPower (n % 2 ^ 32)
    | 0x38 => modM fun m => { m with mint := m.mint &&& ~~~b64 w }
    | 0x40 => modM fun m => { m with minten := b64 n }
    | _ => return ()

/-- A write of `k` bytes of the window at any offset: of one group of 8 or of two. -/
def writeManagement (off k : Nat) (v : Word) : M Unit := do
  let k := min k 8
  let mask := (2 ^ (8 * k) - 1) * 2 ^ (8 * (off % 8))
  let w := v.toNat % 2 ^ (8 * k) * 2 ^ (8 * (off % 8))
  if mask % 2 ^ 64 ≠ 0 then writeWord (off / 8 * 8) (w % 2 ^ 64) (mask % 2 ^ 64)
  if mask / 2 ^ 64 ≠ 0 then writeWord (off / 8 * 8 + 8) (w / 2 ^ 64) (mask / 2 ^ 64)

/-- MSTAT_WRITE (R422). -/
def execMstatWrite (value : Word) (s : State) : Host.Outcome State Fault Refusal :=
  runEvent (.mstatWrite value) (writeManagement 0 8 value) s
/-- MINT_WRITE (R423). -/
def execMintWrite (value : Word) (s : State) : Host.Outcome State Fault Refusal :=
  runEvent (.mintWrite value) (writeManagement 0x38 8 value) s
/-- SCHEDQ_WRITE (R341). -/
def execSchedqWrite (value : Word) (s : State) : Host.Outcome State Fault Refusal :=
  runEvent (.schedqWrite value) (writeManagement 0x20 8 value) s
/-- PSTATE_WRITE (R425). -/
def execPstateWrite (value : Word) (s : State) : Host.Outcome State Fault Refusal :=
  runEvent (.pstateWrite value) (writeManagement 0x30 8 value) s
/-- MANAGEMENT_REGISTER_WRITE (R422): a write of the command word is a doorbell, whose command runs with the arguments as they stand. -/
def execManagementRegisterWrite (offset : Nat) (write : RegWrite) (s : State) : Host.Outcome State Fault Refusal :=
  let i := .managementRegisterWrite offset write
  if 0x1000 ≤ offset ∧ offset < 0x1004 ∧ write.n ≠ 0 then
    let lo := 8 * (offset - 0x1000)
    let code := patchBits s.mgmt.mcmd lo (min (8 * write.n) (32 - lo)) write.value.toNat
    let code := if s.mgmt.mbox.map (·.1) = some i then s.mgmt.mcmd else code
    let args := ((s.mgmt.mbox.filter (·.1 == i)).map (·.2)).getD s.mgmt.margs
    runMailbox i code args (mailboxCommand code args) s
  else runEvent i (writeManagement offset write.n write.value) s

/-- `HEAD`, `TAIL` and `DROPS` of a submit page of this device (Table 17.7). -/
def submitPageRead (s : State) (post off : Nat) : Nat :=
  let pa := (SMap.get none post s.submits).map (·.pa)
  match off with
  | 0x20 => (pa.map fun a => Memory.read s.mem (a + 8) 4).getD 0
  | 0x24 => (pa.map fun a => Memory.read s.mem (a + 12) 4).getD 0
  | 0x28 => SMap.get 0 post s.drops
  | _ => 0

/-! Bring-up (R418 to R421). -/

/-- MODULE_RESET (R418): the machine as at reset, brought up with what flash, the board and the links give: slot A if its image
authenticates, else slot B. The configuration block counts when its HMAC under a key of the identity is right (R421). -/
def moduleReset (boot : BootInputs) (s : State) : State :=
  let r := s.keepEnv State.reset
  let flash : Mgmt := { slotA := s.mgmt.slotA, slotB := s.mgmt.slotB, cfgBlock := s.mgmt.cfgBlock, certChain := s.mgmt.certChain }
  let goodA := Config.imageSigned flash.slotA
  if !goodA && !Config.imageSigned flash.slotB then
    ({ r with mgmt := { flash with recov := true, noid := true } } : State).raiseMint 7
  else
    let block := flash.cfgBlock
    let id := Config.identityKey boot.puf block
    let cfgGood := id.any fun k => Config.hmacSha512 (Config.configKey k) (Config.configBody block) == Config.configTag block
    let m := { flash with noid := id.isNone, cfgbad := !cfgGood, activeB := !goodA }
    if !boot.trained then ({ r with mgmt := { m with recov := true } } : State).raiseMint 7
    else
      { r with
        portsUp := (List.range portCount).filter boot.portsUp.contains
        mgmt := { m with ready := true, bridge := cfgGood && Config.configBridge block, device := boot.device % 1024,
                         xver := BitVec.ofNat 16 (Config.imageXver m.active), stepping := boot.stepping } }

/-- MODULE_RESET (R418). -/
def execModuleReset (boot : BootInputs) (s : State) : Host.Outcome State Fault Refusal :=
  runEvent (.moduleReset boot) (modS (moduleReset boot)) s

/-! Identity (R420). -/

def reply (dest : String) (bs : List Byte) : M Unit := modS fun s => { s with outbox := s.outbox ++ [.bytes dest bs] }
def replyWord (dest : String) (n : Nat) : M Unit := modS fun s => { s with outbox := s.outbox ++ [.word dest n] }

/-- Is there an identity key (R418 step 3, R420)? -/
def Mgmt.hasKey (m : Mgmt) : Bool := (m.ready || m.recov) && !m.noid
/-- A request that needs the identity key: answered with an error without it. -/
def signedReply (message : List Byte) : M Unit := do
  if !(← getM).hasKey then replyWord "spdmError" 1 else reply "spdm" (message ++ Config.sign message)

/-- The measurements in order (R420): firmware image, expansion table, configuration block, `ISAID`. -/
def measurements (m : Mgmt) : List Byte :=
  bytesOf 64 (Config.sha512 m.active) ++ bytesOf 64 (Config.sha512 (Config.expansionTable m.active))
    ++ bytesOf 64 (Config.sha512 m.cfgBlock) ++ bytesOf 64 (Config.sha512 (bytesOf 8 (isaid m)))

/-- GET_CERTIFICATE (R420): a part of the chain in flash. -/
def execGetCertificate (slot offset length : Nat) (s : State) : Host.Outcome State Fault Refusal :=
  runRequest (.getCertificate slot offset length) (do
    if slot ≠ 0 then replyWord "spdmError" 1
    else reply "spdm" (((← getM).certChain.drop offset).take length)) s
/-- CHALLENGE (R420). -/
def execChallenge (nonce : List Byte) (s : State) : Host.Outcome State Fault Refusal :=
  runRequest (.challenge nonce) (do signedReply (bytesOf 64 (Config.sha512 (← getM).certChain) ++ nonce)) s
/-- GET_MEASUREMENTS (R420). -/
def execGetMeasurements (nonce : List Byte) (s : State) : Host.Outcome State Fault Refusal :=
  runRequest (.getMeasurements nonce) (do signedReply (measurements (← getM) ++ nonce)) s
/-- KEY_EXCHANGE (R420): the session within which `KEYLOAD` may load keys. -/
def execKeyExchange (exchange : List Byte) (s : State) : Host.Outcome State Fault Refusal :=
  runRequest (.keyExchange exchange) (do
    if (← getM).hasKey then modM fun m => { m with spdm := some (Config.sessionId exchange % 2 ^ 32) }
    signedReply (Config.keyExchange exchange)) s

/-! Power and temperature (R426). -/

/-- The highest die junction temperature. -/
def hottestDie (t : Temperatures) : Nat := t.dies.toList.foldl max 0

/-- The power is limited (R426): P1 at most, and `THROT`. -/
def limitPower : M Unit := do
  modM fun m => { m with limited := true, throt := true, pstate := max 1 m.pstate }
  modS (·.raiseMint 3)

/-- TELEMETRY_SAMPLE (R426): module power and temperatures, every 100 µs. A trip abandons an activation before anything waits. -/
def execTelemetrySample (milliwatts : Nat) (temps : Temperatures) (s : State) : Host.Outcome State Fault Refusal :=
  let high := hottestDie temps
  let trips := decide (115000 ≤ high) && s.mgmt.pstate != 3
  runEvent (.telemetrySample milliwatts temps) (do
    let m ← getM
    let hot := if 2000000 < milliwatts then m.hotSamples + 1 else 0
    let cool := if milliwatts < 1900000 ∧ high < 100000 then m.coolSamples + 1 else 0
    modM fun m => { m with milliwatts := milliwatts, temps := temps, hotSamples := hot, coolSamples := cool }
    if m.pstate = 3 then return ()
    if 110000 ≤ high then modS (·.raiseMint 3)
    if 3 ≤ hot ∨ 105000 ≤ high then limitPower
    if 115000 ≤ high then
      drainDevice
      powerOff
      replyWord "trip" high
    else if ¬ (3 ≤ hot ∨ 105000 ≤ high) ∧ 1000 ≤ cool ∧ m.limited then
      modM fun m => { m with limited := false, pstate := if m.pstate = 1 then m.preq else m.pstate })
    (if trips then s.abandonActivation else s)

/-! Board management (R427). -/

/-- The core rail of a power state in millivolts (Table 19.3). -/
def railOf : Nat → Nat
  | 0 => 550
  | 1 => 500
  | 2 => 450
  | _ => 0
/-- What a sensor reads: of the last sample, or the rail of the power state. -/
def Mgmt.reading (m : Mgmt) : Sensor → Nat
  | .die k => m.temps.dies[k]
  | .stack k => m.temps.hbm[k]
  | .power => m.milliwatts
  | .rail => railOf m.pstate

/-- PLDM_BASE (R427). -/
def execPldmBase (command : Nat) (s : State) : Host.Outcome State Fault Refusal :=
  runRequest (.pldmBase command) (reply "pldm" (Config.pldmAnswer command)) s
/-- PLDM_MONITORING (R427): a sensor's reading, or the power state as an effecter (R425). -/
def execPldmMonitoring (request : PldmReq) (s : State) : Host.Outcome State Fault Refusal :=
  runRequest (.pldmMonitoring request) (do
    match request with
    | .readSensor x => replyWord "pldm" ((← getM).reading x)
    | .setPowerState p => requestPower p) s
/-- PLDM_FRU (R427): part number, stepping, serial number. -/
def execPldmFru (s : State) : Host.Outcome State Fault Refusal :=
  runRequest .pldmFru (do
    reply "pldm" ("LY-J9".toList.map (fun c => BitVec.ofNat 8 c.toNat) ++ bytesOf 1 (← getM).stepping.toNat
      ++ Config.serialNumber)) s
/-- PLDM_FIRMWARE_UPDATE (R427): an image to the inactive slot, and R419, in its turn behind a mailbox command that runs. -/
def execPldmFirmwareUpdate (image : List Byte) (s : State) : Host.Outcome State Fault Refusal :=
  runRequest (.pldmFirmwareUpdate image) (do
    modM fun m => m.setInactive image
    let (st, _) ← cmdActivate
    replyWord "pldm" st) s

/-! Contexts (R90, R110, R125, R239). -/

/-- The firmware gives a confidential context frames of its own and writes its page tables (R90, R125). -/
def firmwareMaps (asid : Nat) (frames : List Nat) (entries : List (Nat × BitVec 64)) : M Unit := do
  modS fun s => { s with owners := frames.foldl (fun o f => SMap.put 0 f (asid + 1) o) s.owners,
                         sealed := frames.foldl (fun l f => SMap.put 0 (f / 256) 0 l) s.sealed }
  entries.forM fun (pa, v) => do
    if populated pa then physWrite pa 8 v.toNat

/-- FIRMWARE_RESOLVES_NOTMAPPED (R125): for a firing of a confidential context that a NOTMAPPED has stopped or parked, or, with
slot 0xFFFF, for its copy paused at the queue index. -/
def execFirmwareResolvesNotmapped (asid : Nat) (target : FaultTarget) (frames : List Nat) (entries : List (Nat × BitVec 64))
    (s : State) : Host.Outcome State Fault Refusal :=
  runEvent (.firmwareResolvesNotmapped asid target frames entries) (do
    let slot := target.slot
    if !(← isConf asid) then return ()
    else if slot = 0xFFFF then
      match pausedCmd (← getS) asid target.idx with
      | none => return ()
      | some (core, k, c) =>
        if c.pausedBy = cNOTMAPPED then
          firmwareMaps asid frames entries
          putCmd core k (some { c with paused := none })
    else
      match SMap.get none (slotKey asid slot) (← getS).slots with
      | none => return ()
      | some i =>
        if i.waits [3] || (i.waits [2] && i.cause == cNOTMAPPED) then
          firmwareMaps asid frames entries
          answerSlot (slotKey asid slot) i) s

/-- CONTEXT_DESCRIPTOR_VALID (R110, R239): a descriptor becomes valid; the firmware zeroes the context's slot table, and
sets up a confidential context's frames and tables. -/
def execContextDescriptorValid (asid : Nat) (descriptor : List Byte) (frames : List Nat) (entries : List (Nat × BitVec 64))
    (s : State) : Host.Outcome State Fault Refusal :=
  runEvent (.contextDescriptorValid asid descriptor frames entries) (do
    if asid < 16384 ∧ descriptor.length = 256 then
      physWriteBytes (ctxAddr (← getS) asid 0) descriptor
      physFill ((← getM).mslotbase + 512 * asid) 512 0
      modS fun s => { s with sealed := s.sealed.filter fun (_, o) => o != asid + 1 }
      modS (·.modifyCores fun c => { c with moulds := c.moulds.filter (·.asid != asid) })
      if ← isConf asid then firmwareMaps asid frames entries) s

end Sys2Proof.Machine
end

