-- ==== Sys2Proof/Machine/Scalar.lean ====
section
/-!
DEFINITION. Scalar arithmetic, conditional set, branches and jumps (R135 to R140).
-/

namespace Sys2Proof.Machine

/-! Results (Tables 5.5 to 5.7). -/

def shlBy (a : Word) (s : Nat) : Word := if 64 ≤ s then 0 else a <<< s
def shrBy (a : Word) (s : Nat) : Word := if 64 ≤ s then 0 else a >>> s
def sraBy (a : Word) (s : Nat) : Word := a.sshiftRight (if 64 ≤ s then 63 else s)
def mulhSigned (a b : Word) : Word := wordOf (a.toInt * b.toInt / 2 ^ 64)
def mulhUnsigned (a b : Word) : Word := b64 (a.toNat * b.toNat / 2 ^ 64)
/-- Quotients and remainders (R136): rounded towards zero; a divisor of 0 gives all ones and the dividend. -/
def divSigned (a b : Word) : Word := if b = 0 then BitVec.allOnes 64 else wordOf (a.toInt.tdiv b.toInt)
def remSigned (a b : Word) : Word := if b = 0 then a else wordOf (a.toInt.tmod b.toInt)
def divUnsigned (a b : Word) : Word := if b = 0 then BitVec.allOnes 64 else b64 (a.toNat / b.toNat)
def remUnsigned (a b : Word) : Word := if b = 0 then a else b64 (a.toNat % b.toNat)
def minSigned (a b : Word) : Word := if a.toInt < b.toInt then a else b
def maxSigned (a b : Word) : Word := if a.toInt < b.toInt then b else a
def minUnsigned (a b : Word) : Word := if a.toNat < b.toNat then a else b
def maxUnsigned (a b : Word) : Word := if a.toNat < b.toNat then b else a
/-- Zero bits above the highest one. -/
def clzWord (a : Word) : Word := if a = 0 then 64 else b64 (63 - Nat.log2 a.toNat)
/-- One bits. -/
def popCount : Nat → Nat → Nat
  | 0, _ => 0
  | n + 1, v => v % 2 + popCount n (v / 2)
def popWord (a : Word) : Word := b64 (popCount 64 a.toNat)
def sextImm (imm : BitVec 32) : Word := imm.signExtend 64

/-- A register result of latency 1 (Table 1.4). -/
def alu (st : Fin 16) (d : Fin 32) (reads : List (Fin 32)) (g : (Fin 32 → Word) → Word) (s : State) :
    Host.Outcome State Fault Refusal :=
  runFront st reads (fun x => do
    writeX d (g x)
    return none) s

/-- A result of a longer fixed latency (Table 1.4). -/
def aluLate (st : Fin 16) (d : Fin 32) (reads : List (Fin 32)) (lat : Nat) (g : (Fin 32 → Word) → Word) (s : State) :
    Host.Outcome State Fault Refusal :=
  runFront st reads (fun x => do
    modF fun f => f.setLate d (g x) lat
    return none) s

/-- `add` (R135). -/
def execAdd (st : Fin 16) (d a b : Fin 32) (s : State) : Host.Outcome State Fault Refusal :=
  alu st d [a, b] (fun x => x a + x b) s
/-- `sub` (R135). -/
def execSub (st : Fin 16) (d a b : Fin 32) (s : State) : Host.Outcome State Fault Refusal :=
  alu st d [a, b] (fun x => x a - x b) s
/-- `and` (R135). -/
def execAnd (st : Fin 16) (d a b : Fin 32) (s : State) : Host.Outcome State Fault Refusal :=
  alu st d [a, b] (fun x => x a &&& x b) s
/-- `or` (R135). -/
def execOr (st : Fin 16) (d a b : Fin 32) (s : State) : Host.Outcome State Fault Refusal :=
  alu st d [a, b] (fun x => x a ||| x b) s
/-- `xor` (R135). -/
def execXor (st : Fin 16) (d a b : Fin 32) (s : State) : Host.Outcome State Fault Refusal :=
  alu st d [a, b] (fun x => x a ^^^ x b) s
/-- `shl` (R135). -/
def execShl (st : Fin 16) (d a b : Fin 32) (s : State) : Host.Outcome State Fault Refusal :=
  alu st d [a, b] (fun x => shlBy (x a) (x b).toNat) s
/-- `shr` (R135). -/
def execShr (st : Fin 16) (d a b : Fin 32) (s : State) : Host.Outcome State Fault Refusal :=
  alu st d [a, b] (fun x => shrBy (x a) (x b).toNat) s
/-- `sra` (R135). -/
def execSra (st : Fin 16) (d a b : Fin 32) (s : State) : Host.Outcome State Fault Refusal :=
  alu st d [a, b] (fun x => sraBy (x a) (x b).toNat) s
/-- `mul` (R135). -/
def execMul (st : Fin 16) (d a b : Fin 32) (s : State) : Host.Outcome State Fault Refusal :=
  aluLate st d [a, b] 3 (fun x => x a * x b) s
/-- `mulh` (R135). -/
def execMulh (st : Fin 16) (d a b : Fin 32) (s : State) : Host.Outcome State Fault Refusal :=
  aluLate st d [a, b] 3 (fun x => mulhSigned (x a) (x b)) s
/-- `mulhn` (R135). -/
def execMulhn (st : Fin 16) (d a b : Fin 32) (s : State) : Host.Outcome State Fault Refusal :=
  aluLate st d [a, b] 3 (fun x => mulhUnsigned (x a) (x b)) s
/-- `div` (R136). -/
def execDiv (st : Fin 16) (d a b : Fin 32) (s : State) : Host.Outcome State Fault Refusal :=
  alu st d [a, b] (fun x => divSigned (x a) (x b)) s
/-- `divn` (R136). -/
def execDivn (st : Fin 16) (d a b : Fin 32) (s : State) : Host.Outcome State Fault Refusal :=
  alu st d [a, b] (fun x => divUnsigned (x a) (x b)) s
/-- `rem` (R136). -/
def execRem (st : Fin 16) (d a b : Fin 32) (s : State) : Host.Outcome State Fault Refusal :=
  alu st d [a, b] (fun x => remSigned (x a) (x b)) s
/-- `remn` (R136). -/
def execRemn (st : Fin 16) (d a b : Fin 32) (s : State) : Host.Outcome State Fault Refusal :=
  alu st d [a, b] (fun x => remUnsigned (x a) (x b)) s
/-- `min` (R135). -/
def execMin (st : Fin 16) (d a b : Fin 32) (s : State) : Host.Outcome State Fault Refusal :=
  alu st d [a, b] (fun x => minSigned (x a) (x b)) s
/-- `max` (R135). -/
def execMax (st : Fin 16) (d a b : Fin 32) (s : State) : Host.Outcome State Fault Refusal :=
  alu st d [a, b] (fun x => maxSigned (x a) (x b)) s
/-- `minn` (R135). -/
def execMinn (st : Fin 16) (d a b : Fin 32) (s : State) : Host.Outcome State Fault Refusal :=
  alu st d [a, b] (fun x => minUnsigned (x a) (x b)) s
/-- `maxn` (R135). -/
def execMaxn (st : Fin 16) (d a b : Fin 32) (s : State) : Host.Outcome State Fault Refusal :=
  alu st d [a, b] (fun x => maxUnsigned (x a) (x b)) s
/-- `clz` (R135). -/
def execClz (st : Fin 16) (d a : Fin 32) (s : State) : Host.Outcome State Fault Refusal :=
  alu st d [a] (fun x => clzWord (x a)) s
/-- `popc` (R135). -/
def execPopc (st : Fin 16) (d a : Fin 32) (s : State) : Host.Outcome State Fault Refusal :=
  alu st d [a] (fun x => popWord (x a)) s
/-- `addi` (R137). -/
def execAddi (st : Fin 16) (d a : Fin 32) (imm : BitVec 32) (s : State) : Host.Outcome State Fault Refusal :=
  alu st d [a] (fun x => x a + sextImm imm) s
/-- `andi` (R137). -/
def execAndi (st : Fin 16) (d a : Fin 32) (imm : BitVec 32) (s : State) : Host.Outcome State Fault Refusal :=
  alu st d [a] (fun x => x a &&& sextImm imm) s
/-- `ori` (R137). -/
def execOri (st : Fin 16) (d a : Fin 32) (imm : BitVec 32) (s : State) : Host.Outcome State Fault Refusal :=
  alu st d [a] (fun x => x a ||| sextImm imm) s
/-- `xori` (R137). -/
def execXori (st : Fin 16) (d a : Fin 32) (imm : BitVec 32) (s : State) : Host.Outcome State Fault Refusal :=
  alu st d [a] (fun x => x a ^^^ sextImm imm) s
/-- `limh` (R137). -/
def execLimh (st : Fin 16) (d a : Fin 32) (imm : BitVec 32) (s : State) : Host.Outcome State Fault Refusal :=
  alu st d [a] (fun x => b64 (imm.toNat * 2 ^ 32 + (x a).toNat % 2 ^ 32)) s
/-- `shli` (R137). -/
def execShli (st : Fin 16) (d a : Fin 32) (sh : Fin 64) (s : State) : Host.Outcome State Fault Refusal :=
  alu st d [a] (fun x => shlBy (x a) sh.val) s
/-- `shri` (R137). -/
def execShri (st : Fin 16) (d a : Fin 32) (sh : Fin 64) (s : State) : Host.Outcome State Fault Refusal :=
  alu st d [a] (fun x => shrBy (x a) sh.val) s
/-- `srai` (R137). -/
def execSrai (st : Fin 16) (d a : Fin 32) (sh : Fin 64) (s : State) : Host.Outcome State Fault Refusal :=
  alu st d [a] (fun x => sraBy (x a) sh.val) s
/-- `limm` (R137). -/
def execLimm (st : Fin 16) (d : Fin 32) (imm : BitVec 32) (s : State) : Host.Outcome State Fault Refusal :=
  alu st d [] (fun _ => sextImm imm) s

/-- The conditions of Table 2.6. -/
def Cond.holds (c : Cond) (a b : Word) : Bool :=
  match c with
  | .eq => a == b
  | .ne => a != b
  | .lt => decide (a.toInt < b.toInt)
  | .ge => decide (b.toInt ≤ a.toInt)
  | .ltn => decide (a.toNat < b.toNat)
  | .gen => decide (b.toNat ≤ a.toNat)
  | .al => true

/-- `cset` (R138): the destination is `B`. -/
def execCset (st : Fin 16) (cond : Cond) (d a b : Fin 32) (s : State) : Host.Outcome State Fault Refusal :=
  alu st b [d, a] (fun x => if Cond.holds cond (x d) (x a) then 1 else 0) s

/-- A jump's target (R140): NONCANON, precise at the jump. -/
def jumpTarget (t : Word) : M Unit := do
  if 2 ^ 48 ≤ t.toNat then stopWith (.trap { cause := cNONCANON, addr := some t })
  if t.toNat % 8 ≠ 0 then stopWith (.trap { cause := cMISALIGN, addr := some t })

/-- A taken branch or jump. -/
def jumpTo (t : Word) : M (Option Word) := do
  jumpTarget t
  return some t

/-- `br` (R139). -/
def execBr (st : Fin 16) (cond : Cond) (d a : Fin 32) (imm : BitVec 32) (s : State) : Host.Outcome State Fault Refusal :=
  runFront st [d, a] (fun x => do
    if Cond.holds cond (x d) (x a) then jumpTo ((← getF).fpc + 8 * sextImm imm) else return none) s

/-- `jal` (R140). -/
def execJal (st : Fin 16) (d : Fin 32) (imm : BitVec 32) (s : State) : Host.Outcome State Fault Refusal :=
  runFront st [] (fun _ => do
    let pc := (← getF).fpc
    let t ← jumpTo (pc + 8 * sextImm imm)
    writeX d (pc + 8)
    return t) s

/-- `jalr` (R140): `x[A]` is read before `x[D]` is written. -/
def execJalr (st : Fin 16) (d a : Fin 32) (imm : BitVec 32) (s : State) : Host.Outcome State Fault Refusal :=
  runFront st [a] (fun x => do
    let pc := (← getF).fpc
    let t ← jumpTo (x a + sextImm imm)
    writeX d (pc + 8)
    return t) s

/-- `nop` (R149). -/
def execNop (st : Fin 16) (s : State) : Host.Outcome State Fault Refusal := runFront st [] (fun _ => return none) s

end Sys2Proof.Machine
end

