-- ==== Sys2Proof/Machine/Vat.lean ====
section
/-!
DEFINITION. Running a fabric opcode: tokens, hops and the firing of cells (R222 to R224, R227 to R234), the cut (R251),
and `fx`, `fxres`, `fxstat` (R244 to R255).
-/

namespace Sys2Proof.Machine

/-! Tokens and ports. -/

def VTok.isEof (t : VTok) : Bool := decide (4 ≤ t.kind)
def VTok.level (t : VTok) : Nat := t.kind - 4
/-- The older of two origins (R251). -/
def VTok.older (a b : VTok) : VTok := if a.em < b.em ∨ (a.em = b.em ∧ a.sem ≤ b.sem) then a else b
def VTok.from' (o : VTok) (kind coord val : Nat) : VTok := { o with kind := kind, coord := coord, val := val }
/-- The position of tokens that descend from no IN cell. -/
def noOrigin : Nat := 2 ^ 64

def VCell.port (c : VCell) (p : Nat) : List VTok := match p with | 0 => c.p | 1 => c.q | _ => c.k
def VCell.setPort (c : VCell) (p : Nat) (l : List VTok) : VCell :=
  match p with | 0 => { c with p := l } | 1 => { c with q := l } | _ => { c with k := l }
/-- Take the head of a port; a constant stays. -/
def VCell.take (c : VCell) (w p : Nat) : VCell :=
  if 1 ≤ portSel w p ∧ portSel w p ≤ 4 then c.setPort p (c.port p).tail else c
def VCell.takes (c : VCell) (w : Nat) (l : List Nat) : VCell := l.foldl (fun c p => c.take w p) c

/-- What a port presents (R223): a stream's head, or a value token that is always there. -/
def portHead (scal : Vector Word 4) (fn w : Nat) (c : VCell) (p : Nat) : Option VTok :=
  let fixed := fun v => some { kind := 0, val := v, em := noOrigin, sem := noOrigin : VTok }
  match portSel w p with
  | 0 => none
  | 5 => fixed (cellConst w)
  | 6 => fixed (scal[bits w 61 2]!).toNat
  | 7 => fixed fn
  | _ => (c.port p).head?

/-- What a firing does: the cell after it, the results, the flags. -/
structure Fire where
  c : VCell
  x : Option VTok := none
  y : Option VTok := none
  fl : Flags := 0

/-- A result on X, with Y its copy (R226). -/
def fireX (c : VCell) (t : VTok) (fl : Flags := 0) : Fire := { c := c, x := some t, y := some t, fl := fl }

/-- End-of-fibre tokens at the heads of stream ports (R224): the ports taken, and the token emitted. -/
def eofHeads (h : Nat → Option VTok) (ps : List Nat) : Option (List Nat × VTok) :=
  let es := ps.filterMap fun p => match h p with | some t => if t.isEof then some (p, t) else none | none => none
  match es with
  | [] => none
  | (_, t) :: r =>
    let o := r.foldl (fun a (_, b) => a.older b) t
    some (es.map (·.1), o.from' (r.foldl (fun a (_, b) => max a b.kind) t.kind) 0 0)

/-! The kinds. -/

/-- Comparisons of Table 9.3 by operation: 12 `EQ`, 13 `NE`, 14 `LT`, 15 `LE`. -/
def aluCompare (op : Nat) (c : Int) : Bool :=
  match op with | 12 => c == 0 | 13 => c != 0 | 14 => decide (c < 0) | _ => decide (c ≤ 0)

/-- f64 arithmetic of an ALU or JOIN cell (R229, R250). -/
def aluFloat (rm : Round) (op a b : Nat) : Nat × Flags :=
  let x := valueOf .f64 a
  let y := valueOf .f64 b
  let round := fun (r : Ex × Flags) => let (v, fl) := cvt r.1 .f64 rm; (v, r.2 ||| fl)
  match op with
  | 1 => round (addEx rm x y)
  | 2 => round (addEx rm x y.neg)
  | 3 => round (mulEx x y)
  | 4 => (minMaxFp .f64 true a b, 0)
  | 5 => (minMaxFp .f64 false a b, 0)
  | _ => if x.isNan || y.isNan then (0, if 14 ≤ op then fNV else 0) else ((aluCompare op (cmpEx x y)).toNat, 0)

/-- Integer operations of Table 9.3. -/
def aluInt (sg : Bool) (op a b : Nat) : Nat :=
  let x := b64 a
  let y := b64 b
  let c : Int := if sg then x.toInt - y.toInt else (a : Int) - b
  match op with
  | 1 => (x + y).toNat
  | 2 => (x - y).toNat
  | 3 => (x * y).toNat
  | 4 => if c < 0 then a else b
  | 5 => if c < 0 then b else a
  | 6 => (x &&& y).toNat
  | 7 => (x ||| y).toNat
  | 8 => (x ^^^ y).toNat
  | 9 => (shlBy x b).toNat
  | 10 => (shrBy x b).toNat
  | 11 => (sraBy x b).toNat
  | 16 => (x * y).toNat / 2 ^ 56
  | 17 =>
    let n := bits b 8 7
    if 64 ≤ n then a / 2 ^ (b % 64) else a / 2 ^ (b % 64) % 2 ^ n
  | _ => (aluCompare op c).toNat

def aluValue (rm : Round) (w op a b : Nat) : Nat × Flags :=
  if bit w 38 then aluFloat rm op a b else (aluInt (bit w 39) op a b, 0)

/-- ALU (R229). A result whose kind R229 does not name is a value token, whatever its operands: DESIGN CHOICE, log entry 134. -/
def fireAlu (rm : Round) (w : Nat) (c : VCell) (h : Nat → Option VTok) : Option Fire := do
  let op := bits w 32 6
  let p ← h 0
  if aluOne op then
    let c := c.take w 0
    if p.isEof then
      return fireX (if op = 18 ∧ bits w 40 3 ≤ p.level then { c with acc := 0 } else c) p
    match op with
    | 18 =>
      let (s, fl) := aluValue rm w 1 c.acc p.val
      return fireX { c with acc := s } (p.from' 0 0 s) fl
    | 19 => return fireX c (p.from' 1 (p.val % 2 ^ 32) 0)
    | 21 => return fireX c (p.from' 0 0 p.coord)
    | 22 => return fireX c (p.from' 0 0 p.val)
    | _ => return fireX c p
  else
    let q ← h 1
    match eofHeads h [0, 1] with
    | some (ps, t) => return fireX (c.takes w ps) t
    | none =>
      let c := c.takes w [0, 1]
      let o := p.older q
      if op = 20 then return fireX c (o.from' 2 (p.val % 2 ^ 32) q.val)
      let (v, fl) := aluValue rm w op p.val q.val
      return fireX c (o.from' 0 0 v) fl

/-- The test "non-zero" (R230). -/
def nonZero (fz : Bool) (t : VTok) : Bool := if fz then t.val % 2 ^ 63 != 0 else t.val != 0

/-- STEER (R230). -/
def fireSteer (w : Nat) (c : VCell) (h : Nat → Option VTok) : Option Fire := do
  let pred := cellMode w
  let p ← h 0
  let toX := fun (c : VCell) => { c := c, x := if bit w 36 then none else some p : Fire }
  let toY := fun (c : VCell) => { c := c, y := if bit w 37 then none else some p : Fire }
  match pred with
  | 0 =>
    let k ← h 2
    if p.isEof then
      let c := c.takes w (if k.isEof then [0, 2] else [0])
      return { c := c, x := (toX c).x, y := (toY c).y }
    else if k.isEof then return { c := c.take w 2 }
    else
      let c := c.takes w [0, 2]
      return if nonZero (bit w 38) k then toX c else toY c
  | 1 =>
    let c := c.take w 0
    if p.isEof then return { c := c, x := (toX c).x, y := (toY c).y }
    return if nonZero (bit w 38) p then toX c else toY c
  | 2 => return if p.isEof then toY (c.take w 0) else toX (c.take w 0)
  | _ => return if p.isEof && decide (bits w 34 2 ≤ p.level) then toY (c.take w 0) else toX (c.take w 0)

/-- MERGE (R230). -/
def fireMerge (w : Nat) (c : VCell) (h : Nat → Option VTok) : Option Fire := do
  if !bit w 32 then
    let k ← h 2
    if k.isEof then return { c := c.take w 2 }
    let port := if nonZero (bit w 35) k then 0 else 1
    let t ← h port
    return fireX (c.takes w [2, port]) t
  else
    let closes := fun (t : VTok) => t.isEof && decide (bits w 33 2 ≤ t.level)
    let p ← h 0
    if !closes p then return fireX (c.take w 0) p
    let q ← h 1
    if !closes q then return fireX (c.take w 1) q
    return fireX (c.takes w [0, 1]) ((p.older q).from' (max p.kind q.kind) 0 0)

/-- The coordinate of a token at a JOIN or TABLE port (R231, R233). -/
def VTok.key (t : VTok) : Nat := if t.kind = 0 then t.val % 2 ^ 32 else t.coord

/-- `COMB` of Table 9.2. -/
def combine (rm : Round) (comb a b : Nat) : Nat × Flags :=
  match comb with
  | 0 => (a, 0)
  | 1 => (b, 0)
  | 2 => (aluInt false 1 a b, 0)
  | 3 => aluFloat rm 1 a b
  | 4 => aluFloat rm 3 a b
  | 5 => (aluInt true 4 a b, 0)
  | _ => (aluInt true 5 a b, 0)

/-- JOIN (R231). -/
def fireJoin (rm : Round) (w : Nat) (c : VCell) (h : Nat → Option VTok) : Option Fire := do
  let p ← h 0
  let q ← h 1
  let mode := cellMode w
  let tagged := bit w 38
  let out := fun (c : VCell) (t : VTok) (tag : Nat) (fl : Flags) =>
    { c := c, x := some t, y := some (if tagged then t.from' 0 0 tag else t), fl := fl : Fire }
  if p.isEof && q.isEof then
    let t := (p.older q).from' (max p.kind q.kind) 0 0
    return { c := c.takes w [0, 1], x := some t, y := if tagged then none else some t }
  else if q.isEof || (!p.isEof && decide (p.key < q.key)) then
    let c := c.take w 0
    return if mode = 1 then { c := c } else out c (p.from' 2 p.key p.val) 1 0
  else if p.isEof || decide (q.key < p.key) then
    let c := c.take w 1
    return if mode = 0 then out c (q.from' 2 q.key q.val) 2 0 else { c := c }
  else
    let c := c.takes w [0, 1]
    if mode = 2 then return { c := c }
    let (v, fl) := combine rm (bits w 34 4) p.val q.val
    return out c ((p.older q).from' 2 p.key v) 3 fl

/-- CNT (R232). -/
def fireCnt (w : Nat) (c : VCell) (h : Nat → Option VTok) : Option Fire :=
  match cellMode w with
  | 2 =>
    match c.buf with
    | t :: r => some (fireX { c with buf := r } t)
    | [] => do
      let p ← h 0
      let c := c.take w 0
      if !p.isEof then return { c := { c with acc := c.acc + 1 } }
      else if bits w 35 2 ≤ p.level then
        return fireX { c with acc := 0, buf := if bit w 37 then [p] else [] } (p.from' 0 0 (c.acc % 2 ^ 64))
      else if bit w 37 then return fireX c p
      else return { c := c }
  | mode => do
    let p ← h 0
    let q ← h 1
    match eofHeads h [0, 1] with
    | some (ps, t) => return fireX (c.takes w ps) t
    | none =>
      let lo := if mode = 0 then 0 else p.val % 2 ^ 32
      let hi := if mode = 0 then p.val % 2 ^ 32 else q.val % 2 ^ 32
      let i := lo + c.acc
      let next := fun (_ : Unit) => if i + 1 < hi then { c with acc := c.acc + 1 } else { c.takes w [0, 1] with acc := 0 }
      if hi ≤ i then return { c := { c.takes w [0, 1] with acc := 0 } }
      let o := p.older q
      return fireX (next ()) (if mode = 0 && !bit w 34 then o.from' q.kind q.coord q.val else o.from' 0 0 i)

/-- TABLE (R233); `image`: the entries as the image has them. -/
def fireTable (w : Nat) (image : List Nat) (c : VCell) (h : Nat → Option VTok) : Option Fire := do
  let mode := cellMode w
  let ps := match mode with | 0 => [0, 1] | 1 => [0] | _ => [0, 1, 2]
  let p ← h 0
  let q ← if mode = 1 then some p else h 1
  let k ← if mode = 2 then h 2 else some q
  match eofHeads h ps with
  | some (l, t) =>
    let c := c.takes w l
    if mode ≠ 2 then return fireX c t
    return { c := if bits w 36 3 ≤ t.level then { c with tab := image } else c }
  | none =>
    let j := if mode = 1 then p.val % 256 else (k.val + c.acc) % 256
    let e := c.tab.getD j 0
    let hit := if mode = 1 then bit e 63 else (bit e 63 && e % 2 ^ 32 == p.key) || (mode == 2 && !bit e 63)
    if mode ≠ 1 ∧ !hit ∧ bit e 63 ∧ c.acc < 255 then return { c := { c with acc := c.acc + 1 } }
    let c := { c.takes w ps with acc := 0 }
    let o := (p.older q).older k
    if hit then
      if mode = 2 then
        return { c := { c with tab := c.tab.set j (p.key + 2 ^ 32 * (q.val % 2 ^ 31) + 2 ^ 63) } }
      let d := bits e 32 31
      let t := if bit w 35 then o.from' 2 p.key d else o.from' 0 0 d
      return { c := c, x := some t, y := if bit w 34 then none else some t }
    return { c := c, y := if bit w 34 then some (o.from' 1 p.key 0) else none }

/-! A run: hops and memory. -/

def VatRun.cell (r : VatRun) (i : Nat) : VCell := (r.cells[i]?).getD {}
def VatRun.setCell (r : VatRun) (i : Nat) (c : VCell) : VatRun := { r with cells := r.cells.set i c }
def VatRun.round (r : VatRun) : Round := match r.mould.rm with | 1 => .rtz | 2 => .rup | 3 => .rdn | _ => .rne

/-- Has every channel that carries the cell's results room (R224)? -/
def hasRoom (w : Nat) (c : VCell) : Bool :=
  (List.finRange 4).all fun s => !(sideSel w s.val == 1 || sideSel w s.val == 2) || (c.out[s]).isNone
/-- Put the results on the channels that carry them. -/
def emitOn (w : Nat) (c : VCell) (x y : Option VTok) : VCell :=
  (List.finRange 4).foldl (fun (c : VCell) (s : Fin 4) =>
    match sideSel w s.val with
    | 1 => match x with | some t => { c with out := c.out.set s (some { tok := t }) } | none => c
    | 2 => match y with | some t => { c with out := c.out.set s (some { tok := t }) } | none => c
    | _ => c) c

/-- One taker of a hop's token: a port with a free slot, or a forward whose hop is free. -/
def giveTaker (w k : Nat) (t : VTok) (c : VCell) : Option VCell :=
  if k < 3 then if (c.port k).length < portDepth w k then some (c.setPort k (c.port k ++ [t])) else none
  else
    let s : Fin 4 := Fin.ofNat 4 (k - 3)
    if (c.out[s]).isNone then some { c with out := c.out.set s (some { tok := t }) } else none

/-- Move the token of a hop to those of its takers that have room; the hop is free when all have it (R224). -/
def VatRun.deliverHop (r : VatRun) (i : Nat) (s : Fin 4) : VatRun × Bool :=
  match (r.cell i).out[s], r.mould.next i s.val with
  | some h, some j =>
    if h.fresh then (r, false)
    else
      let w := r.mould.word j
      let all := takers w (oppSide s.val)
      let (r, taken) := all.foldl (fun ((r, l) : VatRun × List Nat) k =>
        if h.taken.contains k then (r, l)
        else match giveTaker w k h.tok (r.cell j) with
          | some c => (r.setCell j c, k :: l)
          | none => (r, l)) (r, [])
      let hop := if all.all fun k => h.taken.contains k || taken.contains k then none
        else some { h with taken := taken ++ h.taken }
      let c := r.cell i
      (r.setCell i { c with out := c.out.set s hop }, !taken.isEmpty)
  | _, _ => (r, false)

/-- The carrier form of an element (R222). -/
def carrier (f : Fmt) (e : Nat) : Nat × Flags :=
  if f.isInt || f == .tern then ((intValue f e % 2 ^ 64).toNat, readFlags f e)
  else ((cvt (valueOf f e) .f64 .rne).1, 0)

/-- `CONV` of OUT and MEM cells (R228). -/
def convert (rm : Round) (f : Fmt) (conv v : Nat) : Nat × Flags :=
  match conv with
  | 1 => cvt (valueOf .f64 v) f rm
  | 2 => cvt (valueOf .i64 v) f rm
  | 3 => cvt (valueOf .n64 v) f rm
  | _ => (v % 2 ^ f.width, 0)

def setFxField (k lo n v : Nat) : M Unit :=
  modF fun f => { f with fx := f.fx.set! k (b64 (patchBits (f.fx[k]!).toNat lo n v)) }
def setIpos (i v : Nat) : M Unit := setFxField (1 + i / 2) (32 * (i % 2)) 32 v

/-- How a run ends: `FXSTATE.STATE` 1, 2 or 4. -/
abbrev Finish := Option Nat

/-- The number of an access of a memory port in the run (R253). -/
def takeAccess (r : VatRun) (port : Nat) : VatRun × Nat :=
  let k : Fin 4 := Fin.ofNat 4 port
  ({ r with acc := r.acc.set k (r.acc[k] + 1) }, r.acc[k])

/-- A token reaches output `o` of an OUT cell, or of a store port (its number and base scalar) (R228, R246, R247); one that a
restart repeats raises its flags again (R250). One that no output takes, at the portion limit or at the last index, raises none:
DESIGN CHOICE, log entry 134. -/
def outToken (r : VatRun) (o sel conv : Nat) (mem : Option (Nat × Nat)) (t : VTok) : M (VatRun × Finish) := do
  let k : Fin 2 := Fin.ofNat 2 o
  let n := r.next[k]
  if 0xFFFFFFFF ≤ n then return (r, some 4)
  let r := { r with next := r.next.set k (n + 1), nums := (o, t.em) :: r.nums }
  let f ← getF
  let fmt := fmtOf (r.mould.ofmt.getD o 0 % 32)
  let base := fxField f 5 (32 * o) 32
  let (x, fl) := convert r.round fmt conv (if sel = 1 then t.coord else t.val)
  if n < fxField f 3 (32 * o) 32 ∨ n < base then
    modF fun f => f.raise fl
    return (r, none)
  let limit := vlmax fmt.width 0
  if limit ≤ n - base then return (r, some 2)
  modF fun f => f.raise fl
  match mem with
  | some (port, scal) =>
    let va := ((← getCur).scal[scal]!) + b64 (n * fmt.width / 8)
    let (r, idx) := takeAccess r port
    match ← locateAll needStore aStore [(va, fmt.width / 8)] with
    | .error es => vatFault (es.headD ⟨cNOTMAPPED, va, aStore⟩) idx port
    | .ok ps =>
      lsqParity
      writePieces fmt.width 0 va x false ps
      setFxField 3 (32 * o) 32 (n + 1)
      return (r, none)
  | none =>
    let d := (r.outs[o]?).getD 0
    let e := n - base
    let hi := (e + 1) * fmt.width
    let done := if e + 1 = limit then 2 ^ 64 - 1 else 2 ^ (hi / 512) - 1
    modF fun f => ((f.grow d fmt.width (e + 1)).setElem d fmt.width e x).setPoison d
      (groupMask (e * fmt.width) hi &&& done) 0
    setFxField 3 (32 * o) 32 (n + 1)
    return (r, none)

/-- The element of an input stream, unless it is pad or masked (R227, R245); poison raises POISON (R250). -/
def inElement (r : VatRun) (i : Nat) (fmt : Fmt) (j : Nat) : M (Option Nat) := do
  match r.ins[i]? with
  | none => return none
  | some s =>
    if s.padFrom ≤ j ∨ s.n ≤ j ∨ (s.masked && !r.mask.getLsbD j) then return none
    let v := (← getF).v[s.reg]
    if v.elemPoison fmt.width j then vatTrap cPOISON none j
    return some (v.elem fmt.width j)

/-- The token of data element `j` of an IN cell (R227). -/
def inToken (r : VatRun) (w j sem : Nat) : M (Option VTok) := do
  let i := bits w 32 2
  let vf := fmtOf (bits w 37 5)
  match bits w 34 3 with
  | 0 => do
    match ← inElement r i vf j with
    | none => return none
    | some e =>
      let (v, fl) := carrier vf e
      modF fun f => f.raise fl
      return some { kind := 0, val := v, em := j, sem := sem }
  | 1 => do
    match ← inElement r i vf j with
    | none => return none
    | some e => return some { kind := 1, coord := e % 2 ^ 32, em := j, sem := sem }
  | _ => do
    match ← inElement r i (fmtOf (bits w 42 5)) j, ← inElement r (i + 1) vf j with
    | some c, some e =>
      let (v, fl) := carrier vf e
      modF fun f => f.raise fl
      return some { kind := 2, coord := c % 2 ^ 32, val := v, em := j, sem := sem }
    | _, _ => return none

/-- The data elements an IN cell reads. -/
def inLength (r : VatRun) (w : Nat) : Nat :=
  let n := fun i => match r.ins[i]? with | some s => s.n | none => 0
  let i := bits w 32 2
  if bits w 34 3 = 2 then min (n i) (n (i + 1)) else n i

/-- The segment end an IN cell reads next, or none when no more remain; its position passes over the pad elements (R227). -/
def nextSegment (r : VatRun) (w : Nat) (c : VCell) : M (VCell × Option Nat) := do
  if !bit w 47 then return (c, none)
  let i := bits w 48 2
  match r.ins[i]? with
  | none => return (c, none)
  | some s =>
    if s.padFrom ≤ c.spos ∨ s.n ≤ c.spos then return ({ c with spos := max c.spos s.n }, none)
    return (c, ← inElement { r with ins := r.ins.set i { s with masked := false } } i .n32 c.spos)

/-- The next token of an IN cell with its state after it (R227, R251); elements without a token are passed over. -/
def inNext (r : VatRun) (w : Nat) : Nat → VCell → M (VCell × Option VTok)
  | 0, c => return (c, none)
  | fuel + 1, c => do
    let n := inLength r w
    let pauses := fun lv => r.mould.anchor == 2 && decide (r.mould.level ≤ lv)
    let (c, seg) ← nextSegment r w c
    match seg with
    | some e =>
      if e ≤ c.pos ∨ n ≤ c.pos then
        return ({ c with spos := c.spos + 1, paused := pauses 0 }, some { kind := 4, em := c.pos, sem := c.spos })
      else
        let t ← inToken r w c.pos c.spos
        let c := { c with pos := c.pos + 1 }
        if t.isSome then return (c, t) else inNext r w fuel c
    | none =>
      if c.pos < n then
        let t ← inToken r w c.pos c.spos
        let c := { c with pos := c.pos + 1 }
        if t.isSome then return (c, t) else inNext r w fuel c
      else if bit w 50 && !c.ended then
        let lv := bits w 51 2
        return ({ c with ended := true, done := true, paused := pauses lv },
          some { kind := 4 + lv, em := c.pos, sem := c.spos })
      else return ({ c with done := true }, none)

/-- A load of a memory port (R234, R249). What it emits for a pair or a coordinate is a value token: DESIGN CHOICE, log entry 134. -/
def loadToken (r : VatRun) (w : Nat) (t : VTok) : M (VatRun × VTok) := do
  let port := bits w 34 2
  if t.isEof then return (r, t)
  if bit w 44 && decide (cellConst w % 2 ^ 32 ≤ t.val) then
    if bit w 45 then vatTrap cBOUND (some 0) (r.acc[bits w 34 2]!) 0 port
    return (r, t.from' 0 0 0)
  let fmt := fmtOf (bits w 36 5)
  let va := ((← getCur).scal[bits w 61 2]!) + b64 (t.val * 2 ^ bits w 41 2)
  let (r, idx) := takeAccess r port
  match ← locateAll needLoad aLoad [(va, fmt.width / 8)] with
  | .error es => vatFault (es.headD ⟨cNOTMAPPED, va, aLoad⟩) idx port
  | .ok ps =>
    lsqParity
    let (x, poison) ← readPieces fmt.width 0 ps
    if poison then vatTrap cPOISON (some va) idx aLoad port
    let (v, fl) := carrier fmt x
    modF fun f => f.raise fl
    return (r, t.from' 0 0 v)

/-- Fire cell `i`, at most once in the cycle: has something moved, and has the run finished? -/
def fireCellAt (r : VatRun) (i : Nat) : M (VatRun × Bool × Finish) := do
  let w := r.mould.word i
  let c := r.cell i
  let scal := (← getCur).scal
  let h := portHead scal r.fn w c
  let pure' := fun (x : Option Fire) => do
    match x with
    | none => return (r, false, none)
    | some fr =>
      modF fun f => f.raise fr.fl
      return (r.setCell i { emitOn w fr.c fr.x fr.y with fired := true }, true, none)
  if c.fired || !hasRoom w c then return (r, false, none)
  match cellKind w with
  | 1 =>
    if c.done || c.paused then return (r, false, none)
    let (c, t) ← inNext r w 65537 c
    return (r.setCell i { emitOn w c t t with fired := t.isSome }, t.isSome, none)
  | 2 =>
    match h 0 with
    | none => return (r, false, none)
    | some t =>
      let r' := r.setCell i { c.take w 0 with fired := true }
      if t.isEof then return (r', true, none)
      let (r', fin) ← outToken r' (bits w 32 1) (bits w 38 2) (bits w 40 2) none t
      return (r', true, fin)
  | 3 => pure' (fireAlu r.round w c h)
  | 4 => pure' (fireSteer w c h)
  | 5 => pure' (fireMerge w c h)
  | 6 => pure' (fireJoin r.round w c h)
  | 7 => pure' (fireCnt w c h)
  | 8 => pure' (fireTable w ((r.mould.cells[i]?).map (·.tab) |>.getD []) c h)
  | 9 => pure' (match c.buf with
    | [] => none
    | t :: l => some (fireX { c with buf := l } t))
  | 10 =>
    match h 0 with
    | none => return (r, false, none)
    | some t =>
      let c := c.take w 0
      if cellMode w = 0 then
        let (r, t) ← loadToken r w t
        return (r.setCell i { emitOn w c (some t) (some t) with fired := true }, true, none)
      else
        let r' := r.setCell i { c with fired := true }
        if t.isEof then return (r', true, none)
        let (r', fin) ← outToken r' (bits w 43 1) (bits w 48 1) (bits w 46 2) (some (bits w 34 2, bits w 61 2)) t
        return (r', true, fin)
  | _ => return (r, false, none)

/-- A BUF cell takes the head of P while it has room (R234); what it takes in a cycle it emits in a later one. -/
def VatRun.bufTake (r : VatRun) (i : Nat) (h : Nat → Option VTok) : VatRun × Bool :=
  let w := r.mould.word i
  let c := r.cell i
  match cellKind w, h 0 with
  | 9, some t =>
    if c.buf.length < bits w 32 5 then (r.setCell i { c.take w 0 with buf := c.buf ++ [t] }, true) else (r, false)
  | _, _ => (r, false)

/-- One pass over the cells: hops deliver, cells fire. -/
def vatPass : Nat → Nat → VatRun → Bool → M (VatRun × Bool × Finish)
  | 0, _, r, moved => return (r, moved, none)
  | n + 1, i, r, moved => do
    let (r, m) := (List.finRange 4).foldl (fun ((r, m) : VatRun × Bool) s =>
      let (r', m') := r.deliverHop i s
      (r', m || m')) (r, moved)
    let (r, m', fin) ← fireCellAt r i
    if fin.isSome then return (r, true, fin)
    vatPass n (i + 1) r (m || m')

/-- Passes until nothing moves any more in the cycle (R224). -/
def vatPasses : Nat → VatRun → Bool → M (VatRun × Bool × Finish)
  | 0, r, moved => return (r, moved, none)
  | n + 1, r, moved => do
    let (r, m, fin) ← vatPass r.cells.length 0 r false
    if fin.isSome || !m then return (r, moved || m, fin)
    vatPasses n r true

/-! The cut (R251). -/

def VatRun.inCells (r : VatRun) : List Nat :=
  (List.range r.cells.length).filter fun i => cellKind (r.mould.word i) == 1
def VCell.held (c : VCell) : List VTok :=
  c.p ++ c.q ++ c.k ++ c.buf ++ (c.out.toList.filterMap fun h => h.map (·.tok))
def VatRun.held (r : VatRun) : List VTok := r.cells.flatMap VCell.held

/-- `IPOS` of the streams an IN cell reads. -/
def writeCut (w pos spos : Nat) : M Unit := do
  setIpos (bits w 32 2) pos
  if bits w 34 3 = 2 then setIpos (bits w 32 2 + 1) pos
  if bit w 47 then setIpos (bits w 48 2) spos

/-- Every cell but the IN cells as at the start (R251). -/
def VatRun.resetCells (r : VatRun) : VatRun :=
  { r with cells := (r.cells.zip r.mould.cells).map fun (c, m) =>
      if cellKind m.word = 1 then { c with paused := false } else { tab := m.tab } }

/-- The end of a cycle: the cut, and whether the run finishes. -/
def endCycle (r : VatRun) (moved : Bool) : M (VatRun × Finish) := do
  let r := { r with
    idle := if moved then 0 else r.idle + 1
    cells := r.cells.map fun c =>
      { c with fired := false, out := c.out.map fun h => h.map fun h => { h with fresh := false } } }
  let held := r.held
  let ins := r.inCells.map fun i => (r.mould.word i, r.cell i)
  let r ← if r.mould.anchor = 1 then do
      match ins with
      | (w, c) :: _ =>
        let own : VTok := { kind := 0, em := c.pos, sem := c.spos }
        let o := held.foldl VTok.older own
        writeCut w o.em o.sem
        upTo 2 fun k => do
          let n := (r.nums.filter fun (j, em) => j == k && decide (em < o.em)).length
          setFxField 4 (32 * k) 32 (fxField (← getF) 4 (32 * k) 32 + n)
        pure { r with nums := r.nums.filter fun (_, em) => decide (o.em ≤ em) }
      | [] => pure r
    else pure r
  if held.isEmpty && ins.all (·.2.done) then return (r, some 1)
  else if r.mould.anchor = 2 && held.isEmpty && ins.all (fun (_, c) => c.done || c.paused) then
    ins.forM fun (w, c) => writeCut w c.pos c.spos
    (List.finRange 2).forM fun k => setFxField 4 (32 * k.val) 32 (r.next[k])
    modF fun f => { f with fxEnds := ((r.cells.zipIdx).map fun (c, i) => if c.ended then 2 ^ i else 0).sum }
    return ({ r.resetCells with nums := [], idle := 0 }, none)
  else if 64 ≤ r.idle then return (r, some 4)
  else return (r, none)

/-- One cycle of a run (R246). -/
def vatCycle (r : VatRun) : M (VatRun × Finish) := do
  if 64 ≤ r.idle then return (r, some 4)
  let scal := (← getCur).scal
  let (r, moved, fin) ← vatPasses (16 * r.cells.length + 16) r false
  if fin.isSome then return (r, fin)
  let (r, took) := (List.range r.cells.length).foldl (fun ((r, m) : VatRun × Bool) i =>
    let (r', m') := r.bufTake i (portHead scal r.fn (r.mould.word i) (r.cell i))
    (r', m || m')) (r, moved)
  endCycle r took

/-- `finish` of R246. -/
def finishRun (r : VatRun) (l : Fin 4) (state : Nat) : M Unit := do
  setFxField 0 0 3 state
  if state ≠ 2 then
    r.inCells.forM fun i => writeCut (r.mould.word i) (r.cell i).pos (r.cell i).spos
    upTo 2 fun o => do setFxField 4 (32 * o) 32 (fxField (← getF) 3 (32 * o) 32)
  let count := fun (f : Firing) (o : Nat) => (fxField f 3 (32 * o) 32 - fxField f 5 (32 * o) 32) % 2 ^ 15
  if 1 ≤ r.mould.nout then modF fun f => f.setLn l { count := count f 0, pad := 0 }
  if 2 ≤ r.mould.nout then modF fun f => f.setLn (l + 1) { count := count f 1, pad := 0 }

/-- Cycles a step of a run performs at most. -/
def cyclesPerStep : Nat := 4096

/-- The cycles of a run, each a unit of a pre-emption (Table 4.8); a run that is not done goes on in a later step. -/
def runCycles (l : Fin 4) : Nat → VatRun → M Unit
  | 0, r => do
    modC fun c => { c with vat := some r }
    stopWith (.wait .vat)
  | n + 1, r => do
    modC fun c => { c with vat := some r }
    unit
    checkCfg
    match ← vatCycle r with
    | (r, some s) => finishRun r l s
    | (r, none) => runCycles l n r

/-! Starting a run. -/

/-- Registers of the five fields with the roles of the image. -/
def roleRegs (m : Mould) (regs : List (Fin 64)) : List (Nat × Fin 64) := m.role.zip regs

/-- The operand checks of R244. -/
def checkRoles (m : Mould) (regs : List (Fin 64)) : M Unit := do
  let l := roleRegs m regs
  let ins := (l.filter fun (b, _) => b % 4 == 1).map (·.2)
  let outs := (l.filter fun (b, _) => b % 4 == 2).map (·.2)
  if l.any (fun (b, r) => (b % 4 == 0 && r != 0) || (b % 4 == 3 && decide (32 ≤ r.val)))
      || outs.eraseDups.length != outs.length || outs.any ins.contains then vatTrap cMOULDBAD

/-- The register of a stream with a role. -/
def roleReg (m : Mould) (regs : List (Fin 64)) (role i : Nat) : Fin 64 :=
  match (roleRegs m regs).find? fun (b, _) => b % 4 = role ∧ bits b 2 2 = i with
  | some (_, r) => r
  | none => 0

/-- A `VLEN` that says no count has been taken yet. -/
def noVlen : Nat := 65535

/-- The run from its cut: lengths taken when the run first started (R157, R245), cells reset, IN cells at `IPOS`, outputs numbered from `ORB` (R246). -/
def startRun (m : Mould) (fn : Nat) (regs : List (Fin 64)) (mk : Fin 8) : M VatRun := do
  checkMask mk
  let f ← getF
  let e ← getCur
  let lenOf := fun i => Fin.ofNat 4 (m.ilen.getD i 0)
  let lens := e.lens.getD f.ln
  let first := if e.started ∧ e.vlen ≠ noVlen then e.vlen else lens[lenOf 0].count
  markStarted first
  modCur fun e => { e with lens := some lens }
  if (m.role.zipIdx).any fun (b, i) => b % 4 == 3 && decide (i < 4) && e.sp.getLsbD i then vatTrap cPOISON
  let ins := (List.range m.nin).map fun i =>
    let l := lens[lenOf i]
    let n := min (if i = 0 then first else l.count) (vlmax (streamFmt m i).width 0)
    ({ reg := roleReg m regs 1 i, n := n, padFrom := n - min l.pad n, masked := bit (m.ilen.getD i 0) 2 } : VIn)
  useVecs ((m.roleIdx 2).map (roleReg m regs 2)) (ins.map (·.reg))
  return { mould := m, fn := fn, mask := f.rm mk, ins := ins,
           outs := (List.range m.nout).map (roleReg m regs 2),
           cells := (m.cells.zipIdx).map fun (c, i) =>
             if cellKind c.word = 1 then
               { pos := ipos f (bits c.word 32 2), spos := if bit c.word 47 then ipos f (bits c.word 48 2) else 0,
                 ended := bit f.fxEnds i }
             else { tab := c.tab },
           next := Vector.ofFn fun k => fxField f 4 (32 * k.val) 32 }

/-- `fx_run` (R246). -/
def fxRun (slot fn : Nat) (fresh : Bool) (regs : List (Fin 64)) (mk : Fin 8) (l : Fin 4) : M Unit := do
  let e ← readSlot slot
  if !bit e 0 then vatTrap cFXUNBOUND
  if !fresh && slotSeq e != fxField (← getF) 6 0 32 then vatTrap cFXUNBOUND none 0 0 1
  let m ← residentMould slot e
  checkRoles m regs
  if fresh then
    modF fun f => { f with fx := #v[b64 (3 + 8 * slot + 256 * fn), 0, 0, 0, 0, 0, b64 (slotSeq e + 2 ^ 32 * m.nout), 0], fxEnds := 0 }
  else setFxField 0 0 3 3
  runCycles l cyclesPerStep (← startRun m fn regs mk)

/-- The scalars the front reads at dispatch (R244). -/
def fxScalars (d a b c : Fin 64) : List (Fin 4 × Fin 32) :=
  [(0, Fin.ofNat 32 d.val), (1, Fin.ofNat 32 a.val), (2, Fin.ofNat 32 b.val), (3, Fin.ofNat 32 c.val)]

/-- `fx` (R244, R246, R253). -/
def execFx (st : Fin 16) (fn : BitVec 8) (slot : Fin 32) (d a b c : Fin 64) (m : Fin 8) (e : Fin 64) (l : Fin 4)
    (s : State) : Host.Outcome State Fault Refusal :=
  runEngine (.fx st fn slot d a b c m e l) st 2 (fxScalars d a b c) (do
    match (← getS).core.vat with
    | some r => runCycles l cyclesPerStep r
    | none => fxRun slot.val fn.toNat (!(← getCur).started) [d, a, b, c, e] m l
    return 0) s true

/-- `fxres` (R254). -/
def execFxres (st : Fin 16) (d a b c : Fin 64) (m : Fin 8) (e : Fin 64) (l : Fin 4) (s : State) :
    Host.Outcome State Fault Refusal :=
  runEngine (.fxres st d a b c m e l) st 2 (fxScalars d a b c) (do
    match (← getS).core.vat with
    | some r => runCycles l cyclesPerStep r
    | none =>
      let f ← getF
      let again := (← getCur).started
      if again || fxField f 0 0 3 == 2 then
        if !again then
          modF fun f => { f with fx := f.fx.set 5 f.fx[3] }
          setFxField 0 0 3 3
          markStarted noVlen
        fxRun (fxField f 0 3 5) (fxField f 0 8 8) false [d, a, b, c, e] m l
      else unit
    return 0) s true

/-- `fxstat` (R255). -/
def execFxstat (st : Fin 16) (d : Fin 32) (k : Fin 8) (s : State) : Host.Outcome State Fault Refusal :=
  runEngine (.fxstat st d k) st 2 [] (do
    unit
    writeX d (← getF).fx[k]
    return 0) s

/-- FX_STALL (R248): the cycles in which nothing moves have passed. -/
def execFxStall (core : Nat) (s : State) : Host.Outcome State Fault Refusal :=
  runEvent (.fxStall core) (modS fun s => s.modifyCore core fun c =>
    { c with vat := c.vat.map fun r => if 0 < r.idle then { r with idle := 64 } else r }) s

end Sys2Proof.Machine
end

