-- ==== Sys2Proof/Machine/Dispatch.lean ====
section
/-!
DEFINITION. The dispatch: one arm for each constructor of `Instr`.
-/

namespace Sys2Proof.Machine

/-- The meaning of an instruction or event. -/
def exec (i : Instr) (s : State) : Host.Outcome State Fault Refusal :=
  match i with
  | .add st d a b => Sys2Proof.Machine.execAdd st d a b s
  | .sub st d a b => Sys2Proof.Machine.execSub st d a b s
  | .and st d a b => Sys2Proof.Machine.execAnd st d a b s
  | .or st d a b => Sys2Proof.Machine.execOr st d a b s
  | .xor st d a b => Sys2Proof.Machine.execXor st d a b s
  | .shl st d a b => Sys2Proof.Machine.execShl st d a b s
  | .shr st d a b => Sys2Proof.Machine.execShr st d a b s
  | .sra st d a b => Sys2Proof.Machine.execSra st d a b s
  | .mul st d a b => Sys2Proof.Machine.execMul st d a b s
  | .mulh st d a b => Sys2Proof.Machine.execMulh st d a b s
  | .mulhn st d a b => Sys2Proof.Machine.execMulhn st d a b s
  | .div st d a b => Sys2Proof.Machine.execDiv st d a b s
  | .divn st d a b => Sys2Proof.Machine.execDivn st d a b s
  | .rem st d a b => Sys2Proof.Machine.execRem st d a b s
  | .remn st d a b => Sys2Proof.Machine.execRemn st d a b s
  | .min st d a b => Sys2Proof.Machine.execMin st d a b s
  | .max st d a b => Sys2Proof.Machine.execMax st d a b s
  | .minn st d a b => Sys2Proof.Machine.execMinn st d a b s
  | .maxn st d a b => Sys2Proof.Machine.execMaxn st d a b s
  | .clz st d a => Sys2Proof.Machine.execClz st d a s
  | .popc st d a => Sys2Proof.Machine.execPopc st d a s
  | .addi st d a imm => Sys2Proof.Machine.execAddi st d a imm s
  | .andi st d a imm => Sys2Proof.Machine.execAndi st d a imm s
  | .ori st d a imm => Sys2Proof.Machine.execOri st d a imm s
  | .xori st d a imm => Sys2Proof.Machine.execXori st d a imm s
  | .shli st d a sh => Sys2Proof.Machine.execShli st d a sh s
  | .shri st d a sh => Sys2Proof.Machine.execShri st d a sh s
  | .srai st d a sh => Sys2Proof.Machine.execSrai st d a sh s
  | .limm st d imm => Sys2Proof.Machine.execLimm st d imm s
  | .limh st d a imm => Sys2Proof.Machine.execLimh st d a imm s
  | .cset st cond d a b => Sys2Proof.Machine.execCset st cond d a b s
  | .br st cond d a imm => Sys2Proof.Machine.execBr st cond d a imm s
  | .jal st d imm => Sys2Proof.Machine.execJal st d imm s
  | .jalr st d a imm => Sys2Proof.Machine.execJalr st d a imm s
  | .ld st w d a imm => Sys2Proof.Machine.execLd st w d a imm s
  | .st st w d a imm => Sys2Proof.Machine.execSt st w d a imm s
  | .amo st op ord scope d a b c disp fmt => Sys2Proof.Machine.execAmo st op ord scope d a b c disp fmt s
  | .fence st ord scope => Sys2Proof.Machine.execFence st ord scope s
  | .waita st ord scope d a b c disp fmt => Sys2Proof.Machine.execWaita st ord scope d a b c disp fmt s
  | .mfc st d cr => Sys2Proof.Machine.execMfc st d cr s
  | .mtc st a cr => Sys2Proof.Machine.execMtc st a cr s
  | .sys st imm => Sys2Proof.Machine.execSys st imm s
  | .eret st => Sys2Proof.Machine.execEret st s
  | .brk st imm => Sys2Proof.Machine.execBrk st imm s
  | .endF st => Sys2Proof.Machine.execEndF st s
  | .nop st => Sys2Proof.Machine.execNop st s
  | .vsetvl st d a b blk fmt => Sys2Proof.Machine.execVsetvl st d a b blk fmt s
  | .vsetvlRd st d b => Sys2Proof.Machine.execVsetvlRd st d b s
  | .vld st o d a m disp fmt => Sys2Proof.Machine.execVld st o d a m disp fmt s
  | .vlds st d a b m disp fmt => Sys2Proof.Machine.execVlds st d a b m disp fmt s
  | .vldx st sc d a b c m x32 bnd fmt => Sys2Proof.Machine.execVldx st sc d a b c m x32 bnd fmt s
  | .vst st o d a m disp fmt => Sys2Proof.Machine.execVst st o d a m disp fmt s
  | .vsts st d a b m disp fmt => Sys2Proof.Machine.execVsts st d a b m disp fmt s
  | .vstx st sc d a b c m x32 bnd fmt => Sys2Proof.Machine.execVstx st sc d a b c m x32 bnd fmt s
  | .vadd st d a b m fmt => Sys2Proof.Machine.execVadd st d a b m fmt s
  | .vsub st d a b m fmt => Sys2Proof.Machine.execVsub st d a b m fmt s
  | .vmul st d a b m fmt => Sys2Proof.Machine.execVmul st d a b m fmt s
  | .vmulh st d a b m fmt => Sys2Proof.Machine.execVmulh st d a b m fmt s
  | .vmin st d a b m fmt => Sys2Proof.Machine.execVmin st d a b m fmt s
  | .vmax st d a b m fmt => Sys2Proof.Machine.execVmax st d a b m fmt s
  | .vand st d a b m fmt => Sys2Proof.Machine.execVand st d a b m fmt s
  | .vor st d a b m fmt => Sys2Proof.Machine.execVor st d a b m fmt s
  | .vxor st d a b m fmt => Sys2Proof.Machine.execVxor st d a b m fmt s
  | .vshl st d a b m fmt => Sys2Proof.Machine.execVshl st d a b m fmt s
  | .vshr st d a b m fmt => Sys2Proof.Machine.execVshr st d a b m fmt s
  | .vsra st d a b m fmt => Sys2Proof.Machine.execVsra st d a b m fmt s
  | .vfadd st d a b m fmt => Sys2Proof.Machine.execVfadd st d a b m fmt s
  | .vfsub st d a b m fmt => Sys2Proof.Machine.execVfsub st d a b m fmt s
  | .vfmul st d a b m fmt => Sys2Proof.Machine.execVfmul st d a b m fmt s
  | .vfma st d a b m fmt => Sys2Proof.Machine.execVfma st d a b m fmt s
  | .vfnma st d a b m fmt => Sys2Proof.Machine.execVfnma st d a b m fmt s
  | .vfdiv st d a b m fmt => Sys2Proof.Machine.execVfdiv st d a b m fmt s
  | .vfsqrt st d a m fmt => Sys2Proof.Machine.execVfsqrt st d a m fmt s
  | .vfmin st d a b m fmt => Sys2Proof.Machine.execVfmin st d a b m fmt s
  | .vfmax st d a b m fmt => Sys2Proof.Machine.execVfmax st d a b m fmt s
  | .vfrcp st d a m fmt => Sys2Proof.Machine.execVfrcp st d a m fmt s
  | .vfexp2 st d a m fmt => Sys2Proof.Machine.execVfexp2 st d a m fmt s
  | .vcvt st d a src blk m fmt => Sys2Proof.Machine.execVcvt st d a src blk m fmt s
  | .vscale st d a b m fmt => Sys2Proof.Machine.execVscale st d a b m fmt s
  | .vcmp st cond d a b m fmt => Sys2Proof.Machine.execVcmp st cond d a b m fmt s
  | .vfcmp st cond d a b m fmt => Sys2Proof.Machine.execVfcmp st cond d a b m fmt s
  | .mand st d a b => Sys2Proof.Machine.execMand st d a b s
  | .mor st d a b => Sys2Proof.Machine.execMor st d a b s
  | .mxor st d a b => Sys2Proof.Machine.execMxor st d a b s
  | .mnot st d a => Sys2Proof.Machine.execMnot st d a s
  | .mpop st d a m => Sys2Proof.Machine.execMpop st d a m s
  | .mfirst st d a m => Sys2Proof.Machine.execMfirst st d a m s
  | .vmtx st d a k => Sys2Proof.Machine.execVmtx st d a k s
  | .vmerge st d a b m fmt => Sys2Proof.Machine.execVmerge st d a b m fmt s
  | .vredsum st d a b m fmt => Sys2Proof.Machine.execVredsum st d a b m fmt s
  | .vfredsum st d a b m fmt => Sys2Proof.Machine.execVfredsum st d a b m fmt s
  | .vredmax st d a b m fmt => Sys2Proof.Machine.execVredmax st d a b m fmt s
  | .vredmin st d a b m fmt => Sys2Proof.Machine.execVredmin st d a b m fmt s
  | .vscan st d a b m exc fmt => Sys2Proof.Machine.execVscan st d a b m exc fmt s
  | .viota st d a m cnt fmt => Sys2Proof.Machine.execViota st d a m cnt fmt s
  | .vslide st d a b m up fmt => Sys2Proof.Machine.execVslide st d a b m up fmt s
  | .vgrp st d a b m n x32 bnd fmt => Sys2Proof.Machine.execVgrp st d a b m n x32 bnd fmt s
  | .vbcast st d a b m el bnd fmt => Sys2Proof.Machine.execVbcast st d a b m el bnd fmt s
  | .vextr st d a b bnd fmt => Sys2Proof.Machine.execVextr st d a b bnd fmt s
  | .vcomp st d a b m fmt => Sys2Proof.Machine.execVcomp st d a b m fmt s
  | .vappend st ord scope d a b m fmt => Sys2Proof.Machine.execVappend st ord scope d a b m fmt s
  | .vprune st d a b m j fmt => Sys2Proof.Machine.execVprune st d a b m j fmt s
  | .vspill st d a b disp fmt => Sys2Proof.Machine.execVspill st d a b disp fmt s
  | .vfill st d a b disp fmt => Sys2Proof.Machine.execVfill st d a b disp fmt s
  | .tset st d a => Sys2Proof.Machine.execTset st d a s
  | .tld st d a b disp => Sys2Proof.Machine.execTld st d a b disp s
  | .tldRegister st d a => Sys2Proof.Machine.execTldRegister st d a s
  | .tst st d a b disp => Sys2Proof.Machine.execTst st d a b disp s
  | .tstRegister st d a => Sys2Proof.Machine.execTstRegister st d a s
  | .tzero st d => Sys2Proof.Machine.execTzero st d s
  | .azero st d => Sys2Proof.Machine.execAzero st d s
  | .ald st d a b c disp fmt => Sys2Proof.Machine.execAld st d a b c disp fmt s
  | .aldRegister st d a row0 => Sys2Proof.Machine.execAldRegister st d a row0 s
  | .ast st d a b c disp fmt => Sys2Proof.Machine.execAst st d a b c disp fmt s
  | .astRegister st d a row0 fmt => Sys2Proof.Machine.execAstRegister st d a row0 fmt s
  | .bfly st j d a b src fmt => Sys2Proof.Machine.execBfly st j d a b src fmt s
  | .bchain st j d a b c src fmt => Sys2Proof.Machine.execBchain st j d a b c src fmt s
  | .bblk st d a b c m fmt => Sys2Proof.Machine.execBblk st d a b c m fmt s
  | .bmma st d a b c m fmt => Sys2Proof.Machine.execBmma st d a b c m fmt s
  | .bmmx st d a b c m vsb => Sys2Proof.Machine.execBmmx st d a b c m vsb s
  | .tmac st d a b c m => Sys2Proof.Machine.execTmac st d a b c m s
  | .pstat st d sel => Sys2Proof.Machine.execPstat st d sel s
  | .qbind st wr d a => Sys2Proof.Machine.execQbind st wr d a s
  | .qrel st d => Sys2Proof.Machine.execQrel st d s
  | .qsync st d => Sys2Proof.Machine.execQsync st d s
  | .cpy st ord scope d a b => Sys2Proof.Machine.execCpy st ord scope d a b s
  | .cpym st ord scope d a b c => Sys2Proof.Machine.execCpym st ord scope d a b c s
  | .cpyf st ord scope d a b c v add => Sys2Proof.Machine.execCpyf st ord scope d a b c v add s
  | .cwait st n => Sys2Proof.Machine.execCwait st n s
  | .bmode st mode d bank => Sys2Proof.Machine.execBmode st mode d bank s
  | .cfill st ord scope d a b fmt => Sys2Proof.Machine.execCfill st ord scope d a b fmt s
  | .vscadd st ord scope d a b c m x32 bnd sc fmt => Sys2Proof.Machine.execVscadd st ord scope d a b c m x32 bnd sc fmt s
  | .vamo st op ord scope d a b c m x32 bnd sc j fmt => Sys2Proof.Machine.execVamo st op ord scope d a b c m x32 bnd sc j fmt s
  | .vstc st ord scope d a b c m x32 bnd sc fmt => Sys2Proof.Machine.execVstc st ord scope d a b c m x32 bnd sc fmt s
  | .bcfg st d a => Sys2Proof.Machine.execBcfg st d a s
  | .phend st ord scope d a disp => Sys2Proof.Machine.execPhend st ord scope d a disp s
  | .bar st ord scope d a disp => Sys2Proof.Machine.execBar st ord scope d a disp s
  | .cpost st ord scope d a b disp => Sys2Proof.Machine.execCpost st ord scope d a b disp s
  | .ctake st ord scope d a b disp => Sys2Proof.Machine.execCtake st ord scope d a b disp s
  | .csteal st ord scope d a b disp => Sys2Proof.Machine.execCsteal st ord scope d a b disp s
  | .cjoin st ord scope d a b disp => Sys2Proof.Machine.execCjoin st ord scope d a b disp s
  | .launch st d a b c => Sys2Proof.Machine.execLaunch st d a b c s
  | .yield st => Sys2Proof.Machine.execYield st s
  | .abind st d a => Sys2Proof.Machine.execAbind st d a s
  | .abindOff st d a => Sys2Proof.Machine.execAbindOff st d a s
  | .fcommit st => Sys2Proof.Machine.execFcommit st s
  | .spawn st d a => Sys2Proof.Machine.execSpawn st d a s
  | .olmark st a => Sys2Proof.Machine.execOlmark st a s
  | .olpause st => Sys2Proof.Machine.execOlpause st s
  | .olresume st => Sys2Proof.Machine.execOlresume st s
  | .olstat st d sel => Sys2Proof.Machine.execOlstat st d sel s
  | .lput st ord scope d a b c sw => Sys2Proof.Machine.execLput st ord scope d a b c sw s
  | .lget st ord scope d a b c sw => Sys2Proof.Machine.execLget st ord scope d a b c sw s
  | .lsend st ord scope d a b c sw => Sys2Proof.Machine.execLsend st ord scope d a b c sw s
  | .coll st kind ord scope d a b c sw fmt => Sys2Proof.Machine.execColl st kind ord scope d a b c sw fmt s
  | .lwait st n => Sys2Proof.Machine.execLwait st n s
  | .lfence st ord scope => Sys2Proof.Machine.execLfence st ord scope s
  | .tmark st a tag => Sys2Proof.Machine.execTmark st a tag s
  | .tsamp st d => Sys2Proof.Machine.execTsamp st d s
  | .tlbinv st kind scope d a => Sys2Proof.Machine.execTlbinv st kind scope d a s
  | .halt st a => Sys2Proof.Machine.execHalt st a s
  | .mbind st a slot => Sys2Proof.Machine.execMbind st a slot s
  | .munbind st slot => Sys2Proof.Machine.execMunbind st slot s
  | .mprobe st d slot addr => Sys2Proof.Machine.execMprobe st d slot addr s
  | .fxres st d a b c m e l => Sys2Proof.Machine.execFxres st d a b c m e l s
  | .fxstat st d k => Sys2Proof.Machine.execFxstat st d k s
  | .fx st fn slot d a b c m e l => Sys2Proof.Machine.execFx st fn slot d a b c m e l s
  | .waitaWake core => Sys2Proof.Machine.execWaitaWake core s
  | .qbankGrantWrite cluster bank gv gasid => Sys2Proof.Machine.execQbankGrantWrite cluster bank gv gasid s
  | .streamFetch core q => Sys2Proof.Machine.execStreamFetch core q s
  | .streamDrain core q => Sys2Proof.Machine.execStreamDrain core q s
  | .copyTransfer core slot => Sys2Proof.Machine.execCopyTransfer core slot s
  | .followOnCommand core slot => Sys2Proof.Machine.execFollowOnCommand core slot s
  | .modeSwitch cluster bank mode => Sys2Proof.Machine.execModeSwitch cluster bank mode s
  | .tokenPerformed idx => Sys2Proof.Machine.execTokenPerformed idx s
  | .barrierWake core => Sys2Proof.Machine.execBarrierWake core s
  | .actorFiring cluster idx => Sys2Proof.Machine.execActorFiring cluster idx s
  | .launchAcceptance post => Sys2Proof.Machine.execLaunchAcceptance post s
  | .pick core => Sys2Proof.Machine.execPick core s
  | .deficitCharge core => Sys2Proof.Machine.execDeficitCharge core s
  | .quantumExpiry core => Sys2Proof.Machine.execQuantumExpiry core s
  | .preemption core budget accepted => Sys2Proof.Machine.execPreemption core budget accepted s
  | .accessPerformedAfterStop idx => Sys2Proof.Machine.execAccessPerformedAfterStop idx s
  | .breakpointHalt core => Sys2Proof.Machine.execBreakpointHalt core s
  | .fxStall core => Sys2Proof.Machine.execFxStall core s
  | .logEntryReserve core => Sys2Proof.Machine.execLogEntryReserve core s
  | .replayEventMatch core => Sys2Proof.Machine.execReplayEventMatch core s
  | .replayWindowExpiry core => Sys2Proof.Machine.execReplayWindowExpiry core s
  | .linkTransfer core slot answer => Sys2Proof.Machine.execLinkTransfer core slot answer s
  | .remoteAccess src access => Sys2Proof.Machine.execRemoteAccess src access s
  | .messageReceive src asid head payload => Sys2Proof.Machine.execMessageReceive src asid head payload s
  | .collectiveInstance core slot peers => Sys2Proof.Machine.execCollectiveInstance core slot peers s
  | .collectiveTimeout core slot => Sys2Proof.Machine.execCollectiveTimeout core slot s
  | .deviceLaunchShare src record => Sys2Proof.Machine.execDeviceLaunchShare src record s
  | .flitCrcFailure port => Sys2Proof.Machine.execFlitCrcFailure port s
  | .sample core => Sys2Proof.Machine.execSample core s
  | .lostRecord core => Sys2Proof.Machine.execLostRecord core s
  | .traceControlWrite core reg value => Sys2Proof.Machine.execTraceControlWrite core reg value s
  | .submitRecordWrite page offset bytes => Sys2Proof.Machine.execSubmitRecordWrite page offset bytes s
  | .apertureAccess access => Sys2Proof.Machine.execApertureAccess access s
  | .fixed asid slot idx => Sys2Proof.Machine.execFixed asid slot idx s
  | .kill asid slot idx => Sys2Proof.Machine.execKill asid slot idx s
  | .ctxstop asid dbg => Sys2Proof.Machine.execCtxstop asid dbg s
  | .ctxgo asid => Sys2Proof.Machine.execCtxgo asid s
  | .dbggo asid slot => Sys2Proof.Machine.execDbggo asid slot s
  | .subreg post pa => Sys2Proof.Machine.execSubreg post pa s
  | .subregUnregister post => Sys2Proof.Machine.execSubregUnregister post s
  | .fwwrite offset bytes => Sys2Proof.Machine.execFwwrite offset bytes s
  | .activate => Sys2Proof.Machine.execActivate s
  | .keyload slot asid session wrapped => Sys2Proof.Machine.execKeyload slot asid session wrapped s
  | .mstatWrite value => Sys2Proof.Machine.execMstatWrite value s
  | .mintWrite value => Sys2Proof.Machine.execMintWrite value s
  | .schedqWrite value => Sys2Proof.Machine.execSchedqWrite value s
  | .pstateWrite value => Sys2Proof.Machine.execPstateWrite value s
  | .managementRegisterWrite offset value => Sys2Proof.Machine.execManagementRegisterWrite offset value s
  | .telemetrySample milliwatts milliCelsius => Sys2Proof.Machine.execTelemetrySample milliwatts milliCelsius s
  | .moduleReset boot => Sys2Proof.Machine.execModuleReset boot s
  | .getCertificate slot offset length => Sys2Proof.Machine.execGetCertificate slot offset length s
  | .challenge nonce => Sys2Proof.Machine.execChallenge nonce s
  | .getMeasurements nonce => Sys2Proof.Machine.execGetMeasurements nonce s
  | .keyExchange exchange => Sys2Proof.Machine.execKeyExchange exchange s
  | .pldmBase command => Sys2Proof.Machine.execPldmBase command s
  | .pldmMonitoring request => Sys2Proof.Machine.execPldmMonitoring request s
  | .pldmFru => Sys2Proof.Machine.execPldmFru s
  | .pldmFirmwareUpdate image => Sys2Proof.Machine.execPldmFirmwareUpdate image s
  | .illegalInstruction core fmt => Sys2Proof.Machine.execIllegalInstruction core fmt s
  | .instructionFetchFault core => Sys2Proof.Machine.execInstructionFetchFault core s
  | .lineLeavesL1 core line => Sys2Proof.Machine.execLineLeavesL1 core line s
  | .firmwareResolvesNotmapped asid slot frames entries => Sys2Proof.Machine.execFirmwareResolvesNotmapped asid slot frames entries s
  | .contextDescriptorValid asid descriptor frames entries => Sys2Proof.Machine.execContextDescriptorValid asid descriptor frames entries s
  | .badCommandCode code => Sys2Proof.Machine.execBadCommandCode code s

end Sys2Proof.Machine
end

