-- ==== Sys2Proof/Machine/Cycle.lean ====
section
/-!
DEFINITION. What the device does next (log entry 4): upsets, the events that are due, the instruction that a core fetches or
takes from its queue, and the events that happen while a core waits or is idle.
-/

namespace Sys2Proof.Machine

/-! Upsets (R91, Table 3.7). -/

/-- Is an upset corrected or detected (R92)? A place marked "none" in Table 3.7 detects nothing. -/
def Upset.counted : Upset → Bool
  | .laneVector .. | .laneStream .. | .laneMask .. | .laneScalar .. | .vatData .. | .beaterSum .. => false
  | _ => true

/-- A value in a vat cell replaced: of a place counted through its ports `P`, `Q` and `K`, the tokens it holds, its hops and its table;
past them, the number it holds. -/
def VCell.strike (c : VCell) (i v : Nat) : VCell :=
  let hit := fun (l : List VTok) k => l.modify k fun t => { t with val := v }
  let at1 := i - c.p.length
  let at2 := at1 - c.q.length
  let at3 := at2 - c.k.length
  let at4 := at3 - c.buf.length
  if i < c.p.length then { c with p := hit c.p i }
  else if at1 < c.q.length then { c with q := hit c.q at1 }
  else if at2 < c.k.length then { c with k := hit c.k at2 }
  else if at3 < c.buf.length then { c with buf := hit c.buf at3 }
  else if h : at4 < 4 then
    { c with out := c.out.set at4 (c.out[at4].map fun x => { x with tok := { x.tok with val := v } }) }
  else if at4 - 4 < c.tab.length then { c with tab := c.tab.set (at4 - 4) v }
  else { c with acc := v }

/-- A parity error in a combining buffer (R315): the target of the pending update is poisoned, its tokens are acknowledged. -/
def strikeToken (i : Nat) : M Unit := do
  match (← getS).tokens[i]? with
  | none => return ()
  | some t =>
    modS fun s => ({ s with tokens := s.tokens.eraseIdx i } : State).markPoison t.loc
    dropOwnLine t
    acknowledge t.loc t.asid t.slot t.poison
    t.merged.forM fun x => acknowledge t.loc t.asid x.slot x.poison

/-- An upset and what the place it strikes makes of it (Table 3.7). -/
def applyUpset (s : State) (u : Upset) : State :=
  let s := if u.counted then { s with mgmt := { s.mgmt with errors := s.mgmt.errors + 1 } } else s
  let onF := fun (k : Nat) (g : Firing → Firing) => s.modifyCore k fun c => { c with f := g c.f }
  match u with
  | .laneVector k v g x => onF k fun f =>
      { f with v := f.v.set v { f.v[v] with bits := BitVec.ofNat 32768 (patchBits f.v[v].bits.toNat (512 * g.val) 512 x.toNat) } }
  | .laneStream k q x => onF k fun f =>
      { f with q := f.q.set q { f.q[q] with held := f.q[q].held.modify (f.q[q].held.length - 1) fun b => { b with bits := x } } }
  | .laneMask k m x => onF k fun f => if m = 0 then f else { f with m := f.m.set m x }
  | .laneScalar k r x => onF k fun f => if r = 0 then f else { f with x := f.x.set r x }
  | .vatData k cell place v => s.modifyCore k fun c =>
      { c with vat := c.vat.map fun r => { r with cells := r.cells.modify cell (·.strike place v) } }
  | .beaterSum loc n v => { s with mem := Memory.write s.mem loc n v }
  | .l1 k line => s.modifyCore k fun c => l1Drop c line
  | .clusterTlb cl i => { s with ctlbs := SMap.put [] cl ((SMap.get [] cl s.ctlbs).eraseIdx i) s.ctlbs }
  | .combining i => (strikeToken i s).2
  | .beat k => s.modifyCore k fun c => { c with badBeat := true }
  | .fetchedAhead => { s with mgmt := { s.mgmt with notConsumed := s.mgmt.notConsumed + 1 } }
  | .scalar k r => onF k fun f => { f with badX := f.badX ||| (1#32 <<< r.val) }
  | .mask k m => onF k fun f => { f with badM := f.badM ||| (1#8 <<< m.val) }
  | .lsq k => s.modifyCore k fun c => { c with badLsq := true }
  | .vatCfg k i => s.modifyCore k fun c => { c with moulds := c.moulds.modify i fun r => { r with bad := true } }
  | .vector k v g => onF k fun f => { f with v := f.v.set v { f.v[v] with poison := f.v[v].poison ||| (1#64 <<< g.val) } }
  | .tile k t w => onF k fun f => { f with t := f.t.set t { f.t[t] with bad := f.t[t].bad ||| (1#1024 <<< w.val) } }
  | .acc k a e => onF k fun f => { f with a := f.a.set a { f.a[a] with bad := f.a[a].bad ||| (1#4096 <<< e.val) } }
  | .word loc => s.markPoison loc
  | .fifoLine k line => let b := s.bank k; s.setBank k { b with fifoBad := b.fifoBad ||| (1#2048 <<< line.val) }
  | .tlb k i => s.modifyCore k fun c => { c with tlb := c.tlb.eraseIdx i }
  | .corrected => s
def applyUpsets (s : State) : State := s.upsets.foldl applyUpset { s with upsets := [] }

/-! What a waiting or idle core lets happen. -/

/-- The next event of a committed command that needs nothing from outside the device. -/
def cmdEvent (s : State) (core : Nat) (k : Fin 16) (c : Cmd) : Option Instr :=
  if c.paused.isSome then none
  else if c.isCopy then
    if c.follow.isSome && decide (c.n ≤ c.done) then
      match ownerCore s c with
      | some o => if followReady s (s.coreAt o) c then some (.followOnCommand core k) else none
      | none => none
    else some (.copyTransfer core k)
  else if c.ended then some (.linkTransfer core k (.done [] 0))
  else if !fenceOpen s c then none
  else
    let near := fun dev => dev == s.mgmt.device || decide (1024 ≤ dev) || s.portsUp.isEmpty
    match c.kind with
    | .lput dev | .lget dev => if near dev || decide (c.n ≤ c.done) then some (.linkTransfer core k (.done [] 0)) else none
    | .lsend h _ =>
      if (near (bits h.toNat 16 10) || h.toNat / 2 ^ 26 != 0) && !sendHeld s c (bits h.toNat 16 10) then
        some (.linkTransfer core k (.done [] 0))
      else none
    | .coll _ _ _ _ _ members => if members.all (· == s.mgmt.device) || s.portsUp.isEmpty then some (.collectiveInstance core k []) else none
    | _ => none

def cmdEvents (s : State) : Option Instr :=
  s.cores.findSome? fun c => (List.finRange 16).findSome? fun k => (c.cmds[k]).bind (cmdEvent s c.id k)

/-- A write stream of the core in focus that still holds a block. -/
def drainEvent (s : State) : Option Instr :=
  (List.finRange 8).findSome? fun k =>
    if (s.core.f.q[k]).draining then some (.streamDrain s.core.id k) else none

/-- An event that a waiting instruction of the core in focus may be waiting for. -/
def waitEvent (s : State) : Option Instr :=
  match s.core.wait with
  | none | some .vat => none
  | some (.stream q) =>
    if (s.core.f.q[q]).dir then drainEvent s
    else if (s.core.f.q[q]).fifo then none else some (.streamFetch s.core.id q)
  | some _ =>
    match s.switchEvents.head?.or (cmdEvents s) with
    | some i => some i
    | none => if s.tokens.isEmpty then drainEvent s else some (.tokenPerformed 0)

/-- Work of the scheduler that is due (R333, R351): launch records to accept, actor firings to make. -/
def schedulerEvent (s : State) : Option Instr :=
  match s.switchEvents.head?.or <| s.submits.findSome? fun (p, o) => o.bind fun x =>
      if ((submitHead s x.pa).isSome || s.expansions.any (·.spost == p)) && peek (acceptanceMoves p) false s then
        some (Instr.launchAcceptance p) else none with
  | some i => some i
  | none => s.actors.findSome? fun (k, o) => o.bind fun a =>
      if peek (actorReady k a) false s then some (.actorFiring (k / 64) (k % 64)) else none

/-- What an idle core does (R341): scheduler work that makes a difference, or a pick that finds a record. -/
def idleEvent (s : State) : Option Instr :=
  if !schedulerRuns s then none
  else if (peek (do
      s.sessions.forM fun x => olSync x.asid
      return (← findRecord s.core.id ((s.core.picks + 1) % 4 == 0)).isSome) false s) then some (.pick s.core.id)
  else schedulerEvent s

/-- A cycle in which an idle core does nothing; its pick waits for a record (R341). -/
def pass (s : State) : State :=
  let s := (spend 1 s).2
  { s with core := { s.core with picking := s.core.picking || schedulerRuns s } }

/-! The core in focus. -/

/-- An event of the core in focus that comes before its next instruction: a sample (R411), the charge of a quantum (R341), what it
waits for, the breakpoint (R414), the quantum's end (R343). -/
def frontEvent (s : State) : Option Instr :=
  if peek sampleDue false s then some (.sample s.core.id)
  else if chargeDue s then some (.deficitCharge s.core.id)
  else match waitEvent s with
  | some i => some i
  | none =>
    if s.core.ahead.isSome || !s.core.f.queue.isEmpty then none
    else if peek bkptHit false s then some (.breakpointHalt s.core.id)
    else if peek quantumEnds false s then some (.quantumExpiry s.core.id)
    else none

/-- The instruction at the counter: its word decoded, or the event that its fetch or its decoding comes to. -/
def fetchNext (s : State) : Instr × State :=
  match fetchWord s with
  | (.ok w, s') =>
    match decode w with
    | .ok i => (i, s')
    | .error e => (.illegalInstruction s.core.id (e == .illfmt), s')
  | (.error _, _) => (.instructionFetchFault s.core.id, s)

/-- The commands with a follow-on command that the firing in focus holds since a stop: core, slot, command. -/
def heldCmds (s : State) : List (Nat × Fin 16 × Cmd) :=
  s.cores.flatMap fun c => (List.finRange 16).filterMap fun k => (c.cmds[k]).bind fun x =>
    if x.ownedBy (slotKey s.core.info.asid s.core.info.slot) && x.follow.isSome && x.stopped && !x.trapHeld then some (c.id, k, x)
    else none

/-- Held follow-on commands run before the reissued press entries that have not started, which wait for their bytes too (R303): what
comes before such an entry, if anything can happen now. -/
def heldFollow (s : State) (e : DumpEntry) : Option (Option Instr) :=
  let l := if e.engine == 3 && !e.started then heldCmds s else []
  if l.isEmpty then none
  else some (l.findSome? fun (core, k, x) =>
    if followReady s s.core x then some (.followOnCommand core k)
    else if x.paused.isNone && decide (x.done < x.n) then some (.copyTransfer core k) else none)

/-- The entry at the head of the queue is taken into execution (R109). -/
def takeHead (s : State) : State :=
  match s.core.f.queue with
  | [] => s
  | e :: r => { s with core := { s.core with cur := some { e with raiser := false }, curAt := 0, f := { s.core.f with queue := r } } }

/-- The reissue of a queued instruction, or what comes before it. A word that does not decode can stand in no dump that the
device has made; the entry raises its cause. -/
def runQueue (e : DumpEntry) (s : State) : Host.Outcome State Fault Refusal :=
  match heldFollow s e with
  | some (some i) => exec i s
  | some none => hold s s .background
  | none =>
    match decode e.word with
    | .ok i => exec i (takeHead s)
    | .error _ => exec (.illegalInstruction s.core.id false) s

/-- An entry behind the head of the queue that now goes on beside the front, as the schedule has it (R20): taken into execution, to come
back to its place. -/
def nextAdvance (s : State) : Option Instr × State :=
  match s.advances with
  | [] => (none, s)
  | (k, u) :: r =>
    let s := { s with advances := r }
    match s.core.f.queue[k]?.map fun e => (e, e.instr?) with
    | some (e, some i) =>
      if k = 0 ∨ u = 0 then (none, s)
      else (some i, { s with
        starts := u :: s.starts
        core := { s.core with cur := some e, curAt := k, ahead := s.core.ahead.map fun (x, n) => (x, n + 1),
                              f := { s.core.f with queue := s.core.f.queue.eraseIdx k } } })
    | _ => (none, s)

/-- The front beside unfinished engine instructions (R18, R21): those that will end, or one whose stop is on its way. A word that
cannot be fetched or decoded, and the breakpoint, stop the firing as an instruction's trap does. -/
def runAhead (e : EngineStop) (n : Nat) (s : State) : Host.Outcome State Fault Refusal :=
  match nextAdvance s with
  | (some i, s) => exec i s
  | (none, s) =>
  let (i, s') := fetchNext s
  let stops := match i with | .illegalInstruction .. | .instructionFetchFault .. => true | _ => false
  if n ≠ 0 && e == .going && peek bkptNext false s then exec (.breakpointHalt s.core.id) s
  else if n ≠ 0 && !peek bkptNext false s && aheadAllowed s.core.f && (e == .going || !stops) then exec i s'
  else delivered s (deliverStop e s)

/-- One step of the core in focus. While an instruction is held, the core's stores reach their homes (Table 1.8). Without the core clock
(P2, P3) an idle core does nothing, and `CYCLE` stands still (R425). -/
def coreStep (s : State) : Host.Outcome State Fault Refusal :=
  if 2 ≤ s.mgmt.pstate && !s.core.running then .next s
  else if !s.core.running then
    match idleEvent s with
    | some i => exec i s
    | none => .next (pass s)
  else
    if s.core.wait.isSome && s.stores.any (fun x => x.core == s.core.id && x.ready s) then settle s (settleStores s.core.id s) else
    match frontEvent s with
    | some i => exec i s
    | none =>
      match s.core.ahead, s.core.f.queue with
      | some (e, n), _ => runAhead e n s
      | none, e :: _ => runQueue e s
      | none, [] => exec (fetchNext s).1 (fetchNext s).2

end Sys2Proof.Machine
end

