-- ==== Sys2Proof/Machine/Step.lean ====
section
/-!
DEFINITION. One step of the device: what the schedule of outside events says comes first (log entry 4), else the core in
focus.
-/

namespace Sys2Proof.Machine

/-- What happens before a step's own work: upsets strike, beaters merge waiting tokens, every sleeping `waita` sees what its word
holds, and what the device's own agents have written of a poisoned line in one step is forgotten (R93). -/
def prepare (s : State) : State :=
  let s := (applyUpsets s).mergeTokens.noteWatches
  { s with covers := s.covers.filter fun x => x.2.1 != 0 }

/-- Trace units write the records that await their writes (R410). -/
def traceWrites : M Unit := do
  (← getS).cores.forM fun c => if c.trace.buf.isEmpty && c.trace.why.isEmpty then return () else withCore c.id (trDrain 65)

/-- What waits is tried again after the core in focus has gone on; what that step itself would retry, it chooses anew (log entry 4). -/
def retry (waiting : List Instr) : Host.Outcome State Fault Refusal → Host.Outcome State Fault Refusal
  | .next t => .next { t with agenda := t.agenda ++ waiting, blocked := [] }
  | o => o

/-- One step. An event of the agenda happens; another core comes into focus; or the core in focus goes on. -/
def step (s : State) : Host.Outcome State Fault Refusal :=
  match traceWrites (prepare s) with
  | (.error (.fault f), _) => .fault f
  | (_, s) =>
  match s.agenda, s.turns with
  | i :: r, _ => exec i { s with agenda := r }
  | [], k :: r => .next (if k < coreCount then { s with turns := r }.focus k else { s with turns := r })
  | [], [] => retry s.blocked (coreStep s)

/-- Where `withFetchWord` places its word, in a page of its own, at the same virtual and physical address. -/
def fetchPage : Nat := 0x10
/-- The translation of that page. -/
def fetchEntry (asid : Nat) : TlbEntry :=
  { asid := asid, sizeLog2 := 12, vpn := fetchPage, ppn := fetchPage, rd := true, wr := true, ex := true, us := true,
    homeOnly := false, dt := true, pteAddr := 0, pte := 0 }

/-- The state with a firing on the core in focus whose next instruction is the word `w` of `nbits` bits (log entry 4). -/
def State.withFetchWord (s : State) (nbits w : Nat) : State :=
  let pa := fetchPage * 4096
  let c := s.core
  { s with
    mem := Memory.write s.mem pa 8 (w % 2 ^ min nbits 64)
    poison := s.poison.filter (· != pa / 8)
    upsets := [], merges := [], agenda := [], blocked := [], turns := []
    core := { c with
      running := true, wait := none, watch := none, cur := none, ahead := none, vat := none, budget := none, since := s.cycle, trace := {}
      tlb := fetchEntry c.info.asid :: c.tlb
      f := { c.f with fpc := b64 pa, queue := [], pend := [] } } }

end Sys2Proof.Machine
end

