-- ==== Sys2Proof/Safety.lean ====
section
/-!
DEFINITION. The terms of the statements: a safe run, what of a state the statements compare, when an instruction issues,
which accesses meet no fault, and the run of a lane instruction.
-/

namespace Sys2Proof.Machine

/-- A safe run: no number of steps ends in a fault or a refusal. -/
def Safe (s : State) : Prop := ∀ k, ∃ t, Host.Core.run Sys2Proof.core k s = .next t

/-- Memory in its canonical form. -/
def State.Canonical (s : State) : Prop := Memory.wf s.mem = true

/-! What an instruction's issue itself changes, beside its effect: the counter, time, and the marks of the issue. -/

/-- A firing without its counter and its latencies (R22). -/
def Firing.plain (f : Firing) : Firing := { f with fpc := 0, pend := [] }
/-- A core without the marks of issue: the wait, the place in the queue of what it executes, the instructions issued, the trace numbers, why the front did not issue. -/
def Core.plain (c : Core) : Core :=
  { c with f := c.f.plain, wait := none, watch := none, curAt := 0, issued := 0, bkptPassed := none, expired := false,
           trace := { c.trace with seq := 0, why := [] } }
/-- All of a state that no issue changes: every register, all of memory and every unit. -/
def State.content (s : State) : State := { s with cycle := 0, freeCtr := 0, core := s.core.plain }

/-- A state with its firing changed. -/
def State.onF (s : State) (g : Firing → Firing) : State := { s with core := { s.core with f := g s.core.f } }
/-- A state with its core changed. -/
def State.onCore (s : State) (g : Core → Core) : State := { s with core := g s.core }

/-- What an event of the chain log leaves in the firing: its ordinal advances, unless it is paused (R360). -/
def State.event (s : State) : State := if s.core.f.paused then s else s.onF fun f => { f with ordinal := f.ordinal + 1 }

/-- A state with a scalar register written; `x0` discards what is written to it (R129). -/
def State.setX (s : State) (d : Fin 32) (v : Word) : State := s.onF (·.setX d v)
/-- A scalar register of the firing in focus as an instruction reads it; `x0` reads as zero (R129). -/
def State.rx (s : State) (r : Fin 32) : Word := s.core.f.rx r

/-- A scalar register that can be read: no parity error and no poison (R92, R94). -/
def ReadOk (f : Firing) (r : Fin 32) : Prop := r = 0 ∨ (f.badX.getLsbD r.val = false ∧ f.xp.getLsbD r.val = false)

/-- When an instruction that reads the scalar registers `regs` issues: no stop is under way, no pre-emption asked for, no engine
instruction unfinished, no store on its way to its home, the context's descriptor lies in memory that exists, the firing is not replayed, and the registers can be read and are not
inside a latency (R22). -/
structure Issues (s : State) (regs : List (Fin 32)) : Prop where
  ahead : s.core.ahead = none
  alone : s.overlaps = []
  budget : s.core.budget = none
  cur : s.core.cur = none
  stored : s.stores = []
  here : ∀ off, off < 256 → populated (ctxAddr s s.core.info.asid off) = true
  log : bits (s.ctxRaw s.core.info.asid 0 4) 2 2 ≠ 2
  sound : ∀ r ∈ regs, ReadOk s.core.f r
  due : ∀ p ∈ s.core.f.pend, p.reg ∈ regs → p.lat ≤ p.dist

/-- Recording is off, and no write of `TRCTL` awaits its cycle (R405). -/
def Quiet (t : Trace) : Prop := trTen t = false ∧ t.pending = none

/-- The same for an instruction of an engine, with recording off (`TRCTL.TEN` = 0). -/
structure Dispatches (s : State) (regs : List (Fin 32)) : Prop extends Issues s regs where
  quiet : Quiet s.core.trace
  idle : s.core.vat = none

/-- The chain log of the context is off (R356). -/
def Unlogged (s : State) : Prop := bits (s.ctxRaw s.core.info.asid 0 4) 2 2 = 0

/-- An instruction completes: its next state holds what `s'` holds, and the counter is `pc`. -/
def Ends (i : Instr) (s s' : State) (pc : Word) : Prop :=
  ∃ t, exec i s = .next t ∧ t.core.f.fpc = pc ∧ t.content = s'.content

/-- The address of the next instruction. -/
def State.nextPc (s : State) : Word := s.core.f.fpc + 8

/-! Accesses. -/

/-- Where an access of `n` bytes at `va` takes place, if no check of R141 applies: the address lies in a granted scratch bank
of the cluster, or in a page that the core's TLB holds, with the permission the access needs. -/
def State.hit (s : State) (need : Need) (va : Word) (n : Nat) : Option Place :=
  if 2 ^ 48 ≤ va.toNat ∨ va.toNat % n ≠ 0 then none
  else if inWindow va then
    let off := va.toNat - 0xFFFFFF800000
    let k := 32 * clusterOf s.core.id + off / bankSize
    let b := s.bank k
    if need.ex = false ∧ b.busy = false ∧ b.mode = .scratch ∧ b.gv = true ∧ b.gasid = s.core.info.asid then
      some ⟨quireBase + k * bankSize + off % bankSize, false⟩
    else none
  else match s.core.tlb.find? (·.covers s.core.info.asid va.toNat) with
    | some e =>
      if e.permits need s.core.f.level = true ∧ (e.dt = true ∨ need.wr = false) ∧ 12 ≤ e.sizeLog2 ∧
          s.reachable (e.pa va.toNat) = true ∧ s.homeBusy (e.pa va.toNat) = false then some ⟨e.pa va.toNat, !e.homeOnly⟩
      else none
    | none => none
/-- `p` is where an access takes place. -/
def Hits (s : State) (need : Need) (va : Word) (n : Nat) (p : Place) : Prop := s.hit need va n = some p
/-- The location of an access. -/
def State.locOf (s : State) (need : Need) (va : Word) (n : Nat) : Nat := ((s.hit need va n).map (·.loc)).getD 0

/-- The load/store queue serves an access at once: its data has no parity error, no beat of its crossbar has failed (Table 3.7), no
fence is open (R398), the core's tokens have been performed (R318) and those of others made visible to nobody (R16), no access of it is in flight since a stop (R73), its home performs
each store before another instruction issues (R28), and no line that is poisoned has been written in part (R93). -/
structure MemReady (s : State) : Prop where
  parity : s.core.badLsq = false
  beat : s.core.badBeat = false
  open' : fenced s = false
  prompt : s.storeLags = []
  fresh : s.covers = [] ∧ s.writer = 0
  settled : ∀ t ∈ s.tokens, t.ofCore s.core.id = false ∧ t.shown = none
  older : ∀ l ∈ s.late, l.core ≠ s.core.id

/-- Every line of the core's L1 is what memory holds. -/
def Coherent (s : State) : Prop := ∀ x ∈ s.core.l1, x.2 = lineOf s.mem x.1

/-- Memory is the same but for the `n` bytes at each location of a list. -/
def SameMemBut (s t : State) (at' : List (Nat × Nat)) : Prop :=
  ∀ a, (∀ x ∈ at', ¬(x.1 ≤ a ∧ a < x.1 + x.2)) → Memory.byte t.mem a = Memory.byte s.mem a

/-! Lane instructions. -/

/-- The run of a lane instruction that starts (R157, R158): widest width `w` (0: no vector operand), mask `m`. -/
def freshRun (f : Firing) (w : Nat) (m : Fin 8) : LaneRun :=
  let count := f.ln[0].count
  let evl := if w = 0 then min count 16384 else min count (vlmax w 0)
  { w := if w = 0 then 1 else w, count := count, evl := evl, padFrom := evl - min f.ln[0].pad evl, tail := evl,
    vstart := f.vstart, mask := f.rm m }

/-- A mask register that can be read. -/
def MaskOk (f : Firing) (m : Fin 8) : Prop := m = 0 ∨ f.badM.getLsbD m.val = false

/-- The vector registers an instruction names have room beside the resident ones (R176). -/
def Room (f : Firing) (regs : List (Fin 64)) : Prop :=
  f.resident.length + (regs.filter fun n => !f.resident.contains n).length ≤ 32

/-- The value of operand `B` at element `e` (R181). -/
def bValue (f : Firing) (w e : Nat) : LaneB → Nat
  | .vec v => f.v[v].elem w e
  | .scalar r => (f.rx r).toNat % 2 ^ w
  | .imm i => immValue w i % 2 ^ w

/-- The scalar registers of operand `B`. -/
def bRegs : LaneB → List (Fin 32) | .scalar r => [r] | _ => []

/-- All of a state but memory, and what accesses to it leave behind: the L1, the beaters' sequence numbers and sticky flags,
what R97 collects, the bytes written of poisoned lines (R93), what sleepers on its words have seen (R144), the schedule of the stores, and what issue
changes. -/
def State.rest (s : State) : State :=
  { (s.content.onCore fun c => { c with l1 := [] }).onF fun f => { f with beatFlags := 0, poisonOut := false } with
    mem := [], poison := [], covers := [], storeLags := [], bseq := [], sticky := [], others := s.others.map fun (k, c) => (k, { c with watch := none }) }

/-- What `FXSTATE` register `k` holds of a value written to it: its reserved bits are 0, and a reserved state or count becomes a legal
one (Table 9.9). -/
def fxStored (k : Fin 8) (w : Word) : Word :=
  if k = 7 then 0
  else if k = 0 then
    let n : BitVec 3 := w.truncate 3
    ((w.extractLsb' 3 13 ++ if 5 ≤ n.toNat then 0 else n)).zeroExtend 64
  else if k = 6 then
    let n : BitVec 2 := w.extractLsb' 32 2
    ((if n = 3 then 2 else n) ++ w.truncate 32).zeroExtend 64
  else w

/-! Stops and traps. -/

/-- The field of the descriptor of the running context (Table 4.6). -/
def State.desc (s : State) (off n : Nat) : Nat := s.ctxRaw s.core.info.asid off n
/-- The save-area slot of the firing in focus (R117). -/
def State.slotAt (s : State) : Nat := s.desc 0x10 8 + 2 ^ 20 * s.core.info.slot

/-- Ranges of memory that exist and hold no poison. -/
def Present (s : State) (l : List (Nat × Nat)) : Prop :=
  ∀ x ∈ l, (∀ off, off < x.2 → populated (x.1 + off) = true) ∧ s.isPoisoned x.1 x.2 = false

/-- The slot of the firing exists, apart from the context's descriptor; the context is not confidential; recording is off. -/
structure SlotHere (s : State) : Prop where
  here : Present s [(s.slotAt, 2 ^ 20)]
  apart : s.slotAt + 2 ^ 20 ≤ ctxAddr s s.core.info.asid 0 ∨ ctxAddr s s.core.info.asid 256 ≤ s.slotAt
  open' : bit (s.desc 0 4) 1 = false
  quiet : Quiet s.core.trace

/-- The trap registers after a trap of the front (R102, Tables 4.2 to 4.4). -/
def frontTrap (s : State) (cause : Nat) (val ret : Word) : TrapRegs :=
  { cause := cause, level := s.core.f.level, engine := 0, act := true, dumpn := 0, didx := 0, dvalid := false, skip := false,
    val := val, pc := ret }

/-- A state with the commands of the firing in focus changed, on every core. -/
def State.onOwnCmds (s : State) (g : Cmd → Cmd) : State :=
  let key := slotKey s.core.info.asid s.core.info.slot
  s.modifyCores fun c => { c with cmds := c.cmds.map fun o => o.map fun x => if x.ownedBy key then g x else x }

/-- What a stop for a handler makes of the firing's engines: its copies hold their follow-on commands back until the handler returns
(R303), and blocks fetched ahead of a stream are discarded (R298). -/
def State.halted (s : State) : State :=
  (s.onOwnCmds fun x => { x with stopped := true, trapHeld := true }).onF fun f =>
    { f with q := f.q.map fun q => { q with fetched := [] } }

/-- A handler is entered (R103) from an instruction of the front, with nothing in the vector instruction queue: the trap
registers are written, the level is `level`, the counter is at the vector, `PSTART` and the `FXSTATE` registers are kept in
the slot and `PSTART` cleared, the device keeps what goes with `FXSTATE` (log entry 64), the engines stop, and nothing else changes. -/
def Enters (i : Instr) (s : State) (cause : Nat) (val ret : Word) (level vec : Nat) : Prop :=
  ∃ t, exec i s = .next t ∧ t.core.f.fpc = BitVec.ofNat 64 (vec % 2 ^ 48 / 8 * 8) ∧
    t.content = ({ (s.halted.onF fun f =>
        { f with trap := frontTrap s cause val ret, level := level, panel := 0, stage := 0, trapSide := [], trapEnds := f.fxEnds }) with
      mem := t.mem, poison := t.poison }).content ∧
    SameMemBut s t [(s.slotAt + 0x380, 128)] ∧
    Memory.read t.mem (s.slotAt + 0x380) 8 = s.core.f.pstartWord ∧
    ∀ k : Fin 8, Memory.read t.mem (s.slotAt + 0x388 + 8 * k.val) 8 = (s.core.f.fx[k]).toNat

/-- Where a stop is delivered: nothing runs ahead, no request is open, no stream holds a block to drain, no event of the core waits for
room in the chain log. -/
structure Stops (s : State) (regs : List (Fin 32)) : Prop extends Issues s regs where
  slot : SlotHere s
  empty : s.core.f.queue = []
  vat : s.core.vat = none
  drained : ∀ q : Fin 8, (s.core.f.q[q]).held = []
  stall : s.core.id ∉ (s.session s.core.info.asid).stalls

/-- The L1 after an access with an order: an acquire of a scope wider than the core empties it (R75). -/
def l1After (ord : Order) (sc : Scope) (l : List (Nat × BitVec 1024)) : List (Nat × BitVec 1024) :=
  if (ord = .acq ∨ ord = .ar) ∧ sc ≠ .co then [] else l

/-- A firing stopped with a stop code and saved in its slot (Table 4.10, R112, R128): the core is free; the header holds the magic
number, the version, the size of the image (R120), the context, the core, the code, an empty dump and which vector registers the image holds; the
slot holds the scalar registers, the counter, the level, the poison of the scalar registers, and the trap registers. -/
def Saved (s t : State) (code : Nat) (pc : Word) (trap : TrapRegs) : Prop :=
  let word := fun off n => Memory.read t.mem (s.slotAt + off) n
  let f := s.core.f
  let vs := (List.finRange 64).filter fun v => f.v[v].dirty && f.resident.contains v
  let size := 22784 + (vs.map fun v => (f.v[v].len % 2 ^ 13 + 63) / 64 * 64).sum +
    4096 * ((List.finRange 16).countP fun k => f.t[k].written) + 16384 * (List.finRange 8).countP fun k => f.a[k].written
  t.core.running = false ∧ word 0 4 = 0x45564153 ∧ word 4 2 = 1 ∧ word 8 4 = size ∧ (∀ v : Fin 64, bit (word 24 8) v.val = decide (v ∈ vs)) ∧
    word 6 2 = 2 ∧ word 12 2 = s.core.info.asid % 2 ^ 16 ∧
    word 14 2 = s.core.id % 2 ^ 16 ∧ word 16 1 = code ∧ word 17 1 = 0 ∧
    (∀ r : Fin 32, word (0x80 + 8 * r.val) 8 = (s.rx r).toNat) ∧ word 0x180 8 = pc.toNat ∧ word 0x188 1 = s.core.f.level % 256 ∧
    word 0x18C 4 = s.core.f.xp.toNat ∧ word 0x340 8 = trap.word ∧ word 0x348 8 = trap.val.toNat ∧ word 0x350 8 = trap.pc.toNat

/-- The fault record queue of the context exists, apart from its descriptor and from the slot, and has room (R111). -/
structure QueueHere (s : State) : Prop where
  size : 6 ≤ s.desc 0x28 1 ∧ s.desc 0x28 1 ≤ 16
  here : Present s [(s.desc 0x20 8, 32 * 2 ^ s.desc 0x28 1), (ctxAddr s s.core.info.asid 0, 256)]
  apart : s.desc 0x20 8 + 32 * 2 ^ s.desc 0x28 1 ≤ ctxAddr s s.core.info.asid 0 ∨
    ctxAddr s s.core.info.asid 256 ≤ s.desc 0x20 8
  apart' : s.desc 0x20 8 + 32 * 2 ^ s.desc 0x28 1 ≤ s.slotAt ∨ s.slotAt + 2 ^ 20 ≤ s.desc 0x20 8
  room : (s.desc 0x34 4 + 1) % 2 ^ s.desc 0x28 1 ≠ s.desc 0x30 4 % 2 ^ s.desc 0x28 1
  lost : s.core.info.asid ∉ s.lostOwed

/-- A fault record has been appended to the queue (R111, Table 4.7), with the flags, core and slot, and kind of access given; its cycle aside. -/
def RecordedAs (s t : State) (cause flags core slot : Nat) (addr : Word) (index count access : Nat) : Prop :=
  let size := 2 ^ s.desc 0x28 1
  let i := s.desc 0x34 4 % size
  let word := fun off n => Memory.read t.mem (s.desc 0x20 8 + 32 * i + off) n
  t.ctxRaw s.core.info.asid 0x34 4 = (s.desc 0x34 4 + 1) % size ∧ word 0 1 = cause ∧ word 1 1 = flags ∧
    word 2 2 = s.core.info.asid % 2 ^ 16 ∧ word 4 2 = core % 2 ^ 16 ∧ word 6 2 = slot % 2 ^ 16 ∧
    word 16 8 = addr.toNat ∧ word 24 4 = index ∧ word 28 2 = count ∧ word 30 1 = access ∧ word 31 1 = cause
/-- The record of a front instruction, with its cycle. -/
def Recorded (s t : State) (cause : Nat) (addr : Word) (index count : Nat) : Prop :=
  RecordedAs s t cause 0 s.core.id s.core.info.slot addr index count 0 ∧
    Memory.read t.mem (s.desc 0x20 8 + 32 * (s.desc 0x34 4 % 2 ^ s.desc 0x28 1) + 8) 8 = s.cycle.toNat

/-- Nothing of the firing is under way that a stop, `end` or `yield` would have to wait for: no token, no command, no held block of a
write stream, no cause of a link command, no bank switch; and it takes no samples, which its last cycle would write (R411). -/
structure Still (s : State) : Prop where
  tokens : s.tokens = []
  cmds : ∀ c ∈ s.cores, ∀ x ∈ c.cmds.toList, x = none
  held : ∀ q : Fin 8, (s.core.f.q[q]).held = [] ∧ (s.core.f.q[q]).fetched = [] ∧ (s.core.f.q[q]).drainFault = none
  links : s.core.f.linkCauses = []
  late : s.late = []
  switches : ∀ x ∈ s.banks, x.2.switchTo = none
  running : s.core.running = true
  unsampled : trSen s.core.trace = false

/-- The same, and no submit post is registered. -/
structure Idle (s : State) : Prop extends Still s where
  posts : s.submits = []

/-- A trap of an instruction of an engine reaches its handler at once: the front issues nothing more before it (log entry 5), no handler is active, and
the vector of the firing's level names one. -/
structure TrapReady (s : State) (regs : List (Fin 32)) : Prop extends Stops s regs where
  leads : s.leads = []
  act : s.core.f.trap.act = false
  vec : s.desc (if s.core.f.level = 0 then 0x48 else 0x50) 8 % 2 = 1
/-- A lane instruction raises a cause of kind E, and its handler is entered with it alone in the dump (R21, R101 to R103, R106). -/
def Raises (i : Instr) (s : State) (cause : Nat) (val : Word) : Prop :=
  ∃ t, exec i s = .next t ∧ t.core.f.level = s.core.f.level ∧ t.core.f.queue = [] ∧
    t.core.f.trap = { cause := cause, level := s.core.f.level, engine := 1, act := true, dumpn := 1, didx := 0, dvalid := true,
                      skip := false, val := val, pc := s.nextPc &&& 0xFFFFFFFFFFF8 } ∧
    t.core.f.fpc = BitVec.ofNat 64 (s.desc (if s.core.f.level = 0 then 0x48 else 0x50) 8 % 2 ^ 48 / 8 * 8)
/-- No translation of an access of `n` bytes: the TLBs hold none, and the walk meets an entry that is not valid (R84, R86). -/
structure Unmapped (s : State) (va : Word) (n : Nat) : Prop where
  legal : va.toNat < 2 ^ 48 ∧ va.toNat % n = 0 ∧ inWindow va = false
  tlb : s.core.tlb.all (fun e => !e.covers s.core.info.asid va.toNat) = true
  shared : (SMap.get [] (clusterOf s.core.id) s.ctlbs).all (fun e => !e.covers s.core.info.asid va.toNat) = true
  root : populated (s.desc 0x08 8) = true
  walk : walkLevels s va.toNat 3 (s.desc 0x08 8) = .error 0x20
/-- A lane instruction is stopped by the replayable-fault protocol (R112, R214, R106): a record for its one page, stop code 3, and the instruction in
the dump; the driver is told. -/
def Replayed (i : Instr) (s : State) (va : Word) (index count access : Nat) : Prop :=
  ∃ t, exec i s = .next t ∧ t.core.running = false ∧ t.mgmt.mint.getLsbD 2 = true ∧
    RecordedAs s t 0x20 0x11 s.core.id s.core.info.slot va index count access ∧
    let word := fun off n => Memory.read t.mem (s.slotAt + off) n
    word 16 1 = 3 ∧ word 17 1 = 1 ∧ word 0x180 8 = s.nextPc.toNat ∧ word 0x1100 8 = (encode i).getD 0 ∧
      word 0x1108 8 = s.core.f.fpc.toNat

/-- A state without what a lane instruction with destination registers `ds` may write: them, residency, `VSTART`, `FFLAGS` and the
generator. -/
def State.besides (s : State) (ds : List (Fin 64)) : State :=
  (s.onF fun f => { f with v := Vector.ofFn fun n => if n ∈ ds then {} else f.v[n], resident := [], vstart := 0, fflags := 0, pseed0 := 0, pseed1 := 0 }).content

/-- A lane instruction that writes a register `d` of elements of width `w` is done (R153, R154, R162, R176, R93): a pad element is 0, an
active one is `val`, any other as before; `VSTART` is 0; the register has grown to the effective length; `sp` says which
elements have a poisoned source. -/
structure Lanes (s t : State) (c : LaneRun) (d : Fin 64) (w : Nat) (val : Nat → Nat) (sp : Nat → Bool) : Prop where
  elems : ∀ e, e < 32768 / w → (t.core.f.v[d]).elem w e =
    if c.isPad e then 0 else if c.active e then val e else (s.core.f.v[d]).elem w e
  len : c.empty = false → (t.core.f.v[d]).len = max (s.core.f.v[d]).len (min 4096 ((c.evl * w + 7) / 8)) ∧
    (t.core.f.v[d]).dirty = true ∧ d ∈ t.core.f.resident
  vstart : t.core.f.vstart = 0
  clean : (∀ e, e < c.evl → c.active e = true → sp e = false) →
    ∀ g, g < 64 → (t.core.f.v[d]).poison.getLsbD g = true → (s.core.f.v[d]).poison.getLsbD g = true
  pois : ∀ e, e < c.evl → c.active e = true → sp e = true → (t.core.f.v[d]).elemPoison w e = true

/-- The poison of operand `B` at an element. -/
def bPoison (f : Firing) (w e : Nat) : LaneB → Bool
  | .vec v => f.v[v].elemPoison w e
  | _ => false
/-- The vector registers of operand `B`. -/
def bVec : LaneB → List (Fin 64) | .vec v => [v] | _ => []
/-- No flag is raised and no draw is made. -/
def NoFlags (s t : State) : Prop :=
  t.core.f.fflags = s.core.f.fflags ∧ t.core.f.pseed0 = s.core.f.pseed0 ∧ t.core.f.pseed1 = s.core.f.pseed1

/-- A state without mask register `d`, and what any lane instruction may write. -/
def State.besideMask (s : State) (d : Fin 8) : State :=
  (s.onF fun f => { f with m := f.m.set d 0, badM := f.badM &&& ~~~(1#8 <<< d.val) }).besides []

/-! Lane instructions over streams (R182, R294, R297). -/

/-- The quire bank a FIFO stream is bound to. -/
def State.fifoAt (s : State) (q : Stream) : Nat := 32 * clusterOf s.core.id + (q.base.toNat - 0xFFFFFF800000) / bankSize
/-- A FIFO stream meets its bank granted, in FIFO mode and switching none. -/
def FifoOk (s : State) (q : Stream) : Prop :=
  q.fifo = true → let b := s.bank (s.fifoAt q)
    fenced s = false ∧ inWindow q.base = true ∧ b.mode = .fifo ∧ b.busy = false ∧ b.gv = true ∧ b.gasid = s.core.info.asid
/-- Block `k` from the position of a read stream on, with its poison: fetched ahead, or still in its FIFO bank. -/
def State.blockAhead (s : State) (q : Stream) (k : Nat) : Option (BitVec 512 × Bool) :=
  match q.fetched.find? (·.idx = q.pos / 64 + k) with
  | some b => some (b.bits, b.poison)
  | none => if q.fifo then (s.bank (s.fifoAt q)).block k else none
/-- An operand can be read without a wait: a stream has `n` blocks more at hand, none poisoned. -/
def Takes (s : State) (n : Nat) : LaneReg → Prop
  | .vec _ => True
  | .stream p => let q := s.core.f.q[p]
    q.bound = true ∧ q.dir = false ∧ FifoOk s q ∧ 64 * (q.pos / 64 + n) < q.total + 64 ∧
      ∀ k, k < n → ∃ x, s.blockAhead q k = some (x, false)
/-- Element `e` of such an operand. -/
def State.operand (s : State) (w n e : Nat) : LaneReg → Nat
  | .vec v => s.core.f.v[v].elem w e
  | .stream p =>
    bits (((List.range n).map fun k => ((s.blockAhead s.core.f.q[p] k).map (·.1.toNat)).getD 0 * 2 ^ (512 * k)).sum) (e * w) w
/-- The stream of an operand advances by `n` blocks; a FIFO bank pops them. -/
def State.take (s : State) (n : Nat) : LaneReg → State
  | .vec _ => s
  | .stream p =>
    let q := s.core.f.q[p]
    let u := s.onF fun f => { f with q := f.q.set p { q with
      pos := q.pos + 64 * n, fetched := q.fetched.filter fun b => decide (b.idx < q.pos / 64) || decide (q.pos / 64 + n ≤ b.idx) } }
    let b := s.bank (s.fifoAt q)
    if q.fifo then u.setBank (s.fifoAt q) { b with fifo := b.fifo.drop n, fifoHead := (b.fifoHead + n) % 4096 } else u
/-- A result can be given without a wait: a stream has room for `n` blocks more. -/
def Gives (s : State) (n : Nat) : LaneReg → Prop
  | .vec _ => True
  | .stream k => let q := s.core.f.q[k]
    let b := s.bank (s.fifoAt q)
    q.bound = true ∧ q.dir = true ∧ q.drainFault = none ∧ q.pos % 64 = 0 ∧ (∀ b ∈ q.held, b.idx < q.pos / 64) ∧
      64 * (q.pos / 64 + n) < q.total + 64 ∧ FifoOk s q ∧
      if q.fifo then b.fifo.length + b.reserved + n ≤ 4096 else q.held.length + n ≤ 16
/-- The stream of a result holds `n` blocks more, of the bytes `y`; a FIFO bank reserves their places. -/
def State.give (s : State) (n y : Nat) : LaneReg → State
  | .vec _ => s
  | .stream k =>
    let q := s.core.f.q[k]
    let u := s.onF fun f => { f with q := f.q.set k { q with pos := q.pos + 64 * n, held := q.held ++ (List.range n).map fun i =>
      { idx := q.pos / 64 + i, bits := BitVec.ofNat 512 (y / 2 ^ (512 * i)), poison := false } } }
    let b := s.bank (s.fifoAt q)
    if q.fifo then u.setBank (s.fifoAt q) { b with reserved := b.reserved + n } else u
/-- Two states are the same but for what a lane instruction that writes `ds` may write. -/
def SameBut (t u : State) (ds : List (Fin 64)) : Prop :=
  (∀ j, t.bank j = u.bank j) ∧ ({ t with banks := [] } : State).besides ds = ({ u with banks := [] } : State).besides ds
/-- A lane instruction from an operand `a` of which it takes `n` blocks to a result `d` of elements of width `w` is done: a vector
register as in `Lanes`; a stream receives every element, one that is not active as 0, and zeros fill its last block. Beside them
it may write `more`. -/
structure Streamed (s t : State) (c : LaneRun) (d a : LaneReg) (w n : Nat) (val : Nat → Nat) (sp : Nat → Bool) (more : List (Fin 64)) : Prop where
  elems : ∀ v, d = .vec v → Lanes s t c v w val sp
  vstart : t.core.f.vstart = 0
  rest : SameBut t ((s.take n a).give ((c.evl * w + 511) / 512)
    (((List.range c.evl).map fun e => (if c.active e then val e else 0) * 2 ^ (e * w)).sum) d) (regVecs d ++ more)

/-- A run of a lane instruction with what it can be started on: operands readable, the mask sound, room for its registers. -/
structure LaneOk (s : State) (xs : List (Fin 32)) (ms : List (Fin 8)) (vs : List (Fin 64)) : Prop extends Dispatches s xs where
  masks : ∀ m ∈ ms, MaskOk s.core.f m
  room : Room s.core.f vs

/-- The same for a press instruction: no word of a tile or of an accumulator has been struck by an upset (R282). -/
structure PressOk (s : State) (xs : List (Fin 32)) (ms : List (Fin 8)) (vs : List (Fin 64)) : Prop extends LaneOk s xs ms vs where
  tiles : ∀ k : Fin 16, s.core.f.t[k].bad = 0
  accs : ∀ k : Fin 8, s.core.f.a[k].bad = 0

/-- An element of a format as a scalar register takes it (R191, R197): sign-extended for signed formats. -/
def widened (fmt : Fmt) (x : Nat) : Word :=
  if fmt.signed then (BitVec.ofNat fmt.width x).signExtend 64 else BitVec.ofNat 64 x

/-- What an instruction that reaches memory can start on, beside its operands: the load/store queue at the core's disposal and an L1 equal
to memory. -/
structure MemOk (s : State) : Prop extends MemReady s where
  coherent : Coherent s

/-- The pieces of an element's access (R205): of a format below 8 bits the one or two bytes that hold it, else the element. -/
def accesses (w bo : Nat) (va : Word) : List (Word × Nat) :=
  if 8 ≤ w then [(va, w / 8)] else if bo + w ≤ 8 then [(va, 1)] else [(va, 1), (va + 1, 1)]
/-- Every piece can be accessed, at bytes that are not poisoned. -/
def Reaches (s : State) (need : Need) (l : List (Word × Nat)) : Prop :=
  ∀ x ∈ l, (s.hit need x.1 x.2).isSome = true ∧ s.isPoisoned (s.locOf need x.1 x.2 / 8 * 8) 8 = false
/-- Every piece can be accessed. -/
def Hit (s : State) (need : Need) (l : List (Word × Nat)) : Prop := ∀ x ∈ l, (s.hit need x.1 x.2).isSome = true
/-- A piece of it is poisoned. -/
def State.struck (s : State) (need : Need) (l : List (Word × Nat)) : Bool := l.any fun x => s.isPoisoned (s.locOf need x.1 x.2) x.2
/-- No line of the core's L1 holds poison in memory (R94). -/
def CleanL1 (s : State) : Prop := ∀ x ∈ s.core.l1, s.isPoisoned (128 * x.1) 128 = false
/-- The element that the pieces hold. -/
def gather (s : State) (w bo : Nat) (va : Word) : Nat :=
  let byte := fun va : Word => Memory.read s.mem (s.locOf needLoad va 1) 1
  if 8 ≤ w then Memory.read s.mem (s.locOf needLoad va (w / 8)) (w / 8)
  else (byte va + if bo + w ≤ 8 then 0 else 256 * byte (va + 1)) / 2 ^ bo % 2 ^ w
/-- An element stored at the homes of its pieces in `s`, below 8 bits only its bits (R209), with its poison; has a part of it been dropped
over poison (R95)? -/
def storeElement (s : State) (w bo : Nat) (va : Word) (x : Nat) (poison : Bool) (u : State × Bool) : State × Bool :=
  let put := fun (u : State × Bool) (loc n v : Nat) =>
    let r := u.1.homeStore loc n v poison
    (r.1, u.2 || r.2 == .dropped)
  let part := fun (u : State × Bool) (va : Word) (lo n v : Nat) =>
    let loc := s.locOf needStore va 1
    put u loc 1 (patchBits (Memory.read u.1.mem loc 1) lo n v)
  if 8 ≤ w then put u (s.locOf needStore va (w / 8)) (w / 8) x
  else
    let u := part u va bo (min w (8 - bo)) x
    if bo + w ≤ 8 then u else part u (va + 1) 0 (bo + w - 8) (x / 2 ^ (8 - bo))

/-- A state without what a press instruction that writes tiles `ts`, accumulators `as` and vector registers `ds` may write: them, the
flags, `PSTART` and the count of panels. -/
def State.besidesPress (s : State) (ts : List (Fin 16)) (as' : List (Fin 8)) (ds : List (Fin 64)) : State :=
  s.onF fun f => { f with
    t := Vector.ofFn fun n => if n ∈ ts then {} else f.t[n]
    a := Vector.ofFn fun n => if n ∈ as' then {} else f.a[n]
    v := Vector.ofFn fun n => if n ∈ ds then {} else f.v[n]
    resident := [], fflags := 0, panel := 0, stage := 0, panels := 0 }

/-- A press instruction that takes panels is done after `k` of them (R280, R283): `PSTART` is 0 and the count of panels has advanced. -/
def Panels (s t : State) (k : Nat) : Prop :=
  t.core.f.panel = 0 ∧ t.core.f.stage = 0 ∧ t.core.f.panels = s.core.f.panels + BitVec.ofNat 64 k

/-- Address of byte `j` of row `r` (R269). -/
def rowByte (base pitch : Word) (r j : Nat) : Word := base + BitVec.ofNat 64 r * pitch + BitVec.ofNat 64 j
/-- The flags of a list of conversions (R167). -/
def flagsOf (l : List (Nat × Flags)) : Flags := l.foldl (fun fl x => fl ||| x.2) 0

/-- An element of a tile, and what reading it raises. -/
def Firing.tileEx (f : Firing) (t : Fin 16) (r c : Nat) : Ex × Flags :=
  let fmt := (f.tcfg[t].fmt?).getD .f32
  let x := f.t[t].elem fmt.width r c
  (valueOf fmt x, readFlags fmt x)
/-- The product of two such elements. -/
def timesEx (x y : Ex × Flags) : Ex × Flags := ((mulEx x.1 y.1).1, (mulEx x.1 y.1).2 ||| x.2 ||| y.2)
/-- An f32 accumulator element after the k-panels from `q0` of an inner dimension `K`, and the flags raised (R277): each panel adds
the exact sum of its products with one rounding. -/
def dotFloat (rm : Round) (K q0 : Nat) (prod : Nat → Ex × Flags) (old : Nat) : Nat × Flags :=
  (List.range ((K + 15) / 16 - q0)).foldl (fun x i =>
    let q := q0 + i
    let ps := (List.range (min 16 (K - 16 * q))).map fun k => prod (16 * q + k)
    let r := sumTerms rm (ps.foldl (fun fl y => fl ||| y.2) 0) (valueOf .f32 x.1 :: ps.map (·.1))
    let y := cvt r.1 .f32 rm
    (y.1, x.2 ||| r.2 ||| y.2)) (old, 0)
/-- An i32 accumulator element after them: the sum wraps, and only a weight 0b10 of ternary weights raises a flag (R277, R279). -/
def dotInt (K q0 : Nat) (x y : Nat → Int) (bad : Nat → Bool) (old : Nat) : Nat × Flags :=
  let ks := (List.range (K - 16 * q0)).map (16 * q0 + ·)
  (((old : Int) + (ks.map fun k => x k * y k).sum) % 2 ^ 32 |>.toNat, if ks.any bad then fNV else 0)

/-- The exact result for element `k` of a butterfly stage of stride `s` with weights `w p q` over inputs `x` (R272). -/
def butterflyOut (rm : Round) (s : Nat) (w : Nat → Nat → Ex) (x : Nat → Ex) (k : Nat) : Ex × Flags :=
  let low := k / s % 2 = 0
  let i := if low then k else k - s
  let p := i / (2 * s) * s + i % s
  let q := if low then 0 else 2
  let a := mulEx (w p q) (x i)
  let b := mulEx (w p (q + 1)) (x (i + s))
  sumTerms rm (a.2 ||| b.2) [a.1, b.1]
/-- What an intermediate result is held as: f32, through the carry format (R273). -/
def carried (rm : Round) (carry : Fmt) (r : Ex × Flags) : Nat × Flags :=
  let y := cvt r.1 carry rm
  ((cvtFp (valueOf carry y.1) .f32 .rne).1, r.2 ||| y.2)
/-- Element `k` of the accumulator before stage `first + i` of a run that begins at pair panel `q` of stage `first`, where it holds `held`: what
earlier panels have left there stays (R273, R280). `x`: the inputs of stage 0. -/
def butterflyHeld (rm : Round) (carry : Fmt) (stride : Nat → Nat) (w : Nat → Nat → Nat → Ex) (x : Nat → Ex) (held : Nat → Nat) (first q : Nat) :
    Nat → Nat → Nat
  | 0, k => held k
  | i + 1, k =>
    let j := first + i
    let s := stride j
    let y := butterflyHeld rm carry stride w x held first q i
    if i = 0 ∧ k / (2 * s) * s + k % s < 64 * q then y k
    else (carried rm carry (butterflyOut rm s (w j) (fun k => if j = 0 then x k else valueOf .f32 (y k)) k)).1

/-- A state without stream register `q`. -/
def State.besideStream (s : State) (q : Fin 8) : State := s.onF fun f => { f with q := f.q.set q {} }
/-- A state without the command in a slot, and without what its accesses leave behind. -/
def State.besideCmd (s : State) (k : Fin 16) : State := (s.onCore fun c => { c with cmds := c.cmds.set k none }).rest
/-- Memory with the elements of a block of 64 bytes of a stream stored (R292, R294). -/
def drained (s : State) (q : Stream) (b : Block) (mem : List Host.Cell) : List Host.Cell :=
  ((List.range (64 / q.size)).filter fun i => decide (64 * b.idx + i * q.size < q.total)).foldl (fun mem i =>
    Memory.write mem (s.locOf needStore (q.elemAddr (64 / q.size * b.idx + i)) q.size) q.size
      (bits b.bits.toNat (8 * q.size * i) (8 * q.size))) mem
/-- The elements of a block can be accessed. -/
def BlockReaches (s : State) (need : Need) (q : Stream) (k : Nat) : Prop :=
  ∀ i, i < 64 / q.size → 64 * k + i * q.size < q.total → Reaches s need [(q.elemAddr (64 / q.size * k + i), q.size)]

/-- A state without what launches and actors change beside memory and registers. -/
def State.besideLaunches (s : State) : State := ({ s with launches := [], origins := [], actors := [], slots := [] } : State).rest
/-- Ranges of memory that do not overlap. -/
def Apart : List (Nat × Nat) → Prop
  | [] => True
  | x :: r => (∀ y ∈ r, x.1 + x.2 ≤ y.1 ∨ y.1 + y.2 ≤ x.1) ∧ Apart r
/-- The lowest free index below a bound. -/
def Lowest (used : Nat → Bool) (n : Nat) : Prop := used n = false ∧ ∀ k, k < n → used k = true
/-- The control block of run post `i` of the submit post at `pa` (R332). -/
def State.runPost (s : State) (pa i : Nat) : Nat := Memory.read s.mem (pa + 0x28) 8 + 64 * i
/-- The first words at an address, as a firing loads them. -/
def State.words (s : State) (va : Word) (k : Nat) : Nat :=
  Memory.read s.mem (s.locOf needLoad (va + BitVec.ofNat 64 (8 * k)) 8) 8
/-- `n` words can be loaded from an address. -/
def WordsReach (s : State) (va : Word) (n : Nat) : Prop := Reaches s needLoad ((List.range n).map fun k => (va + BitVec.ofNat 64 (8 * k), 8))

/-- The core records, or samples, events of the firing in focus (R413, R415), and a record of one finds room in the unit (R410). -/
structure Tracing (s : State) : Prop where
  steady : s.core.trace.pending = none
  buffer : s.core.trace.buf.length < 64
  open' : bit (s.desc 0 4) 1 = false
  mine : bit s.core.trace.ctl 2 = false ∨ bits s.core.trace.ctl 16 14 = s.core.info.asid
/-- The record of an event of the firing in focus. -/
def State.traceRec (s : State) (cycle kind rf aux : Nat) (pay : Word) : TraceRec :=
  { cycle := cycle, kind := kind, rf := rf, eng := 0, aux := aux, asid := s.core.info.asid, pay := pay.toNat }
/-- The trace unit of the one core there is writes its one record now (R409, R410): the ring exists, a quarter of it stays free, none
has been dropped, no TIME record is owed, no sample is due and none changes the period. -/
structure TraceRoom (s : State) (r : TraceRec) : Prop where
  one : s.core.trace.buf = [r] ∧ s.others = [] ∧ r.cycle < s.cycle.toNat
  desc : ∀ off, off < 256 → populated (ctxAddr s s.core.info.asid off) = true
  here : Present s [(s.core.trace.base, 16 * 2 ^ s.core.trace.log2)]
  room : 4 * ((s.core.trace.tail + 2 ^ 32 - s.core.trace.head) % 2 ^ 32 + 1) ≤ 3 * 2 ^ s.core.trace.log2
  none' : s.core.trace.dropped = 0
  time : s.core.trace.timeOwed = false ∧ s.core.trace.timeFirst = false ∧ r.cycle - s.core.trace.last < 65536
  size : 8 ≤ s.core.trace.log2 ∧ s.core.trace.log2 ≤ 24 ∧ s.core.trace.tail < 2 ^ 32
  steady : s.core.trace.pending = none
  later : trSen s.core.trace = false ∨ s.cycle.toNat - s.core.trace.spAt < s.core.trace.spcur
  period : s.core.trace.spcur ≤ s.core.trace.spmin
/-- A record has been appended to the trace ring (R406, Tables 18.3, 18.4). -/
def Traced (s t : State) (r : TraceRec) : Prop :=
  let at' := s.core.trace.base + 16 * (s.core.trace.tail % 2 ^ s.core.trace.log2)
  let word := fun off n => Memory.read t.mem (at' + off) n
  SameMemBut s t [(at', 16)] ∧ t.core.trace.tail = (s.core.trace.tail + 1) % 2 ^ 32 ∧ t.core.trace.buf = [] ∧
    word 0 1 = r.kind % 16 + 16 * (r.rf % 16) ∧ word 1 1 = r.eng % 8 ∧ word 2 2 = r.cycle - s.core.trace.last ∧ word 4 2 = r.aux % 2 ^ 16 ∧
    word 6 2 = r.asid % 2 ^ 14 ∧ word 8 8 = r.pay % 2 ^ 64
/-- A state without memory and the trace unit. -/
def State.besideTrace (s : State) : State :=
  ({ (s.onCore fun c => { c with trace := {} }) with mem := [], poison := [] } : State).content
/-- A record has been appended to the chain log of the context (R367, R368, Table 16.4). -/
def Logged (s t : State) (kind : Nat) (body : Nat) : Prop :=
  let n := s.desc 0x84 4
  let at' := s.desc 0x70 8 + 32 * (n % 2 ^ s.desc 0x78 1)
  t.mem = Memory.write (Memory.write s.mem at' 32 (kind + 2 ^ 16 * (s.core.id % 2 ^ 16) + 2 ^ 32 * (s.core.f.fid % 2 ^ 32) +
    2 ^ 64 * (s.core.f.ordinal % 2 ^ 32) + 2 ^ 96 * body)) (ctxAddr s s.core.info.asid 0x84) 4 ((n + 1) % 2 ^ 32)
/-- The context records its chain log, there is room in its ring (R356, R369), and no `launch` has an entry under way (R368). -/
structure Recording (s : State) : Prop where
  mode : bits (s.desc 0 4) 2 2 = 1
  open' : bit (s.desc 0 4) 1 = false
  size : s.desc 0x78 1 ≤ 20
  room : (s.desc 0x84 4 + 2 ^ 32 - s.desc 0x80 4) % 2 ^ 32 < 2 ^ s.desc 0x78 1
  here : Present s [(s.desc 0x70 8, 32 * 2 ^ s.desc 0x78 1), (ctxAddr s s.core.info.asid 0, 256)]
  apart : Apart [(ctxAddr s s.core.info.asid 0, 256), (s.desc 0x70 8, 32 * 2 ^ s.desc 0x78 1)]
  stalls : (s.session s.core.info.asid).stalls = []
  idle : (s.session s.core.info.asid).underWay = []
  on : s.core.f.paused = false

/-- Where the walk of a context's table takes an agent that fills no TLB (R82 to R85, R89, R90): the leaf permits the access, a write
finds it dirty already, no frame belongs to another context, and no bank switches its mode. -/
def State.walked (s : State) (asid level : Nat) (need : Need) (va : Word) : Option Nat :=
  match walkLevels s va.toNat 3 (s.ctxRaw asid 0x08 8) with
  | .error _ => none
  | .ok (_, pte, k) =>
    let log2 := leafLog2 k (bit pte 8)
    let base := ptePa pte / 2 ^ log2 * 2 ^ log2
    let pa := base + va.toNat % 2 ^ log2
    if va.toNat < 2 ^ 48 ∧ inWindow va = false ∧ populated (ctxAddr s asid 0x08) = true ∧ populated (s.ctxRaw asid 0x08 8) = true ∧
        need.ex = false ∧ (need.rd = false ∨ bit pte 2 = true) ∧ (need.wr = false ∨ (bit pte 3 && bit pte 7) = true) ∧
        (1 ≤ level ∨ bit pte 5 = true) ∧ ownedByOther s asid base log2 = false ∧ s.reachable pa = true ∧ s.homeBusy pa = false
    then some pa else none

/-- What an agent without a core reaches of cluster 0's window, for a context: a granted scratch bank (R62, R212). -/
def State.farLoc (s : State) (asid : Nat) (va : Word) : Option Nat :=
  let off := va.toNat - 0xFFFFFF800000
  let b := s.bank (off / bankSize)
  if inWindow va = true ∧ b.busy = false ∧ b.mode = .scratch ∧ b.gv = true ∧ b.gasid = asid then some (quireBase + off) else none
/-- The bytes from an address on as such an agent reads them. -/
def State.far (s : State) (asid : Nat) (va : Word) (n : Nat) : List Byte :=
  (List.range n).map fun j => BitVec.ofNat 8 (Memory.read s.mem ((s.farLoc asid (va + BitVec.ofNat 64 j)).getD 0) 1)
/-- All of them can be reached, and are not poisoned. -/
def FarReach (s : State) (asid : Nat) (va : Word) (n : Nat) : Prop :=
  ∀ j, j < n → ∃ loc, s.farLoc asid (va + BitVec.ofNat 64 j) = some loc ∧ s.isPoisoned (loc / 8 * 8) 8 = false
/-- A context that other devices and the host act on: its descriptor exists and is valid (R110), it is not confidential, and its chain log is off. -/
structure FarOk (s : State) (asid : Nat) : Prop where
  here : Present s [(ctxAddr s asid 0, 256)]
  good : descBad s asid = false
  open' : bit (s.ctxRaw asid 0 4) 1 = false
  log : bits (s.ctxRaw asid 0 4) 2 2 = 0
  session : s.ctxRaw asid 0x7C 4 / 65536 = s.ctxRaw asid 0x7A 2
  range : asid < 16384

/-- Run post `i` of the registered submit post at `pa` exists and has room: its control block is at `cb`, the entry at its `TAIL` at
`entry` (R331, R332). -/
structure PostRoom (s : State) (spost i pa cb entry : Nat) : Prop where
  post : SMap.get none spost s.submits = some ⟨pa⟩
  block : cb = s.runPost pa i
  entry' : entry = Memory.read s.mem cb 8 + 32 * (Memory.read s.mem (cb + 12) 4 % Memory.read s.mem (cb + 16) 4)
  room : (Memory.read s.mem (cb + 12) 4 + 2 ^ 32 - Memory.read s.mem (cb + 8) 4) % 2 ^ 32 ≠ Memory.read s.mem (cb + 16) 4
  here : Present s [(pa, 64), (cb, 64), (entry, 32)]
  apart : Apart [(cb, 64), (entry, 32)]
/-- A record has been pushed there: `CODE`, `META` and `TAIL` (R331, Table 15.1). -/
def Pushed (s t : State) (cb entry code meta32 : Nat) : Prop :=
  Memory.read t.mem entry 8 = code ∧ Memory.read t.mem (entry + 28) 4 = meta32 ∧
    Memory.read t.mem (cb + 12) 4 = (Memory.read s.mem (cb + 12) 4 + 1) % 2 ^ 32
/-- A record of resumption is due for a firing saved in a slot, and its post has room (R108, R343): the slot's header exists and
waits for no access, and `pa`, `cb`, `entry` are the places of the post. -/
structure Resumable (s : State) (i : SlotInfo) (asid slot pa cb entry : Nat) : Prop where
  asid' : i.info.asid = asid ∧ asid < 16384
  slot' : i.info.slot = slot ∧ slot < 65535
  core' : i.info.lastCore < 160
  held : SMap.get none (slotKey asid slot) s.slots = some i
  drained : i.draining = []
  done : slotPending s (slotKey asid slot) = false
  here : Present s [(ctxAddr s asid 0, 256), (s.ctxRaw asid 0x10 8 + 2 ^ 20 * slot, 128)]
  whole : bit (Memory.read s.mem (s.ctxRaw asid 0x10 8 + 2 ^ 20 * slot + 6) 2) 2 = false
  room : PostRoom s i.info.spost (160 + i.info.lastCore / 4) pa cb entry

/-- A mailbox command has completed (R424): its code and its arguments with the results over them, its status, `MBUSY` 0, `MINT` bit 0. -/
def State.mailboxAnswer (s : State) (code : Nat) (args : List Byte) (status : Nat) (res : List Byte) : State :=
  ({ s with mgmt := { s.mgmt with mbusy := false, mrun := none, mbox := none, mcmd := code, mstatus := status,
                                  margs := res ++ args.drop res.length } } : State).raiseMint 0
/-- A state but for the marks of poison. -/
def State.unmarked (s : State) : State := { s with poison := [], covers := [] }

end Sys2Proof.Machine
end

