-- ==== Sys2Proof/Certificates/Slice0/Obligations.lean ====
section
/-!
DEFINITION. The statements about the machine, for the provers: one for each group of instructions and events of one shape, and those about
the machine as a whole.
-/

open Sys2Proof Sys2Proof.Machine

/-! The machine as a whole. -/

/-- What reset leaves (R129, R155, R156, R159, R162, R169, R262, Tables 5.2, 6.3, 11.1, 19.1): no firing runs, nothing is in flight; `PSEED0` and `PSEED1` are 1 and 2, the
format is f32, tiles are 64 rows of 64 bytes, `SCHEDQ` is 95,000; every other register is 0, as log entry 2 says where the spec gives no value. Memory is
in its canonical form and reads as 0 (log entry 1). -/
def Obligations.ResetState : Prop :=
  let s := State.reset
  let f := s.core.f
  s.Canonical ∧ (∀ a, Memory.byte s.mem a = 0) ∧ (∀ loc n, s.isPoisoned loc n = false) ∧ s.core.running = false ∧ s.others = [] ∧
    (∀ r : Fin 32, s.rx r = 0) ∧ f.level = 0 ∧ f.pseed0 = 1 ∧ f.pseed1 = 2 ∧ f.vfmt = 9 ∧ f.vrm = 0 ∧ f.fflags = 0 ∧
    (∀ k : Fin 16, f.tcfg[k] = { fmt := 10, rows := 64, rb := 64 }) ∧ (∀ v : Fin 64, f.v[v] = {}) ∧ (∀ m : Fin 8, f.m[m] = 0) ∧
    (∀ q : Fin 8, (f.q[q]).bound = false) ∧ f.trap.act = false ∧ s.core.schk = false ∧ (∀ k, s.bank k = {}) ∧ s.tokens = [] ∧
    s.cycle = 0 ∧ s.slots = [] ∧ s.launches = [] ∧ s.submits = [] ∧ s.mgmt.ready = false ∧ s.mgmt.run = false ∧
    s.mgmt.schedq = 95000 ∧ s.mgmt.mint = 0 ∧ s.mgmt.minten = 0 ∧ s.mgmt.based = 0 ∧ s.mgmt.keys = []

/-- R18, R20, R42, R126: a step of a core that runs a firing runs the instruction whose word its counter names, where nothing comes before it: no event of the
agenda, no wait, no stop on its way, no queued engine instruction, no sample, breakpoint or quantum's end that is due; a word that does not decode
comes to the illegal-instruction event (here no beat of the fetch has failed, and no store of others has been made visible to the core and
not performed, log entry 138); a queued engine instruction comes before the word at the counter; an event of the agenda comes before both. What
precedes all of them, upsets, merges at the beaters and the writes of trace records, leaves a state as it is where there are none. The events that
wait are put on the agenda again behind the step (`retry`). That outside events come first and in the agenda's order, that one thing happens in a step, and that a word is
fetched when it is executed are the model's choices (log entries 4, 5 and 15). -/
def Obligations.StepRunsDecoded : Prop :=
  ∀ (u s : State) (i : Instr), traceWrites (prepare u) = (.ok (), s) →
    (∀ r, s.agenda = i :: r → step u = exec i { s with agenda := r }) ∧
    (s.agenda = [] → s.turns = [] → s.core.running = true → trSen (s.core.trace.inForce s.cycle.toNat) = false →
      s.core.wait = none → bit s.core.trace.bkpt 0 = false → s.held < s.mgmt.schedq → s.core.ahead = none →
      (∀ p, s.core.f.queue = [] → Hits s needFetch s.core.f.fpc 8 p → s.isPoisoned p.loc 8 = false → s.core.badBeat = false →
        (∀ x ∈ s.stores, x.shown = none) → (∀ x ∈ s.tokens, x.shown = none) →
        (decode (Memory.read s.mem p.loc 8) = .ok i → step u = retry s.blocked (exec i s)) ∧
        ∀ e, decode (Memory.read s.mem p.loc 8) = .error e →
          step u = retry s.blocked (exec (.illegalInstruction s.core.id (e == .illfmt)) s)) ∧
      (∀ e r, s.core.f.queue = e :: r → heldFollow s e = none → decode e.word = .ok i →
        step u = retry s.blocked
          (exec i (s.onCore fun c => { c with cur := some { e with raiser := false }, curAt := 0, f := { c.f with queue := r } })))) ∧
    (∀ w t, retry w (.next t) = .next { t with agenda := t.agenda ++ w, blocked := [] }) ∧
    (u.upsets = [] → u.merges = [] → u.covers = [] →
      (∀ c ∈ u.cores, c.watch = none ∧ c.trace.buf = [] ∧ c.trace.why = []) → s = u)

/-- Words that the spec writes out for an instruction of each family (Tables 2.12, 5.10, 6.9, 7.10, 11.9, 13.6, 15.10, 16.8, 17.4, 18.4 and the worked case of `tlbinv` in R88) decode to it. -/
def Obligations.DecodedWords : Prop :=
  let ok := fun (w : Nat) (i : Instr) => decode w = .ok i
  ok 0x0000000040C50001 (.add 0 5 3 4) ∧ ok 0x0000123401C7001E (.limh 0 7 7 0x1234) ∧ ok 0xFFFFFFFB01032020 (.br 0 .lt 3 4 0xFFFFFFFB) ∧
    ok 0x0830081C60C57025 (.amo 0 .cas .ar .cl 5 3 6 7 8 .i64) ∧ ok 0x0280000001850040 (.vsetvl 0 5 6 0 2 .e2m1) ∧
    ok 0x0048010061440356 (.vfma 3 (.vec 4) (.vec 5) (.vec 6) 1 .f32) ∧
    ok 0x00000000204400E5 (.fx 0 0 5 4 1 2 0 0 0 0) ∧ ok 0x0020010010420074 (.vcomp 0 2 1 1 1 .i32) ∧
    ok 0x0000000072810081 (.tld 0 1 10 7 0) ∧
    ok 0x01000034C2CA60A5 (.cpyf 0 .rel .cl 10 11 12 13 1 false) ∧ ok 0x00000078D30E00C0 (.launch 0 14 12 13 30) ∧
    ok 0x0000000001C000C5 (.olmark 0 7) ∧ ok 0x0E000034C2CAE0D0 (.lput 0 .rel .dm 10 11 12 13 14) ∧
    ok 0x0500000001C000D5 (.tmark 0 7 5) ∧ ok 0x000000000185A0D6 (.tlbinv 0 .page .sg 5 6)

/-- R31 to R42, Tables 2.2 to 2.11: decoding and encoding agree, with every operand at every value its field admits: the word of a well-formed instruction decodes to it; a word
that decodes is the word of the well-formed instruction it decodes to. -/
def Obligations.DecodeEncode : Prop :=
  (∀ (i : Instr) (w : Nat), Instr.wf i = true → encode i = some w → decode w = .ok i ∧ w < 2 ^ 64) ∧
    ∀ (i : Instr) (w : Nat), w < 2 ^ 64 → decode w = .ok i → Instr.wf i = true ∧ encode i = some w

/-- Every step keeps the canonical form of memory: addresses strictly rising, no entry that an unlisted address reads as. -/
def Obligations.StepKeepsCanonical : Prop :=
  ∀ s t : State, s.Canonical → step s = .next t → t.Canonical

/-! The front: scalar instructions. -/

/-- R149: `nop` is the word 0x2E with its `STALL`, and has no effect. -/
def Obligations.NoOperation : Prop :=
  ∀ (st : Fin 16) (s : State), Issues s [] →
    decode (0x2E + 2 ^ 8 * st.val) = .ok (.nop st) ∧ Ends (.nop st) s s s.nextPc

/-- R135 (Table 5.5), `x0` as in R129: the register forms of latency 1, with their whole effect: `x[d]` takes the result, and
nothing else changes but the counter. R135 (Table 5.5): `clz` counts the zero bits above the highest one, `popc` the one bits. R135: the three products; R136: the four divisions, with a divisor of 0 and the most negative number by -1. -/
def Obligations.ScalarArithmetic : Prop :=
  (∀ (st : Fin 16) (d a b : Fin 32) (s : State), Issues s [a, b] →
    let x := s.rx a
    let y := s.rx b
    Ends (.add st d a b) s (s.setX d (x + y)) s.nextPc ∧
    Ends (.sub st d a b) s (s.setX d (x - y)) s.nextPc ∧
    Ends (.and st d a b) s (s.setX d (x &&& y)) s.nextPc ∧
    Ends (.or st d a b) s (s.setX d (x ||| y)) s.nextPc ∧
    Ends (.xor st d a b) s (s.setX d (x ^^^ y)) s.nextPc ∧
    Ends (.shl st d a b) s (s.setX d (BitVec.ofNat 64 (x.toNat * 2 ^ min y.toNat 64))) s.nextPc ∧
    Ends (.shr st d a b) s (s.setX d (BitVec.ofNat 64 (x.toNat / 2 ^ min y.toNat 64))) s.nextPc ∧
    Ends (.sra st d a b) s (s.setX d (BitVec.ofInt 64 (x.toInt / 2 ^ min y.toNat 64))) s.nextPc ∧
    Ends (.min st d a b) s (s.setX d (BitVec.ofInt 64 (min x.toInt y.toInt))) s.nextPc ∧
    Ends (.max st d a b) s (s.setX d (BitVec.ofInt 64 (max x.toInt y.toInt))) s.nextPc ∧
    Ends (.minn st d a b) s (s.setX d (BitVec.ofNat 64 (min x.toNat y.toNat))) s.nextPc ∧
    Ends (.maxn st d a b) s (s.setX d (BitVec.ofNat 64 (max x.toNat y.toNat))) s.nextPc) ∧
  (∀ (st : Fin 16) (d a : Fin 32) (s : State), Issues s [a] →
    let x := s.rx a
    (∃ n, n ≤ 64 ∧ (∀ k, k < n → x.getLsbD (63 - k) = false) ∧ (n < 64 → x.getLsbD (63 - n) = true) ∧
      Ends (.clz st d a) s (s.setX d (BitVec.ofNat 64 n)) s.nextPc) ∧
    Ends (.popc st d a) s (s.setX d (BitVec.ofNat 64 ((List.range 64).countP fun k => x.getLsbD k))) s.nextPc) ∧
  (∀ (st : Fin 16) (d a b : Fin 32) (s : State), Issues s [a, b] →
    let x := s.rx a
    let y := s.rx b
    Ends (.mul st d a b) s (s.setX d (x * y)) s.nextPc ∧
    Ends (.mulh st d a b) s (s.setX d (BitVec.ofInt 64 (x.toInt * y.toInt / 2 ^ 64))) s.nextPc ∧
    Ends (.mulhn st d a b) s (s.setX d (BitVec.ofNat 64 (x.toNat * y.toNat / 2 ^ 64))) s.nextPc ∧
    (∃ q r : Word, Ends (.div st d a b) s (s.setX d q) s.nextPc ∧ Ends (.rem st d a b) s (s.setX d r) s.nextPc ∧
      (y = 0 → q = BitVec.allOnes 64 ∧ r = x) ∧
      (y ≠ 0 → r = x - q * y ∧ r.toInt.natAbs < y.toInt.natAbs ∧ (r.toInt = 0 ∨ (r.toInt < 0 ↔ x.toInt < 0)) ∧
        (y ≠ BitVec.allOnes 64 → x.toInt = q.toInt * y.toInt + r.toInt))) ∧
    (∃ q r : Word, Ends (.divn st d a b) s (s.setX d q) s.nextPc ∧ Ends (.remn st d a b) s (s.setX d r) s.nextPc ∧
      (y = 0 → q = BitVec.allOnes 64 ∧ r = x) ∧
      (y ≠ 0 → x.toNat = q.toNat * y.toNat + r.toNat ∧ r.toNat < y.toNat)))

/-- R137 (Table 5.7): the immediate forms: their words (I format, `FL` 0), their effects on the register `d`, and the immediates that are illegal. -/
def Obligations.ScalarImmediates : Prop :=
  ∀ (st : Fin 16) (d a : Fin 32) (imm : BitVec 32) (sh : Fin 64) (s : State), Issues s [a] →
    let x := s.rx a
    let i : Word := imm.signExtend 64
    let word := fun op (a : Fin 32) v => op + 2 ^ 8 * st.val + 2 ^ 16 * d.val + 2 ^ 22 * a.val + 2 ^ 32 * v
    let form := fun (i : Instr) op (a : Fin 32) v (r : Word) => decode (word op a v) = .ok i ∧ Ends i s (s.setX d r) s.nextPc
    form (.addi st d a imm) 0x16 a imm.toNat (x + i) ∧
    form (.andi st d a imm) 0x17 a imm.toNat (x &&& i) ∧
    form (.ori st d a imm) 0x18 a imm.toNat (x ||| i) ∧
    form (.xori st d a imm) 0x19 a imm.toNat (x ^^^ i) ∧
    form (.shli st d a sh) 0x1A a sh.val (BitVec.ofNat 64 (x.toNat * 2 ^ sh.val)) ∧
    form (.shri st d a sh) 0x1B a sh.val (BitVec.ofNat 64 (x.toNat / 2 ^ sh.val)) ∧
    form (.srai st d a sh) 0x1C a sh.val (BitVec.ofInt 64 (x.toInt / 2 ^ sh.val)) ∧
    form (.limm st d imm) 0x1D 0 imm.toNat i ∧
    form (.limh st d a imm) 0x1E a imm.toNat (imm ++ x.extractLsb' 0 32) ∧
    (64 ≤ imm.toNat → ∀ op ∈ [0x1A, 0x1B, 0x1C], decode (word op a imm.toNat) = .error .illop) ∧
    (a ≠ 0 → decode (word 0x1D a imm.toNat) = .error .illop)

/-- R138, R139, R140: `cset` writes 1 or 0, a branch goes to its target when its condition holds and else on, a jump
goes to its target and writes the address of the next instruction; a legal target is a canonical multiple of 8. R37 (Table 2.6): what each condition compares. R140, R101,
R103: a target that is not canonical raises NONCANON at a taken branch or a jump, one that is no multiple of 8 raises MISALIGN at `jalr`, with `TRVAL` the target; no register is
written: with a handler named by the vector of the firing's level and none active, the handler is entered. Its `PSTART` of 0 is log entry 33. -/
def Obligations.BranchesAndJumps : Prop :=
  (∀ (st : Fin 16) (c : Cond) (d a b : Fin 32) (imm : BitVec 32) (s : State), Issues s [d, a] →
    let i : Word := imm.signExtend 64
    let holds := Cond.holds c (s.rx d) (s.rx a)
    let near := s.core.f.fpc + 8 * i
    let far := s.rx a + i
    let legal := fun t : Word => t.toNat < 2 ^ 48 ∧ t.toNat % 8 = 0
    Ends (.cset st c d a b) s (s.setX b (if holds then 1 else 0)) s.nextPc ∧
    (holds = false → Ends (.br st c d a imm) s s s.nextPc) ∧
    (holds = true → legal near → Ends (.br st c d a imm) s s near) ∧
    (legal near → Ends (.jal st d imm) s (s.setX d s.nextPc) near) ∧
    (legal far → Ends (.jalr st d a imm) s (s.setX d s.nextPc) far)) ∧
  (∀ (st : Fin 16) (c : Cond) (d a : Fin 32) (imm : BitVec 32) (s : State), Stops s [d, a] → s.core.f.trap.act = false →
    let f := s.core.f
    let vec := s.desc (if f.level = 0 then 0x48 else 0x50) 8
    vec % 2 = 1 →
    let i : Word := imm.signExtend 64
    let near := f.fpc + 8 * i
    let far := s.rx a + i
    let traps := fun (i : Instr) cause (t : Word) => Enters i s cause t (f.fpc &&& 0xFFFFFFFFFFF8) f.level vec
    (2 ^ 48 ≤ near.toNat → traps (.jal st d imm) 0x10 near ∧ (Cond.holds c (s.rx d) (s.rx a) = true → traps (.br st c d a imm) 0x10 near)) ∧
    (2 ^ 48 ≤ far.toNat → traps (.jalr st d a imm) 0x10 far) ∧
    (far.toNat < 2 ^ 48 → far.toNat % 8 ≠ 0 → traps (.jalr st d a imm) 0x11 far)) ∧
  (∀ x y : Word,
    (Cond.holds .eq x y = true ↔ x = y) ∧ (Cond.holds .ne x y = true ↔ x ≠ y) ∧
    (Cond.holds .lt x y = x.slt y) ∧ (Cond.holds .ge x y = y.sle x) ∧
    (Cond.holds .ltn x y = x.ult y) ∧ (Cond.holds .gen x y = y.ule x) ∧ Cond.holds .al x y = true)

/-- R130, R145, R129: `mfc` reads every control register; the words of the packed ones are those of Tables 4.2, 5.3, 5.4, 6.3,
11.1, 11.3, 11.4, 9.9 and 3.3, their reserved bits read as 0. -/
def Obligations.ReadControl : Prop :=
  ∀ (st : Fin 16) (d : Fin 32) (s : State), Issues s [] →
    let f := s.core.f
    let get := fun (c : CReg) (v : Word) => Ends (.mfc st d c) s (s.setX d v) s.nextPc
    let num := fun (c : CReg) (g : Nat → Prop) => ∃ n, n < 2 ^ 64 ∧ g n ∧ get c (BitVec.ofNat 64 n)
    get .corectl (if s.core.schk then 1 else 0) ∧ get .cycle s.cycle ∧ get .trval f.trap.val ∧ get .trpc f.trap.pc ∧
    get .trslot (BitVec.ofNat 64 (s.core.info.slot % 65536)) ∧ get .vstart (BitVec.ofNat 64 (f.vstart % 16384)) ∧
    get .fflags (f.fflags.zeroExtend 64) ∧ get .pseed0 f.pseed0 ∧ get .pseed1 f.pseed1 ∧ get .bstride f.bstride ∧
    (∀ k, get (.fxstate k) f.fx[k]) ∧
    num .isaid (fun n => bits n 0 8 = 1 ∧ bits n 8 8 = 4 ∧ bits n 16 16 = s.mgmt.xver.toNat ∧ bits n 32 16 = 9 ∧
      bits n 48 8 = s.mgmt.stepping.toNat ∧ bits n 56 8 = 0) ∧
    num .coreid (fun n => (s.core.id < 160 → bits n 0 8 = s.core.id ∧ bits n 8 6 = s.core.id / 4 ∧ bits n 14 3 = s.core.id / 20 ∧
      bits n 17 2 = s.core.id / 40) ∧ bits n 19 10 = s.mgmt.device % 1024 ∧
      bits n 29 14 = (if s.core.running then s.core.info.asid % 16384 else 0) ∧ bits n 43 21 = 0) ∧
    num .trcause (fun n => bits n 0 8 = f.trap.cause % 256 ∧ bits n 8 2 = f.trap.level % 4 ∧ bits n 10 3 = f.trap.engine % 8 ∧
      bit n 13 = f.trap.act ∧ bits n 14 6 = f.trap.dumpn % 64 ∧ bits n 20 5 = f.trap.didx % 32 ∧ bit n 25 = f.trap.dvalid ∧
      bit n 26 = f.trap.skip ∧ bits n 27 37 = 0) ∧
    num .vtype (fun n => bits n 0 5 = f.vfmt % 32 ∧ bits n 5 2 = f.vblk % 4 ∧ bit n 7 = false ∧ bits n 8 3 = f.vrm % 8 ∧ bits n 11 53 = 0) ∧
    num .bcarry (fun n => bits n 0 5 = f.bcfmt % 32 ∧ bits n 5 2 = f.bcrm % 4 ∧ bits n 7 57 = 0) ∧
    num .pstart (fun n => bits n 0 16 = f.panel % 65536 ∧ bits n 16 4 = f.stage % 16 ∧ bits n 20 44 = 0) ∧
    (∀ k, num (.tcfg k) fun n => bits n 0 5 = f.tcfg[k].fmt.toNat ∧ bits n 8 7 = f.tcfg[k].rows.toNat ∧
      bits n 16 7 = f.tcfg[k].rb.toNat ∧ bits n 5 3 = 0 ∧ bit n 15 = false ∧ bits n 23 41 = 0) ∧
    (∀ b, num (.qbank b) fun n => let q := s.bank (32 * (s.core.id / 4) + b.val)
      bits n 0 2 = q.mode.code ∧ bit n 2 = q.busy ∧ bit n 3 = q.gv ∧ bits n 4 14 = q.gasid % 16384 ∧
      bits n 18 14 = 0 ∧ bits n 32 13 = (if q.mode = .fifo then q.fifo.length % 2 ^ 13 else 0) ∧ bits n 45 19 = 0)

/-- R130, R132, R145: `mtc` writes the fields that Tables 4.2, 5.2, 6.3, 11.1, 11.3, 11.4 and 9.9 mark RW, with the values
that a reserved one is replaced by; a write of a register of level S needs it; the other registers discard it. -/
def Obligations.WriteControl : Prop :=
  ∀ (st : Fin 16) (a : Fin 32) (s : State), Issues s [a] →
    let w := s.rx a
    let f := s.core.f
    let put := fun (c : CReg) (g : Firing → Firing) => Ends (.mtc st a c) s (s.onF g) s.nextPc
    put .trcause (fun f => { f with trap := { f.trap with skip := w.getLsbD 26 } }) ∧
    put .trpc (fun f => { f with trap := { f.trap with pc := (w.extractLsb' 3 45 ++ (0 : BitVec 3)).zeroExtend 64 } }) ∧
    put .vstart (fun f => { f with vstart := w.toNat % 2 ^ 14 }) ∧
    put .fflags (fun f => { f with fflags := w.truncate 5 }) ∧
    put .pseed0 (fun f => { f with pseed0 := w }) ∧ put .pseed1 (fun f => { f with pseed1 := w }) ∧
    put .bstride (fun f => { f with bstride := w }) ∧
    put .pstart (fun f => { f with panel := w.toNat % 2 ^ 16, stage := w.toNat / 2 ^ 16 % 2 ^ 4 }) ∧
    put .vtype (fun f =>
      let c := w.toNat % 32
      let r := w.toNat / 2 ^ 8 % 8
      { f with vfmt := if c ≤ 20 then c else 9, vblk := if 12 ≤ c ∧ c ≤ 16 then w.toNat / 32 % 4 else 0,
               vrm := if r ≤ 4 then r else f.vrm }) ∧
    put .bcarry (fun f =>
      let c := w.toNat % 32
      { f with bcfmt := if c = 9 ∨ c = 10 ∨ c = 11 then c else 9, bcrm := w.toNat / 32 % 4 }) ∧
    (∀ k, put (.tcfg k) fun f => { f with
      tcfg := f.tcfg.set k { fmt := w.truncate 5, rows := w.extractLsb' 8 7, rb := w.extractLsb' 16 7 } }) ∧
    (∀ k, put (.fxstate k) fun f => { f with fx := f.fx.set k (fxStored k w) }) ∧
    (∀ c, c = CReg.isaid ∨ c = .coreid ∨ c = .cycle ∨ c = .trval ∨ c = .trslot → Ends (.mtc st a c) s s s.nextPc) ∧
    (1 ≤ f.level → Ends (.mtc st a .corectl) s (s.onCore fun c => { c with schk := w.getLsbD 0 }) s.nextPc) ∧
    (∀ b, 1 ≤ f.level →
      let k := 32 * (s.core.id / 4) + b.val
      let lo := quireBase + k * bankSize
      let q := s.bank k
      let new : QBank := { q with gv := w.getLsbD 3, gasid := w.toNat / 16 % 2 ^ 14 }
      (q.mode = .cache → Ends (.mtc st a (.qbank b)) s (s.setBank k new) s.nextPc) ∧
      (q.mode ≠ .cache → (∀ x ∈ s.tokens, s.beater x.loc ≠ k) → (∀ x ∈ s.late, ∀ loc ∈ x.locs, s.homeBank loc ≠ some k) →
        ∃ t, exec (.mtc st a (.qbank b)) s = .next t ∧ t.core.f.fpc = s.nextPc ∧
          t.bank k = { new with fifo := [], fifoHead := 0, fifoBad := 0, reserved := 0 } ∧ (∀ j, j ≠ k → t.bank j = s.bank j) ∧
          (∀ x, Memory.byte t.mem x = if lo ≤ x ∧ x < lo + bankSize then 0 else Memory.byte s.mem x) ∧
          t.content = { s with mem := t.mem, poison := t.poison, banks := t.banks }.content))

/-- R99, R101, R103, R130: below its level, an instruction of level S raises PRIV, whatever registers it names, and nothing
of its effect happens: at level U, with a handler named by `UVEC` and none active, the handler is entered. That the handler starts with `PSTART` 0 rests on
R281 and is log entry 33. -/
def Obligations.Privilege : Prop :=
  ∀ (st : Fin 16) (d a : Fin 32) (k : TlbKind) (sc : Scope) (b : Fin 32) (s : State), Stops s [] →
    s.core.f.level = 0 → s.core.f.trap.act = false → s.desc 0x48 8 % 2 = 1 →
    ∀ i ∈ [Instr.mtc st a .corectl, .mtc st a (.qbank b), .halt st a, .tlbinv st k sc d a],
      Enters i s 0x03 s.core.f.fpc (s.core.f.fpc &&& 0xFFFFFFFFFFF8) 0 (s.desc 0x48 8)

/-- R141, R94, R129: `ld` reads 1, 2, 4 or 8 bytes, sign-extended (even width codes) or zero-extended (odd ones), at
`x[A]` + the sign-extended immediate, with the checks of R141 passed; what is read poisoned makes the register poisoned (R94).
Nothing else changes but the L1, which stays equal to memory. -/
def Obligations.ScalarLoad : Prop :=
  ∀ (st : Fin 16) (w : Fin 8) (d a : Fin 32) (imm : BitVec 32) (s : State), Issues s [a] → MemReady s →
    Coherent s →
    let n := 2 ^ (w.val / 2)
    let va := s.rx a + imm.signExtend 64
    ∀ p, Hits s needLoad va n p →
    let v := Memory.read s.mem p.loc n
    let r := s.setX d (if w.val % 2 = 0 then (BitVec.ofNat (8 * n) v).signExtend 64 else BitVec.ofNat 64 v)
    (s.isPoisoned p.loc n = false → ∃ t, exec (.ld st w d a imm) s = .next t ∧ t.core.f.fpc = s.nextPc ∧ Coherent t ∧
      t.rest = r.rest ∧ t.mem = s.mem ∧ t.poison = s.poison) ∧
    (s.isPoisoned p.loc n = true → (∀ x ∈ s.core.l1, x.1 ≠ p.loc / 128) →
      ∃ t, exec (.ld st w d a imm) s = .next t ∧ t.core.f.fpc = s.nextPc ∧ Coherent t ∧
        t.rest = (r.onF (·.poisonX d)).rest ∧ t.mem = s.mem ∧ t.poison = s.poison)

/-- R141, R68: `st` writes the low 1, 2, 4 or 8 bytes of `x[D]` there, and no other byte; the L1 stays equal to memory. -/
def Obligations.ScalarStore : Prop :=
  ∀ (st : Fin 16) (w : Fin 8) (d a : Fin 32) (imm : BitVec 32) (s : State), Issues s [a, d] → MemReady s →
    Coherent s →
    let n := 2 ^ (w.val / 2)
    ∀ p, Hits s needStore (s.rx a + imm.signExtend 64) n p → s.isPoisoned (p.loc / 8 * 8) 8 = false →
    ∃ t, exec (.st st w d a imm) s = .next t ∧ t.core.f.fpc = s.nextPc ∧ SameMemBut s t [(p.loc, n)] ∧
      Memory.read t.mem p.loc n = (s.rx d).toNat % 2 ^ (8 * n) ∧ Coherent t ∧
      t.rest = s.rest ∧ t.poison = s.poison

/-- R142, R75 (Tables 2.5, 2.9): `amo` answers the word or doubleword at `x[A]` + displacement, sign-extended from 32 bits for
format i32, and replaces it by what its operation makes of it and `x[B]` (`x[C]` is what `cas` compares with); an acquire wider than
the core empties the L1. R360: it takes the firing's next ordinal. That the line read leaves the L1 is log entry 46 (read from R70). -/
def Obligations.ScalarAtomic : Prop :=
  ∀ (st : Fin 16) (op : AmoOp) (ord : Order) (sc : Scope) (d a b c : Fin 32) (disp : BitVec 8) (fmt : Fmt)
    (s : State), Issues s [a, b, c] → MemReady s → Unlogged s → s.core.running = true →
    Instr.wf (.amo st op ord sc d a b c disp fmt) = true →
    let n := fmt.width / 8
    let va := s.rx a + disp.signExtend 64
    ∀ p, Hits s needBoth va n p → scopeBad sc va = false → s.isPoisoned (p.loc / 8 * 8) 8 = false →
    (∀ x ∈ s.tokens, s.beater x.loc ≠ s.beater p.loc) →
    let old := Memory.read s.mem p.loc n
    let y := (s.rx b).toNat % 2 ^ fmt.width
    let z := (s.rx c).toNat % 2 ^ fmt.width
    let sg := fun v => if v < 2 ^ (fmt.width - 1) then (v : Int) else v - 2 ^ fmt.width
    let r := (s.setX d (if fmt = Fmt.i32 then (BitVec.ofNat 32 old).signExtend 64 else BitVec.ofNat 64 old)).event
    ∃ t, exec (.amo st op ord sc d a b c disp fmt) s = .next t ∧ t.core.f.fpc = s.nextPc ∧
      t.rest = r.rest ∧ t.poison = s.poison ∧ t.core.l1 = l1After ord sc (s.core.l1.filter (·.1 ≠ p.loc / 128)) ∧
      SameMemBut s t [(p.loc, n)] ∧
      let new := Memory.read t.mem p.loc n
      (op = .swap → new = y) ∧ (op = .cas → new = if old = z then y else old) ∧
      (op = .add → new = (old + y) % 2 ^ fmt.width) ∧ (op = .and → new = old &&& y) ∧ (op = .or → new = old ||| y) ∧
      (op = .xor → new = old ^^^ y) ∧ (op = .min → new = if sg y < sg old then y else old) ∧
      (op = .max → new = if sg old < sg y then y else old) ∧ (op = .minn → new = min old y) ∧
      (op = .maxn → new = max old y) ∧ (op = .fadd → new = (beaterAdd fmt old y).1)

/-- R143, R75: a `fence` whose core has no token under way changes nothing but the counter, and an acquire wider than the core
empties the L1. R144: `waita` completes when the location differs from `x[B]` (`C` = 0) or equals `x[C]`, and writes the location's value
to `x[D]`, and takes the firing's next ordinal (R360); while it does not, the instruction waits: the counter stays and nothing changes. That the line `waita` reads leaves the L1
is log entry 46 (read from R70). -/
def Obligations.FenceAndWait : Prop :=
  (∀ (st : Fin 16) (ord : Order) (sc : Scope) (s : State), Issues s [] → MemReady s →
    Ends (.fence st ord sc) s
      (s.onCore fun c => { c with l1 := l1After ord sc c.l1 }) s.nextPc) ∧
  (∀ (st : Fin 16) (ord : Order) (sc : Scope) (d a b c : Fin 32) (disp : BitVec 8) (fmt : Fmt) (s : State),
    Issues s [a, b, c] → MemReady s → Unlogged s → Instr.wf (.waita st ord sc d a b c disp fmt) = true →
    let n := fmt.width / 8
    let va := s.rx a + disp.signExtend 64
    ∀ p, Hits s needLoad va n p → scopeBad sc va = false → s.isPoisoned p.loc n = false → s.core.watch = none →
    let m := Memory.read s.mem p.loc n
    let due := if c = 0 then m ≠ (s.rx b).toNat % 2 ^ fmt.width else m = (s.rx c).toNat % 2 ^ fmt.width
    (due → Ends (.waita st ord sc d a b c disp fmt) s
      ((s.setX d (BitVec.ofNat 64 m)).onCore fun k =>
        { k with l1 := l1After ord sc (k.l1.filter (·.1 ≠ p.loc / 128)) }).event s.nextPc) ∧
    (¬due → ∃ t, exec (.waita st ord sc d a b c disp fmt) s = .next t ∧ t.core.f.fpc = s.core.f.fpc ∧
      t.core.wait = some .waita ∧ t.content = s.content))

/-- R146, R101, R103: `sys` enters the system vector at level S, and `brk` the vector of the firing's level, with `TRVAL` the
immediate zero-extended and `TRPC` the next instruction. R127, R101, R128, R111: `halt` at level S or above stops the firing for the debugger with stop code 5: it is saved with the
counter at the next instruction and `TRPC` there, `TRVAL` is `x[A]` whatever `TRCAUSE.ACT` holds, and a record of cause HALT is appended. The model's choices in it: a handler starts
with `PSTART` 0 (log entry 33), the counter that `halt` saves (34), completed results in the saved registers (36). -/
def Obligations.SoftwareTraps : Prop :=
  (∀ (st : Fin 16) (imm : BitVec 32) (s : State), Stops s [] → s.core.f.trap.act = false →
    let level := s.core.f.level
    let vec := s.desc (if level = 0 then 0x48 else 0x50) 8
    (s.desc 0x50 8 % 2 = 1 →
      Enters (.sys st imm) s 0x60 (imm.zeroExtend 64) (s.nextPc &&& 0xFFFFFFFFFFF8) 1 (s.desc 0x50 8)) ∧
    (bit (s.desc 0 4) 5 = false → vec % 2 = 1 →
      Enters (.brk st imm) s 0x61 (imm.zeroExtend 64) (s.nextPc &&& 0xFFFFFFFFFFF8) level vec)) ∧
  (∀ (st : Fin 16) (a : Fin 32) (s : State), Stops s [a] → QueueHere s → Idle s → 1 ≤ s.core.f.level →
    ∃ t, exec (.halt st a) s = .next t ∧
      Saved s t 5 s.nextPc { s.core.f.trap with val := s.rx a, pc := s.nextPc } ∧
      Recorded s t 0x62 s.core.f.fpc 0 0 ∧ s.core.info.asid ∈ t.debugHold ∧ t.mgmt.mint.getLsbD 2 = true)

/-- R104: `eret` goes back to `TRPC` and to the level of the trap, with `PSTART` and the `FXSTATE` registers from the slot; a dump
left by the trap is in the vector instruction queue again, without the entry that `SKIP` and `DIDX` name: it has committed with its unfinished elements
unchanged (of a load, `VSTART` is 0 then); and the commands of the firing may run their follow-on commands again (R303). Outside a handler it raises ILLOP,
and a handler of that is entered (R103, R281) with `PSTART` 0 (log entry 33). -/
def Obligations.ReturnFromTrap : Prop :=
  ∀ (st : Fin 16) (s : State), Stops s [] → s.desc 0x48 8 % 2 = 1 → s.desc 0x50 8 % 2 = 1 →
    let f := s.core.f
    let vec := s.desc (if f.level = 0 then 0x48 else 0x50) 8
    let w := fun off n => Memory.read s.mem (s.slotAt + off) n
    (f.trap.act = true → f.trap.dumpn = 0 →
      Ends (.eret st) s ((s.onOwnCmds fun x => { x with trapHeld := false }).onF fun f => { f with
        level := f.trap.level, trap := { f.trap with act := false, skip := false }, trapSide := [], fxEnds := f.trapEnds,
        panel := w 0x380 2, stage := w 0x382 1 % 16,
        fx := Vector.ofFn fun k => fxStored k (BitVec.ofNat 64 (w (0x388 + 8 * k.val) 8)) }) f.trap.pc) ∧
    (f.trap.act = true → ∀ n, f.trap.dumpn = n + 1 → n < 32 →
      let skips := f.trap.skip && f.trap.dvalid && decide (f.trap.didx ≤ n)
      let m := if skips then n else n + 1
      let word := fun k => w (0x1900 + 64 * k) 8
      ∃ t, exec (.eret st) s = .next t ∧ t.core.f.fpc = f.trap.pc ∧ t.core.f.level = f.trap.level ∧
        t.core.f.trap.act = false ∧ t.core.f.trap.skip = false ∧ t.core.f.queue.length = m ∧
        (∀ k, k < m → let j := if skips ∧ f.trap.didx ≤ k then k + 1 else k
          ∃ e, t.core.f.queue[k]? = some e ∧ e.word = word j ∧ e.pc.toNat = w (0x1908 + 64 * j) 8 ∧
            (∀ i : Fin 4, (e.scal[i]).toNat = w (0x1910 + 64 * j + 8 * i.val) 8) ∧ e.prog = w (0x1930 + 64 * j) 8) ∧
        t.mem = s.mem ∧ t.core.f.x = f.x ∧ (∀ v : Fin 64, (t.core.f.v[v]).bits = f.v[v].bits) ∧ t.core.f.m = f.m ∧ t.core.f.t = f.t ∧
        t.core.f.a = f.a ∧ (skips = false → t.core.f.vstart = f.vstart ∧ t.core.f.v = f.v) ∧
        ∀ o d a k disp fmt, skips = true → decode (word f.trap.didx) = .ok (.vld st o d a k disp fmt) → w (0x193A + 64 * f.trap.didx) 1 % 8 = 1 →
          t.core.f.vstart = 0) ∧
    (f.trap.act = false → Enters (.eret st) s 0x01 f.fpc (f.fpc &&& 0xFFFFFFFFFFF8) f.level vec)

/-- R348, R119: `yield` saves the firing with stop code 4 and the counter at the next instruction, and frees the core; that results still inside their latency
are complete in the saved registers is the model's reading (DEDUCED, log entry 36). R148, R338, R147: `end` frees the core and the slot, takes one from the launch's `LIVE`, and updates the completion word: the firing's
sticky flags at bits 5 to 1, `POISON`, `FAULT`, one more firing in its high half, and `DONE` with the last firing of the launch. -/
def Obligations.YieldAndEnd : Prop :=
  (∀ (st : Fin 16) (s : State), Stops s [] → Idle s →
    ∃ t, exec (.yield st) s = .next t ∧ Saved s t 4 s.nextPc s.core.f.trap) ∧
  (∀ (st : Fin 16) (li : LaunchInfo) (s : State), Stops s [] → Idle s → Unlogged s → s.core.info.actor = none →
    s.core.info.kind ≠ 3 →
    let lid := s.core.info.lid
    let le := fun (u : State) off n => Memory.read u.mem (launchAddr s lid + off) n
    SMap.get none lid s.launches = some li → li.share = none → li.okind ≠ 6 → Present s [(launchAddr s lid, 64)] →
    launchAddr s lid + 64 ≤ ctxAddr s s.core.info.asid 0 ∨ ctxAddr s s.core.info.asid 256 ≤ launchAddr s lid →
    bit s.core.f.prog.toNat 40 = false →
    -- the walk of the launch's context reaches the completion word, once `LIVE` is written
    ∀ loc, le s 0 8 % 8 = 0 → 1 ≤ le s 8 4 →
    ({ s with mem := Memory.write s.mem (launchAddr s lid + 8) 4 (le s 8 4 - 1) } : State).walked (le s 0x28 2) 0 needBoth
      (BitVec.ofNat 64 (le s 0 8)) = some loc →
    s.isPoisoned loc 8 = false → Apart [(loc, 8), (launchAddr s lid, 64)] →
    let flags := (s.core.f.fflags ||| s.core.f.beatFlags).toNat
    let old := Memory.read s.mem loc 8
    let live := le s 8 4
    ∃ t, exec (.endF st) s = .next t ∧ t.core.running = false ∧
      SMap.get none (slotKey s.core.info.asid s.core.info.slot) t.slots = none ∧ le t 8 4 = live - 1 ∧
      (SMap.get none lid t.launches).isSome = decide (1 < live) ∧
      Memory.read t.mem loc 8 =
        (old ||| (2 * flags + (if s.core.f.poisonOut then 2 ^ 6 else 0) + (if s.core.f.faultOwed then 2 ^ 7 else 0)
          ||| if live = 1 then 1 else 0)) % 2 ^ 32 + 2 ^ 32 * ((old / 2 ^ 32 + 1) % 2 ^ 32) ∧
      SameMemBut s t [(loc, 8), (launchAddr s lid + 8, 4)])

/-- R88: `tlbinv` at level S drops every translation its kind names (all, those of a context, those of a page of it) from the TLBs of
every core in its scope and from the cluster TLBs in it, and the L1 of the core, once every access translated through them has been performed: here none is under way. -/
def Obligations.TlbInvalidate : Prop :=
  ∀ (st : Fin 16) (k : TlbKind) (sc : Scope) (d a : Fin 32) (s : State), Issues s [d, a] → 1 ≤ s.core.f.level →
    s.tokens = [] → s.late = [] → (∀ x ∈ s.others, x.2.id = x.1) →
    let asid := (s.rx a).toNat % 2 ^ 14
    let page := (s.rx d).toNat % 2 ^ 48 / 2 ^ 12 * 2 ^ 12
    let stays := fun e : TlbEntry => match k with
      | .all => false
      | .asid => e.asid != asid
      | .page => e.asid != asid || page / 2 ^ e.sizeLog2 != e.vpn
    let inScope := fun cluster => match sc with
      | .co | .cl => decide (cluster = s.core.id / 4)
      | .sg => decide (cluster / 5 = s.core.id / 20)
      | .dm => true
    ∃ t, exec (.tlbinv st k sc d a) s = .next t ∧ t.core.f.fpc = s.nextPc ∧ t.core.tlb = s.core.tlb.filter stays ∧
      t.core.l1 = [] ∧
      t.others = s.others.map (fun (j, c) => (j, if inScope (j / 4) then { c with tlb := c.tlb.filter stays } else c)) ∧
      t.ctlbs = s.ctlbs.map (fun (j, l) => (j, if inScope j then l.filter stays else l)) ∧
      t.content = ({ (s.onCore fun c => { c with tlb := t.core.tlb, l1 := [] }) with others := t.others, ctlbs := t.ctlbs }).content

/-! The lanes. -/

/-- R173, R174, R158, Table 6.8: `vsetvl` grants the smaller of `x[A]` and the maximum length (rounded down to whole blocks), writes
it to `x[D]`, and sets the length register (rounded up to whole blocks, with the padding) and the format; the second form
reads a length register. -/
def Obligations.VectorLength : Prop :=
  ∀ (st : Fin 16) (d a : Fin 32) (l blk : Fin 4) (fmt : Fmt) (s : State), Issues s [a] →
    let b := [0, 16, 32, 64].getD blk.val 0
    let top := min 16384 (32768 / fmt.width)
    let n := min (s.rx a).toNat (if b = 0 then top else top / b * b)
    let count := if b = 0 then n else (n + b - 1) / b * b
    Ends (.vsetvl st d a l blk fmt) s
      ((s.onF fun f => { f with ln := f.ln.set l { count := count, pad := count - n }, vfmt := fmt.code, vblk := blk.val }).setX d
        (BitVec.ofNat 64 n)) s.nextPc ∧
    Ends (.vsetvlRd st d l) s (s.setX d (BitVec.ofNat 64 (s.core.f.ln[l]).count)) s.nextPc

/-- R184 (Table 7.2), R181, R183: the element-wise integer and logical instructions on vector registers: every active element of
`d` takes the operation on the elements of `A` and `B`, `mulh`, `min`, `max` by the format's signedness; nothing else changes. -/
def Obligations.LaneInteger : Prop :=
  ∀ (st : Fin 16) (d a : Fin 64) (b : LaneB) (m : Fin 8) (fmt : Fmt) (s : State),
    LaneOk s (bRegs b) [m] ([d, a] ++ bVec b) →
    let w := fmt.width
    let f := s.core.f
    let sx := fun v : Nat => if v < 2 ^ (w - 1) then (v : Int) else v - 2 ^ w
    let int := fun v : Nat => if fmt.signed then sx v else v
    let un := fun i : Int => (i % 2 ^ w).toNat
    let forms : List ((Fin 16 → LaneReg → LaneReg → LaneB → Fin 8 → Fmt → Instr) × (Nat → Nat → Nat)) :=
      [(.vadd, fun x y => (x + y) % 2 ^ w), (.vsub, fun x y => (x + 2 ^ w - y) % 2 ^ w), (.vmul, fun x y => x * y % 2 ^ w),
       (.vmulh, fun x y => un (int x * int y / 2 ^ w)), (.vmin, fun x y => if int x ≤ int y then x else y),
       (.vmax, fun x y => if int x ≤ int y then y else x), (.vand, fun x y => x &&& y), (.vor, fun x y => x ||| y),
       (.vxor, fun x y => x ^^^ y), (.vshl, fun x y => if y < w then x * 2 ^ y % 2 ^ w else 0),
       (.vshr, fun x y => if y < w then x / 2 ^ y else 0), (.vsra, fun x y => un (sx x / 2 ^ min y w))]
    ∀ i ∈ forms, Instr.wf (i.1 st (.vec d) (.vec a) b m fmt) = true →
      ∃ t, exec (i.1 st (.vec d) (.vec a) b m fmt) s = .next t ∧ t.core.f.fpc = s.nextPc ∧
        Lanes s t (freshRun f w m) d w (fun e => i.2 (f.v[a].elem w e) (bValue f w e b))
          (fun e => f.v[a].elemPoison w e || bPoison f w e b) ∧
        NoFlags s t ∧ t.besides [d] = s.besides [d]

/-- R185 (Table 7.3), R187, R167, R168: the element-wise floating-point instructions: every active element takes the result rounded by
`VTYPE.RM` (the model's `fpElem`, `scaleElem`), its flags are ORed into `FFLAGS`, and nothing else changes. -/
def Obligations.LaneFloat : Prop :=
  ∀ (st : Fin 16) (d a : Fin 64) (b : LaneB) (m : Fin 8) (fmt : Fmt) (s : State),
    LaneOk s (bRegs b) [m] ([d, a] ++ bVec b) →
    let w := fmt.width
    let f := s.core.f
    let c := freshRun f w m
    let two : List ((Fin 16 → LaneReg → LaneReg → LaneB → Fin 8 → Fmt → Instr) × ElemOp × Bool) :=
      [(.vfadd, fpElem .add fmt, false), (.vfsub, fpElem .sub fmt, false), (.vfmul, fpElem .mul fmt, false),
       (.vfma, fpElem .fma fmt, true), (.vfnma, fpElem .fnma fmt, true), (.vfdiv, fpElem .div fmt, false),
       (.vfmin, fpElem .min fmt, false), (.vfmax, fpElem .max fmt, false), (.vscale, scaleElem fmt, false)]
    let one : List ((Fin 16 → LaneReg → LaneReg → Fin 8 → Fmt → Instr) × ElemOp) :=
      [(.vfsqrt, fpElem .sqrt fmt), (.vfrcp, fpElem .rcp fmt), (.vfexp2, fpElem .exp2 fmt)]
    let result := fun (op : ElemOp) (e : Nat) => op e (f.v[a].elem w e) (bValue f w e b) (f.v[d].elem w e) { f with fflags := 0 }
    let flags := fun op => ((List.range c.evl).filter c.active).foldl (fun fl e => fl ||| (result op e).2.fflags) f.fflags
    let sp := fun (usesD : Bool) e => f.v[a].elemPoison w e || (usesD && f.v[d].elemPoison w e)
    (∀ i ∈ two, Instr.wf (i.1 st (.vec d) (.vec a) b m fmt) = true →
      ∃ t, exec (i.1 st (.vec d) (.vec a) b m fmt) s = .next t ∧ t.core.f.fpc = s.nextPc ∧
        Lanes s t c d w (fun e => (result i.2.1 e).1 % 2 ^ w) (fun e => sp i.2.2 e || bPoison f w e b) ∧
        t.core.f.fflags = flags i.2.1 ∧ t.core.f.pseed0 = f.pseed0 ∧ t.core.f.pseed1 = f.pseed1 ∧
        t.besides [d] = s.besides [d]) ∧
    (∀ i ∈ one, Instr.wf (i.1 st (.vec d) (.vec a) m fmt) = true →
      ∃ t, exec (i.1 st (.vec d) (.vec a) m fmt) s = .next t ∧ t.core.f.fpc = s.nextPc ∧
        Lanes s t c d w (fun e => (result i.2 e).1 % 2 ^ w) (sp false) ∧ t.core.f.fflags = flags i.2 ∧
        t.core.f.pseed0 = f.pseed0 ∧ t.core.f.pseed1 = f.pseed1 ∧ t.besides [d] = s.besides [d])

/-- R186, R168, R169, R171: `vcvt`. The plain form converts every active element from format `src` to format `fmt` (the model's `cvtElem`),
a stochastic narrowing one with a draw for each, in index order; the block forms scale by a power of two for each block of
`VTYPE.BLK` elements, which the form towards a block format computes from the block's active elements and writes; elements
behind the last whole block stay as they are, and `vd` grows to the effective length (R153). -/
def Obligations.LaneConvert : Prop :=
  ∀ (st : Fin 16) (d a : Fin 64) (src : Fmt) (vc : Fin 64) (m : Fin 8) (fmt : Fmt) (s : State), LaneOk s [] [m] [d, a, vc] →
    (d = a → src.width = fmt.width) →
    let f := s.core.f
    let c := freshRun f (max src.width fmt.width) m
    let elem := fun e => f.v[a].elem src.width e
    let act := (List.range c.evl).filter c.active
    (Instr.wf (.vcvt st (.vec d) (.vec a) src none m fmt) = true →
      let draws := decide (f.vrm = 4) && narrows src fmt
      let gen := fun e : Nat => if draws then ((List.range e).filter c.active).foldl (fun g _ => g.draw.2) f else f
      let result := fun e => cvtElem src fmt e (elem e) 0 0 { gen e with fflags := 0 }
      ∃ t, exec (.vcvt st (.vec d) (.vec a) src none m fmt) s = .next t ∧ t.core.f.fpc = s.nextPc ∧
        Lanes s t c d fmt.width (fun e => (result e).1 % 2 ^ fmt.width) (fun e => f.v[a].elemPoison src.width e) ∧
        t.core.f.fflags = act.foldl (fun fl e => fl ||| (result e).2.fflags) f.fflags ∧
        t.core.f.pseed0 = (gen c.evl).pseed0 ∧ t.core.f.pseed1 = (gen c.evl).pseed1 ∧ t.besides [d] = s.besides [d]) ∧
    (Instr.wf (.vcvt st (.vec d) (.vec a) src (some vc) m fmt) = true → vc ≠ d → vc ≠ a →
      let b := [0, 16, 32, 64].getD f.vblk 0
      0 < b →
      let n := c.evl / b * b
      let c := { c with padFrom := min c.padFrom n, tail := n }
      let real := fun k => (((List.range b).map (k * b + ·)).filter c.active).map fun e => valueOf src (elem e)
      let scale := fun e => if blockFmt fmt then (blockScale fmt (real (e / b))).1 else f.v[vc].elem 8 (e / b)
      let result := fun e =>
        if blockFmt fmt then toBlockElem src fmt (scale e) (elem e) { f with fflags := 0 }
        else fromBlockElem src fmt (scale e) (elem e) { f with fflags := 0 }
      ∃ t, exec (.vcvt st (.vec d) (.vec a) src (some vc) m fmt) s = .next t ∧ t.core.f.fpc = s.nextPc ∧
        t.core.f.vstart = 0 ∧ (c.empty = true → t.besides [] = s.besides [] ∧ NoFlags s t) ∧
        (c.empty = false → blockFmt fmt = true →
          (∀ k, k < n / b → (t.core.f.v[vc]).elem 8 k = (blockScale fmt (real k)).1) ∧
          (t.core.f.v[vc]).len = max (s.core.f.v[vc]).len (min 4096 (n / b))) ∧
        (f.vrm ≠ 4 → ∀ e, e < 32768 / fmt.width → (t.core.f.v[d]).elem fmt.width e =
          if c.isPad e then 0 else if c.active e then (result e).1 % 2 ^ fmt.width else f.v[d].elem fmt.width e) ∧
        (c.empty = false → (t.core.f.v[d]).len = max (s.core.f.v[d]).len (min 4096 ((c.evl * fmt.width + 7) / 8))) ∧
        (f.vrm ≠ 4 → t.core.f.pseed0 = f.pseed0 ∧ t.core.f.pseed1 = f.pseed1) ∧
        (blockFmt fmt = false → t.besides [d] = s.besides [d]) ∧ t.besides [d, vc] = s.besides [d, vc])

/-- R188 (Table 2.10): `vcmp` and `vfcmp` write a mask bit for each active element, clear those of pad elements and leave the others; comparisons of
integers are signed, or unsigned with the `n` suffix; a NaN makes only `ne` and `un` true. R189: `vmerge` takes each element from `B` where the
mask is set and from `A` elsewhere. R190, R155: the mask instructions. `mand`, `mor`, `mxor`, `mnot` write the bits from `VSTART` to the effective length, 0 for pads;
`mpop` counts the active set bits, `mfirst` answers the lowest, all ones without one; `vmtx` answers 64 bits. -/
def Obligations.CompareAndMask : Prop :=
  (∀ (st : Fin 16) (k : IntCond) (q : FpCond) (d : Fin 8) (v a : Fin 64) (b : LaneB) (m : Fin 8) (fmt : Fmt) (s : State),
    LaneOk s (bRegs b) [m] ([v, a] ++ bVec b) →
    let w := fmt.width
    let f := s.core.f
    let c := freshRun f w m
    let x := fun e => f.v[a].elem w e
    let y := fun e => bValue f w e b
    let sx := fun v : Nat => if v < 2 ^ (w - 1) then (v : Int) else v - 2 ^ w
    let bitsOf := fun (t : State) (g : Nat → Bool) => t.core.f.vstart = 0 ∧ t.besideMask d = s.besideMask d ∧
      ∀ e, e < 16384 → (t.core.f.rm d).getLsbD e = if c.isPad e then false else if c.active e then g e else (f.rm d).getLsbD e
    ((∀ e, e < c.evl → c.active e = true → f.v[a].elemPoison w e = false ∧ bPoison f w e b = false) →
      (Instr.wf (.vcmp st k d (.vec a) b m fmt) = true →
        ∃ t, exec (.vcmp st k d (.vec a) b m fmt) s = .next t ∧ t.core.f.fpc = s.nextPc ∧ NoFlags s t ∧
          bitsOf t fun e => match k with
            | .eq => x e == y e | .ne => x e != y e | .lt => decide (sx (x e) < sx (y e)) | .le => decide (sx (x e) ≤ sx (y e))
            | .gt => decide (sx (x e) > sx (y e)) | .ge => decide (sx (x e) ≥ sx (y e)) | .ltn => decide (x e < y e)
            | .len => decide (x e ≤ y e) | .gtn => decide (x e > y e) | .gen => decide (x e ≥ y e)) ∧
      (Instr.wf (.vfcmp st q d (.vec a) b m fmt) = true →
        let p := fun e => valueOf fmt (x e)
        let r := fun e => valueOf fmt (y e)
        let nan := fun e => (p e).isNan || (r e).isNan
        ∃ t, exec (.vfcmp st q d (.vec a) b m fmt) s = .next t ∧ t.core.f.fpc = s.nextPc ∧
          t.core.f.pseed0 = f.pseed0 ∧ t.core.f.pseed1 = f.pseed1 ∧
          t.core.f.fflags = (if (q = .lt ∨ q = .le ∨ q = .gt ∨ q = .ge) ∧
            (List.range c.evl).any (fun e => c.active e && nan e) = true then f.fflags ||| fNV else f.fflags) ∧
          bitsOf t fun e => match q with
            | .eq => !nan e && cmpEx (p e) (r e) == 0 | .ne => nan e || cmpEx (p e) (r e) != 0
            | .lt => !nan e && decide (cmpEx (p e) (r e) < 0) | .le => !nan e && decide (cmpEx (p e) (r e) ≤ 0)
            | .gt => !nan e && decide (cmpEx (p e) (r e) > 0) | .ge => !nan e && decide (cmpEx (p e) (r e) ≥ 0)
            | .un => nan e | .ord => !nan e)) ∧
    (Instr.wf (.vmerge st (.vec v) (.vec a) b m fmt) = true →
      let sel := fun e => c.mask.getLsbD e
      ∃ t, exec (.vmerge st (.vec v) (.vec a) b m fmt) s = .next t ∧ t.core.f.fpc = s.nextPc ∧
        Lanes s t { c with mask := BitVec.allOnes 16384 } v w (fun e => if sel e then y e else x e)
          (fun e => if sel e then bPoison f w e b else f.v[a].elemPoison w e) ∧
        NoFlags s t ∧ t.besides [v] = s.besides [v])) ∧
  (∀ (st : Fin 16) (d a b : Fin 8) (x : Fin 32) (k : BitVec 8) (s : State), LaneOk s [] [a, b] [] →
    let f := s.core.f
    let c := freshRun f 0 0
    let hit := fun e => (freshRun f 0 b).active e && (f.rm a).getLsbD e
    let n := (List.range 16384).countP hit
    let bitsOf := fun (i : Instr) (g : Nat → Bool) =>
      ∃ t, exec i s = .next t ∧ t.core.f.fpc = s.nextPc ∧ t.core.f.vstart = 0 ∧ NoFlags s t ∧ t.besideMask d = s.besideMask d ∧
        ∀ e, e < 16384 → (t.core.f.rm d).getLsbD e =
          if c.isPad e then false else if c.active e then g e else (f.rm d).getLsbD e
    (d ≠ 0 →
      bitsOf (.mand st d a b) (fun e => (f.rm a).getLsbD e && (f.rm b).getLsbD e) ∧
      bitsOf (.mor st d a b) (fun e => (f.rm a).getLsbD e || (f.rm b).getLsbD e) ∧
      bitsOf (.mxor st d a b) (fun e => (f.rm a).getLsbD e != (f.rm b).getLsbD e) ∧
      bitsOf (.mnot st d a) (fun e => !(f.rm a).getLsbD e)) ∧
    Ends (.mpop st x a b) s ((s.setX x (BitVec.ofNat 64 n)).onF fun f => { f with vstart := 0 }) s.nextPc ∧
    Ends (.mfirst st x a b) s ((s.setX x (if n = 0 then BitVec.allOnes 64
      else BitVec.ofNat 64 ((List.range 16384).findIdx hit))).onF fun f => { f with vstart := 0 }) s.nextPc ∧
    Ends (.vmtx st x a k) s (s.setX x ((f.rm a).extractLsb' (64 * k.toNat) 64)) s.nextPc)

/-- R191: the reductions, over the active elements from the low bits of `x[B]` on: sums modulo 2^w of an integer format, the sum of the fixed
tree of a floating-point format (the model's `reduceTree`), the largest and smallest element; the result is sign-extended for a
signed format, else zero-extended. R192: `vscan` writes at each active element the running sum of `x[B]` and the active elements up to it, or before it (exclusive form);
R193: `viota` writes each active element's index, or the number of active set bits of a mask below it. -/
def Obligations.ReduceAndScan : Prop :=
  (∀ (st : Fin 16) (d : Fin 32) (a : Fin 64) (b : Fin 32) (m : Fin 8) (fmt : Fmt) (s : State), LaneOk s [b] [m] [a] →
    let w := fmt.width
    let f := s.core.f
    let c := freshRun f w m
    let act := (List.range c.evl).filter c.active
    (∀ e ∈ act, f.v[a].elemPoison w e = false) →
    let init := (s.rx b).toNat % 2 ^ w
    let x := fun e => f.v[a].elem w e
    let int := fun v : Nat => if fmt.signed ∧ 2 ^ (w - 1) ≤ v then (v : Int) - 2 ^ w else v
    let leaf := fun e => if c.active e then some (x e) else none
    let tree := fun (comb : Comb) => reduceTree comb (Nat.log2 (512 / w)) leaf c.groups init
    let gives := fun (i : Instr) (r : Nat) (fl : Flags) =>
      ∃ t, exec i s = .next t ∧ t.core.f.fpc = s.nextPc ∧ t.core.f.vstart = 0 ∧ t.core.f.fflags = f.fflags ||| fl ∧
        t.core.f.pseed0 = f.pseed0 ∧ t.core.f.pseed1 = f.pseed1 ∧
        t.besides [] = (s.setX d (widened fmt r)).besides []
    let all := init :: act.map x
    (Instr.wf (.vredsum st d a b m fmt) = true → gives (.vredsum st d a b m fmt) (all.sum % 2 ^ w) 0) ∧
    (Instr.wf (.vfredsum st d a b m fmt) = true →
      gives (.vfredsum st d a b m fmt) (tree (sumFp fmt f.round)).1 (tree (sumFp fmt f.round)).2) ∧
    (fmt.isInt = true → Instr.wf (.vredmax st d a b m fmt) = true →
      ∃ r ∈ all, (∀ y ∈ all, int y ≤ int r) ∧ gives (.vredmax st d a b m fmt) r 0) ∧
    (fmt.isInt = true → Instr.wf (.vredmin st d a b m fmt) = true →
      ∃ r ∈ all, (∀ y ∈ all, int r ≤ int y) ∧ gives (.vredmin st d a b m fmt) r 0) ∧
    (fpFmt fmt = true → gives (.vredmax st d a b m fmt) (tree (extreme fmt false)).1 0 ∧
      gives (.vredmin st d a b m fmt) (tree (extreme fmt true)).1 0)) ∧
  (∀ (st : Fin 16) (d a : Fin 64) (b : Fin 32) (ma m : Fin 8) (y : Bool) (fmt : Fmt) (s : State), LaneOk s [b] [m, ma] [d, a] →
    let w := fmt.width
    let f := s.core.f
    let c := freshRun f w m
    let below := fun e => (List.range e).filter c.active
    let x := fun e => f.v[a].elem w e
    let add := fun p q => if fpFmt fmt then (sumFp fmt f.round p q).1 else (p + q) % 2 ^ w
    let run := fun e => (below e).foldl (fun p i => add p (x i)) ((s.rx b).toNat % 2 ^ w)
    (Instr.wf (.vscan st d a b m y fmt) = true →
      ∃ t, exec (.vscan st d a b m y fmt) s = .next t ∧ t.core.f.fpc = s.nextPc ∧
        Lanes s t c d w (fun e => run (if y then e else e + 1))
          (fun e => (below (if y then e else e + 1)).any fun i => f.v[a].elemPoison w i) ∧
        t.core.f.fflags = (if fpFmt fmt then (below c.evl).foldl (fun fl e => fl ||| (sumFp fmt f.round (run e) (x e)).2) f.fflags
          else f.fflags) ∧
        t.core.f.pseed0 = f.pseed0 ∧ t.core.f.pseed1 = f.pseed1 ∧ t.besides [d] = s.besides [d]) ∧
    (Instr.wf (.viota st d ma m y fmt) = true →
      ∃ t, exec (.viota st d ma m y fmt) s = .next t ∧ t.core.f.fpc = s.nextPc ∧
        Lanes s t c d w (fun e => (if y then (below e).countP fun i => (f.rm ma).getLsbD i else e) % 2 ^ w) (fun _ => false) ∧
        NoFlags s t ∧ t.besides [d] = s.besides [d]))

/-- R194 to R196: the moves: `vslide` up and down by `x[B]`, `vgrp` by indices into a group of registers, `vbcast` of a scalar or of one element;
an index out of range gives 0 (in the forms without `.bnd`; those with it complete where every index is in range). R198: `vcomp` packs the active elements into the lowest elements of `vd`, and writes their count to a length register; R197: `vextr` writes one
element to `x[D]`, 0 for an index out of range without `.bnd`. -/
def Obligations.MoveAndExtract : Prop :=
  (∀ (st : Fin 16) (d a v : Fin 64) (b : Fin 32) (m n : Fin 8) (y z : Bool) (fmt : Fmt) (s : State),
    LaneOk s [b] [m] ([d, v] ++ (List.range (n.val + 1)).map fun i => Fin.ofNat 64 (a.val + i)) →
    let w := fmt.width
    let f := s.core.f
    let c := freshRun f w m
    let k := (s.rx b).toNat
    let bound := min 16384 (32768 / w)
    let moved := fun (i : Instr) (c : LaneRun) (pick : Nat → Option (Fin 64 × Nat)) (p0 : Nat → Bool) => Instr.wf i = true →
      ∃ t, exec i s = .next t ∧ t.core.f.fpc = s.nextPc ∧
        Lanes s t c d w (fun e => match pick e with | some (r, j) => f.v[r].elem w j | none => 0)
          (fun e => p0 e || match pick e with | some (r, j) => f.v[r].elemPoison w j | none => false) ∧
        NoFlags s t ∧ t.besides [d] = s.besides [d]
    let no := fun _ : Nat => false
    moved (.vslide st d a b m true fmt) c (fun e => if k ≤ e then some (a, e - k) else none) no ∧
    moved (.vslide st d a b m false fmt) c (fun e => if e + k < c.evl then some (a, e + k) else none) no ∧
    (let iw := if y then 32 else 16
     let idx := fun e => f.v[v].elem iw e
     let lim := if y then (n.val + 1) * bound else min ((n.val + 1) * bound) 0xFFFF
     let g := freshRun f (max w iw) m
     (z = true → ∀ e, e < g.evl → g.active e = true → idx e < lim) →
     moved (.vgrp st d a v m n y z fmt) g
      (fun e => if idx e < lim then some (Fin.ofNat 64 (a.val + idx e / bound), idx e % bound) else none)
      (fun e => f.v[v].elemPoison iw e)) ∧
    ((z = true → k < bound) → moved (.vbcast st d a b m true z fmt) c (fun _ => if k < bound then some (a, k) else none) no) ∧
    (Instr.wf (.vbcast st d 0 b m false false fmt) = true →
      ∃ t, exec (.vbcast st d 0 b m false false fmt) s = .next t ∧ t.core.f.fpc = s.nextPc ∧
        Lanes s t c d w (fun _ => k % 2 ^ w) no ∧ NoFlags s t ∧ t.besides [d] = s.besides [d])) ∧
  (∀ (st : Fin 16) (d a : Fin 64) (b x : Fin 32) (l : Fin 4) (m : Fin 8) (y : Bool) (fmt : Fmt) (s : State),
    LaneOk s [b] [m] [d, a] →
    let w := fmt.width
    let f := s.core.f
    let c := freshRun f w m
    let k := (s.rx b).toNat
    let bound := min 16384 (32768 / w)
    (let act := (List.range c.evl).filter c.active
     let q := act.length
     let out : LaneRun := { c with vstart := 0, evl := q, padFrom := q, tail := q, mask := BitVec.allOnes 16384 }
     Instr.wf (.vcomp st d a l m fmt) = true →
      ∃ t, exec (.vcomp st d a l m fmt) s = .next t ∧ t.core.f.fpc = s.nextPc ∧
        Lanes s t out d w (fun e => f.v[a].elem w (act.getD e 0)) (fun e => f.v[a].elemPoison w (act.getD e 0)) ∧ NoFlags s t ∧
        t.besides [d] = (s.onF fun f => { f with
          ln := if c.empty then f.ln else f.ln.set l { count := q, pad := 0 } }).besides [d]) ∧
    (Instr.wf (.vextr st x a b y fmt) = true → (k < bound → f.v[a].elemPoison w k = false) → (y = false ∨ k < bound) →
      ∃ t, exec (.vextr st x a b y fmt) s = .next t ∧ t.core.f.fpc = s.nextPc ∧ t.core.f.vstart = f.vstart ∧ NoFlags s t ∧
        t.besides [] = (s.setX x (if k < bound then widened fmt (f.v[a].elem w k) else 0)).besides []))

/-- R201: `vprune` keeps an active element whose magnitude is not below the threshold `x[B]`, and each other with probability |a| / t: kept, it becomes
the threshold with its sign, else a zero with its sign; mask register `j` tells which were kept. The draws are those of the
generator, in index order. With a mask register to write, a poisoned active element raises POISON (R94); that nothing of its group is performed then is log entry 116, that `TRVAL` is then the instruction's address is
the model's reading (DEDUCED, log entry 32). R199: `vappend` adds the
number of active elements to the descriptor's `TAIL`, answers the old tail in `x[D]`, and stores the active elements from
that position on, those below `CAP` alone; it takes the firing's next ordinal (R360). The order of its checks of the descriptor is log entry 117. -/
def Obligations.PruneAndAppend : Prop :=
  (∀ (st : Fin 16) (d a : Fin 64) (b : Fin 32) (m j : Fin 8) (fmt : Fmt) (s : State), LaneOk s [b] [m] [d, a] →
    Instr.wf (.vprune st d a b m j fmt) = true →
    let w := fmt.width
    let f := s.core.f
    let c := freshRun f w m
    let t' := (s.rx b).toNat % 2 ^ w
    let y := valueOf fmt t'
    let ok := !y.isNan && !y.isInf && !y.isZero && !y.sign
    let act := fun e => (List.range e).filter c.active
    let gen := fun e => (act e).foldl (fun g i => (pruneElem fmt t' ok (f.v[a].elem w i) g).2.2) f
    let result := fun e => pruneElem fmt t' ok (f.v[a].elem w e) (gen e)
    (j ≠ 0 → ∀ e, e < c.evl → c.active e = true → f.v[a].elemPoison w e = true → TrapReady s [b] →
      Raises (.vprune st d a b m j fmt) s 0x30 f.fpc) ∧
    ((j ≠ 0 → ∀ e, e < c.evl → c.active e = true → f.v[a].elemPoison w e = false) →
    ∃ t, exec (.vprune st d a b m j fmt) s = .next t ∧ t.core.f.fpc = s.nextPc ∧
      Lanes s t c d w (fun e => (result e).1 % 2 ^ w) (fun e => f.v[a].elemPoison w e) ∧
      t.core.f.pseed0 = (gen c.evl).pseed0 ∧ t.core.f.pseed1 = (gen c.evl).pseed1 ∧
      t.core.f.fflags = (if ok || (act c.evl).isEmpty then f.fflags else f.fflags ||| fNV) ∧
      (∀ e, e < 16384 → (t.core.f.rm j).getLsbD e =
        if j = 0 then true else if c.isPad e then false else if c.active e then (result e).2.1 else (f.rm j).getLsbD e) ∧
      (t.onF fun g => { g with m := g.m.set j 0, badM := g.badM &&& ~~~(1#8 <<< j.val) }).besides [d] =
        (s.onF fun g => { g with m := g.m.set j 0, badM := g.badM &&& ~~~(1#8 <<< j.val) }).besides [d])) ∧
  (∀ (st : Fin 16) (sc : Scope) (d a : Fin 32) (b : Fin 64) (m : Fin 8) (fmt : Fmt) (s : State), LaneOk s [a] [m] [b] → MemOk s →
    Unlogged s → s.core.running = true → Instr.wf (.vappend st .rlx sc d a b m fmt) = true →
    let w := fmt.width
    let f := s.core.f
    let c := freshRun f w m
    let desc := s.rx a
    let act := (List.range c.evl).filter c.active
    let word := fun va : Word => Memory.read s.mem (s.locOf needLoad va 8) 8
    let base := word desc
    let old := Memory.read s.mem (s.locOf needBoth (desc + 8) 8) 8
    let cap := word (desc + 16)
    let va := fun j => BitVec.ofNat 64 (base + (old + j) * (w / 8))
    scopeBad sc desc = false → Reaches s needLoad [(desc, 8), (desc + 16, 8)] → Reaches s needBoth [(desc + 8, 8)] →
    (∀ e, e ∈ act → f.v[b].elemPoison w e = false) →
    (∀ j, j < act.length → old + j < cap → Reaches s needStore [(va j, w / 8)]) →
    (∀ x ∈ s.tokens, s.beater x.loc ≠ s.beater (s.locOf needBoth (desc + 8) 8)) →
    ∃ t, exec (.vappend st .rlx sc d a b m fmt) s = .next t ∧ t.core.f.fpc = s.nextPc ∧ t.core.f.vstart = 0 ∧ NoFlags s t ∧
      t.mem = act.zipIdx.foldl (fun mem x => if old + x.2 < cap then
          Memory.write mem (s.locOf needStore (va x.2) (w / 8)) (w / 8) (f.v[b].elem w x.1) else mem)
        (Memory.write s.mem (s.locOf needBoth (desc + 8) 8) 8 ((old + act.length) % 2 ^ 64)) ∧
      t.poison = s.poison ∧ Coherent t ∧
      t.rest.besides [] = (s.setX d (BitVec.ofNat 64 old)).event.rest.besides [])

/-- R182, R294, R297: an element-wise instruction takes its `A` operand from a read stream, in element order from its position on, and gives its
result to a write stream, an element it does not write being 0 and the last block filled with zeros; each stream
advances by whole blocks of 64 bytes, and a FIFO bank pops the blocks read and reserves places for those written. With the operations of R184 to R189: integer, logical and
floating-point forms, `vscale`, `vcvt` in both forms, `vmerge`, and `vcmp` and `vfcmp` into a mask. Here the blocks read are at hand, those written find room, and no source is poisoned. -/
def Obligations.StreamOperands : Prop :=
  ∀ (st : Fin 16) (d a : LaneReg) (b : LaneB) (m j : Fin 8) (src fmt : Fmt) (vc : Fin 64) (kc : IntCond) (kf : FpCond) (s : State),
    LaneOk s (bRegs b) [m] (regVecs d ++ regVecs a ++ bVec b ++ [vc]) →
    let w := fmt.width
    let f := s.core.f
    let blocks := fun (c : LaneRun) (w : Nat) => (c.evl * w + 511) / 512
    let clean := fun (c : LaneRun) (w : Nat) => ∀ e, e < c.evl → bPoison f fmt.width e b = false ∧ ∀ v, a = .vec v → f.v[v].elemPoison w e = false
    let old := fun e => match d with | .vec v => f.v[v].elem w e | .stream _ => 0
    let keeps := fun (t : State) => t.core.f.pseed0 = f.pseed0 ∧ t.core.f.pseed1 = f.pseed1
    (let c := freshRun f w m
     let n := blocks c w
     let x := fun e => s.operand w n e a
     let y := fun e => bValue f w e b
     let act := (List.range c.evl).filter c.active
     c.empty = false → clean c w → Takes s n a →
      (Gives s n d →
       (let two : List ((Fin 16 → LaneReg → LaneReg → LaneB → Fin 8 → Fmt → Instr) × ElemOp × Bool) :=
          ([(.vadd, .add), (.vsub, .sub), (.vmul, .mul), (.vmulh, .mulh), (.vmin, .min), (.vmax, .max), (.vand, .and), (.vor, .or),
            (.vxor, .xor), (.vshl, .shl), (.vshr, .shr), (.vsra, .sra)] : List (_ × IntOp)).map (fun i => (i.1, intElem i.2 fmt, false)) ++
          [(.vfadd, fpElem .add fmt, false), (.vfsub, fpElem .sub fmt, false), (.vfmul, fpElem .mul fmt, false),
           (.vfma, fpElem .fma fmt, true), (.vfnma, fpElem .fnma fmt, true), (.vfdiv, fpElem .div fmt, false),
           (.vfmin, fpElem .min fmt, false), (.vfmax, fpElem .max fmt, false), (.vscale, scaleElem fmt, false)]
        let one : List ((Fin 16 → LaneReg → LaneReg → Fin 8 → Fmt → Instr) × ElemOp) :=
          [(.vfsqrt, fpElem .sqrt fmt), (.vfrcp, fpElem .rcp fmt), (.vfexp2, fpElem .exp2 fmt)]
        let gives := fun (i : Instr) (op : ElemOp) (usesD : Bool) => Instr.wf i = true →
          let result := fun e => op e (x e) (y e) (old e) { f with fflags := 0 }
          ∃ t, exec i s = .next t ∧ t.core.f.fpc = s.nextPc ∧ keeps t ∧
            t.core.f.fflags = act.foldl (fun fl e => fl ||| (result e).2.fflags) f.fflags ∧
            Streamed s t c d a w n (fun e => (result e).1 % 2 ^ w)
              (fun e => usesD && match d with | .vec v => f.v[v].elemPoison w e | .stream _ => false) []
        (∀ i ∈ two, gives (i.1 st d a b m fmt) i.2.1 i.2.2) ∧ (∀ i ∈ one, gives (i.1 st d a m fmt) i.2 false)) ∧
       (Instr.wf (.vmerge st d a b m fmt) = true →
         ∃ t, exec (.vmerge st d a b m fmt) s = .next t ∧ t.core.f.fpc = s.nextPc ∧ NoFlags s t ∧
           Streamed s t { c with mask := BitVec.allOnes 16384 } d a w n (fun e => if c.mask.getLsbD e then y e else x e) (fun _ => false) [])) ∧
      (let compares := fun (i : Instr) (op : Nat → Nat → Bool × Flags) => Instr.wf i = true →
         ∃ t, exec i s = .next t ∧ t.core.f.fpc = s.nextPc ∧ t.core.f.vstart = 0 ∧ keeps t ∧
           t.core.f.fflags = act.foldl (fun fl e => fl ||| (op (x e) (y e)).2) f.fflags ∧
           (∀ e, e < 16384 → (t.core.f.rm j).getLsbD e =
             if c.isPad e then false else if c.active e then (op (x e) (y e)).1 else (f.rm j).getLsbD e) ∧
           SameBut (t.onF fun g => { g with m := g.m.set j 0, badM := 0 }) ((s.take n a).onF fun g => { g with m := g.m.set j 0, badM := 0 }) []
       f.badM = 0 → compares (.vcmp st kc j a b m fmt) (fun x y => (intCond kc fmt x y, 0)) ∧
         compares (.vfcmp st kf j a b m fmt) (fpCond kf fmt))) ∧
    (let c := freshRun f (max src.width w) m
     let n := blocks c src.width
     let x := fun e => s.operand src.width n e a
     (d = a → src.width = w) → clean c src.width → Takes s n a → Gives s (blocks c w) d →
      (Instr.wf (.vcvt st d a src none m fmt) = true → c.empty = false →
        let act := (List.range c.evl).filter c.active
        let draws := decide (f.vrm = 4) && narrows src fmt
        let gen := fun e : Nat => if draws then ((List.range e).filter c.active).foldl (fun g _ => g.draw.2) f else f
        let result := fun e => cvtElem src fmt e (x e) 0 0 { gen e with fflags := 0 }
        ∃ t, exec (.vcvt st d a src none m fmt) s = .next t ∧ t.core.f.fpc = s.nextPc ∧
          t.core.f.fflags = act.foldl (fun fl e => fl ||| (result e).2.fflags) f.fflags ∧
          t.core.f.pseed0 = (gen c.evl).pseed0 ∧ t.core.f.pseed1 = (gen c.evl).pseed1 ∧
          Streamed s t c d a w n (fun e => (result e).1 % 2 ^ w) (fun _ => false) []) ∧
      (Instr.wf (.vcvt st d a src (some vc) m fmt) = true → d ≠ .vec vc → a ≠ .vec vc → f.vrm ≠ 4 →
        let len := [0, 16, 32, 64].getD f.vblk 0
        0 < len →
        let whole := c.evl / len * len
        let c := { c with padFrom := min c.padFrom whole, tail := whole }
        c.empty = false → (∀ k, k < whole / len → f.v[vc].elemPoison 8 k = false) →
        let real := fun k => (((List.range len).map (k * len + ·)).filter c.active).map fun e => valueOf src (x e)
        let scale := fun e => if blockFmt fmt then (blockScale fmt (real (e / len))).1 else f.v[vc].elem 8 (e / len)
        let result := fun e =>
          if blockFmt fmt then toBlockElem src fmt (scale e) (x e) { f with fflags := 0 }
          else fromBlockElem src fmt (scale e) (x e) { f with fflags := 0 }
        ∃ t, exec (.vcvt st d a src (some vc) m fmt) s = .next t ∧ t.core.f.fpc = s.nextPc ∧ keeps t ∧
          (blockFmt fmt = true → ∀ k, k < whole / len → (t.core.f.v[vc]).elem 8 k = (blockScale fmt (real k)).1) ∧
          Streamed s t c d a w n (fun e => (result e).1 % 2 ^ w) (fun _ => false) (if blockFmt fmt then [vc] else [])))

/-- R205 to R207, R210, R215: vector loads, unit stride (from a bit offset), strided and indexed: every active element takes what its address
holds, with its poison, an element whose index is out of range 0; memory is unchanged, and nothing else changes but the L1. An index that is out of range raises BOUND in
the `.bnd` forms, and a poisoned one in range POISON (R206, R212, R213), at the lowest such element. Elements in a page that is not mapped stop the instruction by the replayable-fault protocol,
with a record for the page (R213, R214). -/
def Obligations.VectorLoad : Prop :=
  ∀ (st : Fin 16) (o : Fin 8) (d v : Fin 64) (a b x : Fin 32) (m : Fin 8) (disp : BitVec 8) (sc : Fin 4) (x32 bnd : Bool) (fmt : Fmt)
    (s : State), LaneOk s [a, b, x] [m] [d, v] → MemOk s →
    let w := fmt.width
    let f := s.core.f
    let base := s.rx a + disp.signExtend 64
    let iw := if x32 then 32 else 16
    let idx := fun e => f.v[v].elem iw e
    let lim := if x = 0 then 2 ^ iw - 1 else min (s.rx x).toNat (2 ^ iw - 1)
    let loads := fun (i : Instr) (c : LaneRun) (ok : Nat → Bool) (va : Nat → Word) (bo : Nat → Nat) => Instr.wf i = true →
      let at' := fun e => accesses w (bo e) (va e)
      ((∀ e, e < c.evl → c.active e = true → ok e = true → Hit s needLoad (at' e) ∧ (s.struck needLoad (at' e) = true → CleanL1 s)) →
        ∃ t, exec i s = .next t ∧ t.core.f.fpc = s.nextPc ∧
          Lanes s t c d w (fun e => if ok e then gather s w (bo e) (va e) else 0) (fun e => ok e && s.struck needLoad (at' e)) ∧
          NoFlags s t ∧ Coherent t ∧ t.mem = s.mem ∧ t.poison = s.poison ∧ t.rest.besides [d] = s.rest.besides [d]) ∧
      (∀ e page, e < c.evl → Stops s [a, b, x] → QueueHere s → Idle s → s.leads = [] →
        let bad := fun e => (at' e).filter fun y => y.1.toNat / 4096 == page
        (∀ e, e < c.evl → c.active e = true → ok e = true →
          (∀ y ∈ bad e, Unmapped s y.1 y.2) ∧ ∀ y ∈ at' e, y ∉ bad e → (s.hit needLoad y.1 y.2).isSome = true) →
        let hit := fun e => c.active e && ok e && !(bad e).isEmpty
        hit e = true → (∀ k, k < e → hit k = false) →
        Replayed i s (((bad e).head?.map (·.1)).getD 0) e ((List.range c.evl).countP hit) 1)
    loads (.vld st o d a m disp fmt) (freshRun f w m) (fun _ => true) (fun e => base + BitVec.ofNat 64 ((o.val + e * w) / 8))
      (fun e => (o.val + e * w) % 8) ∧
    loads (.vlds st d a b m disp fmt) (freshRun f w m) (fun _ => true) (fun e => base + BitVec.ofNat 64 e * s.rx b) (fun _ => 0) ∧
    (let c := freshRun f (max w iw) m
     let va := fun e => s.rx a + BitVec.ofNat 64 (idx e * 2 ^ sc.val)
     let i := Instr.vldx st sc d a v x m x32 bnd fmt
     ((∀ e, e < c.evl → c.active e = true → (idx e < lim → f.v[v].elemPoison iw e = false) ∧ (bnd = true → idx e < lim)) →
       loads i c (fun e => decide (idx e < lim)) va (fun _ => 0)) ∧
     (Instr.wf i = true → TrapReady s [a, x] →
       let stops := fun e => c.active e && (if idx e < lim then f.v[v].elemPoison iw e else bnd)
       (∀ e, e < c.evl → c.active e = true → stops e = false → idx e < lim → Hit s needLoad (accesses w 0 (va e))) →
       ∀ e, e < c.evl → stops e = true → (∀ k, k < e → stops k = false) →
         if idx e < lim then Raises i s 0x30 (va e) else Raises i s 0x15 0))

/-- R205 to R207, R209, R210: vector stores: the active elements are stored in index order, of a format below 8 bits only their bits, a poisoned element as poisoned data at the grain of
Table 3.8; an element whose index is out of range is not stored; no other byte of memory changes, nor anything else. A part of a word that holds poison is not stored into (R95): the store is dropped, with a
record of POISONSTORE, and the firing's `POISON` is noted (R97). An index that is out of range raises BOUND in the `.bnd` forms, and a poisoned one in range POISON (R206, R212, R213); elements in
a page that is not mapped stop the instruction by the replayable-fault protocol (R214). -/
def Obligations.VectorStore : Prop :=
  ∀ (st : Fin 16) (o : Fin 8) (d v : Fin 64) (a b x : Fin 32) (m : Fin 8) (disp : BitVec 8) (sc : Fin 4) (x32 bnd : Bool) (fmt : Fmt)
    (s : State), LaneOk s [a, b, x] [m] [d, v] → MemOk s →
    let w := fmt.width
    let f := s.core.f
    let base := s.rx a + disp.signExtend 64
    let iw := if x32 then 32 else 16
    let idx := fun e => f.v[v].elem iw e
    let lim := if x = 0 then 2 ^ iw - 1 else min (s.rx x).toNat (2 ^ iw - 1)
    let stores := fun (i : Instr) (c : LaneRun) (ok : Nat → Bool) (va : Nat → Word) (bo : Nat → Nat) => Instr.wf i = true →
      let at' := fun e => accesses w (bo e) (va e)
      let act := (List.range c.evl).filter fun e => c.active e && ok e
      let u := act.foldl (fun u e => storeElement s w (bo e) (va e) (f.v[d].elem w e) (f.v[d].elemPoison w e) u) (s, false)
      ((∀ e ∈ act, Hit s needStore (at' e)) →
        (u.2 = false →
          ∃ t, exec i s = .next t ∧ t.core.f.fpc = s.nextPc ∧ t.core.f.vstart = 0 ∧ NoFlags s t ∧ Coherent t ∧
            t.mem = u.1.mem ∧ t.poison = u.1.poison ∧ t.core.f.poisonOut = (f.poisonOut || act.any fun e => f.v[d].elemPoison w e) ∧
            t.rest.besides [] = s.rest.besides []) ∧
        (∀ e y, act = [e] → at' e = [y] → y.2 < 8 → s.isPoisoned (s.locOf needStore y.1 y.2 / 8 * 8) 8 = true → QueueHere s →
          bit (s.desc 0 4) 1 = false →
          ∃ t, exec i s = .next t ∧ t.core.f.fpc = s.nextPc ∧ t.core.f.vstart = 0 ∧ NoFlags s t ∧ t.core.f.poisonOut = true ∧
            RecordedAs s t 0x32 2 0xFFFF 0xFFFF y.1 0 0 2 ∧
            SameMemBut s t [(s.desc 0x20 8, 32 * 2 ^ s.desc 0x28 1), (ctxAddr s s.core.info.asid 0, 256)])) ∧
      (∀ e page, Stops s [a, b, x] → QueueHere s → Idle s → s.leads = [] → act.head? = some e →
        (∀ k ∈ act, ∀ y ∈ at' k, Unmapped s y.1 y.2 ∧ y.1.toNat / 4096 = page) →
        Replayed i s (va e) e act.length 2)
    stores (.vst st o d a m disp fmt) (freshRun f w m) (fun _ => true) (fun e => base + BitVec.ofNat 64 ((o.val + e * w) / 8))
      (fun e => (o.val + e * w) % 8) ∧
    stores (.vsts st d a b m disp fmt) (freshRun f w m) (fun _ => true) (fun e => base + BitVec.ofNat 64 e * s.rx b) (fun _ => 0) ∧
    (let c := freshRun f (max w iw) m
     let va := fun e => s.rx a + BitVec.ofNat 64 (idx e * 2 ^ sc.val)
     let i := Instr.vstx st sc d a v x m x32 bnd fmt
     ((∀ e, e < c.evl → c.active e = true → (idx e < lim → f.v[v].elemPoison iw e = false) ∧ (bnd = true → idx e < lim)) →
       stores i c (fun e => decide (idx e < lim)) va (fun _ => 0)) ∧
     (Instr.wf i = true → TrapReady s [a, x] →
       let stops := fun e => c.active e && (if idx e < lim then f.v[v].elemPoison iw e else bnd)
       (∀ e, e < c.evl → c.active e = true → stops e = false → idx e < lim →
         f.v[d].elemPoison w e = false ∧ Reaches s needStore (accesses w 0 (va e)) ∧
           ∀ y ∈ accesses w 0 (va e), ∀ x ∈ [(s.slotAt, 2 ^ 20), (ctxAddr s s.core.info.asid 0, 256)],
             s.locOf needStore y.1 y.2 + y.2 ≤ x.1 ∨ x.1 + x.2 ≤ s.locOf needStore y.1 y.2) →
       ∀ e, e < c.evl → stops e = true → (∀ k, k < e → stops k = false) →
         if idx e < lim then Raises i s 0x30 (va e) else Raises i s 0x15 0))

/-- R216 to R218 (Table 8.4): `vspill` writes a frame at `x[A]` + displacement: a header of 64 bytes with the format, the count, the padding and
the poison of the groups, then the bytes of the elements; `vfill` reads it back into a register and a length register.
That `vspill` of a length register of 0 still writes its header is the model's reading (log entry 53); that `vfill` does not
look at poison of the header is its choice (log entry 133). -/
def Obligations.SpillAndFill : Prop :=
  ∀ (st : Fin 16) (d : Fin 64) (a : Fin 32) (l : Fin 4) (disp : BitVec 8) (fmt : Fmt) (s : State), LaneOk s [a] [] [d] → MemOk s →
    let w := fmt.width
    let f := s.core.f
    let frame := s.rx a + disp.signExtend 64
    let top := min 16384 (32768 / w)
    (Instr.wf (.vspill st d a l disp fmt) = true →
      let n := min f.ln[l].count top
      let size := (n * w + 7) / 8
      let groups := (size + 63) / 64
      let loc := s.locOf needStore frame 64
      (∀ k, k < groups + 1 → (s.hit needStore (frame + BitVec.ofNat 64 (64 * k)) 64).isSome = true ∧
        s.locOf needStore (frame + BitVec.ofNat 64 (64 * k)) 64 = loc + 64 * k ∧ s.isPoisoned (loc + 64 * k) 64 = false) →
      (∀ g, g < groups → f.v[d].poison.getLsbD g = false) →
      ∃ t, exec (.vspill st d a l disp fmt) s = .next t ∧ t.core.f.fpc = s.nextPc ∧
        Memory.read t.mem loc 64 = fmt.code + 2 ^ 16 * n + 2 ^ 32 * min f.ln[l].pad n + 2 ^ 128 * size ∧
        Memory.read t.mem (loc + 64) size = f.v[d].bits.toNat % 2 ^ (8 * size) ∧ SameMemBut s t [(loc, 64 + size)] ∧ Coherent t ∧
        NoFlags s t ∧ t.core.f.vstart = f.vstart ∧ t.poison = s.poison ∧ t.rest.besides [] = s.rest.besides []) ∧
    (Instr.wf (.vfill st d a l disp fmt) = true →
      let loc := s.locOf needLoad frame 64
      let head := Memory.read s.mem loc 64
      let n := min (bits head 16 16) top
      let size := (n * w + 7) / 8
      let groups := (size + 63) / 64
      (∀ k, k < groups + 1 → (s.hit needLoad (frame + BitVec.ofNat 64 (64 * k)) 64).isSome = true ∧
        s.locOf needLoad (frame + BitVec.ofNat 64 (64 * k)) 64 = loc + 64 * k ∧ s.isPoisoned (loc + 64 * k) 64 = false) →
      ∃ t, exec (.vfill st d a l disp fmt) s = .next t ∧ t.core.f.fpc = s.nextPc ∧
        (t.core.f.v[d]).bits.toNat % 2 ^ (8 * size) = Memory.read s.mem (loc + 64) size ∧
        (t.core.f.v[d]).bits.toNat / 2 ^ (8 * size) = f.v[d].bits.toNat / 2 ^ (8 * size) ∧
        (t.core.f.v[d]).len = max f.v[d].len size ∧
        (∀ g, g < groups → 64 * (g + 1) ≤ size → (t.core.f.v[d]).poison.getLsbD g = bit head (64 + g)) ∧
        t.core.f.vstart = f.vstart ∧ NoFlags s t ∧ Coherent t ∧ t.mem = s.mem ∧ t.poison = s.poison ∧
        t.rest.besides [d] = (s.onF fun f => { f with ln := f.ln.set l { count := n, pad := min (bits head 32 6) n } }).rest.besides [d])

/-! The beaters. -/

/-- R314 to R318, R206, R309, R310: `vscadd` and `vstc` send one token for each active element, to the address its index gives (an index out of range
sends none). Ordered, they are performed in index order before the instruction ends: an add, modulo 2^w for an integer format (rounded
to nearest for a floating-point one), or a store, a poisoned element as poisoned data, at places where none is dropped over poison. Relaxed, they are under way: with at most 16 of them and none before, memory is as before
and the tokens hold the locations and values. No register changes; the instruction takes the firing's next ordinal (R360). An index that is out of range raises BOUND in the `.bnd`
forms, and a poisoned one in range POISON (R206, R212, R213). The model's choices in it: ordered tokens are performed before the instruction ends (log entry 79), relaxed ones wait and merge only as the schedule has it (log entry 16). -/
def Obligations.ScatterAdd : Prop :=
  ∀ (st : Fin 16) (ord : Order) (sc : Scope) (d v : Fin 64) (a x : Fin 32) (m : Fin 8) (x32 bnd : Bool) (k : Fin 4) (fmt : Fmt) (s : State),
    LaneOk s [a, x] [m] [d, v] → MemOk s → Unlogged s → s.core.running = true → s.tokens = [] →
    let w := fmt.width
    let f := s.core.f
    let iw := if x32 then 32 else 16
    let c := freshRun f (max w iw) m
    let idx := fun e => f.v[v].elem iw e
    let lim := if x = 0 then 2 ^ iw - 1 else min (s.rx x).toNat (2 ^ iw - 1)
    let va := fun e => s.rx a + BitVec.ofNat 64 (idx e * 2 ^ k.val)
    let sent := (List.range c.evl).filter fun e => c.active e && decide (idx e < lim)
    let value := fun e => f.v[d].elem w e
    let spoilt := fun e => f.v[d].elemPoison w e
    let stops := fun e => c.active e && (if idx e < lim then f.v[v].elemPoison iw e else bnd)
    let sends := fun (i : Instr) (need : Need) (new : Nat → Nat → Nat) => Instr.wf i = true →
      let loc := fun e => s.locOf need (va e) (w / 8)
      (∀ e ∈ sent, stops e = false → scopeBad sc (va e) = false ∧ Hit s need [(va e, w / 8)]) →
      ((∀ e, e < c.evl → stops e = false) →
        -- what the elements make of memory, one after the other, and whether poison there takes one
        let u := sent.foldl (fun (u : State × Bool) e =>
          if need.rd && u.1.isPoisoned (loc e) (w / 8) then (u.1, true)
          else
            let r := u.1.homeStore (loc e) (w / 8) (new (Memory.read u.1.mem (loc e) (w / 8)) (value e)) (spoilt e)
            (r.1, u.2 || r.2 == .dropped)) (s, false)
        (ord ≠ .rlx → u.2 = false) →
        ∃ t, exec i s = .next t ∧ t.core.f.fpc = s.nextPc ∧ t.core.f.vstart = 0 ∧ NoFlags s t ∧
          ({ t with tokens := [] } : State).rest.besides [] = s.event.rest.besides [] ∧
          (ord ≠ .rlx → t.tokens = [] ∧ t.mem = u.1.mem ∧ t.poison = u.1.poison ∧ t.core.f.poisonOut = (f.poisonOut || sent.any spoilt)) ∧
          (ord = .rlx → sent.length ≤ 16 → t.mem = s.mem ∧ t.poison = s.poison ∧
            t.tokens.map (fun k => (k.loc, k.n, k.value, k.poison, k.core)) = sent.map fun e => (loc e, w / 8, value e, spoilt e, s.core.id))) ∧
      (∀ e, TrapReady s [a, x] →
        (∀ e ∈ sent, stops e = false → spoilt e = false ∧ Reaches s need [(va e, w / 8)] ∧
          ∀ x ∈ [(s.slotAt, 2 ^ 20), (ctxAddr s s.core.info.asid 0, 256)], loc e + w / 8 ≤ x.1 ∨ x.1 + x.2 ≤ loc e) → e < c.evl → stops e = true → (∀ j, j < e → stops j = false) →
        if idx e < lim then Raises i s 0x30 (va e) else Raises i s 0x15 0)
    sends (.vscadd st ord sc d a v x m x32 bnd k fmt) needBoth
      (fun old y => if fmt.isInt then (old + y) % 2 ^ w else (beaterAdd fmt old y).1) ∧
    sends (.vstc st ord sc d a v x m x32 bnd k fmt) needStore (fun _ y => y)

/-- R316, R317, R142 (Table 2.9): `vamo` performs the operation of each active element at its address, with the elements of `vc`
(and of `vd`, to compare with); `vd` takes the old values, and mask register `j` says which met poison. An element whose index is out of range takes 0 and leaves its status bit; one that meets poison
takes all ones, poisoned, and writes nothing (R96); one with a poisoned operand writes poisoned data. The instruction takes
the firing's next ordinal (R360). An index out of range raises BOUND in the `.bnd` form, and a poisoned one in range POISON (R206, R212, R213). That elements on one location are performed in index
order whatever their order is the model's choice: R310 leaves it to the beater (log entries 5 and 79). -/
def Obligations.VectorAtomic : Prop :=
  ∀ (st : Fin 16) (op : AmoOp) (ord : Order) (sc : Scope) (d v y : Fin 64) (a : Fin 32) (m j : Fin 8) (x32 bnd : Bool) (k : Fin 4)
    (fmt : Fmt) (s : State), LaneOk s [a] [m] [d, v, y] → MemOk s → Unlogged s → s.core.running = true → s.tokens = [] →
    let i := Instr.vamo st op ord sc d a v y m x32 bnd k j fmt
    Instr.wf i = true →
    let w := fmt.width
    let n := w / 8
    let f := s.core.f
    let iw := if x32 then 32 else 16
    let c := freshRun f (max w iw) m
    let idx := fun e => f.v[v].elem iw e
    let inside := fun e => decide (idx e < 2 ^ iw - 1)
    let va := fun e => s.rx a + BitVec.ofNat 64 (idx e * 2 ^ k.val)
    let act := (List.range c.evl).filter c.active
    let loc := fun e => s.locOf needBoth (va e) n
    let stops := fun e => c.active e && (if idx e < 2 ^ iw - 1 then f.v[v].elemPoison iw e else bnd)
    let spoilt := fun e => f.v[y].elemPoison w e || (op == .cas && f.v[d].elemPoison w e)
    (∀ e ∈ act, stops e = false → inside e = true → scopeBad sc (va e) = false ∧ Hit s needBoth [(va e, n)]) →
    -- the device once the elements below `e` are performed
    let upTo := fun e => ((List.range e).filter fun i => c.active i && inside i).foldl (fun (u : State) i =>
      if u.isPoisoned (loc i) n then u
      else (u.homeStore (loc i) n (amoNew op fmt w (Memory.read u.mem (loc i) n) (f.v[y].elem w i) (f.v[d].elem w i)).1 (spoilt i)).1) s
    let met := fun e => (upTo e).isPoisoned (loc e) n
    ((∀ e ∈ act, stops e = false) →
      ∃ t, exec i s = .next t ∧ t.core.f.fpc = s.nextPc ∧
        Lanes s t c d w (fun e => if inside e then (if met e then 2 ^ w - 1 else Memory.read (upTo e).mem (loc e) n) else 0)
          (fun e => inside e && met e) ∧ NoFlags s t ∧
        t.mem = (upTo c.evl).mem ∧ t.poison = (upTo c.evl).poison ∧
        (∀ e, e < 16384 → (t.core.f.rm j).getLsbD e = if j = 0 then true else if c.isPad e then false
          else if c.active e && inside e then met e else (f.rm j).getLsbD e) ∧
        (t.onF fun g => { g with m := g.m.set j 0, badM := g.badM &&& ~~~(1#8 <<< j.val) }).rest.besides [d] =
          (s.event.onF fun g => { g with m := g.m.set j 0, badM := g.badM &&& ~~~(1#8 <<< j.val) }).rest.besides [d]) ∧
    (∀ e, TrapReady s [a] → (∀ i ∈ act, inside i = true → stops i = false →
        ∀ x ∈ [(s.slotAt, 2 ^ 20), (ctxAddr s s.core.info.asid 0, 256)], loc i + n ≤ x.1 ∨ x.1 + x.2 ≤ loc i) →
      e ∈ act → stops e = true → (∀ i, i < e → stops i = false) →
      if idx e < 2 ^ iw - 1 then Raises i s 0x30 (va e) else Raises i s 0x15 0)

/-- R313 (Table 14.1), R322 (the barrier word: Table 14.3 of R321): `bcfg` exchanges `BCFG` with a register; `bar` and `phend` arrive at a control word (expected arrivals, arrivals,
generation): the last arrival clears the count and advances the generation, and the instruction answers the generation it arrived
at; an earlier one is counted, and the instruction waits. An arrival takes the firing's next ordinal (R360). That the word's line leaves the L1 is log entry 46 (read from R70). -/
def Obligations.Barriers : Prop :=
  ∀ (st : Fin 16) (ord : Order) (sc : Scope) (d a : Fin 32) (disp : BitVec 8) (s : State), Issues s [a] →
    let f := s.core.f
    let x := (s.rx a).toNat
    Ends (.bcfg st d a) s ((s.setX d (BitVec.ofNat 64 (f.bwin % 4 + if f.border then 4 else 0))).onF fun f => { f with
      bwin := if x % 4 = 3 then 2 else x % 4, border := (s.rx a).getLsbD 2 }) s.nextPc ∧
    (MemOk s → Unlogged s → s.core.running = true → f.prog = 0 → s.tokens = [] →
      let va := s.rx a + disp.signExtend 64
      let loc := s.locOf needBoth va 8
      scopeBad sc va = false → Reaches s needBoth [(va, 8)] →
      let word := Memory.read s.mem loc 8
      let need := word % 2 ^ 16
      let here := word / 2 ^ 16 % 2 ^ 16
      let gen := word / 2 ^ 32
      ∀ i ∈ [Instr.bar st ord sc d a disp, .phend st ord sc d a disp], ∃ t, exec i s = .next t ∧ SameMemBut s t [(loc, 8)] ∧
        t.poison = s.poison ∧
        (need ≤ here + 1 → t.core.f.fpc = s.nextPc ∧ Memory.read t.mem loc 8 = need + 2 ^ 32 * ((gen + 1) % 2 ^ 32) ∧
          t.core.l1 = l1After ord sc (s.core.l1.filter (·.1 ≠ loc / 128)) ∧ t.rest = (s.setX d (BitVec.ofNat 64 gen)).event.rest) ∧
        (here + 1 < need → t.core.f.fpc = f.fpc ∧ t.core.wait = some .barrier ∧
          Memory.read t.mem loc 8 = need + 2 ^ 16 * (here + 1) + 2 ^ 32 * gen ∧
          t.rest = (s.onF fun f => { f with prog := BitVec.ofNat 64 (2 ^ 32 + gen) }).event.rest))

/-- R323 (the control block: Table 15.2 of R331; the record: Table 15.1 of R327): the posts. `cpost` copies a record of 32 bytes to the ring entry of `TAIL` and advances `TAIL`, and answers 0, or 2 of a full
ring; `ctake` takes the newest record and moves `TAIL` back, `csteal` the oldest and advances `HEAD`: 0, or 1 of an empty ring. R323, R329: `cjoin` takes at most `x[B]` off the join counter of the record at its address and answers the old counter; while the counter does not
reach 0, or was 0, nothing else happens. Each takes the firing's next ordinal (R360). -/
def Obligations.PostsAndJoins : Prop :=
  (∀ (st : Fin 16) (ord : Order) (sc : Scope) (d a b : Fin 32) (disp : BitVec 8) (s : State), Issues s [a, b] → MemOk s → Unlogged s →
    s.core.running = true → s.tokens = [] →
    let va := s.rx a + disp.signExtend 64
    let loc := s.locOf needBoth va 64
    let word := fun off n => Memory.read s.mem (loc + off) n
    let ring := word 0 8
    let head := word 8 4
    let tail := word 12 4
    let cap := word 16 4
    let held := (tail + 2 ^ 32 - head) % 2 ^ 32
    scopeBad sc va = false → Reaches s needBoth [(va, 64)] → s.isPoisoned loc 24 = false → word 20 2 % 2 = 0 → 0 < cap →
    let words := fun p : Word => (List.range 4).map fun k => (p + BitVec.ofNat 64 (8 * k), 8)
    let slot := fun n => BitVec.ofNat 64 (ring + 32 * (n % cap))
    let copied := fun (p q : Word) => (List.range 4).foldl (fun mem k => Memory.write mem
      (s.locOf needStore (q + BitVec.ofNat 64 (8 * k)) 8) 8
      (Memory.read mem (s.locOf needLoad (p + BitVec.ofNat 64 (8 * k)) 8) 8)) s.mem
    let does := fun (i : Instr) (status : Nat) (mem : List Host.Cell) => ∃ t, exec i s = .next t ∧ t.core.f.fpc = s.nextPc ∧
      t.mem = mem ∧ t.poison = s.poison ∧ t.rest = (s.setX d (BitVec.ofNat 64 status)).event.rest
    let prev := (tail + 2 ^ 32 - 1) % 2 ^ 32
    (Reaches s needLoad (words (s.rx b)) →
      (held = cap → does (.cpost st ord sc d a b disp) 2 s.mem) ∧
      (held ≠ cap → Reaches s needStore (words (slot tail)) →
        does (.cpost st ord sc d a b disp) 0 (Memory.write (copied (s.rx b) (slot tail)) (loc + 12) 4 ((tail + 1) % 2 ^ 32)))) ∧
    (Reaches s needStore (words (s.rx b)) →
      (held = 0 → does (.ctake st ord sc d a b disp) 1 s.mem ∧ does (.csteal st ord sc d a b disp) 1 s.mem) ∧
      (held ≠ 0 → Reaches s needLoad (words (slot prev)) →
        does (.ctake st ord sc d a b disp) 0 (Memory.write (copied (slot prev) (s.rx b)) (loc + 12) 4 prev)) ∧
      (held ≠ 0 → Reaches s needLoad (words (slot head)) →
        does (.csteal st ord sc d a b disp) 0 (Memory.write (copied (slot head) (s.rx b)) (loc + 8) 4 ((head + 1) % 2 ^ 32))))) ∧
  (∀ (st : Fin 16) (ord : Order) (sc : Scope) (d a b : Fin 32) (disp : BitVec 8) (s : State), Issues s [a, b] → MemOk s → Unlogged s →
    s.core.running = true → s.tokens = [] →
    let va := s.rx a + disp.signExtend 64
    let loc := s.locOf needBoth va 32
    let n := (s.rx b).toNat % 2 ^ 32
    scopeBad sc va = false → Reaches s needBoth [(va, 32)] → s.isPoisoned (loc + 0x18) 8 = false →
    let old := Memory.read s.mem (loc + 0x18) 4
    old = 0 ∨ n < old →
    ∃ t, exec (.cjoin st ord sc d a b disp) s = .next t ∧ t.core.f.fpc = s.nextPc ∧ t.poison = s.poison ∧
      t.mem = Memory.write s.mem (loc + 0x18) 4 (old - min old n) ∧ t.rest = (s.setX d (BitVec.ofNat 64 old)).event.rest)

/-! The press. -/

/-- R267, R268, R270, R283, R131 (Table 11.1): `tset` writes a tile's configuration; `tzero` and `azero` clear a tile or an accumulator and its poison;
`tld` and `tst` copy the rows in use between a tile and a vector register; `pstat` answers which tiles and accumulators are poisoned, or the
count of panels. -/
def Obligations.TileRegisters : Prop :=
  ∀ (st d : Fin 16) (e : Fin 8) (v : Fin 64) (a : Fin 32) (s : State), PressOk s [a] [] [v] →
    let f := s.core.f
    let x := s.rx a
    let rows := f.tcfg[d].rows.toNat
    Ends (.tset st d a) s (s.onF fun f => { f with
      tcfg := f.tcfg.set d { fmt := x.extractLsb' 0 5, rows := x.extractLsb' 8 7, rb := x.extractLsb' 16 7 } }) s.nextPc ∧
    Ends (.tzero st d) s (s.onF fun f => { f with t := f.t.set d { written := true } }) s.nextPc ∧
    Ends (.azero st e) s (s.onF fun f => { f with a := f.a.set e { written := true } }) s.nextPc ∧
    (1 ≤ rows → rows ≤ 64 →
      (∃ t, exec (.tldRegister st d v) s = .next t ∧ t.core.f.fpc = s.nextPc ∧
        (t.core.f.t[d]).bits.toNat = f.v[v].bits.toNat % 2 ^ (512 * rows) ∧
        (∀ g, g < 512 → (t.core.f.t[d]).poison.getLsbD g = (decide (g / 8 < rows) && f.v[v].poison.getLsbD (g / 8))) ∧
        t.core.f.fflags = f.fflags ∧ t.core.f.panel = f.panel ∧ t.core.f.stage = f.stage ∧ t.core.f.panels = f.panels ∧
        (t.besidesPress [d] [] []).content = (s.besidesPress [d] [] []).content) ∧
      (∃ t, exec (.tstRegister st v d) s = .next t ∧ t.core.f.fpc = s.nextPc ∧
        (t.core.f.v[v]).bits.toNat % 2 ^ (512 * rows) = f.t[d].bits.toNat % 2 ^ (512 * rows) ∧
        (t.core.f.v[v]).bits.toNat / 2 ^ (512 * rows) = f.v[v].bits.toNat / 2 ^ (512 * rows) ∧
        (t.core.f.v[v]).len = max f.v[v].len (64 * rows) ∧
        (∀ r, r < 64 → (t.core.f.v[v]).poison.getLsbD r =
          if r < rows then (List.range 8).any fun g => f.t[d].poison.getLsbD (8 * r + g) else f.v[v].poison.getLsbD r) ∧
        t.core.f.fflags = f.fflags ∧ t.core.f.panel = f.panel ∧ t.core.f.stage = f.stage ∧ t.core.f.panels = f.panels ∧
        (t.besidesPress [] [] [v]).content = (s.besidesPress [] [] [v]).content)) ∧
    Ends (.pstat st a true) s (s.setX a f.panels) s.nextPc ∧
    ∃ y, Ends (.pstat st a false) s (s.setX a y) s.nextPc ∧ y.toNat < 2 ^ 24 ∧ (∀ k : Fin 16, y.getLsbD k.val = decide (f.t[k].poison ≠ 0)) ∧
      ∀ k : Fin 8, y.getLsbD (16 + k.val) = decide (f.a[k].poison ≠ 0)

/-- R269, R280 (Table 11.4): the memory forms of `tld` and `tst` move the bytes in use of the rows from `PSTART.PANEL` on, one row at a pitch after another; `tld`
zeroes the rest of each row and of the tile, whatever `tst` stores overlapping is the highest row's; `PSTART` ends at 0. R271, R262, R166: `ald` and `ast` move a rectangle of an accumulator, of the rows from `PSTART.PANEL` on, widening each element from the format of memory
and rounding it to that format with `BCARRY.RM`; their register forms move 16 whole rows. -/
def Obligations.TileMemory : Prop :=
  (∀ (st d : Fin 16) (a b : Fin 32) (disp : BitVec 8) (s : State), PressOk s [a, b] [] [] → MemOk s → s.core.f.tcfg[d].fit = true →
    let f := s.core.f
    let rows := f.tcfg[d].rows.toNat
    let rb := f.tcfg[d].rb.toNat
    let va := rowByte (s.rx a + disp.signExtend 64) (s.rx b)
    let p := f.panel
    ((∀ r, r < rows → p ≤ r → ∀ j, j < rb → Reaches s needLoad [(va r j, 1)]) →
      ∃ t, exec (.tld st d a b disp) s = .next t ∧ t.core.f.fpc = s.nextPc ∧ Panels s t (rows - p) ∧
        (p < rows → ∀ i, i < 4096 → bits (t.core.f.t[d]).bits.toNat (8 * i) 8 =
          if i / 64 < p then bits f.t[d].bits.toNat (8 * i) 8
          else if i / 64 < rows ∧ i % 64 < rb then Memory.read s.mem (s.locOf needLoad (va (i / 64) (i % 64)) 1) 1 else 0) ∧
        (p < rows → ∀ g, g < 512 → (t.core.f.t[d]).poison.getLsbD g = (decide (g / 8 < p) && f.t[d].poison.getLsbD g)) ∧
        (rows ≤ p → t.core.f.t[d] = f.t[d]) ∧
        t.core.f.fflags = f.fflags ∧ t.mem = s.mem ∧ t.poison = s.poison ∧ t.core.l1 = s.core.l1 ∧ (t.besidesPress [d] [] []).rest = (s.besidesPress [d] [] []).rest) ∧
    ((∀ r, r < rows → p ≤ r → ∀ j, j < rb → Reaches s needStore [(va r j, 1)] ∧ f.t[d].poison.getLsbD (8 * r + j / 8) = false) →
      ∃ t, exec (.tst st d a b disp) s = .next t ∧ t.core.f.fpc = s.nextPc ∧ Panels s t (rows - p) ∧
        t.mem = (List.range (rows - p)).foldl (fun mem r => (List.range rb).foldl (fun mem j =>
          Memory.write mem (s.locOf needStore (va (p + r) j) 1) 1 (bits f.t[d].bits.toNat (512 * (p + r) + 8 * j) 8)) mem) s.mem ∧
        t.core.f.fflags = f.fflags ∧ t.poison = s.poison ∧ Coherent t ∧ (t.besidesPress [] [] []).rest = (s.besidesPress [] [] []).rest)) ∧
  (∀ (st : Fin 16) (d : Fin 8) (v : Fin 64) (a b c : Fin 32) (disp : BitVec 8) (row0 : Fin 4) (fmt : Fmt) (s : State),
    PressOk s [a, b, c] [] [v] → MemOk s →
    let f := s.core.f
    let w := fmt.width
    let n := w / 8
    let rows := (s.rx c).toNat % 128
    let cols := (s.rx c).toNat / 256 % 128
    let va := fun m i => rowByte (s.rx a + disp.signExtend 64) (s.rx b) m (n * i)
    let p := f.panel
    let out := fun m i => narrowAcc fmt f.pressRound (f.a[d].elem m i)
    (1 ≤ rows → rows ≤ 64 → 1 ≤ cols → cols ≤ 64 →
      (Instr.wf (.ald st d a b c disp fmt) = true →
        (∀ m, m < rows → p ≤ m → ∀ i, i < cols → Reaches s needLoad [(va m i, n)]) →
        ∃ t, exec (.ald st d a b c disp fmt) s = .next t ∧ t.core.f.fpc = s.nextPc ∧ Panels s t (rows - p) ∧
          (∀ m, m < 64 → ∀ i, i < 64 → (t.core.f.a[d]).elem m i =
            if p ≤ m ∧ m < rows ∧ i < cols then widen fmt (Memory.read s.mem (s.locOf needLoad (va m i) n) n) else f.a[d].elem m i) ∧
          (∀ m, m < 64 → ∀ g, g < 8 → (t.core.f.a[d]).poison.getLsbD (8 * m + g) =
            if p ≤ m ∧ m < rows ∧ 8 * g + 8 ≤ cols then false else f.a[d].poison.getLsbD (8 * m + g)) ∧
          t.core.f.fflags = f.fflags ∧ t.mem = s.mem ∧ t.poison = s.poison ∧ t.core.l1 = s.core.l1 ∧ (t.besidesPress [] [d] []).rest = (s.besidesPress [] [d] []).rest) ∧
      (Instr.wf (.ast st d a b c disp fmt) = true →
        (∀ m, m < rows → p ≤ m → ∀ i, i < cols → Reaches s needStore [(va m i, n)] ∧ f.a[d].grain m i = false) →
        ∃ t, exec (.ast st d a b c disp fmt) s = .next t ∧ t.core.f.fpc = s.nextPc ∧ Panels s t (rows - p) ∧
          t.mem = (List.range (rows - p)).foldl (fun mem m => (List.range cols).foldl (fun mem i =>
            Memory.write mem (s.locOf needStore (va (p + m) i) n) n (out (p + m) i).1) mem) s.mem ∧
          t.core.f.fflags = f.fflags ||| (flagsOf ((List.range (rows - p)).flatMap fun m => (List.range cols).map fun i => out (p + m) i)) ∧
          t.poison = s.poison ∧ Coherent t ∧ (t.besidesPress [] [] []).rest = (s.besidesPress [] [] []).rest)) ∧
    (∃ t, exec (.aldRegister st d v row0) s = .next t ∧ t.core.f.fpc = s.nextPc ∧
      (∀ m, m < 64 → ∀ i, i < 64 → (t.core.f.a[d]).elem m i =
        if m / 16 = row0.val then f.v[v].elem 32 (64 * (m % 16) + i) else f.a[d].elem m i) ∧
      (∀ m, m < 64 → ∀ g, g < 8 → (t.core.f.a[d]).poison.getLsbD (8 * m + g) =
        if m / 16 = row0.val then f.v[v].elemPoison 32 (64 * (m % 16) + 8 * g) else f.a[d].poison.getLsbD (8 * m + g)) ∧
      t.core.f.fflags = f.fflags ∧ t.core.f.panel = f.panel ∧ t.core.f.stage = f.stage ∧ t.core.f.panels = f.panels ∧
      (t.besidesPress [] [d] []).content = (s.besidesPress [] [d] []).content) ∧
    (Instr.wf (.astRegister st v d row0 fmt) = true →
      ∃ t, exec (.astRegister st v d row0 fmt) s = .next t ∧ t.core.f.fpc = s.nextPc ∧
        (∀ e, e < 32768 / w → (t.core.f.v[v]).elem w e =
          if e < 1024 then (out (16 * row0.val + e / 64) (e % 64)).1 else f.v[v].elem w e) ∧
        (t.core.f.v[v]).len = max f.v[v].len (128 * w) ∧
        (∀ e, e < 1024 → f.a[d].grain (16 * row0.val + e / 64) (e % 64) = true → (t.core.f.v[v]).elemPoison w e = true) ∧
        t.core.f.fflags = f.fflags ||| (flagsOf ((List.range 1024).map fun e => out (16 * row0.val + e / 64) (e % 64))) ∧
        t.core.f.panel = f.panel ∧ t.core.f.stage = f.stage ∧ t.core.f.panels = f.panels ∧
        (t.besidesPress [] [] [v]).content = (s.besidesPress [] [] [v]).content))

/-- R275 to R280, R162 (Table 11.8): the matrix products add, in k-panels of 16 from `PSTART.PANEL` on, the products of two tiles to the
elements of an accumulator whose row the mask and whose column the column mask select: `i32` sums wrap (`tmac`: ternary weights), `f32` sums are
exact within a panel and rounded once; `bblk` adds two block products to each of two accumulators; `bmmx` scales its operands by block.
A product whose rows or columns are all masked off retires no k-panel. -/
def Obligations.MatrixProducts : Prop :=
  ∀ (st : Fin 16) (d : Fin 8) (ta tb : Fin 16) (c : Fin 32) (m : Fin 8) (va vb : Fin 64) (fmt : Fmt) (s : State), PressOk s [c] [m] [va, vb] →
    let f := s.core.f
    let A := f.tcfg[ta]
    let B := f.tcfg[tb]
    let fa := A.fmt?.getD .f32
    let fb := B.fmt?.getD .f32
    let K := B.rows.toNat
    let M := A.rows.toNat
    let N := B.perRow B.width
    let p := f.panel
    let rm := f.pressRound
    let col := fun n => decide (c = 0) || (s.rx c).getLsbD n
    A.fit = true → B.fit = true → A.perRow A.width = K → N ≤ 64 →
    let does := fun (i : Instr) (K : Nat) (col : Nat → Bool) (accs : List (Fin 8)) (tiles : List (Fin 16)) (vs : List (Fin 64))
        (new : Fin 8 → Nat → Nat → Nat × Flags) =>
      let on := fun r n => decide (r < M) && decide (n < N) && (f.rm m).getLsbD r && col n && decide (p < (K + 15) / 16)
      let work := (List.range M).any (f.rm m).getLsbD && (List.range N).any col
      ∃ t, exec i s = .next t ∧ t.core.f.fpc = s.nextPc ∧ Panels s t (if work then (K + 15) / 16 - p else 0) ∧
        (∀ e ∈ accs, ∀ r, r < 64 → ∀ n, n < 64 →
          (t.core.f.a[e]).elem r n = if on r n then (new e r n).1 else f.a[e].elem r n) ∧
        t.core.f.fflags = f.fflags ||| flagsOf (accs.flatMap fun e => (List.range 64).flatMap fun r =>
          ((List.range 64).filter (on r)).map fun n => new e r n) ∧
        ((∀ k ∈ tiles, f.t[k].poison = 0) → (∀ v ∈ vs, f.v[v].poison = 0) → ∀ e ∈ accs, (t.core.f.a[e]).poison = f.a[e].poison) ∧
        (t.besidesPress [] accs []).content = (s.besidesPress [] accs []).content
    let int := fun e r n => dotInt K p (fun k => intValue fa (f.t[ta].elem fa.width r k)) (fun k => intValue fb (f.t[tb].elem fb.width k n))
      (fun k => decide (fa = .tern ∧ f.t[ta].elem 2 r k = 2)) ((f.a[(e : Fin 8)]).elem r n)
    let float := fun e r n => dotFloat rm K p (fun k => timesEx (f.tileEx ta r k) (f.tileEx tb k n)) ((f.a[(e : Fin 8)]).elem r n)
    let ints := [Fmt.i8, .n8]
    (fmt = .i32 → fa ∈ [Fmt.i8, .n8, .i4, .n4] → fb ∈ ints → does (.bmma st d ta tb c m fmt) K col [d] [ta, tb] [] int) ∧
    (fmt = .f32 → (fa = fb ∧ fa ∈ [Fmt.bf16, .f16, .f32] ∨ fa ∈ [Fmt.e4m3, .e5m2] ∧ fb ∈ [Fmt.e4m3, .e5m2]) →
      does (.bmma st d ta tb c m fmt) K col [d] [ta, tb] [] float) ∧
    (fa = .tern → fb ∈ ints → does (.tmac st d ta tb c m) K col [d] [ta, tb] [] int) ∧
    -- two block products: `ta` to `ta + 3` are the weights, `tb` and `tb + 1` the data
    (Instr.wf (.bblk st d tb ta c m fmt) = true → (∀ k : Fin 4, f.tcfg[ta + ⟨k.val, by omega⟩] = A) → f.tcfg[tb + 1] = B →
      let wt := fun (e : Fin 8) (k : Nat) => ta + Fin.ofNat 16 (2 * (e - d).val + k / K)
      let xt := fun k => tb + Fin.ofNat 16 (k / K)
      let blocks := [ta, ta + 1, ta + 2, ta + 3, tb, tb + 1]
      (fmt = .i32 → fa ∈ [Fmt.i8, .n8, .i4, .n4] → fb ∈ ints → does (.bblk st d tb ta c m fmt) (2 * K) col [d, d + 1] blocks [] fun e r n =>
        dotInt (2 * K) p (fun k => intValue fa (f.t[wt e k].elem fa.width r (k % K))) (fun k => intValue fb (f.t[xt k].elem fb.width (k % K) n))
          (fun _ => false) ((f.a[e]).elem r n)) ∧
      (fmt = .f32 → (fa = fb ∧ fa ∈ [Fmt.bf16, .f16, .f32] ∨ fa ∈ [Fmt.e4m3, .e5m2] ∧ fb ∈ [Fmt.e4m3, .e5m2]) →
        does (.bblk st d tb ta c m fmt) (2 * K) col [d, d + 1] blocks [] fun e r n =>
        dotFloat rm (2 * K) p (fun k => timesEx (f.tileEx (wt e k) r (k % K)) (f.tileEx (xt k) (k % K) n)) ((f.a[e]).elem r n))) ∧
    -- block scales: one byte for each block of a row of `ta` and of a column of `tb`
    (let blk := blockLen f.vblk
     let scale := fun (v : Fin 64) (line k : Nat) (x : Ex × Flags) =>
       let b := f.v[v].elem 8 (line * (K / blk) + k / blk)
       (if b = 0xFF then Ex.nan else scaleEx ((b : Int) - 127) x.1, x.2)
     blk ≠ 0 → K % blk = 0 → fa ∈ mxFmts → fb ∈ mxFmts → does (.bmmx st d ta tb va m vb) K (fun _ => true) [d] [ta, tb] [va, vb] fun e r n =>
       dotFloat rm K p (fun k => timesEx (scale va r k (f.tileEx ta r k)) (scale vb n k (f.tileEx tb k n))) ((f.a[e]).elem r n))

/-- R272, R273, R280 (Tables 11.2, 11.3): `bfly` and `bchain` run butterfly stages over a vector: each result is the exact sum of two products with the weights
of the tiles from `tw` on, an intermediate one rounded to the carry format and held in the accumulator, the last rounded to the destination format. They begin at the stage and pair panel that `PSTART`
names, with what the accumulator then holds; from a start past the last panel nothing is written. -/
def Obligations.Butterflies : Prop :=
  ∀ (st j : Fin 16) (d a : Fin 64) (tw : Fin 16) (c : Fin 8) (src dst : Fmt) (s : State), PressOk s [] [] [d, a] →
    let f := s.core.f
    let cfg := f.tcfg[tw]
    let fw := cfg.fmt?.getD .f32
    let n := (freshRun f (max src.width dst.width) 0).evl
    let E := cfg.rows.toNat * cfg.perRow cfg.width
    let rm := f.pressRound
    let carry := (Fmt.ofCode? f.bcfmt).getD .f32
    let runs := fun (i : Instr) (ns field : Nat) => Instr.wf i = true →
      let count := if n = 0 then 1 else (2 * ns * n + E - 1) / E
      let stride := fun j => 2 ^ bits f.bstride.toNat (4 * (field + j)) 4
      let weight := fun j p q =>
        let l := 4 * (j * (n / 2) + p) + q
        (f.tileEx (tw + Fin.ofNat 16 (l / E)) (l % E / cfg.perRow cfg.width) (l % E % cfg.perRow cfg.width)).1
      cfg.fit = true → fw ∈ [Fmt.f32, .bf16, .f16, .e4m3, .e5m2] → tw.val + count ≤ 16 →
      (∀ k, k < count → f.tcfg[tw + Fin.ofNat 16 k] = cfg) → f.ln[0].pad = 0 → (∀ j, j < ns → n % (2 * stride j) = 0) →
      let np := (n / 2 + 63) / 64
      let x := fun k => valueOf src (f.v[a].elem src.width k)
      let acc := fun j => butterflyHeld rm carry stride weight x (fun k => f.a[c].elem (k / 64) (k % 64)) f.stage f.panel (j - f.stage)
      let result := fun j k => butterflyOut rm (stride j) (weight j) (fun k => if j = 0 then x k else valueOf .f32 (acc j k)) k
      let out := fun k => let y := cvt (result (ns - 1) k).1 dst rm; (y.1, (result (ns - 1) k).2 ||| y.2)
      -- the elements of a stage that the run computes
      let runs := fun j k => decide (f.stage ≤ j) && (decide (j ≠ f.stage) || decide (64 * f.panel ≤ k / (2 * stride j) * stride j + k % stride j))
      let accs := if ns = 1 then [] else [c]
      -- in place, one stage must not change the width (pairs run one after another)
      let apart := ns ≠ 1 ∨ d ≠ a ∨ src.width = dst.width
      ∃ t, exec i s = .next t ∧ t.core.f.fpc = s.nextPc ∧ Panels s t ((ns - f.stage) * np - if f.stage < ns then min f.panel np else 0) ∧
        (apart → ∀ k, k < 32768 / dst.width → (t.core.f.v[d]).elem dst.width k =
          if k < n ∧ runs (ns - 1) k = true then (out k).1 else f.v[d].elem dst.width k) ∧
        ((∃ k, k < n ∧ runs (ns - 1) k = true) → (t.core.f.v[d]).len = max f.v[d].len (n * dst.width / 8)) ∧
        ((¬∃ k, k < n ∧ runs (ns - 1) k = true) → (t.core.f.v[d]) = f.v[d]) ∧
        (ns ≠ 1 → ∀ k, k < 4096 → (t.core.f.a[c]).elem (k / 64) (k % 64) =
          if k < n then acc (ns - 1) k else f.a[c].elem (k / 64) (k % 64)) ∧
        (apart → t.core.f.fflags = f.fflags ||| flagsOf (((List.range n).filter (runs (ns - 1))).map out ++
          (List.range (ns - 1)).flatMap fun j => ((List.range n).filter (runs j)).map fun k => carried rm carry (result j k))) ∧
        (f.v[a].poison = 0 → f.a[c].poison = 0 → (∀ k, f.t[(k : Fin 16)].poison = 0) →
          (t.core.f.a[c]).poison = 0 ∧ ∀ g, g < 64 → (t.core.f.v[d]).poison.getLsbD g = true → f.v[d].poison.getLsbD g = true) ∧
        (t.besidesPress [] accs [d]).content = (s.besidesPress [] accs [d]).content
    runs (.bfly st j d a tw src dst) 1 j.val ∧ runs (.bchain st j d a tw c src dst) (j.val + 1) 0

/-! The headbox. -/

/-- R293, R292, R297 (Table 13.1): `qbind` binds a stream register to the pattern descriptor at `x[A]`: an affine one with bases and strides that are
multiples of its element, or one over a FIFO bank of the context that no other stream reads; the position is 0. R294 to R296: a held block of a write
stream is drained, element by element in ascending order, by `qsync`, by `qrel`, and by STREAM_DRAIN; `qsync` and `qrel` discard what a read
stream has fetched; STREAM_FETCH fetches the next block of a read stream; on an unbound register `qsync` and `qrel` do nothing. That `qrel` drains
a write stream within its step, before it unbinds the register, is the model's reading of R295 (DEDUCED, log entry 73). -/
def Obligations.StreamRegisters : Prop :=
  (∀ (st : Fin 16) (wr : Bool) (d : Fin 8) (a : Fin 32) (s : State), Dispatches s [a] → MemOk s → (s.core.f.q[d]).bound = false →
    let va := s.rx a
    let loc := s.locOf needLoad va 64
    let word := fun k => BitVec.ofNat 64 (Memory.read s.mem (loc + 8 * k) 8)
    let count := fun k => BitVec.ofNat 16 (Memory.read s.mem (loc + 40 + 2 * k) 2)
    let ctl := Memory.read s.mem (loc + 56) 8
    let size := 2 ^ (ctl % 8)
    let total := ((count 0).toNat + 1) * ((count 1).toNat + 1) * ((count 2).toNat + 1) * ((count 3).toNat + 1) * size
    let k := 32 * clusterOf s.core.id + ((word 0).toNat - 0xFFFFFF800000) / bankSize
    (s.hit needLoad va 64).isSome = true → s.isPoisoned loc 64 = false → word 6 = 0 → ctl < 16 → ctl % 8 ≠ 7 →
    (ctl < 8 → (word 0).toNat % size = 0 ∧ (∀ j, j < 4 → (word (1 + j)).toNat % size = 0) ∧ total ≤ 2 ^ 32) →
    (8 ≤ ctl → inWindow (word 0) = true ∧ (word 0).toNat % bankSize = 0 ∧ (∀ j, j < 4 → word (1 + j) = 0) ∧ total % 64 = 0 ∧
      (s.bank k).busy = false ∧ (s.bank k).mode = .fifo ∧ (s.bank k).gv = true ∧ (s.bank k).gasid = s.core.info.asid ∧
      (wr = true ∨ s.slots = [] ∧ ∀ c ∈ s.cores, ∀ q ∈ c.f.q.toList, q.bound = false)) →
    let q : Stream := { base := word 0, stride := #v[word 1, word 2, word 3, word 4], cnt := #v[count 0, count 1, count 2, count 3],
                        esize := ctl % 8, fifo := decide (8 ≤ ctl), dir := wr, bound := true }
    Ends (.qbind st wr d a) s (s.onF fun f => { f with q := f.q.set d q }) s.nextPc) ∧
  (∀ (st : Fin 16) (d : Fin 8) (s : State), Dispatches s [] → MemOk s →
    let q := s.core.f.q[d]
    let put := fun (q : Stream) => s.onF fun f => { f with q := f.q.set d q }
    (q.bound = false → Ends (.qrel st d) s s s.nextPc ∧ Ends (.qsync st d) s s s.nextPc) ∧
    (q.bound = true → q.dir = false → q.drainFault = none → q.held = [] →
      Ends (.qrel st d) s (put { q with bound := false, fetched := [] }) s.nextPc ∧
      Ends (.qsync st d) s (put { q with fetched := [] }) s.nextPc ∧
      (s.core.running = true → s.mgmt.pstate ≤ 1 → q.fifo = false → q.fetched.length < 16 →
        let k := q.pos / 64 + q.fetched.length
        64 * k < q.total → BlockReaches s needLoad q k →
        ∃ t, exec (.streamFetch s.core.id d) s = .next t ∧ (t.besideStream d).rest = (s.besideStream d).rest ∧ t.mem = s.mem ∧
          t.poison = s.poison ∧ t.core.l1 = s.core.l1 ∧ t.core.f.fpc = s.core.f.fpc ∧
          (t.core.f.q[d]).fetched.length = q.fetched.length + 1 ∧ (t.core.f.q[d]).fetched.take q.fetched.length = q.fetched ∧
          ({ (t.core.f.q[d]) with fetched := [] } : Stream) = { q with fetched := [] } ∧
          ∀ b ∈ (t.core.f.q[d]).fetched.drop q.fetched.length, b.idx = k ∧ b.poison = false ∧
            ∀ i, i < 64 / q.size → bits b.bits.toNat (8 * q.size * i) (8 * q.size) =
              if 64 * k + i * q.size < q.total then
                Memory.read s.mem (s.locOf needLoad (q.elemAddr (64 / q.size * k + i)) q.size) q.size
              else 0)) ∧
    (q.bound = true → q.dir = true → q.drainFault = none → q.fifo = false → q.esize ≤ 6 →
      ∀ b ∈ q.held.take 1, b.lo = 0 → b.hi = 64 → b.poison = false → BlockReaches s needStore q b.idx →
      let drains := fun (i : Instr) (pc : Word) (q' : Stream) => ∃ t, exec i s = .next t ∧ t.core.f.fpc = pc ∧
        t.mem = drained s q b s.mem ∧ t.poison = s.poison ∧ t.core.l1 = s.core.l1 ∧ t.rest = (put q').rest
      let still := { q with drainRaised := false, held := q.held.tail }
      (q.held.tail = [] → drains (.qsync st d) s.nextPc still ∧ drains (.qrel st d) s.nextPc { still with bound := false, fetched := [] }) ∧
      (s.core.running = true → s.core.wait = none → s.mgmt.pstate ≤ 1 → drains (.streamDrain s.core.id d) s.core.f.fpc still)))

/-- R299 to R302: `cpy`, `cpyf`, `cpym` and `cfill` commit a command in a free one of the core's 16 slots, once the first bytes of its ranges, its flag
address and its follow-on word, any instruction word of the press whose scalars can be read, pass their checks; nothing is moved yet; `cpyf.add` takes
the firing's next ordinal (R360, R362). That the slot is the lowest free one is the model's choice (DESIGN CHOICE, log entry 137). R304: `cwait n` commits when at most `n` of the firing's copies are incomplete, on any core, and empties the L1; else it waits. -/
def Obligations.CopyCommands : Prop :=
  (∀ (st : Fin 16) (ord : Order) (sc : Scope) (d a b c : Fin 32) (v : Fin 128) (add : Bool) (fmt : Fmt) (k : Fin 16) (s : State),
    Dispatches s [d, a, b, c] → MemOk s → Unlogged s → s.core.running = true → s.core.cmds[k] = none →
    (∀ j : Fin 16, j < k → s.core.cmds[j] ≠ none) →
    let n := (s.rx b).toNat % 2 ^ 32
    let commits := fun (i : Instr) (src : Option Word) (kind : CmdKind) (flag : Option (Word × Nat × Bool)) (follow : Option Word)
        (s' : State) => Instr.wf i = true →
      (n ≠ 0 → (s.hit needStore (s.rx d) (match kind with | .fill w => w / 8 | _ => 1)).isSome = true) →
      (n ≠ 0 → src ≠ none → (s.hit needLoad (s.rx a) 1).isSome = true) →
      ∃ t, exec i s = .next t ∧ t.core.f.fpc = s.nextPc ∧ t.mem = s.mem ∧ t.poison = s.poison ∧
        t.core.l1 = l1After ord sc s.core.l1 ∧ t.besideCmd k = ({ s' with cmdCtr := s.cmdCtr + 1 } : State).besideCmd k ∧
        ∃ x, t.core.cmds[k] = some x ∧ x.kind = kind ∧ x.owner = (s.core.info.asid, s.core.info.slot) ∧ x.level = s.core.f.level ∧
          x.seqNo = s.cmdCtr + 1 ∧ x.dst = s.rx d ∧ (src = none → x.value = s.rx a) ∧ (∀ y, src = some y → x.src = y) ∧ x.n = n ∧
          x.done = 0 ∧ x.ord = ord ∧ x.scope = sc ∧ x.flag = flag ∧ x.follow = follow ∧ x.paused = none ∧ x.failed = false ∧ x.pc = s.core.f.fpc
    commits (.cpy st ord sc d a b) (some (s.rx a)) .copy none none s ∧
    ((s.hit (if add then needBoth else needStore) (s.rx c) 8).isSome = true → scopeBad sc (s.rx c) = false →
      commits (.cpyf st ord sc d a b c v add) (some (s.rx a)) .copy (some (s.rx c, v.val, add)) none (if add then s.event else s)) ∧
    (n % (fmt.width / 8) = 0 → (s.rx d).toNat % (fmt.width / 8) = 0 →
      commits (.cfill st ord sc d a b fmt) none (.fill fmt.width) none none s) ∧
    (∀ y scalars body, 0x80 ≤ (s.rx c).toNat % 256 → (s.rx c).toNat % 256 ≤ 0x8C → decode (s.rx c).toNat = .ok y →
      pressCommand y = some (scalars, body) →
      (∀ r ∈ scalars.map (·.2), ReadOk s.core.f r ∧ ∀ p ∈ s.core.f.pend, p.reg = r → p.lat ≤ p.dist) →
      commits (.cpym st ord sc d a b c) (some (s.rx a)) .copy none (some (s.rx c)) s ∧
      ∀ t x, exec (.cpym st ord sc d a b c) s = .next t → t.core.cmds[k] = some x → ∀ p ∈ scalars, x.followScal[p.1] = s.rx p.2)) ∧
  (∀ (st n : Fin 16) (s : State), Dispatches s [] →
    let open' := (s.cores.map fun c => (c.cmds.toList.filter fun o => match o with
      | some x => x.ownedBy (slotKey s.core.info.asid s.core.info.slot) && (match x.kind with | .copy | .fill _ => true | _ => false)
      | none => false).length).sum
    (open' ≤ n.val → Ends (.cwait st n) s (s.onCore fun c => { c with l1 := [] }) s.nextPc) ∧
    (n.val < open' → ∃ t, exec (.cwait st n) s = .next t ∧ t.core.f.fpc = s.core.f.fpc ∧ t.core.wait = some .background ∧ t.mem = s.mem))

/-- R300, R301, R303: COPY_TRANSFER moves bytes of a committed copy or fill; after the
last byte a relaxed copy without a follow-on command ends, with its flag stored or added; FOLLOW_ON_COMMAND performs the press command (here
a `tzero`) of a copy whose bytes have landed. That one event moves the bytes up to the next 64-byte boundary of the destination, in ascending order, is
the model's choice (DESIGN CHOICE, log entry 71): R300 orders no chunks. -/
def Obligations.CopyProgress : Prop :=
  ∀ (k : Fin 16) (s : State), MemOk s → Unlogged s → Quiet s.core.trace → s.core.running = true → s.core.ahead = none →
    s.core.wait = none → s.stores = [] → cmdKey s.core.id k ∉ (s.session s.core.info.asid).stalls →
    (SMap.get none (slotKey s.core.info.asid s.core.info.slot) s.slots).all (·.onCore.isSome) = true → s.mgmt.pstate ≤ 1 →
    ∀ x, s.core.cmds[k] = some x → x.owner = (s.core.info.asid, s.core.info.slot) → x.level = s.core.f.level → x.orphan = false →
    x.stopped = false → x.trapHeld = false → x.paused = none → x.failed = false → x.logged = false → x.ord = .rlx →
    let at' := fun (need : Need) (va : Word) (j : Nat) => s.locOf need (va + BitVec.ofNat 64 j) 1
    let chunk := min (x.n - x.done) (64 - (x.dst.toNat + x.done) % 64)
    let moves := fun (byte : Nat → Nat) => x.done < x.n →
      (∀ j, j < chunk → Reaches s needStore [(x.dst + BitVec.ofNat 64 (x.done + j), 1)]) →
      ∃ t, exec (.copyTransfer s.core.id k) s = .next t ∧ t.core.cmds[k] = some { x with done := x.done + chunk } ∧
        t.besideCmd k = s.besideCmd k ∧ t.poison = s.poison ∧ t.core.l1 = s.core.l1 ∧ t.core.f.fpc = s.core.f.fpc ∧
        (∀ j, j < chunk → Memory.read t.mem (at' needStore x.dst (x.done + j)) 1 = byte (x.done + j)) ∧
        ∀ a, (∀ j, j < chunk → a ≠ at' needStore x.dst (x.done + j)) → Memory.byte t.mem a = Memory.byte s.mem a
    (∀ w ∈ [8, 16, 32, 64], x.kind = .fill w → moves fun j => bits x.value.toNat (8 * (j % (w / 8))) 8) ∧
    (x.kind = .copy → (∀ j, j < chunk → Reaches s needLoad [(x.src + BitVec.ofNat 64 (x.done + j), 1)]) →
      (∀ i, i < chunk → ∀ j, j < chunk → at' needLoad x.src (x.done + i) ≠ at' needStore x.dst (x.done + j)) →
      moves fun j => Memory.read s.mem (at' needLoad x.src j) 1) ∧
    (x.isCopy = true → x.n ≤ x.done →
      let ends := fun (i : Instr) (mem : List Host.Cell) (s' : State) => ∃ t, exec i s = .next t ∧ t.core.cmds[k] = none ∧
        t.besideCmd k = s'.besideCmd k ∧ t.poison = s.poison ∧ t.core.l1 = s.core.l1 ∧ t.core.f.fpc = s.core.f.fpc ∧ t.mem = mem
      (x.follow = none → x.flag = none → ends (.copyTransfer s.core.id k) s.mem s) ∧
      (∀ y, x.flag = some y → x.follow = none → y.2.1 < 128 →
        let need := if y.2.2 then needBoth else needStore
        Reaches s need [(y.1, 8)] →
        let loc := s.locOf need y.1 8
        ends (.copyTransfer s.core.id k)
          (Memory.write s.mem loc 8 (if y.2.2 then (Memory.read s.mem loc 8 + y.2.1) % 2 ^ 64 else y.2.1)) s) ∧
      (∀ td : Fin 16, x.follow = some (BitVec.ofNat 64 (0x83 + 2 ^ 16 * td.val)) → x.flag = none → s.core.f.queue = [] →
        s.core.cur = none →
        ends (.followOnCommand s.core.id k) s.mem (s.onF fun f => { f with t := f.t.set td { written := true } })))

/-- R305, R64: `bmode` on a bank of the context answers 0 where the bank has the mode, 1 where it is a FIFO that holds blocks; else it zeroes the
bank, switches its mode and answers 0; so does a switch under way, which then is over (MODE_SWITCH), its outcome kept for the `bmode` that began it. That the steps 2 to 7 of a switch are one step of the
device, that of `bmode` or one MODE_SWITCH, is the model's choice (DESIGN CHOICE, log entry 77). -/
def Obligations.BankModes : Prop :=
  ∀ (st : Fin 16) (mode : BankMode) (d bank : Fin 32) (s : State), Dispatches s [] → s.core.id < 256 → s.tokens = [] → s.late = [] →
    s.slowSwitches = [] →
    let k := 32 * clusterOf s.core.id + bank.val
    let b := s.bank k
    let lo := quireBase + k * bankSize
    let mine := slotKey s.core.info.asid s.core.info.slot
    let switched := fun (t s' : State) (outcomes : List (Nat × Bool)) => (∀ a, lo ≤ a → a < lo + bankSize → Memory.read t.mem a 1 = 0 ∧ t.isPoisoned a 1 = false) ∧
      SameMemBut s t [(lo, bankSize)] ∧
      ({ t with mem := [], poison := [] } : State).content =
        ({ s'.setBank k { b with mode := mode, fifo := [], fifoHead := 0, fifoBad := 0, reserved := 0, busy := false, switchTo := none, outcomes := outcomes } with
          mem := [], poison := [] } : State).content
    (b.gv = true → b.gasid = s.core.info.asid → b.busy = false → b.switchTo = none → (∀ x ∈ b.outcomes, x.1 ≠ mine) →
      (b.mode = mode → Ends (.bmode st mode d bank) s ((s.setX d 0).setBank k b) s.nextPc) ∧
      (b.mode ≠ mode → b.mode = .fifo → b.fifo ≠ [] → Ends (.bmode st mode d bank) s ((s.setX d 1).setBank k b) s.nextPc) ∧
      (b.mode ≠ mode → (b.mode = .fifo → b.fifo = []) →
        ∃ t, exec (.bmode st mode d bank) s = .next t ∧ t.core.f.fpc = s.nextPc ∧ switched t (s.setX d 0) b.outcomes)) ∧
    (∀ key, clusterOf s.core.id < 40 → b.switchTo = some (mode, key) → b.mode ≠ mode → (b.mode = .fifo → b.fifo = []) →
      (SMap.get none key s.slots).all (·.onCore.isSome) = true → s.mgmt.pstate ≤ 1 →
      (∀ x ∈ s.slots, x.2.all (·.draining.isEmpty) = true) →
      ∃ t, exec (.modeSwitch (clusterOf s.core.id) bank.val mode) s = .next t ∧ t.core.f.fpc = s.core.f.fpc ∧ switched t s ((key, false) :: b.outcomes))

/-! The vat. -/

/-- R240 to R243, R255 (Tables 9.4, 9.6): `mbind` reads the image at `x[A]`, and where it is no broken one writes the slot's entry of 16 bytes: valid, its quadrants and
memory ports, the sequence number plus 1, the image's address; `munbind` makes a valid entry invalid and advances the number; `mprobe` answers from the
entry; `fxstat` answers a word of `FXSTATE`. R222 to R228, R244 to R246, R254 (Tables 9.1, 9.2): `fx` with the smallest mould, an IN cell that feeds an OUT cell beside it, here of `i32`
elements: the elements of the input vector reach the output vector in order, the length register counts them, `FXSTATE` says that
the run is done; `fxres` goes on from `FXSTATE` after MORE, and does nothing in another state. -/
def Obligations.Fabric : Prop :=
  (∀ (st : Fin 16) (d a slot : Fin 32) (k : Fin 8) (s : State), Dispatches s [a] → MemOk s →
    let place := slotAddr s s.core.info.asid slot
    (∀ off, off < 16 → populated (place + off) = true) →
    let entry := Memory.read s.mem place 16
    let seq := bits entry 32 32
    let va := s.rx a
    let loc := s.locOf needLoad va 1
    let head := Memory.read s.mem loc 64
    let cells := bits head 64 16
    let tables := bits head 80 8
    let cellsAt := bits head 288 32
    let tablesAt := bits head 320 32
    let size := bits head 352 32
    (va.toNat % 64 = 0 → cellsAt % 8 = 0 → tablesAt % 8 = 0 →
      (∀ j, j < max 64 size → (s.hit needLoad (va + BitVec.ofNat 64 j) 1).isSome = true ∧ s.locOf needLoad (va + BitVec.ofNat 64 j) 1 = loc + j ∧
        s.isPoisoned (loc + j) 1 = false) →
      headerBad head = false →
      ∀ m, Mould.ofImage head ((List.range cells).map fun i => Memory.read s.mem (loc + cellsAt + 24 * i) 24)
        ((List.range tables).map fun i => (List.range 256).map fun j => Memory.read s.mem (loc + tablesAt + 2048 * i + 8 * j) 8) = some m →
      ∃ t, exec (.mbind st a slot) s = .next t ∧ t.core.f.fpc = s.nextPc ∧
        t.mem = Memory.write s.mem place 16 (1 + 2 ^ 8 * bits head 48 8 + 2 ^ 16 * bits head 88 8 +
          2 ^ 32 * ((seq + 1) % 2 ^ 32) + 2 ^ 64 * va.toNat) ∧ (∀ x ∈ t.core.l1, x.2 = lineOf s.mem x.1) ∧ t.rest = s.rest) ∧
    (∃ t, exec (.munbind st slot) s = .next t ∧ t.core.f.fpc = s.nextPc ∧
      t.mem = (if entry % 2 = 1 then Memory.write s.mem place 16 (entry - entry % 2 ^ 8 - 2 ^ 32 * seq + 2 ^ 32 * ((seq + 1) % 2 ^ 32))
        else s.mem) ∧ t.rest = s.rest) ∧
    Ends (.mprobe st d slot true) s (s.setX d (BitVec.ofNat 64 (bits entry 64 64))) s.nextPc ∧
    (let here := decide (entry % 2 = 1) && s.core.moulds.any fun r => decide (r.asid = s.core.info.asid ∧ r.slot = slot.val ∧ r.seq = seq)
     Ends (.mprobe st d slot false) s (s.setX d (BitVec.ofNat 64
      (entry % 2 + 2 * bits entry 8 3 + 16 * bits entry 16 3 + 128 * here.toNat + 2 ^ 32 * seq))) s.nextPc) ∧
    Ends (.fxstat st d k) s (s.setX d s.core.f.fx[k]) s.nextPc) ∧
  (∀ (st : Fin 16) (fn : BitVec 8) (slot : Fin 32) (d a : Fin 64) (l : Fin 4) (s : State),
    LaneOk s [Fin.ofNat 32 d.val, Fin.ofNat 32 a.val] [] [d, a] →
    let f := s.core.f
    let place := slotAddr s s.core.info.asid slot
    let entry := Memory.read s.mem place 16
    let seq := bits entry 32 32
    let mould : Mould :=
      { quads := 1, rm := 0, anchor := 1, level := 0, nin := 1, nout := 1, ntab := 0, nmem := 0, role := [2, 1, 0, 0, 0], ilen := [0, 0, 0, 0],
        ofmt := [4, 0], cells := [{ y := 0, x := 0, word := 1 + 2 ^ 16 + 2 ^ 37 * 4 }, { y := 0, x := 1, word := 2 + 2 ^ 6 + 2 ^ 33 * 4 }] }
    let n := f.ln[0].count
    let word := fun state : Nat => BitVec.ofNat 64 (state + 8 * slot.val + 256 * fn.toNat)
    let copies := fun (i : Instr) (p ends : Nat) => ∃ t, exec i s = .next t ∧ t.core.f.fpc = s.nextPc ∧
      (∀ e, e < 1024 → (t.core.f.v[d]).elem 32 e = if e < n - p then f.v[a].elem 32 (p + e) else f.v[d].elem 32 e) ∧
      (t.core.f.v[d]).len = (if p < n then max f.v[d].len (4 * (n - p)) else f.v[d].len) ∧
      (∀ g, g < 64 → (t.core.f.v[d]).poison.getLsbD g = true → f.v[d].poison.getLsbD g = true) ∧
      t.core.f.fx = #v[word 1, BitVec.ofNat 64 n, 0, BitVec.ofNat 64 n, BitVec.ofNat 64 n, BitVec.ofNat 64 p, BitVec.ofNat 64 (seq + 2 ^ 32), 0] ∧
      t.core.f.ln = f.ln.set l { count := n - p, pad := 0 } ∧ NoFlags s t ∧ t.core.f.vstart = f.vstart ∧ t.core.f.fxEnds = ends ∧
      (t.onF fun g => { g with fx := f.fx, ln := f.ln, fxEnds := f.fxEnds }).besides [d] = s.besides [d]
    -- the mould is resident, the most recently started one, and its cells hold no error
    (∀ r rest, (∀ off, off < 16 → populated (place + off) = true) → entry % 2 = 1 → s.core.moulds = r :: rest → r ∉ rest →
      r.asid = s.core.info.asid → r.slot = slot.val → r.seq = seq → r.mould = mould → r.bad = false →
      d ≠ a → n ≤ 1000 → f.ln[0].pad = 0 → f.v[a].poison = 0 →
      copies (.fx st fn slot d a 0 0 0 0 l) 0 0 ∧
      (∀ p, p ≤ n → f.fx[0] = word 2 → f.fx[1] = BitVec.ofNat 64 p → f.fx[2] = 0 → f.fx[3] = BitVec.ofNat 64 p → f.fx[4] = BitVec.ofNat 64 p →
        f.fx[6] = BitVec.ofNat 64 (seq + 2 ^ 32) → f.fx[7] = 0 → copies (.fxres st d a 0 0 0 0 l) p f.fxEnds)) ∧
    ((f.fx[0]).toNat % 8 ≠ 2 → Ends (.fxres st d a 0 0 0 0 l) s s s.nextPc))

/-! The scheduler. -/

/-- R347, R331, R332, R337: `spawn` writes the `META` of the record at `x[A]` and counts it in `LIVE` of its launch; a record with a join
counter waits (`x[D]` = 1); one without is pushed at the tail of the run post of its launch's level that holds the core (`x[D]` = 0). It takes
the firing's next ordinal (R360). -/
def Obligations.Spawn : Prop :=
  ∀ (st : Fin 16) (d a : Fin 32) (s : State), Issues s [a] → MemOk s → Unlogged s → s.core.running = true → s.tokens = [] →
    let i := s.core.info
    let loc := s.locOf needStore (s.rx a) 32
    let entry := s.mgmt.ltbase + 64 * i.lid
    (s.hit needStore (s.rx a) 32).isSome = true → s.isPoisoned loc 32 = false → Present s [(entry, 64)] → Apart [(loc, 32), (entry, 64)] →
    let join := Memory.read s.mem (loc + 0x18) 4
    let meta' := i.asid % 2 ^ 14 + 2 ^ 14 * (i.lid % 2 ^ 14) + if join = 0 then 0 else 2 ^ 30
    let mem := Memory.write (Memory.write s.mem (loc + 0x1C) 4 meta') (entry + 8) 4 ((Memory.read s.mem (entry + 8) 4 + 1) % 2 ^ 32)
    (join ≠ 0 → ∃ t, exec (.spawn st d a) s = .next t ∧ t.core.f.fpc = s.nextPc ∧ t.mem = mem ∧
      t.besideLaunches = (s.setX d 1).event.besideLaunches) ∧
    (join = 0 → ∀ post, SMap.get none i.spost s.submits = some post →
      let cb := s.runPost post.pa (runIndex (Memory.read s.mem (entry + 0x2B) 1 % 4) (instOf (Memory.read s.mem (entry + 0x2B) 1 % 4) s.core.id))
      let ring := Memory.read s.mem cb 8
      let tail := Memory.read s.mem (cb + 12) 4
      let cap := Memory.read s.mem (cb + 16) 4
      let slot := ring + 32 * (tail % cap)
      Present s [(post.pa, 64), (cb, 64), (slot, 32)] → Apart [(loc, 32), (entry, 64), (post.pa, 64), (cb, 64), (slot, 32)] →
      (tail + 2 ^ 32 - Memory.read s.mem (cb + 8) 4) % 2 ^ 32 ≠ cap →
      ∃ t, exec (.spawn st d a) s = .next t ∧ t.core.f.fpc = s.nextPc ∧
        t.mem = Memory.write (Memory.write mem slot 32 (Memory.read mem loc 32)) (cb + 12) 4 ((tail + 1) % 2 ^ 32) ∧
        t.besideLaunches = (s.setX d 0).event.besideLaunches)

/-- R346, R334 to R338, R360: `launch` of a plain grid whose firings all go to one instance: it takes a free launch entry, pushes `COUNT` records of
`KIND` 3 at the tail of the run post, numbered from 0, each with its frame, answers `COUNT` and takes the firing's next ordinal; a grid of none is done at
once: `DONE`, the entry free. That the entry is the lowest free one is the model's choice (DESIGN CHOICE, log entry 137): R335 does not say which. -/
def Obligations.Launch : Prop :=
  ∀ (st : Fin 16) (d a b c : Fin 32) (lid : Nat) (s : State), Issues s [a, b, c] → MemOk s → Unlogged s → s.core.running = true →
    s.tokens = [] → s.core.f.prog = 0 → lid < 16384 → Lowest (fun k => k ∈ s.launches.map (·.1)) lid →
    let i := s.core.info
    let block := s.rx a
    let code := s.rx b
    let word := s.words block
    let cword := BitVec.ofNat 64 (word 0)
    let count := word 2 % 2 ^ 32
    let level := bits (word 2) 48 2
    let place := word 6 % 2 ^ 16
    let frame := s.words (code - 32) 1 % 2 ^ 32
    let size := (frame + 63) / 64 * 64
    let entry := s.mgmt.ltbase + 64 * lid
    WordsReach s block 8 → WordsReach s (code - 32) 4 → block.toNat % 64 = 0 → code.toNat % 8 = 0 →
    kernelBad ((List.range 4).flatMap fun k => bytesOf 8 (s.words (code - 32) k)) = false →
    paramsBad (paramsOf ((List.range 8).flatMap fun k => bytesOf 8 (word k))) frame = false →
    -- a plain grid at one instance, no record to join, one device
    word 1 = 0 → word 4 = 0 → word 5 = 0 → (level = 3 ∨ place ≠ 0xFFFF) →
    i.asid < 16384 → ∀ cloc, s.isPoisoned cloc 8 = false →
    ∀ post, SMap.get none i.spost s.submits = some post →
    let cb := s.runPost post.pa (runIndex level (if level = 3 then 0 else place))
    let ring := Memory.read s.mem cb 8
    let head := Memory.read s.mem (cb + 8) 4
    let tail := Memory.read s.mem (cb + 12) 4
    let cap := Memory.read s.mem (cb + 16) 4
    cap ≤ 2 ^ 24 → 2 ^ 32 % cap = 0 → (tail + 2 ^ 32 - head) % 2 ^ 32 + count ≤ cap →
    Present s [(post.pa, 64), (cb, 64), (ring, 32 * cap), (entry, 64)] →
    Apart [(post.pa, 64), (cb, 64), (ring, 32 * cap), (entry, 64), (cloc, 8), (ctxAddr s i.asid 0, 256), (s.locOf needLoad block 8, 64)] →
    (∀ k, k < 8 → s.locOf needLoad (block + BitVec.ofNat 64 (8 * k)) 8 = s.locOf needLoad block 8 + 8 * k) →
    -- the walk of the context reaches the completion word, whatever stands in what the launch itself writes
    (∀ mem, SameMemBut s { s with mem := mem } [(cb + 12, 4), (ring, 32 * cap), (entry, 64)] →
      ({ s with mem := mem } : State).walked i.asid 0 needBoth cword = some cloc) →
    let old := Memory.read s.mem cloc 8
    ∃ t, exec (.launch st d a b c) s = .next t ∧ t.core.f.fpc = s.nextPc ∧
      t.besideLaunches = (s.setX d (BitVec.ofNat 64 count)).event.besideLaunches ∧
      SameMemBut s t [(cb + 12, 4), (ring, 32 * cap), (entry, 64), (cloc, 8)] ∧
      Memory.read t.mem (cb + 12) 4 = (tail + count) % 2 ^ 32 ∧
      (∀ k, k < count → let at' := ring + 32 * ((tail + k) % cap)
        Memory.read t.mem at' 8 = code.toNat ∧ Memory.read t.mem (at' + 8) 8 = (if size = 0 then 0 else (word 3 + k * size) % 2 ^ 64) ∧
        Memory.read t.mem (at' + 16) 8 = k ∧ Memory.read t.mem (at' + 24) 4 = 0 ∧
        Memory.read t.mem (at' + 28) 4 = i.asid + 2 ^ 14 * lid + 3 * 2 ^ 28) ∧
      Memory.read t.mem (entry + 8) 8 = count ∧ Memory.read t.mem entry 8 = word 0 ∧ Memory.read t.mem (entry + 16) 8 = (s.rx c).toNat ∧
      Memory.read t.mem cloc 8 = (if count = 0 then (old ||| 1) else old) ∧
      (SMap.get none lid t.launches).isSome = decide (count ≠ 0)

/-- R350 to R352, R331: `abind` binds an actor whose ports are token rings at a free one of 64 places of the cluster, with each port's
`HEAD` or `TAIL` as it stands, and counts it in `LIVE`; all ones with no place free; it takes the firing's next ordinal (R360). That the place is the lowest
free one is the model's choice (DESIGN CHOICE, log entry 137). `abind.off` unbinds it (0), or finds none (1); of an actor with no firing it retires the
binding's count in `LIVE` (R338), and with the last one the launch is done and its entry free. `fcommit` of a
firing that is no actor's does nothing; of the next actor firing to commit, it advances `HEAD` of the inputs and `TAIL` of the outputs by their rates. -/
def Obligations.Actors : Prop :=
  ∀ (st : Fin 16) (d a : Fin 32) (k : Nat) (s : State), Issues s [a] → MemOk s → Unlogged s → s.core.running = true → s.tokens = [] →
    let i := s.core.info
    let block := s.rx a
    let word := s.words block
    let base := 64 * clusterOf s.core.id
    let used := fun k => (SMap.get none (base + k) s.actors).isSome
    let nin := word 4 % 256
    let nout := word 4 / 256 % 256
    let cb := fun p => BitVec.ofNat 64 (word (6 + p) % 2 ^ 48)
    let rate := fun p => word (6 + p) / 2 ^ 48
    let entry := s.mgmt.ltbase + 64 * i.lid
    (block.toNat % 64 = 0 → WordsReach s block 16 → word 3 = 0 → word 4 / 2 ^ 24 = 0 → word 5 = 0 → word 14 = 0 → word 15 = 0 →
      nin ≤ 4 → nout ≤ 4 → 1 ≤ nin + nout → 1 ≤ word 4 / 2 ^ 16 % 256 → word 4 / 2 ^ 16 % 256 ≤ 16 →
      (∀ p, p < 8 → nin + nout ≤ p → word (6 + p) = 0) →
      (∀ p, p < nin + nout → (cb p).toNat % 64 = 0 ∧ rate p ≠ 0 ∧ WordsReach s (cb p) 8 ∧ bits (s.words (cb p) 2) 34 2 = 1 ∧
        1 ≤ s.words (cb p) 2 / 2 ^ 48 ∧ s.words (cb p) 2 / 2 ^ 48 ≤ 4096) →
      (k < 64 → Lowest used k → Present s [(entry, 64)] →
        ∃ t, exec (.abind st d a) s = .next t ∧ t.core.f.fpc = s.nextPc ∧
          t.mem = Memory.write s.mem (entry + 8) 4 ((Memory.read s.mem (entry + 8) 4 + 1) % 2 ^ 32) ∧
          t.besideLaunches = (s.setX d (BitVec.ofNat 64 k)).event.besideLaunches ∧
          ∃ y, SMap.get none (base + k) t.actors = some y ∧ y.asid = i.asid ∧ y.va = block ∧ y.code.toNat = word 0 ∧ y.frame.toNat = word 1 ∧
            y.arg.toNat = word 2 ∧ y.nin = nin ∧ y.maxf = word 4 / 2 ^ 16 % 256 ∧ y.lid = i.lid ∧ y.spost = i.spost ∧ y.closing = false ∧
            y.next = 0 ∧ y.live = 0 ∧ y.committed = 0 ∧
            y.ports.map (fun p => (p.cb, p.rate, p.start, p.bank)) = (List.range (nin + nout)).map fun p =>
              (cb p, rate p, if p < nin then s.words (cb p) 1 % 2 ^ 32 else s.words (cb p) 1 / 2 ^ 32, none)) ∧
      ((∀ k, k < 64 → used k = true) → Ends (.abind st d a) s (s.setX d (BitVec.allOnes 64)).event s.nextPc)) ∧
    (let mine := fun (x : Nat × Option Actor) => decide (x.1 / 64 = clusterOf s.core.id) &&
       (x.2.any fun y => decide (y.va = block ∧ y.asid = i.asid ∧ y.closing = false))
     (s.actors.any mine = false → Ends (.abindOff st d a) s (s.setX d 1) s.nextPc) ∧
     (∀ x, s.actors.find? mine = some x → ∀ y, x.2 = some y →
       (y.live ≠ 0 → ∃ t, exec (.abindOff st d a) s = .next t ∧ t.core.f.fpc = s.nextPc ∧ t.mem = s.mem ∧
         t.actors = SMap.put none x.1 (some { y with closing := true }) s.actors ∧ t.besideLaunches = (s.setX d 0).besideLaunches) ∧
       (y.live = 0 → SMap.get none y.lid s.launches = none → ∃ t, exec (.abindOff st d a) s = .next t ∧ t.core.f.fpc = s.nextPc ∧ t.mem = s.mem ∧
         t.actors = SMap.put none x.1 none s.actors ∧ t.besideLaunches = (s.setX d 0).besideLaunches) ∧
       (y.live = 0 → ∀ li, SMap.get none y.lid s.launches = some li → li.share = none → li.okind ≠ 1 → li.okind ≠ 6 →
         let at' := s.mgmt.ltbase + 64 * y.lid
         let live := Memory.read s.mem (at' + 8) 4
         ∀ cloc, Present s [(at', 64)] → s.isPoisoned cloc 8 = false → Apart [(at', 64), (cloc, 8)] →
         (∀ mem, SameMemBut s { s with mem := mem } [(at' + 8, 4)] → ({ s with mem := mem } : State).walked (Memory.read s.mem (at' + 0x28) 2) 0 needBoth
           (BitVec.ofNat 64 (Memory.read s.mem at' 8)) = some cloc) →
         ∃ t, exec (.abindOff st d a) s = .next t ∧ t.core.f.fpc = s.nextPc ∧
           t.mem = Memory.write (Memory.write s.mem (at' + 8) 4 (live - 1)) cloc 8
             (Memory.read s.mem cloc 8 ||| if live ≤ 1 then 1 else 0) ∧
           t.actors = SMap.put none x.1 none s.actors ∧
           t.launches = (if live ≤ 1 then SMap.put none y.lid none s.launches else s.launches) ∧
           t.besideLaunches = (s.setX d 0).besideLaunches))) ∧
    (i.actor = none → Ends (.fcommit st) s s s.nextPc) ∧
    (∀ key, i.actor = some key → ∀ y, SMap.get none key s.actors = some y → y.committed = i.actorN → i.fcommitted = false →
      let loc := fun p : ActorPort => s.locOf needBoth (p.cb + 8) 8
      (∀ p ∈ y.ports, p.bank = none ∧ Reaches s needBoth [(p.cb + 8, 8)]) → Apart (y.ports.map fun p => (loc p, 8)) →
      ∃ t, exec (.fcommit st) s = .next t ∧ t.core.f.fpc = s.nextPc ∧
        t.mem = (y.ports.zipIdx).foldl (fun mem (p, n) =>
          let at' := loc p + if n < y.nin then 0 else 4
          Memory.write mem at' 4 ((Memory.read s.mem at' 4 + p.rate) % 2 ^ 32)) s.mem ∧
        t.actors = SMap.put none key (some { y with committed := (y.committed + 1) % 2 ^ 32 }) s.actors ∧
        t.besideLaunches = (s.onCore fun c => { c with info := { c.info with fcommitted := true } }).besideLaunches)

/-! The chain log and the trace. -/

/-- R378 to R380, R356, R360, R367 to R369: with the log off, `olmark`, `olpause` and `olresume` do nothing; in record mode `olmark` appends a MARK
record with `x[A]`, `olpause` a PAUSE record, after which the firing is paused, `olresume` of a paused firing a RESUME record; each takes one ordinal.
`olstat` answers the mode and the marks, the number and ordinal of the firing, or `LRTAIL`. -/
def Obligations.LogMarks : Prop :=
  ∀ (st : Fin 16) (d a : Fin 32) (s : State), Issues s [a] → s.core.wait = none →
    let f := s.core.f
    let stat := s.desc 0x7C 4
    let mode := bits (s.desc 0 4) 2 2
    let records := fun (i : Instr) (kind body : Nat) (on : Bool) => ∃ t, exec i s = .next t ∧ t.core.f.fpc = s.nextPc ∧
      Logged s t kind body ∧ t.rest = (s.onF fun f => { f with ordinal := f.ordinal + 1, paused := on }).rest
    (Unlogged s → ∀ i ∈ [Instr.olmark st a, .olpause st, .olresume st], Ends i s s s.nextPc) ∧
    (Recording s → records (.olmark st a) 9 (2 ^ 32 * (s.rx a).toNat) false ∧ records (.olpause st) 10 0 true) ∧
    (Recording (s.onF fun f => { f with paused := false }) → f.paused = true → records (.olresume st) 11 0 false) ∧
    (mode ≤ 1 →
      Ends (.olstat st d 0) s (s.setX d (BitVec.ofNat 64 (mode + 4 * f.paused.toNat + 8 * bits stat 1 1 + 16 * bits stat 0 1 + 32 * bits stat 2 5 +
        2 ^ 16 * (f.session % 2 ^ 16)))) s.nextPc ∧
      Ends (.olstat st d 1) s (s.setX d (BitVec.ofNat 64 (f.fid % 2 ^ 32 + 2 ^ 32 * (f.ordinal % 2 ^ 32)))) s.nextPc ∧
      Ends (.olstat st d 2) s (s.setX d (if mode = 1 then BitVec.ofNat 64 (s.desc 0x84 4) else 0)) s.nextPc)

/-- R404 to R413 (Tables 18.1, 18.4): `tmark` makes a MARK record with its tag and `x[A]` while the firing is recorded, else it does nothing;
`tsamp` answers what the unit does, and takes a sample while samples are on; SAMPLE takes one when the period is over. A record made goes into the ring.
LOST_RECORD writes what had to be dropped; TRACE_CONTROL_WRITE writes a field of the control block, and what changes `TRCTL` is in force from the next
cycle on; in recovery it writes nothing (R418). That low bits of `TRBASE` are dropped, and that records wait in a buffer until later steps, is the model's
reading (DEDUCED, log entry 101). -/
def Obligations.TraceUnit : Prop :=
  (∀ (st : Fin 16) (d a : Fin 32) (tag : BitVec 8) (v : Word) (s : State), Issues s [a] → s.core.running = true → s.core.wait = none →
    s.core.id < 160 → s.core.trace.pending = none →
    let u := s.core.trace
    let ten := trTen u
    let sen := trSen u
    let now := s.cycle.toNat
    let answer := BitVec.ofNat 64 (ten.toNat + 2 * sen.toNat + 4 * (bit (s.desc 0 4) 1).toNat + 2 ^ 8 * u.spcur)
    let makes := fun (i : Instr) (r : TraceRec) (pc : Word) (s' : State) => ∃ t, exec i s = .next t ∧ t.core.f.fpc = pc ∧
      t.core.trace.buf = insertRec r u.buf ∧ t.mem = s.mem ∧ t.poison = s.poison ∧ t.besideTrace = s'.besideTrace
    (ten = false → Ends (.tmark st a tag) s s s.nextPc) ∧
    (sen = false → Ends (.tsamp st d) s (s.setX d answer) s.nextPc) ∧
    (Tracing s → ten = true → makes (.tmark st a tag) (s.traceRec now 8 0 tag.toNat (s.rx a)) s.nextPc s) ∧
    (Tracing s → sen = true →
      makes (.tsamp st d) (s.traceRec now 9 1 (15 + 256 * s.core.f.queue.length) s.core.f.fpc) s.nextPc (s.setX d answer)) ∧
    (Tracing s → sen = true → u.spcur ≤ now - u.spAt →
      let last := u.spAt + u.spcur
      makes (.sample s.core.id) (s.traceRec last 9 0 (u.reason last + 256 * s.core.f.queue.length) s.core.f.fpc) s.core.f.fpc s) ∧
    (u.dropped ≠ 0 → u.timeFirst = false → Present s [(u.base, 16 * 2 ^ u.log2)] → 8 ≤ u.log2 → u.log2 ≤ 24 →
      4 * ((u.tail + 2 ^ 32 - u.head) % 2 ^ 32 + 1) ≤ 3 * 2 ^ u.log2 →
      ∃ t, exec (.lostRecord s.core.id) s = .next t ∧ t.core.trace.dropped = 0 ∧ t.core.trace.tail = (u.tail + 1) % 2 ^ 32 ∧
        Memory.read t.mem (u.base + 16 * (u.tail % 2 ^ u.log2)) 1 = 11 ∧
        Memory.read t.mem (u.base + 16 * (u.tail % 2 ^ u.log2) + 8) 8 = u.dropped % 2 ^ 64 ∧
        SameMemBut s t [(u.base + 16 * (u.tail % 2 ^ u.log2), 16)] ∧ t.besideTrace = s.besideTrace) ∧
    -- with sampling off, why the front does not issue is noted anew
    (let writes := fun (reg : Nat) (u' : Trace) => ∃ t, exec (.traceControlWrite s.core.id reg v) s = .next t ∧
       t.core.trace = { u' with why := if sen then u.why else [(now, 0)] } ∧ t.besideTrace = s.besideTrace ∧ t.mem = s.mem
     let begun := { u with pending := some (now, 1) }
     (s.mgmt.recov = true → ∀ reg, exec (.traceControlWrite s.core.id reg v) s = .next s) ∧
     -- no sample is due before the write
     (s.mgmt.recov = false → (sen = false ∨ now - u.spAt < u.spcur) → 8 ≤ u.log2 → u.log2 ≤ 24 → 64 ≤ u.spmin → u.spmin ≤ 2 ^ 24 →
     writes 0x10 { u with head := v.toNat % 2 ^ 32 } ∧
     writes 0x28 { u with bkpt := bits v.toNat 0 1 + 2 ^ 3 * bits v.toNat 3 45 } ∧
     (ten = false → sen = false → writes 0x08 { u with base := v.toNat / 4096 * 4096 }) ∧
     (ten = true → writes 0x08 u) ∧
     (ten = false → v = 1 → (∃ spAt spGone, writes 0x00 { begun with spAt := spAt, spGone := spGone }) ∧ begun.inForce now = begun ∧
       ∀ spAt spGone, ({ begun with spAt := spAt, spGone := spGone } : Trace).inForce (now + 1) =
         { u with ctl := 1, spcur := u.spmin, spAt := now + 1, spGone := 0, timeFirst := true })))) ∧
  (∀ (r : TraceRec) (s : State), TraceRoom s r → ∃ t, traceWrites s = (.ok (), t) ∧ Traced s t r ∧ t.besideTrace = s.besideTrace)

/-! The links. -/

/-- R387, R388, R390, R392: a link command commits in a free command slot of the core, with its operands, its status word (none for register 0)
and its place in the order; a collective reads its group descriptor and bitmap then, and one whose devices do not name the issuing device or the
root, or a barrier of elements, commits with its payload ended by `REMOTEFAULT`. R397, R398: `lwait n` commits when at most `n` of the firing's link commands are incomplete, on any core, and empties the L1; else it waits.
`lfence` puts the link commands before it ahead of those, or of the accesses, after it. The model's own are: the lowest free slot (DESIGN CHOICE, log
entry 137), the order of a collective's reads and the rounding of half bytes (DEDUCED, log entry 96), and that `lfence` leaves the L1 as it is
(DEDUCED, log entry 99). -/
def Obligations.LinkCommands : Prop :=
  (∀ (st : Fin 16) (ord : Order) (sc : Scope) (d a b c sw : Fin 32) (kind : CollKind) (fmt : Fmt) (k : Fin 16) (s : State),
    Dispatches s [d, a, b, c, sw] → MemOk s → Unlogged s → s.core.running = true → s.core.cmds[k] = none →
    (∀ j : Fin 16, j < k → s.core.cmds[j] ≠ none) →
    (sw ≠ 0 → (s.hit needBoth (s.rx sw) 8).isSome = true ∧ scopeBad sc (s.rx sw) = false) →
    let n := (s.rx b).toNat % 2 ^ 32
    let commits := fun (i : Instr) (P : Cmd → Prop) => Instr.wf i = true →
      ∃ t, exec i s = .next t ∧ t.core.f.fpc = s.nextPc ∧ t.mem = s.mem ∧ t.poison = s.poison ∧
        t.core.l1 = l1After ord sc s.core.l1 ∧ t.besideCmd k = ({ s with cmdCtr := s.cmdCtr + 1 } : State).besideCmd k ∧
        ∃ x, t.core.cmds[k] = some x ∧ P x ∧ x.owner = (s.core.info.asid, s.core.info.slot) ∧ x.level = s.core.f.level ∧
          x.seqNo = s.cmdCtr + 1 ∧ x.ord = ord ∧ x.scope = sc ∧ x.status = (if sw = 0 then none else some (s.rx sw)) ∧
          x.fence = s.core.f.relFence ∧ x.done = 0 ∧ x.paused = none ∧ x.failed = false ∧ x.pc = s.core.f.fpc
    ((n ≠ 0 → (s.hit needLoad (s.rx a) 1).isSome = true) → commits (.lput st ord sc d a b c sw) fun x =>
      x.kind = .lput (s.rx c).toNat ∧ x.dst = s.rx d ∧ x.src = s.rx a ∧ x.n = n ∧ x.ended = false ∧ x.res = 0) ∧
    ((n ≠ 0 → (s.hit needStore (s.rx d) 1).isSome = true) → commits (.lget st ord sc d a b c sw) fun x =>
      x.kind = .lget (s.rx c).toNat ∧ x.dst = s.rx d ∧ x.src = s.rx a ∧ x.n = n ∧ x.ended = false ∧ x.res = 0) ∧
    (commits (.lsend st ord sc d a b c sw) fun x =>
      x.kind = .lsend (s.rx d) #v[s.rx a, s.rx b, s.rx c] ∧ x.ended = false ∧ x.res = 0) ∧
    (let word := s.words (s.rx c)
     let byte := fun j => Memory.read s.mem (s.locOf needLoad (BitVec.ofNat 64 (word 1) + BitVec.ofNat 64 j) 1) 1
     let members := (List.range 1024).filter fun d => (byte (d / 8)).testBit (d % 8)
     let root := bits (word 0) 32 16
     let mine := s.mgmt.device
     let count := collSource kind n members.length (mine == root)
     let count' := collDest kind n members.length (mine == root)
     let bad := mine ∉ members ∨ root ∉ members ∨ (kind = .barrier ∧ n ≠ 0)
     let align := max 1 (fmt.width / 8)
     -- every link command before an `lfence` has moved its bytes
     fencePassed s (slotKey s.core.info.asid s.core.info.slot) s.core.f.relFence false = true →
     (s.rx c).toNat % 8 = 0 → WordsReach s (s.rx c) 4 →
     (∀ j, j < 128 → Reaches s needLoad [(BitVec.ofNat 64 (word 1) + BitVec.ofNat 64 j, 1)]) →
     collBytes fmt count ≤ 2 ^ 32 → collBytes fmt count' ≤ 2 ^ 32 →
     (¬bad → count ≠ 0 → (s.hit needLoad (s.rx a) align).isSome = true) →
     (¬bad → count' ≠ 0 → (s.hit needStore (s.rx d) align).isSome = true) →
     commits (.coll st kind ord sc d a b c sw fmt) fun x =>
       x.kind = .coll kind fmt n root (word 0 % 2 ^ 32) members ∧ x.dst = s.rx d ∧ x.src = s.rx a ∧ x.n = collBytes fmt count' ∧
         (bad → x.ended = true ∧ x.res = 1) ∧ (¬bad → x.ended = false ∧ x.res = 0))) ∧
  (∀ (st n : Fin 16) (ord : Order) (sc : Scope) (s : State), Issues s [] →
    let open' := (s.cores.map fun c => (c.cmds.toList.filter fun o => match o with
      | some x => x.ownedBy (slotKey s.core.info.asid s.core.info.slot) && (match x.kind with | .copy | .fill _ => false | _ => true)
      | none => false).length).sum
    (open' ≤ n.val → s.core.f.linkCauses = [] → Ends (.lwait st n) s (s.onCore fun c => { c with l1 := [] }) s.nextPc) ∧
    (n.val < open' → ∃ t, exec (.lwait st n) s = .next t ∧ t.core.f.fpc = s.core.f.fpc ∧ t.core.wait = some .background ∧ t.mem = s.mem) ∧
    (s.tokens = [] → ord ≠ .rlx → Ends (.lfence st ord sc) s (s.onF fun f => { f with
      relFence := if ord = .acq then f.relFence else s.cmdCtr + 1
      acqFence := if ord = .rel then f.acqFence else s.cmdCtr + 1 }) s.nextPc))

/-- R386 to R388, R390, R391: LINK_TRANSFER sends the next chunk of a put, up to the destination's next 128-byte boundary, asks for and stores that of
a get, and sends a message once the firing's older ones to that device are accepted; what the target answers ends the command with its bit, as
does no route (LINKDOWN, and `MINT` bit 6, R385, R423; of a transfer of no bytes too), a device number or a message head with other bits set. A command whose payload is ended completes: its status
word counts it and takes its bits; without one, its bits are kept for the firing's end. One chunk an event, in ascending order, with the completion an event of
its own, is the model's choice (DESIGN CHOICE, log entry 94); which bits are kept, and that a status word then takes no more, is its reading of R387
(DEDUCED, log entry 95). -/
def Obligations.LinkTransfers : Prop :=
  ∀ (k : Fin 16) (answer : LinkAnswer) (s : State), MemOk s → Unlogged s → Quiet s.core.trace → s.core.running = true →
    s.mgmt.pstate ≤ 1 → s.stores = [] → cmdKey s.core.id k ∉ (s.session s.core.info.asid).stalls →
    (∀ off, off < 256 → populated (ctxAddr s s.core.info.asid off) = true) → bit (s.desc 0 4) 1 = false →
    (SMap.get none (slotKey s.core.info.asid s.core.info.slot) s.slots).all (·.onCore.isSome) = true →
    (∀ y ∈ s.cores, y.running = true → slotKey y.info.asid y.info.slot = slotKey s.core.info.asid s.core.info.slot → y.id = s.core.id) →
    ∀ x, s.core.cmds[k] = some x → x.owner = (s.core.info.asid, s.core.info.slot) → x.level = s.core.f.level → x.orphan = false →
    x.isCopy = false → x.paused = none → x.failed = false → fenceOpen s x = true →
    let goes := fun (s' : State) (c : Cmd) => ∃ t, exec (.linkTransfer s.core.id k answer) s = .next t ∧ t.core.cmds[k] = some c ∧
      t.besideCmd k = s'.besideCmd k ∧ t.core.l1 = s.core.l1 ∧ t.core.f.fpc = s.core.f.fpc ∧ t.mem = s.mem ∧ t.poison = s.poison
    let sent := fun kind dev args data => ({ s with outbox := s.outbox ++ [.link kind dev args data] } : State)
    let asid := x.owner.1
    let dst := x.dst + BitVec.ofNat 64 x.done
    let src := x.src + BitVec.ofNat 64 x.done
    let m := min (x.n - x.done) (128 - dst.toNat % 128)
    let at' := fun (need : Need) (va : Word) (j : Nat) => s.locOf need (va + BitVec.ofNat 64 j) 1
    let reach := fun (need : Need) (va : Word) => ∀ j, j < m → Reaches s need [(va + BitVec.ofNat 64 j, 1)]
    let ended := fun r => { x with res := x.res ||| r, ended := true }
    let toDev := fun (dev : Nat) => x.ended = false → (1024 ≤ dev → goes s (ended 1)) ∧ (dev < 1024 → x.n ≤ x.done →
      if x.n = 0 ∧ dev ≠ s.mgmt.device ∧ (s.portsUp = [] ∨ answer = .linkDown) then goes (s.raiseMint 6) (ended 2) else goes s (ended 0))
    (∀ dev, x.kind = .lput dev → toDev dev ∧
      (dev < 1024 → dev ≠ s.mgmt.device → x.ended = false → x.done < x.n → answer ≠ .noHandler → reach needLoad src →
        (s.portsUp = [] → goes (s.raiseMint 6) (ended 2)) ∧
        (s.portsUp ≠ [] →
          let s' := sent "put" dev [asid, dst.toNat, 0] ((List.range m).map fun j => BitVec.ofNat 8 (Memory.read s.mem (at' needLoad src j) 1))
          (∀ data pm, answer = .done data pm → goes s' { x with done := x.done + m }) ∧
          (answer = .remoteFault → goes s' (ended 1)) ∧ (answer = .linkDown → goes (s'.raiseMint 6) (ended 2))))) ∧
    (∀ dev, x.kind = .lget dev → toDev dev ∧
      (dev < 1024 → dev ≠ s.mgmt.device → x.ended = false → x.done < x.n → answer ≠ .noHandler → reach needStore dst →
        (s.portsUp = [] → goes (s.raiseMint 6) (ended 2)) ∧
        (s.portsUp ≠ [] →
          (answer = .remoteFault → goes (sent "get" dev [asid, src.toNat, m] []) (ended 1)) ∧
          (answer = .linkDown → goes ((sent "get" dev [asid, src.toNat, m] []).raiseMint 6) (ended 2)) ∧
          ∀ data, answer = .done data 0 → data.length = m →
            ∃ t, exec (.linkTransfer s.core.id k answer) s = .next t ∧ t.core.cmds[k] = some { x with done := x.done + m } ∧
              t.besideCmd k = (sent "get" dev [asid, src.toNat, m] []).besideCmd k ∧ t.core.l1 = s.core.l1 ∧
              t.core.f.fpc = s.core.f.fpc ∧ t.poison = s.poison ∧
              (∀ j, j < m → Memory.read t.mem (at' needStore dst j) 1 = (data.getD j 0).toNat) ∧
              ∀ a, (∀ j, j < m → a ≠ at' needStore dst j) → Memory.byte t.mem a = Memory.byte s.mem a))) ∧
    (∀ head payload, x.kind = .lsend head payload → x.ended = false →
      let dev := bits head.toNat 16 10
      (2 ^ 26 ≤ head.toNat → goes s (ended 1)) ∧
      (head.toNat < 2 ^ 26 → sendHeld s x dev = true → goes s x) ∧
      (head.toNat < 2 ^ 26 → sendHeld s x dev = false → dev ≠ s.mgmt.device →
        (s.portsUp = [] → goes (s.raiseMint 6) (ended 2)) ∧
        (s.portsUp ≠ [] →
          let s' := sent "message" dev [asid, head.toNat] (payload.toList.flatMap fun w => bytesOf 8 w.toNat)
          (∀ data pm, answer = .done data pm → goes s' (ended 0)) ∧ (answer = .remoteFault → goes s' (ended 1)) ∧
          (answer = .linkDown → goes (s'.raiseMint 6) (ended 2)) ∧ (answer = .noHandler → goes s' (ended 4))))) ∧
    (x.ended = true →
      (x.status = none → s.core.f.linkCauses = [] →
        ∃ t, exec (.linkTransfer s.core.id k answer) s = .next t ∧ t.core.cmds[k] = none ∧ t.mem = s.mem ∧ t.poison = s.poison ∧
          t.core.l1 = s.core.l1 ∧ t.core.f.fpc = s.core.f.fpc ∧
          t.besideCmd k = (s.onF fun f => { f with
            linkCauses := (if bit x.res 1 then [(x.seqNo, 0x72)] else []) ++ (if bit x.res 3 then [(x.seqNo, 0x71)] else [])
            faultOwed := f.faultOwed || bit x.res 0 || bit x.res 2 }).besideCmd k ∧
          t.core.f.poisonOut = (s.core.f.poisonOut || bit x.res 4)) ∧
      ∀ va, x.status = some va → Reaches s needBoth [(va, 8)] →
        let loc := s.locOf needBoth va 8
        let old := Memory.read s.mem loc 8
        ∃ t, exec (.linkTransfer s.core.id k answer) s = .next t ∧ t.core.cmds[k] = none ∧ t.besideCmd k = s.besideCmd k ∧
          t.core.l1 = s.core.l1 ∧ t.core.f.fpc = s.core.f.fpc ∧ t.poison = s.poison ∧
          t.mem = Memory.write s.mem loc 8 (((old % 2 ^ 32 + 1) % 2 ^ 32 + 2 ^ 32 * (old / 2 ^ 32 ||| x.res)) % 2 ^ 64))

/-- R384, R400: REMOTE_ACCESS of another device reads or writes the bytes of a context at homes of this one, here in the window of cluster 0, and
answers; a context whose descriptor is not valid answers `REMOTEFAULT`; an update of the completion word of a launch over several devices adds its
bits and firings, and takes a device off the count: the one that takes it to 0 sets `DONE`. R389, R390: a message to a valid handler takes a free launch entry, with the handler's completion word and one firing to come, and
puts the handler's record at the tail of the device post of the handler's submit post; the sender's operands are kept for the firing, and the
sender hears that it is accepted. One to no handler writes a record to the fault post of the context, and answers NOHANDLER. That the entry is the lowest
free one is the model's choice (DESIGN CHOICE, log entry 137); that its `LIVE` is 1 before any expansion, and how the handler's entry is read, are its reading of
R389 and R390 (DEDUCED, log entry 98). Here the device is in P0 or P1. -/
def Obligations.RemoteRequests : Prop :=
  (∀ (src asid n : Nat) (va : Word) (bytes : List Byte) (s : State),
    let sent := fun kind args data => ({ s with outbox := s.outbox ++ [.link kind src args data] } : State)
    s.covers = [] → s.mgmt.pstate ≤ 1 →
    (FarOk s asid → FarReach s asid va n →
      exec (.remoteAccess src (.read asid va n)) s = .next (sent "data" [asid, va.toNat, 0] (s.far asid va n))) ∧
    (FarOk s asid → FarReach s asid va bytes.length →
      ∃ t, exec (.remoteAccess src (.write asid va bytes 0)) s = .next t ∧ t.poison = s.poison ∧
        ({ t with mem := [], covers := [] } : State) = { sent "done" [asid, va.toNat] [] with mem := [] } ∧ t.far asid va bytes.length = bytes ∧
        ∀ a, (∀ j, j < bytes.length → s.farLoc asid (va + BitVec.ofNat 64 j) ≠ some a) → Memory.byte t.mem a = Memory.byte s.mem a) ∧
    (populated (ctxAddr s asid 0) = true → asid < 16384 → descBad s asid = true →
      exec (.remoteAccess src (.read asid va n)) s = .next (sent "remoteFault" [asid, va.toNat] []) ∧
      exec (.remoteAccess src (.write asid va bytes 0)) s = .next (sent "remoteFault" [asid, va.toNat] [])) ∧
    (∀ id or' fired last, id = asid → or' = src → fired = n →
      let run := fun (t : State) => ∃ u, exec (.remoteAccess src (.complete id or' fired last)) s = .next u ∧
        ({ u with bseq := [], covers := [] } : State) = { t with bseq := [] }
      (SMap.get none id s.shares = none → run s) ∧
      ∀ x, SMap.get none id s.shares = some x → ∀ loc, s.walked x.asid 0 needBoth x.cword = some loc → x.cword.toNat % 8 = 0 →
        s.isPoisoned loc 8 = false →
        let done := decide (last = true ∧ x.remaining ≤ 1)
        let old := Memory.read s.mem loc 8
        let word := ((old ||| or' % 1024 ||| (if done then 1 else 0)) % 2 ^ 32) + 2 ^ 32 * ((old / 2 ^ 32 + fired) % 2 ^ 32)
        let left := if last then x.remaining - 1 else x.remaining
        let t := ({ s with mem := Memory.write s.mem loc 8 word,
                           shares := SMap.put none id (if done then none else some { x with remaining := left }) s.shares } : State)
        run (if done && x.host then t.raiseMint (8 + x.spost % 56) else t))) ∧
  (∀ (src asid lid : Nat) (head : Word) (payload : Vector Word 3) (s : State), FarOk s asid → src < 1024 → s.mgmt.pstate ≤ 1 →
    let h := head.toNat % 65536
    let i := Instr.messageReceive src asid head payload.toList
    let base := BitVec.ofNat 64 (s.ctxRaw asid 0x58 8 + 16 * h)
    let answer := fun kind => ({ s with outbox := s.outbox ++ [.link kind src [asid] []] } : State)
    (h < s.ctxRaw asid 0x60 4 → base.toNat % 16 = 0 → FarReach s asid base 16 →
      let w0 := ofBytes (s.far asid base 8)
      let w1 := ofBytes (s.far asid (base + 8) 8)
      let spost := bits w0 48 8
      w0 / 2 ^ 56 = w1 / 2 ^ 56 → w0 % 2 = 1 → lid < 16384 → Lowest (fun k => k ∈ s.launches.map (·.1)) lid →
      ∀ post, SMap.get none spost s.submits = some post →
      let cb := s.runPost post.pa 208
      let ring := Memory.read s.mem cb 8
      let tail := Memory.read s.mem (cb + 12) 4
      let cap := Memory.read s.mem (cb + 16) 4
      let slot := ring + 32 * (tail % cap)
      let entry := s.mgmt.ltbase + 64 * lid
      Present s [(post.pa, 64), (cb, 64), (slot, 32), (entry, 64)] →
      Apart [(post.pa, 64), (cb, 64), (slot, 32), (entry, 64), (ctxAddr s asid 0, 256)] →
      (tail + 2 ^ 32 - Memory.read s.mem (cb + 8) 4) % 2 ^ 32 ≠ cap →
      let ses := s.session asid
      let n := SMap.get 0 src ses.messages
      ∃ t, exec i s = .next t ∧ SameMemBut s t [(slot, 32), (entry, 64), (cb + 12, 4)] ∧
        Memory.read t.mem slot 32 = w0 % 2 ^ 48 / 8 * 8 + 2 ^ 224 * (asid + 2 ^ 14 * lid) ∧
        Memory.read t.mem (cb + 12) 4 = (tail + 1) % 2 ^ 32 ∧
        Memory.read t.mem entry 8 = w1 % 2 ^ 48 ∧ Memory.read t.mem (entry + 8) 8 = 1 ∧ Memory.read t.mem (entry + 0x20) 8 = 0 ∧
        Memory.read t.mem (entry + 0x28) 4 = asid + 2 ^ 16 * spost + 2 ^ 24 * 3 ∧
        ({ t with mem := [], poison := [], bseq := [], covers := [] } : State) =
            { (answer "accepted").setSession { ses with messages := SMap.put 0 src (n + 1) ses.messages } with
          mem := [], poison := [], bseq := [], covers := []
          launches := SMap.put none lid (some { okind := 6, spost := spost, pfid := src, pord := n }) s.launches
          origins := SMap.put none slot (some { okind := 6, spost := spost, pfid := src, pord := n, num := asid,
                                                payload := [head, BitVec.ofNat 64 src] ++ payload.toList }) s.origins }) ∧
    (s.ctxRaw asid 0x60 4 ≤ h ∨ (base.toNat % 16 = 0 ∧ FarReach s asid base 16 ∧ ofBytes (s.far asid base 8) % 2 = 0 ∧
        ofBytes (s.far asid base 8) / 2 ^ 56 = ofBytes (s.far asid (base + 8) 8) / 2 ^ 56) →
      let cb := BitVec.ofNat 64 (s.ctxRaw asid 0x40 8)
      cb.toNat % 64 = 0 → FarReach s asid cb 64 →
      let word := fun k => ofBytes (s.far asid (cb + BitVec.ofNat 64 (8 * k)) 8)
      let tail := word 1 / 2 ^ 32
      let cap := word 2 % 2 ^ 32
      let slot := BitVec.ofNat 64 (word 0 + 32 * (tail % cap))
      slot.toNat % 32 = 0 → FarReach s asid slot 32 →
      (∀ j, j < 64 → ∀ k, k < 32 → s.farLoc asid (cb + BitVec.ofNat 64 j) ≠ s.farLoc asid (slot + BitVec.ofNat 64 k)) →
      if cap = 0 ∨ (tail + 2 ^ 32 - word 1 % 2 ^ 32) % 2 ^ 32 = cap then exec i s = .next (answer "noHandler")
      else ∃ t, exec i s = .next t ∧ ({ t with mem := [], poison := [], bseq := [], covers := [] } : State) =
          { answer "noHandler" with mem := [], poison := [], bseq := [], covers := [] } ∧
        t.far asid slot 32 = bytesOf 4 h ++ bytesOf 2 src ++ bytesOf 2 0x70 ++ payload.toList.flatMap (fun w => bytesOf 8 w.toNat) ∧
        ofBytes (t.far asid (cb + 12) 4) = (tail + 1) % 2 ^ 32 ∧
        ∀ a, (∀ k, k < 32 → s.farLoc asid (slot + BitVec.ofNat 64 k) ≠ some a) →
          (∀ j, j < 4 → s.farLoc asid (cb + 12 + BitVec.ofNat 64 j) ≠ some a) → Memory.byte t.mem a = Memory.byte s.mem a))

/-- R393, R394, R396: an instance of a collective whose participants agree (on kind, format, count, root and devices) sends this one's contribution to the
others and writes each element of its destination (Table 17.3); reductions combine the elements in ascending rank, and raise flags in the status word alone;
one with a participant that does not agree ends with `REMOTEFAULT`, and one whose timeout expires, while no debugger holds its context on a device named,
with `COLLTIMEOUT` here and at its peers; both write nothing. Instances of one `TAG` are matched in the order of their issue. One whose devices cannot be
reached ends with `LINKDOWN` (R385) and sets `MINT` bit 6 (R423). The order of the reads and of the checks before a write is the model's reading (DEDUCED,
log entry 96). -/
def Obligations.Collectives : Prop :=
  ∀ (k : Fin 16) (peers : List CollPeer) (s : State), MemOk s → Unlogged s → Quiet s.core.trace → s.core.running = true →
    (∀ off, off < 256 → populated (ctxAddr s s.core.info.asid off) = true) → bit (s.desc 0 4) 1 = false →
    (SMap.get none (slotKey s.core.info.asid s.core.info.slot) s.slots).all (·.onCore.isSome) = true →
    ∀ x, s.core.cmds[k] = some x → x.owner = (s.core.info.asid, s.core.info.slot) → x.level = s.core.f.level → x.orphan = false →
    x.paused = none → x.failed = false → x.ended = false → x.done = 0 → fenceOpen s x = true →
    ∀ kind fmt n root tag members, x.kind = .coll kind fmt n root tag members → fmt.width ∈ [8, 16, 32, 64] →
    let mine := s.mgmt.device
    let others := members.filter (· ≠ mine)
    let ended := fun r done => { x with res := x.res ||| r, ended := true, done := done }
    let goes := fun (i : Instr) (s' : State) (c : Cmd) => ∃ t, exec i s = .next t ∧ t.core.cmds[k] = some c ∧
      t.besideCmd k = s'.besideCmd k ∧ t.core.l1 = s.core.l1 ∧ t.core.f.fpc = s.core.f.fpc ∧ t.mem = s.mem ∧ t.poison = s.poison
    let sends := fun name args data => ({ s with outbox := s.outbox ++ others.map fun d => .link name d args data } : State)
    let held := x.owner.1 ∈ s.debugHold ∨ ∃ d ∈ members, (d, x.owner.1) ∈ s.remoteHolds
    let agrees := fun (p : CollPeer) => p.kind = kind ∧ p.fmt = fmt ∧ p.n = n ∧ p.root = root ∧ p.members = members
    (¬held → goes (.collectiveTimeout s.core.id k)
      (sends "collTimeout" [x.owner.1, tag] []) (ended 8 0)) ∧
    (held → goes (.collectiveTimeout s.core.id k) s x) ∧
    (s.mgmt.pstate ≤ 1 → others ≠ [] → goes (.linkTransfer s.core.id k .linkDown) (s.raiseMint 6) (ended 2 0)) ∧
    -- an older instance of the `TAG` comes first
    (s.mgmt.pstate ≤ 1 → collHeld s x tag = true → goes (.collectiveInstance s.core.id k peers) s x) ∧
    (s.mgmt.pstate ≤ 1 → collHeld s x tag = false → others ≠ [] → s.portsUp = [] →
      goes (.collectiveInstance s.core.id k peers) (s.raiseMint 6) (ended 2 0)) ∧
    (s.mgmt.pstate ≤ 1 → collHeld s x tag = false → (others = [] ∨ s.portsUp ≠ []) → peers.map (·.device) = others → mine ∈ members → root ∈ members →
      (∀ p ∈ peers, agrees p → p.data.length = collBytes fmt (collSource kind n members.length (p.device == root))) →
      (¬(∀ p ∈ peers, agrees p) → goes (.collectiveInstance s.core.id k peers) s (ended 1 0)) ∧
      ((∀ p ∈ peers, agrees p ∧ p.poison = 0) →
        let w := fmt.width
        let count := collSource kind n members.length (mine == root)
        let count' := collDest kind n members.length (mine == root)
        let va := fun (base : Word) e => base + BitVec.ofNat 64 (e * (w / 8))
        x.n = collBytes fmt count' → x.src.toNat % (w / 8) = 0 → x.dst.toNat % (w / 8) = 0 →
        (∀ e, e < count → Reaches s needLoad [(va x.src e, w / 8)]) → (∀ e, e < count' → Reaches s needStore [(va x.dst e, w / 8)]) →
        let from' := fun e => s.locOf needLoad (va x.src e) (w / 8)
        let into := fun e => s.locOf needStore (va x.dst e) (w / 8)
        (∀ e f, e < f → f < count' → into e + w / 8 ≤ into f ∨ into f + w / 8 ≤ into e) →
        let rank := fun d => (members.takeWhile (· ≠ d)).length
        let input := fun r e => match members[r]? with
          | none => 0
          | some d => if d = mine then Memory.read s.mem (from' e) (w / 8)
            else match peers.find? (·.device == d) with
              | some p => bits (ofBytes p.data) (w * e) w
              | none => 0
        let red := fun r e => (List.range (members.length - 1)).foldl (fun (v : Nat × Flags) i =>
          let y := redComb r fmt v.1 (input (i + 1) e)
          (y.1, v.2 ||| y.2)) (input 0 e, 0)
        let elem := fun k => match kind with
          | .barrier => ((0, 0) : Nat × Flags)
          | .bcast => (input (rank root) k, 0)
          | .reduce r | .allreduce r => red r k
          | .allgather => (input (k / n) (k % n), 0)
          | .redscat r => red r (rank mine * n + k)
          | .alltoall => (input (k / n) (rank mine * n + k % n), 0)
        let flags := (List.range count').foldl (fun fl k => fl ||| (elem k).2) 0
        ∃ t, exec (.collectiveInstance s.core.id k peers) s = .next t ∧ t.core.cmds[k] = some (ended (32 * flags.toNat) x.n) ∧
          t.besideCmd k = (sends "contribution" [x.owner.1, tag, n, root, 0]
            ((List.range count).flatMap fun e => bytesOf (w / 8) (Memory.read s.mem (from' e) (w / 8)))).besideCmd k ∧
          t.core.l1 = s.core.l1 ∧ t.core.f.fpc = s.core.f.fpc ∧ t.poison = s.poison ∧
          (∀ e, e < count' → Memory.read t.mem (into e) (w / 8) = (elem e).1) ∧
          ∀ a, (∀ e, e < count' → ∀ j, j < w / 8 → a ≠ into e + j) →
            Memory.byte t.mem a = Memory.byte s.mem a))

/-- R385, R92, R400: a failed flit of one of the 18 ports in use counts as an error, and the 16th failure of one flit takes its port down; a launch that arrives from its origin takes a launch entry here
and begins to expand this device's part. It ends at once with `FAULT` where the descriptor of its context is not valid, which is counted (R110); where its parameter
block or its kernel's descriptor lies at no legal address, at none that is a multiple of 8, or in a bank that is not the context's; and where what they hold is none
that R333 accepts, or names no bitmap of devices. That the entry is the lowest free one is the model's choice (DESIGN CHOICE, log entry 137); what counts as an error of a
flit, and `MINT` bit 6 for it, are its reading (DEDUCED, log entry 97), and so is how a share of a launch begins (DEDUCED, log entry 87). -/
def Obligations.DeviceTraffic : Prop :=
  ∀ (port src asid lid rank : Nat) (record : List Byte) (s : State),
    (∀ again : Bool,
      let i := Instr.flitCrcFailure { port := port, again := again }
      let fails := if again then SMap.get 0 port s.portFails else 0
      let mgmt := { s.mgmt with errors := s.mgmt.errors + 1 }
      (port ∉ s.portsUp ∨ 18 ≤ port → exec i s = .next s) ∧
      (port ∈ s.portsUp → port < 18 →
        (fails < 15 → exec i s = .next { s with mgmt := mgmt, portFails := SMap.put 0 port (fails + 1) s.portFails }) ∧
        (15 ≤ fails → ∃ t, exec i s = .next t ∧ t.portsUp = s.portsUp.filter (· ≠ port) ∧ SMap.get 0 port t.portFails = 0 ∧
          t.mgmt.mint.getLsbD 6 = true ∧ t.mgmt.errors = mgmt.errors ∧ t.content.core = s.content.core ∧ t.mem = s.mem))) ∧
    (record.length = 48 →
      let f := fun off n => ofBytes ((record.drop off).take n)
      let code := BitVec.ofNat 64 (f 0 8)
      let param := BitVec.ofNat 64 (f 8 8)
      asid = f 28 4 → s.mgmt.pstate ≤ 1 →
      let fails := fun (s : State) => exec (.deviceLaunchShare src record) s
      let faulted := fun (s : State) => ({ s with outbox := s.outbox ++ [.link "complete" src [f 44 4, 128, 0, 1] []] } : State)
      (populated (ctxAddr s asid 0) = true → asid < 16384 → descBad s asid = true →
        fails s = .next (faulted (({ s with mgmt := { s.mgmt with
          refused := s.mgmt.refused + 1, reflast := BitVec.ofNat 64 (asid + 2 ^ 16 * (f 32 1 % 256)) } } : State).raiseMint 1))) ∧
      (FarOk s asid →
        let unread := fun va : Word => 2 ^ 48 ≤ va.toNat ∨ va.toNat % 8 ≠ 0 ∨
          inWindow va = true ∧ (s.bank ((va.toNat - 0xFFFFFF800000) / bankSize)).busy = false ∧ s.farLoc asid va = none
        let read := fun (va : Word) n => va.toNat % 8 = 0 ∧ FarReach s asid va n
        (unread param ∧ (unread (code - 32) ∨ read (code - 32) 32) ∨ read param 64 ∧ unread (code - 32) → fails s = .next (faulted s)) ∧
        (read param 64 → read (code - 32) 32 →
          let kernel := s.far asid (code - 32) 32
          let p := paramsOf (s.far asid param 64)
          kernelBad kernel = true ∨ paramsBad p (ofBytes ((kernel.drop 8).take 4)) = true ∨ p.devs = 0 → fails s = .next (faulted s))) ∧
      (FarOk s asid → param.toNat % 8 = 0 → code.toNat % 8 = 0 → FarReach s asid param 64 → FarReach s asid (code - 32) 32 →
        let block := s.far asid param 64
        let kernel := s.far asid (code - 32) 32
        let p := paramsOf block
        let frame := ofBytes ((kernel.drop 8).take 4)
        kernelBad kernel = false → paramsBad p frame = false → p.devs ≠ 0 → FarReach s asid p.devs 128 →
        let devs := (List.range 1024).filter fun d => (ofBytes (s.far asid p.devs 128)).testBit d
        devs[rank]? = some s.mgmt.device → lid < 16384 → Lowest (fun k => k ∈ s.launches.map (·.1)) lid →
        let entry := s.mgmt.ltbase + 64 * lid
        Present s [(entry, 64)] → Apart [(entry, 64), (ctxAddr s asid 0, 256)] →
        ∃ t, exec (.deviceLaunchShare src record) s = .next t ∧ SameMemBut s t [(entry, 64)] ∧
          Memory.read t.mem entry 8 = p.cword.toNat ∧ Memory.read t.mem (entry + 8) 8 = 1 ∧ Memory.read t.mem (entry + 16) 8 = f 16 8 ∧
          Memory.read t.mem (entry + 24) 8 = p.table.toNat ∧ Memory.read t.mem (entry + 0x28) 4 = asid + 2 ^ 16 * f 32 1 + 2 ^ 24 * p.level ∧
          ({ t with mem := [], poison := [] } : State) = { s with
            mem := [], poison := []
            launches := SMap.put none lid (some { okind := f 33 1, spost := f 32 1, pfid := f 36 4, pord := f 40 4, share := some (src, f 44 4) })
              s.launches
            expansions := s.expansions ++ [{ lid := lid, spost := f 32 1, asid := asid, host := false, code := code, params := block
                                             fsize := (frame + 63) / 64 * 64, seg := 0, tile := 0, share := some (rank, devs.length)
                                             pord := f 40 4 }] }))

/-! Where instructions and events complete. -/

/-- Where instructions of the front complete with their own effect. `mfc` reads a control register (R145). `sys` and `brk` enter a handler (R146), and
so does a word that does not decode (R42) or cannot be fetched (R126). `yield` saves its firing with stop code 4 (R348), and `end` frees its core and its
slot and takes one from the launch's `LIVE` (R148). `abind` binds an actor of token rings, `abind.off` unbinds it (R350), and `fcommit` commits an actor
firing (R352). Link commands take a free command slot (R387, R388, R390, R392). The model's own choices are: `PSTART` is 0 in a handler (DESIGN CHOICE,
log entry 33), the counter that an event of the front saves (DEDUCED, log entry 34), completed results in the registers that `yield` saves (DEDUCED,
log entry 36), and that the actor place and the command slot are the lowest free
ones (DESIGN CHOICE, log entry 137). -/
def Obligations.FrontCompletion : Prop :=
  (∀ (st : Fin 16) (d : Fin 32) (cr : CReg) (s : State), Issues s [] → Ends (.mfc st d cr) s (s.setX d (readCReg s cr)) s.nextPc) ∧
  (∀ (st : Fin 16) (imm : BitVec 32) (s : State), Stops s [] → s.core.f.trap.act = false →
    let f := s.core.f
    let vec := s.desc (if f.level = 0 then 0x48 else 0x50) 8
    let back := s.nextPc &&& 0xFFFFFFFFFFF8
    (s.desc 0x50 8 % 2 = 1 → Enters (.sys st imm) s 0x60 (imm.zeroExtend 64) back 1 (s.desc 0x50 8)) ∧
    (vec % 2 = 1 → bit (s.desc 0 4) 5 = false → Enters (.brk st imm) s 0x61 (imm.zeroExtend 64) back f.level vec) ∧
    (vec % 2 = 1 → s.core.running = true →
      let raises := fun i cause => Enters i s cause f.fpc (f.fpc &&& 0xFFFFFFFFFFF8) f.level vec
      raises (.illegalInstruction s.core.id false) 0x01 ∧ raises (.illegalInstruction s.core.id true) 0x02 ∧
      (2 ^ 48 ≤ f.fpc.toNat → raises (.instructionFetchFault s.core.id) 0x10) ∧
      (f.fpc.toNat < 2 ^ 48 → f.fpc.toNat % 8 ≠ 0 → raises (.instructionFetchFault s.core.id) 0x11) ∧
      (inWindow f.fpc = true → f.fpc.toNat % 8 = 0 → raises (.instructionFetchFault s.core.id) 0x21))) ∧
  (∀ (st : Fin 16) (s : State), Stops s [] → Idle s →
    ∃ t, exec (.yield st) s = .next t ∧ t.core.running = false ∧ Saved s t 4 s.nextPc s.core.f.trap) ∧
  (∀ (st : Fin 16) (li : LaunchInfo) (loc : Nat) (s : State), Stops s [] → Idle s → Unlogged s → s.core.info.actor = none →
    s.core.info.kind ≠ 3 → bit s.core.f.prog.toNat 40 = false →
    let lid := s.core.info.lid
    let entry := launchAddr s lid
    let word := fun (u : State) off n => Memory.read u.mem (entry + off) n
    let live := word s 8 4
    SMap.get none lid s.launches = some li → li.share = none → li.okind ≠ 6 →
    Present s [(entry, 64)] → Apart [(entry, 64), (ctxAddr s s.core.info.asid 0, 256)] →
    word s 0 8 % 8 = 0 → 1 ≤ live → s.isPoisoned loc 8 = false → Apart [(loc, 8), (entry, 64)] →
    ({ s with mem := Memory.write s.mem (entry + 8) 4 (live - 1) } : State).walked (word s 0x28 2) 0 needBoth
      (BitVec.ofNat 64 (word s 0 8)) = some loc →
    ∃ t, exec (.endF st) s = .next t ∧ t.core.running = false ∧ word t 8 4 = live - 1 ∧
      SMap.get none (slotKey s.core.info.asid s.core.info.slot) t.slots = none ∧ SameMemBut s t [(loc, 8), (entry + 8, 4)]) ∧
  (∀ (st : Fin 16) (d a : Fin 32) (k : Nat) (s : State), Issues s [a] → MemOk s → Unlogged s → s.core.running = true → s.tokens = [] →
    let i := s.core.info
    let block := s.rx a
    let word := s.words block
    let base := 64 * clusterOf s.core.id
    let nin := word 4 % 256
    let nout := word 4 / 256 % 256
    let cb := fun p => BitVec.ofNat 64 (word (6 + p) % 2 ^ 48)
    let entry := s.mgmt.ltbase + 64 * i.lid
    -- the actor block and its ports are as Tables 15.11 and 15.3 ask
    block.toNat % 64 = 0 → WordsReach s block 16 → word 3 = 0 → word 4 / 2 ^ 24 = 0 → word 5 = 0 → word 14 = 0 → word 15 = 0 →
    nin ≤ 4 → nout ≤ 4 → 1 ≤ nin + nout → 1 ≤ word 4 / 2 ^ 16 % 256 → word 4 / 2 ^ 16 % 256 ≤ 16 →
    (∀ p, p < 8 → nin + nout ≤ p → word (6 + p) = 0) →
    (∀ p, p < nin + nout → (cb p).toNat % 64 = 0 ∧ word (6 + p) / 2 ^ 48 ≠ 0 ∧ WordsReach s (cb p) 8 ∧ bits (s.words (cb p) 2) 34 2 = 1 ∧
      1 ≤ s.words (cb p) 2 / 2 ^ 48 ∧ s.words (cb p) 2 / 2 ^ 48 ≤ 4096) →
    k < 64 → Lowest (fun k => (SMap.get none (base + k) s.actors).isSome) k → Present s [(entry, 64)] →
    ∃ t, exec (.abind st d a) s = .next t ∧ t.core.f.fpc = s.nextPc ∧
      t.mem = Memory.write s.mem (entry + 8) 4 ((Memory.read s.mem (entry + 8) 4 + 1) % 2 ^ 32) ∧
      t.besideLaunches = (s.setX d (BitVec.ofNat 64 k)).event.besideLaunches ∧
      ∃ y, SMap.get none (base + k) t.actors = some y ∧ y.asid = i.asid ∧ y.va = block ∧ y.closing = false) ∧
  (∀ (st : Fin 16) (d a : Fin 32) (key : Nat) (y : Actor) (s : State), Issues s [a] →
    s.actors.find? (fun x => decide (x.1 / 64 = clusterOf s.core.id) &&
      x.2.any fun y => decide (y.va = s.rx a ∧ y.asid = s.core.info.asid ∧ y.closing = false)) = some (key, some y) → y.live ≠ 0 →
    ∃ t, exec (.abindOff st d a) s = .next t ∧ t.core.f.fpc = s.nextPc ∧ t.mem = s.mem ∧
      t.actors = SMap.put none key (some { y with closing := true }) s.actors ∧ t.besideLaunches = (s.setX d 0).besideLaunches) ∧
  (∀ (st : Fin 16) (key : Nat) (y : Actor) (s : State), Issues s [] → MemOk s → s.tokens = [] → s.core.info.actor = some key →
    SMap.get none key s.actors = some y → y.committed = s.core.info.actorN → s.core.info.fcommitted = false →
    let loc := fun p : ActorPort => s.locOf needBoth (p.cb + 8) 8
    (∀ p ∈ y.ports, p.bank = none ∧ Reaches s needBoth [(p.cb + 8, 8)]) → Apart (y.ports.map fun p => (loc p, 8)) →
    ∃ t, exec (.fcommit st) s = .next t ∧ t.core.f.fpc = s.nextPc ∧
      t.mem = (y.ports.zipIdx).foldl (fun mem (p, n) =>
        let at' := loc p + if n < y.nin then 0 else 4
        Memory.write mem at' 4 ((Memory.read s.mem at' 4 + p.rate) % 2 ^ 32)) s.mem ∧
      t.actors = SMap.put none key (some { y with committed := (y.committed + 1) % 2 ^ 32 }) s.actors ∧
      t.besideLaunches = (s.onCore fun c => { c with info := { c.info with fcommitted := true } }).besideLaunches) ∧
  (∀ (st : Fin 16) (ord : Order) (sc : Scope) (d a b c sw : Fin 32) (k : Fin 16) (s : State),
    Dispatches s [d, a, b, c, sw] → MemOk s → Unlogged s → s.core.running = true → s.core.cmds[k] = none →
    (∀ j : Fin 16, j < k → s.core.cmds[j] ≠ none) →
    (sw ≠ 0 → (s.hit needBoth (s.rx sw) 8).isSome = true ∧ scopeBad sc (s.rx sw) = false) →
    let n := (s.rx b).toNat % 2 ^ 32
    let beside := ({ s with cmdCtr := s.cmdCtr + 1 } : State).besideCmd k
    (Instr.wf (.lput st ord sc d a b c sw) = true → (n ≠ 0 → (s.hit needLoad (s.rx a) 1).isSome = true) →
      ∃ t x, exec (.lput st ord sc d a b c sw) s = .next t ∧ t.core.f.fpc = s.nextPc ∧ t.mem = s.mem ∧ t.besideCmd k = beside ∧
        t.core.cmds[k] = some x ∧ x.kind = .lput (s.rx c).toNat ∧ x.dst = s.rx d ∧ x.src = s.rx a ∧ x.n = n) ∧
    (Instr.wf (.lget st ord sc d a b c sw) = true → (n ≠ 0 → (s.hit needStore (s.rx d) 1).isSome = true) →
      ∃ t x, exec (.lget st ord sc d a b c sw) s = .next t ∧ t.core.f.fpc = s.nextPc ∧ t.mem = s.mem ∧ t.besideCmd k = beside ∧
        t.core.cmds[k] = some x ∧ x.kind = .lget (s.rx c).toNat ∧ x.dst = s.rx d ∧ x.src = s.rx a ∧ x.n = n) ∧
    (Instr.wf (.lsend st ord sc d a b c sw) = true →
      ∃ t x, exec (.lsend st ord sc d a b c sw) s = .next t ∧ t.core.f.fpc = s.nextPc ∧ t.mem = s.mem ∧ t.besideCmd k = beside ∧
        t.core.cmds[k] = some x ∧ x.kind = .lsend (s.rx d) #v[s.rx a, s.rx b, s.rx c])) ∧
  (∀ (st : Fin 16) (ord : Order) (sc : Scope) (d a b c sw : Fin 32) (kind : CollKind) (fmt : Fmt) (k : Fin 16) (s : State),
    Dispatches s [d, a, b, c, sw] → MemOk s → Unlogged s → s.core.running = true → s.core.cmds[k] = none →
    (∀ j : Fin 16, j < k → s.core.cmds[j] ≠ none) →
    (sw ≠ 0 → (s.hit needBoth (s.rx sw) 8).isSome = true ∧ scopeBad sc (s.rx sw) = false) →
    fencePassed s (slotKey s.core.info.asid s.core.info.slot) s.core.f.relFence false = true →
    let n := (s.rx b).toNat % 2 ^ 32
    let word := s.words (s.rx c)
    let byte := fun j => Memory.read s.mem (s.locOf needLoad (BitVec.ofNat 64 (word 1) + BitVec.ofNat 64 j) 1) 1
    let members := (List.range 1024).filter fun d => (byte (d / 8)).testBit (d % 8)
    let root := bits (word 0) 32 16
    let mine := s.mgmt.device
    let count := collSource kind n members.length (mine == root)
    let count' := collDest kind n members.length (mine == root)
    let align := max 1 (fmt.width / 8)
    Instr.wf (.coll st kind ord sc d a b c sw fmt) = true →
    (s.rx c).toNat % 8 = 0 → WordsReach s (s.rx c) 4 →
    (∀ j, j < 128 → Reaches s needLoad [(BitVec.ofNat 64 (word 1) + BitVec.ofNat 64 j, 1)]) →
    mine ∈ members → root ∈ members → (kind = .barrier → n = 0) → collBytes fmt count ≤ 2 ^ 32 → collBytes fmt count' ≤ 2 ^ 32 →
    (count ≠ 0 → (s.hit needLoad (s.rx a) align).isSome = true) → (count' ≠ 0 → (s.hit needStore (s.rx d) align).isSome = true) →
    ∃ t x, exec (.coll st kind ord sc d a b c sw fmt) s = .next t ∧ t.core.f.fpc = s.nextPc ∧ t.mem = s.mem ∧
      t.besideCmd k = ({ s with cmdCtr := s.cmdCtr + 1 } : State).besideCmd k ∧ t.core.cmds[k] = some x ∧
      x.kind = .coll kind fmt n root (word 0 % 2 ^ 32) members ∧ x.dst = s.rx d ∧ x.src = s.rx a ∧ x.ended = false)

/-- Where events complete that wake, take away or perform something: a sleeping `waita`, a barrier's waiter, an event that waits for room in the chain
log or for its record look again (R144, R322, R369, R371); an event that has waited a full window is marked (R373); a line leaves an L1 (R68); a vat that
has stood still stalls (R248); a grant is written, and the bank zeroed unless it is a cache bank (R65); a beater performs a token (R310). Those that need the
core clock do nothing in P2 and P3, which gate it (R425); those that reach memory from outside wait in P2 and do nothing in P3. Which events
these are is the model's reading (DEDUCED, log entry 105). -/
def Obligations.BackgroundEvents : Prop :=
  (∀ (i : Instr) (s : State), needsClock i = true → 2 ≤ s.mgmt.pstate → exec i s = .next s) ∧
  (∀ (i : Instr) (s : State), fromOutside i = true →
    (s.mgmt.pstate = 2 → exec i s = .next (s.park i)) ∧ (s.mgmt.pstate = 3 → exec i s = .next s)) ∧
  (∀ (k : Nat) (s : State),
    let c := s.coreAt k
    let changes := fun (i : Instr) (g : Core → Core) => exec i s = .next (s.modifyCore k g)
    let wakes := fun i => changes i fun c => { c with wait := none }
    (s.mgmt.pstate ≤ 1 → c.wait = some .waita → wakes (.waitaWake k)) ∧
    (s.mgmt.pstate ≤ 1 → c.wait = some .barrier → wakes (.barrierWake k)) ∧
    (∀ asid key, c.wait = some (.logRoom asid key) → wakes (.logEntryReserve k)) ∧
    (∀ asid key, c.wait = some (.replay asid key) → wakes (.replayEventMatch k)) ∧
    (∀ line, changes (.lineLeavesL1 k line) fun c => { c with l1 := c.l1.filter (·.1 ≠ line) }) ∧
    (∀ r, s.mgmt.pstate ≤ 1 → c.vat = some r → 0 < r.idle → changes (.fxStall k) fun c => { c with vat := some { r with idle := 64 } })) ∧
  (∀ (s : State) (asid key : Nat), s.core.id < 160 → s.core.running = true → s.core.wait = some (.replay asid key) →
    (∀ off, off < 256 → populated (ctxAddr s s.core.info.asid off) = true) → bits (s.desc 0 4) 2 2 = 2 → bit (s.desc 0x7C 4) 1 = false →
    clockStops s s.core.info.asid = false →
    exec (.replayWindowExpiry s.core.id) s = .next (s.onCore fun c => { c with expired := true, wait := none })) ∧
  (∀ (cluster bank gasid : Nat) (gv : Bool) (s : State), cluster < 40 → bank < 32 →
    let k := 32 * cluster + bank
    let lo := quireBase + k * bankSize
    let new := { s.bank k with gv := gv, gasid := gasid % 2 ^ 14 }
    ((s.bank k).mode = .cache → exec (.qbankGrantWrite cluster bank gv gasid) s = .next (s.setBank k new)) ∧
    -- nothing of the old owner is on its way to the bank
    ((s.bank k).mode ≠ .cache → (∀ x ∈ s.tokens, s.beater x.loc ≠ k) → (∀ x ∈ s.stores, s.homeBank x.loc ≠ some k) →
      (∀ l ∈ s.late, ∀ loc ∈ l.locs, s.homeBank loc ≠ some k) →
      ∃ t, exec (.qbankGrantWrite cluster bank gv gasid) s = .next t ∧
        t.bank k = { new with fifo := [], fifoHead := 0, fifoBad := 0, reserved := 0 } ∧
        (∀ j, j ≠ k → t.bank j = s.bank j) ∧
        (∀ x, Memory.byte t.mem x = if lo ≤ x ∧ x < lo + bankSize then 0 else Memory.byte s.mem x) ∧
        t = { s with mem := t.mem, poison := t.poison, banks := t.banks })) ∧
  (∀ (i : Nat) (x : Token) (s : State), s.mgmt.pstate ≤ 1 → s.tokens[i]? = some x → mayPerform s.tokens i x = true → x.merged = [] → x.poison = false →
    s.isPoisoned x.loc x.n = false → s.isPoisoned (x.loc / 8 * 8) 8 = false →
    (SMap.get none (slotKey x.asid x.slot) s.slots).all (·.onCore.isSome) = true →
    let performed := fun v => ∃ t, exec (.tokenPerformed i) s = .next t ∧ t.tokens = s.tokens.eraseIdx i ∧
      t.mem = Memory.write s.mem x.loc x.n v ∧
      t.core.f = { s.core.f with beatFlags := t.core.f.beatFlags, poisonOut := t.core.f.poisonOut } ∧
      { t with core := s.core, others := s.others, mem := s.mem, poison := s.poison, covers := s.covers, tokens := s.tokens,
               sticky := s.sticky, bseq := s.bseq, slots := s.slots } = s
    (∀ f, x.op = .add f → f.isInt = true → performed ((Memory.read s.mem x.loc x.n + x.value) % 2 ^ (8 * x.n))) ∧
    (∀ f, x.op = .store f → performed x.value))

/-- Where events of the scheduler and of stops complete. An idle core picks the record at the `HEAD` of its run post and starts its firing (R341,
R342, R340). A launch record is accepted: it takes a free launch entry, the lowest by the model's choice (DESIGN CHOICE, log entry 137), and its expansion
begins (R333, R335). An actor's firing is pushed (R351).
`DEFICIT` is charged (R341). The quantum's end, or the request that ends it, stops the firing with stop code 1 (R343, R115); a firing halts on
`BKPT` with stop code 5 (R414); an access in flight at a stop is performed, and its result stands in the saved image (R108). The model's readings in it (all DEDUCED): completed
results in the saved registers (log entry 36), the count of accepted launches (83), what a stop charges and when it pre-empts (84), which accesses are in flight after a
stop (56), and when the scheduler runs (88). -/
def Obligations.SchedulerEvents : Prop :=
  (∀ (p pa slot : Nat) (s : State), s.core.running = false → s.core.id < 160 → schedulerRuns s = true → s.core.picking = false →
    (s.core.picks + 1) % 4 ≠ 0 → s.sessions = [] → s.submits = [(p, some ⟨pa⟩)] →
    (∀ x ∈ s.slots, x.2.all (fun i => !i.owed) = true) → Quiet s.core.trace →
    let cb := s.runPost pa s.core.id
    let head := Memory.read s.mem (cb + 8) 4
    let at' := Memory.read s.mem cb 8 + 32 * (head % Memory.read s.mem (cb + 16) 4)
    let word := fun off n => Memory.read s.mem (at' + off) n
    let asid := bits (word 28 4) 0 14
    let lid := bits (word 28 4) 14 14
    let entry := s.mgmt.ltbase + 64 * lid
    head ≠ Memory.read s.mem (cb + 12) 4 → bits (word 28 4) 28 2 = 0 → bit (word 28 4) 31 = false →
    (SMap.get none at' s.origins).all (fun o => o.payload == []) = true →
    Memory.read s.mem (pa + 0x20) 1 ≠ 0 → 0 < Memory.read s.mem (pa + 0x38) 8 → Memory.read s.mem (pa + 0x38) 8 < 2 ^ 63 →
    FarOk s asid → asid ∉ s.mgmt.stops → freeSlotOf s asid = some slot → (SMap.get none lid s.launches).isSome = true →
    Memory.read s.mem (entry + 0x28) 2 = asid →
    Present s [(pa, 64), (cb, 64), (at', 32), (entry, 64)] → Apart [(cb, 64), (entry, 64), (ctxAddr s asid 0, 256)] →
    ∃ t, exec (.pick s.core.id) s = .next t ∧ t.core.running = true ∧ t.core.f.level = (if bit (s.ctxRaw asid 0 4) 4 then 2 else 0) ∧
      t.core.f.fpc = BitVec.ofNat 64 (word 0 8 % 2 ^ 48 / 8 * 8) ∧ t.core.l1 = [] ∧ t.core.info.asid = asid ∧ t.core.info.slot = slot ∧
      t.core.info.lid = lid ∧ t.core.info.spost = p ∧
      (∀ r : Fin 32, t.rx r = if r = 1 then BitVec.ofNat 64 (word 8 8) else if r = 2 then BitVec.ofNat 64 (word 16 8) else 0) ∧
      (SMap.get none (slotKey asid slot) t.slots).map (·.onCore) = some (some s.core.id) ∧ SameMemBut s t [(cb + 8, 4)] ∧
      Memory.read t.mem (cb + 8) 4 = (head + 1) % 2 ^ 32 ∧ t.others = s.others) ∧
  (∀ (post pa lid : Nat) (s : State), schedulerRuns s = true → SMap.get none post s.submits = some ⟨pa⟩ →
    (∀ e ∈ s.expansions, e.spost ≠ post) →
    let head := Memory.read s.mem (pa + 8) 4
    let at' := Memory.read s.mem pa 8 + 32 * (head % Memory.read s.mem (pa + 16) 4)
    let f := fun off n => Memory.read s.mem (at' + off) n
    let asid := f 28 4
    let code := BitVec.ofNat 64 (f 0 8)
    let param := BitVec.ofNat 64 (f 8 8)
    let block := s.far asid param 64
    let kernel := s.far asid (code - 32) 32
    let p := paramsOf block
    let frame := ofBytes ((kernel.drop 8).take 4)
    let entry := s.mgmt.ltbase + 64 * lid
    let n := SMap.get 0 post (s.session asid).accepted
    head ≠ Memory.read s.mem (pa + 12) 4 → f 24 4 = 0 → FarOk s asid → asid ∉ s.mgmt.stops → param.toNat % 64 = 0 → code.toNat % 8 = 0 →
    FarReach s asid param 64 → FarReach s asid (code - 32) 32 → kernelBad kernel = false → paramsBad p frame = false → p.devs = 0 →
    lid < 16384 → Lowest (fun k => k ∈ s.launches.map (·.1)) lid →
    Present s [(entry, 64)] → Apart [(entry, 64), (ctxAddr s asid 0, 256)] →
    ∃ t, exec (.launchAcceptance post) s = .next t ∧ SameMemBut s t [(entry, 64)] ∧ Memory.read t.mem entry 8 = p.cword.toNat ∧
      Memory.read t.mem (entry + 8) 8 = 1 ∧ Memory.read t.mem (entry + 16) 8 = f 16 8 ∧ Memory.read t.mem (entry + 24) 8 = p.table.toNat ∧
      Memory.read t.mem (entry + 0x28) 4 = asid + 2 ^ 16 * (post % 256) + 2 ^ 24 * p.level ∧
      ({ t with mem := [], poison := [] } : State) =
        { s.setSession { s.session asid with accepted := SMap.put 0 post (n + 1) (s.session asid).accepted } with
          mem := [], poison := []
          launches := SMap.put none lid (some { okind := 1, spost := post, pfid := 0, pord := n }) s.launches
          expansions := s.expansions ++ [{ lid := lid, spost := post, asid := asid, host := true, code := code, params := block
                                           fsize := (frame + 63) / 64 * 64, seg := 0, tile := 0, share := none, pord := n }] }) ∧
  (∀ (cluster idx pa cb entry : Nat) (a : Actor) (s : State), schedulerRuns s = true → idx < 64 →
    let key := 64 * cluster + idx
    let le := s.mgmt.ltbase + 64 * a.lid
    SMap.get none key s.actors = some a → actorReady key a s = (.ok true, s) → PostRoom s a.spost (160 + cluster) pa cb entry →
    Present s [(le, 64)] → Apart [(le, 64), (pa, 64)] → Apart [(le, 64), (cb, 64), (entry, 32)] →
    ∃ t, exec (.actorFiring cluster idx) s = .next t ∧ Pushed s t cb entry a.code.toNat (mkMeta a.asid a.lid 2) ∧
      Memory.read t.mem (entry + 16) 8 = a.next % 2 ^ 32 + 2 ^ 32 * idx ∧
      Memory.read t.mem (le + 8) 4 = (Memory.read s.mem (le + 8) 4 + 1) % 2 ^ 32 ∧
      SameMemBut s t [(le + 8, 4), (entry, 32), (cb + 12, 4)] ∧
      SMap.get none key t.actors = some { a with next := (a.next + 1) % 2 ^ 32, live := a.live + 1 } ∧ t.core = s.core ∧ t.others = s.others) ∧
  (∀ (pa : Nat) (s : State), s.core.running = true → max 1 s.mgmt.schedq ≤ s.held - s.core.charged →
    SMap.get none s.core.info.spost s.submits = some ⟨pa⟩ → pa % 64 = 0 → populated (pa + 0x38) = true →
    ∃ t, exec (.deficitCharge s.core.id) s = .next t ∧
      t.unmarked = ({ s.onCore fun c => { c with charged := s.held } with
        mem := Memory.write s.mem (pa + 0x38) 8
          ((Memory.read s.mem (pa + 0x38) 8 + (2 ^ 64 - (s.held - s.core.charged) % 2 ^ 64)) % 2 ^ 64) } : State).unmarked) ∧
  (∀ (pa cb entry n : Nat) (accepted : List Nat) (s : State), Stops s [] → Still s → rivalWaits s = (.ok true, s) →
    (s.submits = [(s.core.info.spost, some ⟨pa⟩)] → pa % 64 = 0 → s.mgmt.schedq ≤ s.held →
      PostRoom s s.core.info.spost (160 + s.core.id / 4) pa cb entry →
      Apart [(s.slotAt, 2 ^ 20), (pa, 64), (ctxAddr s s.core.info.asid 0, 256)] →
      Apart [(s.slotAt, 2 ^ 20), (cb, 64), (ctxAddr s s.core.info.asid 0, 256)] →
      Apart [(s.slotAt, 2 ^ 20), (entry, 32), (ctxAddr s s.core.info.asid 0, 256)] →
      Apart [(pa, 64), (cb, 64), (entry, 32)] →
      ∀ i ∈ [Instr.quantumExpiry s.core.id, .preemption s.core.id none accepted],
        ∃ t, exec i s = .next t ∧ t.core.running = false ∧ Saved s t 1 s.core.f.fpc s.core.f.trap ∧
          SameMemBut s t [(s.slotAt, 2 ^ 20), (pa + 0x38, 8), (entry, 32), (cb + 12, 4)]) ∧
    exec (.preemption s.core.id (some n) accepted) s = .next (s.onCore fun c => { c with budget := some n, accepted := accepted })) ∧
  (∀ s : State, Stops s [] → QueueHere s → Idle s → s.core.bkptPassed ≠ some s.core.f.fpc → bit s.core.trace.bkpt 0 = true → bit (s.desc 0 4) 5 = true →
    s.core.f.fpc.toNat = bits s.core.trace.bkpt 3 45 * 8 →
    ∃ t, exec (.breakpointHalt s.core.id) s = .next t ∧ t.core.running = false ∧ Saved s t 5 s.core.f.fpc s.core.f.trap ∧
      s.core.info.asid ∈ t.debugHold ∧ t.mgmt.mint.getLsbD 2 = true) ∧
  (∀ (idx loc : Nat) (l : Late) (s : State), s.mgmt.pstate ≤ 1 → s.late[idx]? = some l → l.orphan = false → l.amo = none → l.reg < 64 →
    -- no earlier element of a byte in common comes before it
    (∀ y ∈ s.late.take idx, y.precedes l = false) →
    -- nothing of its core is on its way, and no beat has failed
    (∀ x ∈ s.stores, x.core ≠ l.core ∧ x.shown = none) → (∀ x ∈ s.tokens, x.ofCore l.core = false ∧ x.shown = none) →
    (s.coreAt l.core).badBeat = false → l.w ∈ [8, 16, 32, 64] →
    (l.elem + 1) * l.w ≤ 32768 → l.locs = [loc] → l.n = l.w / 8 → l.bo = 0 →
    let asid := l.slotKey / 65536
    let base := s.ctxRaw asid 0x10 8 + 2 ^ 20 * (l.slotKey % 65536)
    let at' := base + 0x80000 + 4096 * l.reg + l.elem * (l.w / 8)
    Present s [(ctxAddr s asid 0, 256), (base, 2 ^ 20)] → Apart [(ctxAddr s asid 0, 256), (base, 2 ^ 20)] →
    bit (s.ctxRaw asid 0 4) 1 = false →
    (SMap.get none l.slotKey s.slots).all
      (fun i => !i.owed && i.draining.isEmpty && i.info.asid == asid && i.info.slot == l.slotKey % 65536) = true →
    ∃ t, exec (.accessPerformedAfterStop idx) s = .next t ∧ t.late = s.late.eraseIdx idx ∧ SameMemBut s t [(base, 2 ^ 20)] ∧
      (∀ k, t.coreAt k = if k = l.core ∧ (s.coreAt k).wait = some .background then { s.coreAt k with wait := none } else s.coreAt k) ∧
      -- the result of a register that the save left in its overflow area, with no entry dumped
      (bit (Memory.read s.mem (base + 24) 8) l.reg = false → Memory.read s.mem (base + 17) 1 = 0 →
        Memory.read t.mem at' l.n = Memory.read s.mem loc l.n))

/-- Where the mailbox's commands complete (R424), with no other command running: each with its own effect and status 0 (R112, R114, R128, R333, R419,
R420), a code that the table does not list with status 1. A firing that has stopped for an answer becomes runnable, or ends as failed. The model's readings in it: completed results in
the saved registers (DEDUCED, log entry 36), what the commands do with arguments that are reserved or name nothing (102), that `FIXED` drops every translation of the
context (112), and that `ACTIVATE` drains before it reads the image (103). -/
def Obligations.MailboxCommands : Prop :=
  ∀ s : State, s.mgmt.mbusy = false → s.mgmt.mrun = none →
    let done := fun (t : State) => t.mgmt.mbusy = false ∧ t.mgmt.mstatus = 0 ∧ t.mgmt.mint.getLsbD 0 = true
    (∀ asid, asid < 16384 →
      exec (.ctxgo asid) s = .next (({ s with mgmt := { s.mgmt with stops := s.mgmt.stops.filter (· != asid) } } : State).mailboxAnswer 4
        (bytesOf 2 asid) 0 []) ∧
      ∀ dbg, ((∀ c ∈ s.cores, c.running = true → c.info.asid ≠ asid) →
          exec (.ctxstop asid dbg) s = .next (({ s with mgmt := { s.mgmt with stops := insertSorted asid s.mgmt.stops } } : State).mailboxAnswer 3
            (bytesOf 2 asid ++ bytesOf 2 dbg.toNat) 0 (bytesOf 4 0))) ∧
        (s.core.info.asid = asid → s.others = [] → Stops s [] → Idle s → QueueHere s →
          ∃ t, exec (.ctxstop asid dbg) s = .next t ∧ done t ∧ t.mgmt.margs.take 4 = bytesOf 4 1 ∧ asid ∈ t.mgmt.stops ∧
            Saved s t (if dbg then 5 else 1) s.core.f.fpc s.core.f.trap)) ∧
    (∀ (asid slot idx pa cb entry : Nat) (i : SlotInfo), Resumable s i asid slot pa cb entry →
      let runs := fun (t : State) => done t ∧ Pushed s t cb entry (slot + 2 ^ 16 * (i.info.lastCore / 4)) (mkMeta asid i.info.lid 1) ∧
        SMap.get none (slotKey asid slot) t.slots = some { i with owed := false, answered := true } ∧
        SameMemBut s t [(entry, 32), (cb + 12, 4)] ∧ t.core.f = s.core.f
      (i.waits [2, 3] = true → ∃ t, exec (.fixed asid slot idx) s = .next t ∧ runs t ∧ ∀ c ∈ t.cores, ∀ e ∈ c.tlb, e.asid ≠ asid) ∧
      (i.waits [5] = true → ∃ t, exec (.dbggo asid slot) s = .next t ∧ runs t)) ∧
    (∀ (asid slot idx loc : Nat) (i : SlotInfo) (li : LaunchInfo), asid < 16384 → slot < 65535 →
      SMap.get none (slotKey asid slot) s.slots = some i → i.waits [2, 3, 5] = true → i.info.asid = asid → i.info.slot = slot →
      (∀ c ∈ s.cores, c.running = false ∧ ∀ x ∈ c.cmds.toList, x = none) → s.tokens = [] → s.submits = [] → i.info.kind ≠ 3 →
      i.info.actor = none → i.draining = [] → (s.session asid).underWay = [] →
      let base := s.ctxRaw asid 0x10 8 + 2 ^ 20 * slot
      let entry := launchAddr s i.info.lid
      let word := fun (u : State) off n => Memory.read u.mem (entry + off) n
      let live := word s 8 4
      let old := Memory.read s.mem loc 8
      Present s [(ctxAddr s asid 0, 256), (base, 2 ^ 20), (entry, 64)] → bit (s.ctxRaw asid 0 4) 1 = false →
      SMap.get none i.info.lid s.launches = some li → li.share = none → li.okind ≠ 6 → word s 0 8 % 8 = 0 → 1 ≤ live →
      ({ s with mem := Memory.write s.mem (entry + 8) 4 (live - 1) } : State).walked (word s 0x28 2) 0 needBoth
        (BitVec.ofNat 64 (word s 0 8)) = some loc →
      s.isPoisoned loc 8 = false → Apart [(loc, 8), (entry, 64)] →
      ∃ t, exec (.kill asid slot idx) s = .next t ∧ done t ∧ SMap.get none (slotKey asid slot) t.slots = none ∧ word t 8 4 = live - 1 ∧
        Memory.read t.mem loc 8 = (old ||| 2 ^ 7 ||| if live = 1 then 1 else 0) % 2 ^ 32 + 2 ^ 32 * ((old / 2 ^ 32 + 1) % 2 ^ 32) ∧
        SameMemBut s t [(loc, 8), (entry + 8, 4)]) ∧
    (∀ (post : Nat) (v : BitVec 64), post < 256 →
      let pa := v.toNat
      let runs := Memory.read s.mem (pa + 0x28) 8
      let cap := Memory.read s.mem (pa + 0x30) 4
      (SMap.get none post s.submits = none → pa % 64 = 0 → (∀ off, off < 64 → populated (pa + off) = true) → populated runs = true →
        populated (runs + 16384 + 32 * cap * 209 - 1) = true → runs % 4096 = 0 → (∃ k, 6 ≤ k ∧ k ≤ 16 ∧ cap = 2 ^ k) →
        ∃ mem poison, exec (.subreg post v) s = .next (({ s with
            mem := mem, poison := poison, submits := SMap.put none post (some ⟨pa⟩) s.submits } : State).mailboxAnswer 6
            (bytesOf 4 post ++ bytesOf 8 pa) 0 []) ∧
          (∀ i, i < 209 → Memory.read mem (runs + 64 * i) 8 = runs + 16384 + 32 * cap * i ∧ Memory.read mem (runs + 64 * i + 8) 8 = 0 ∧
            Memory.read mem (runs + 64 * i + 16) 4 = cap) ∧
          ∀ a, ¬(runs ≤ a ∧ a < runs + 64 * 209) → Memory.byte mem a = Memory.byte s.mem a) ∧
      (∀ x, SMap.get none post s.submits = some x → submitUsed s post x.pa = false →
        exec (.subregUnregister post) s = .next (({ s with submits := SMap.put none post none s.submits } : State).mailboxAnswer 6
          (bytesOf 1 post ++ bytesOf 11 1) 0 [])) ∧
      ∀ code, code = 0 ∨ 9 < code → exec (.badCommandCode code) s = .next (s.mailboxAnswer (code % 2 ^ 32) s.mgmt.margs 1 [])) ∧
    (∀ (offset : Nat) (bytes : List Byte), bytes ≠ [] → bytes.length ≤ 4080 → offset < 2 ^ 32 →
      ∃ image, exec (.fwwrite offset bytes) s = .next (({ s with mgmt := s.mgmt.setInactive image } : State).mailboxAnswer 7
          (bytesOf 4 offset ++ bytesOf 4 bytes.length ++ bytes) 0 []) ∧
        ∀ j, image.getD j 0 = if offset ≤ j ∧ j < offset + bytes.length then bytes.getD (j - offset) 0 else s.mgmt.inactive.getD j 0) ∧
    ((∀ c ∈ s.cores, c.running = false) →
      let good := Config.imageSigned s.mgmt.inactive
      let m := if good then { s.mgmt with activeB := !s.mgmt.activeB, xver := BitVec.ofNat 16 (Config.imageXver s.mgmt.inactive) } else s.mgmt
      exec .activate s = .next ((({ s with mgmt := m } : State).raiseMint 7).mailboxAnswer 8 [] (if good then 0 else 4) [])) ∧
    ∀ (slot asid session : Nat) (wrapped : List Byte), wrapped.length = 96 → asid < 16384 → slot < 65536 → s.mgmt.spdm = some session →
      let args := bytesOf 2 slot ++ bytesOf 2 asid ++ bytesOf 4 session ++ wrapped
      exec (.keyload slot asid session wrapped) s = .next (match Config.unwrapKey session wrapped with
        | none => s.mailboxAnswer 9 args 4 []
        | some key => ({ s with
            mgmt := { s.mgmt with keys := SMap.put none slot (some (asid, key)) s.mgmt.keys } } : State).mailboxAnswer 9 args 0 [])

/-- Where the accesses of the host and of board management complete: writes of the management registers (R341, R422, R423, R425), a sample of power
and temperature (R426), module reset (R418, R421), identity (R420), PLDM (R427), submit pages and the memory aperture (R402, R403), a descriptor that becomes valid
(R110, R239), and the firmware's answer to a NOTMAPPED of a confidential context (R125). The model's own in it: what P3 clears and keeps, and that outside accesses ask for
P0 or P1 (DEDUCED, log entry 105), a boot that fails (130), and the pages of the aperture and of the submit posts (100). -/
def Obligations.Management : Prop :=
  (∀ (v : BitVec 64) (s : State),
    let m := s.mgmt
    let sets := fun (i : Instr) (m : Mgmt) => exec i s = .next { s with mgmt := m }
    let n := v.toNat
    sets (.mstatWrite v) { m with run := v.getLsbD 1, movr := m.movr && !v.getLsbD 6, throt := m.throt && !v.getLsbD 7 } ∧
    (m.recov = true → ∀ i ∈ [Instr.mintWrite v, .schedqWrite v, .pstateWrite v, .managementRegisterWrite 0x08 { value := v },
      .managementRegisterWrite 0x10 { value := v }, .managementRegisterWrite 0x18 { value := v }, .managementRegisterWrite 0x40 { value := v }], sets i m) ∧
    (m.recov = false → m.ctxbase < 2 ^ 64 → m.mslotbase < 2 ^ 64 → m.ltbase < 2 ^ 64 →
      sets (.mintWrite v) { m with mint := m.mint &&& ~~~v } ∧
      sets (.schedqWrite v) { m with
        schedq := let q := n % 2 ^ 32; if q = 0 then 95000 else if q < 1900 then 1900 else if 1900000 < q then 1900000 else q } ∧
      sets (.managementRegisterWrite 0x08 { value := v }) { m with ctxbase := n, based := m.based ||| 1 } ∧
      sets (.managementRegisterWrite 0x10 { value := v }) { m with mslotbase := n, based := m.based ||| 2 } ∧
      sets (.managementRegisterWrite 0x18 { value := v }) { m with ltbase := n, based := m.based ||| 4 } ∧
      sets (.managementRegisterWrite 0x28 { value := v }) { m with apbase := bits n 0 10 + 2 ^ 25 * bits n 25 14 } ∧
      sets (.managementRegisterWrite 0x40 { value := v }) { m with minten := v } ∧
      (m.pstate ≠ 3 → ∀ p, n % 2 ^ 32 = p →
        (p ≤ 1 → sets (.pstateWrite v) { m with preq := p, pstate := if m.limited then max 1 p else p }) ∧
        ((∀ c ∈ s.cores, c.running = false) →
          (p = 2 → sets (.pstateWrite v) { m with preq := 2, pstate := 2 }) ∧
          (p = 3 → exec (.pstateWrite v) s = .next { s.keepEnv State.reset with mgmt := { m with preq := 3, pstate := 3 }, cycle := s.cycle })))) ∧
    (m.mbusy = false → m.mbox = none → m.mrun = none → m.mcmd < 2 ^ 32 → v = 4 → let asid := ofBytes (m.margs.take 2); asid < 16384 →
      exec (.managementRegisterWrite 0x1000 { value := v }) s = .next (({ s with mgmt := { m with stops := m.stops.filter (· != asid) } } : State).mailboxAnswer
        4 m.margs 0 [])) ∧
    (∀ (w c : Nat) (temps : Temperatures), m.pstate ≠ 3 → (∀ k : Fin 4, temps.dies[k] ≤ c) → (∃ k : Fin 4, temps.dies[k] = c) →
      let i := Instr.telemetrySample w temps
      let hot := if 2000000 < w then m.hotSamples + 1 else 0
      let cool := if w < 1900000 ∧ c < 100000 then m.coolSamples + 1 else 0
      let u := { m with milliwatts := w, temps := temps, hotSamples := hot, coolSamples := cool }
      let limit := fun (s : State) =>
        ({ s with mgmt := { s.mgmt with limited := true, throt := true, pstate := max 1 s.mgmt.pstate } } : State).raiseMint 3
      let sampled := ({ s with mgmt := u } : State)
      (hot < 3 → c < 105000 → if m.limited = true ∧ 1000 ≤ cool then sets i { u with limited := false, pstate := if m.pstate = 1 then m.preq else m.pstate }
        else sets i u) ∧
      (3 ≤ hot ∨ 105000 ≤ c → c < 110000 → exec i s = .next (limit sampled)) ∧
      (110000 ≤ c → c < 115000 → exec i s = .next (limit (sampled.raiseMint 3))) ∧
      (115000 ≤ c → m.activating = false → (∀ c ∈ s.cores, c.running = false) →
        let v := limit (sampled.raiseMint 3)
        exec i s = .next { v.keepEnv State.reset with
          mgmt := { v.mgmt with pstate := 3 }, cycle := s.cycle, outbox := v.outbox ++ [.word "trip" c] })) ∧
    (∀ boot : BootInputs,
      let key := Config.identityKey boot.puf m.cfgBlock
      let good := key.any fun k => Config.hmacSha512 (Config.configKey k) (Config.configBody m.cfgBlock) == Config.configTag m.cfgBlock
      let flash : Mgmt := { slotA := m.slotA, slotB := m.slotB, cfgBlock := m.cfgBlock, certChain := m.certChain }
      let ran := fun (slotB : Bool) (image : List Byte) => ({ s.keepEnv State.reset with
        portsUp := (List.range 18).filter boot.portsUp.contains
        mgmt := { flash with activeB := slotB, ready := true, noid := key.isNone, cfgbad := !good
                             bridge := good && Config.configBridge m.cfgBlock
                             device := boot.device % 1024, xver := BitVec.ofNat 16 (Config.imageXver image)
                             stepping := boot.stepping } } : State)
      let failed := fun (m : Mgmt) => ({ s.keepEnv State.reset with mgmt := { m with recov := true } } : State).raiseMint 7
      let a := Config.imageSigned m.slotA
      exec (.moduleReset boot) s = .next (
        if a = false ∧ Config.imageSigned m.slotB = false then failed { flash with noid := true }
        else if boot.trained = false then failed { flash with activeB := !a, noid := key.isNone, cfgbad := !good }
        else if a = true then ran false m.slotA else ran true m.slotB)) ∧
    (m.mrun = none →
     let sends := fun (i : Instr) (x : Sent) => exec i s = .next { s with outbox := s.outbox ++ [x] }
     let signed := fun (i : Instr) (b : List Byte) => sends i (.bytes "spdm" (b ++ Config.sign b))
     (∀ offset length, sends (.getCertificate 0 offset length) (.bytes "spdm" ((m.certChain.drop offset).take length))) ∧
     (m.hasKey = true → ∀ bytes : List Byte,
       signed (.challenge bytes) (bytesOf 64 (Config.sha512 m.certChain) ++ bytes) ∧
       signed (.getMeasurements bytes) (measurements m ++ bytes) ∧
       exec (.keyExchange bytes) s = .next { s with
         mgmt := { m with spdm := some (Config.sessionId bytes % 2 ^ 32) }
         outbox := s.outbox ++ [.bytes "spdm" (Config.keyExchange bytes ++ Config.sign (Config.keyExchange bytes))] }) ∧
     (∀ command, sends (.pldmBase command) (.bytes "pldm" (Config.pldmAnswer command))) ∧
     (∀ k, sends (.pldmMonitoring (.readSensor (.die k))) (.word "pldm" m.temps.dies[k])) ∧
     (∀ k, sends (.pldmMonitoring (.readSensor (.stack k))) (.word "pldm" m.temps.hbm[k])) ∧
     sends (.pldmMonitoring (.readSensor .power)) (.word "pldm" m.milliwatts) ∧
     (∀ mv, (m.pstate, mv) ∈ [(0, 550), (1, 500), (2, 450), (3, 0)] → sends (.pldmMonitoring (.readSensor .rail)) (.word "pldm" mv)) ∧
     (∀ p, p ≤ 1 → m.pstate ≠ 3 →
       sets (.pldmMonitoring (.setPowerState p)) { m with preq := p, pstate := if m.limited then max 1 p else p }) ∧
     sends .pldmFru (.bytes "pldm" ([0x4C, 0x59, 0x2D, 0x4A, 0x39] ++ bytesOf 1 m.stepping.toNat ++ Config.serialNumber)) ∧
     ((∀ c ∈ s.cores, c.running = false) → ∀ image : List Byte,
       let good := Config.imageSigned image
       let m' := m.setInactive image
       let u := ({ s with mgmt := if good then { m' with activeB := !m.activeB, xver := BitVec.ofNat 16 (Config.imageXver image) } else m' }
         : State).raiseMint 7
       exec (.pldmFirmwareUpdate image) s = .next { u with outbox := u.outbox ++ [.word "pldm" (if good then 0 else 4)] }))) ∧
  (∀ (page cb off : Nat) (bytes : List Byte) (s : State), s.mgmt.ready = true → s.mgmt.bridge = true → s.mgmt.pstate ≤ 1 →
    let tail := Memory.read s.mem (cb + 12) 4
    let cap := Memory.read s.mem (cb + 16) 4
    let entry := Memory.read s.mem cb 8 + 32 * (tail % cap)
    (page / 256 ≠ s.mgmt.device → exec (.submitRecordWrite page off bytes) s =
      .next { s with outbox := s.outbox ++ [.link "submit" (page / 256) [page % 256, off] bytes] }) ∧
    (page / 256 = s.mgmt.device → SMap.get none (page % 256) s.submits = some ⟨cb⟩ → bytes.length = 32 →
      (tail + 2 ^ 32 - Memory.read s.mem (cb + 8) 4) % 2 ^ 32 ≠ cap → Present s [(cb, 64), (entry, 32)] → Apart [(cb, 64), (entry, 32)] →
      ∃ t, exec (.submitRecordWrite page 0 bytes) s = .next t ∧ Memory.readBytes t.mem entry 32 = bytes ∧
        Memory.read t.mem (cb + 12) 4 = (tail + 1) % 2 ^ 32 ∧ SameMemBut s t [(entry, 32), (cb + 12, 4)] ∧
        t.unmarked = ({ s with mem := t.mem } : State).unmarked) ∧
    (∀ n, let pa := bits s.mgmt.apbase 25 14 * 2 ^ 25 + off
      bits s.mgmt.apbase 0 10 = s.mgmt.device → off + n ≤ 2 ^ 25 → pa % 4096 + n ≤ 4096 → SMap.get 0 (pa / 4096) s.owners = 0 →
      populated pa = true →
      exec (.apertureAccess (.read off n)) s = .next { s with outbox := s.outbox ++ [.bytes "host" (Memory.readBytes s.mem pa n)] } ∧
      (bytes.length = n → s.isPoisoned (pa / 4096 * 4096) 4096 = false →
        ∃ t, exec (.apertureAccess (.write off bytes)) s = .next t ∧ Memory.readBytes t.mem pa n = bytes ∧ SameMemBut s t [(pa, n)] ∧
          t.unmarked = ({ s with mem := t.mem } : State).unmarked))) ∧
  (∀ (asid : Nat) (desc : List Byte) (frames : List Nat) (entries : List (Nat × BitVec 64)) (s : State), asid < 16384 →
    desc.length = 256 → (desc.getD 0 0).getLsbD 1 = false →
    let at' := ctxAddr s asid 0
    let table := s.mgmt.mslotbase + 512 * asid
    populated at' = true → populated table = true → Apart [(at', 256), (table, 512)] →
    ∃ t, exec (.contextDescriptorValid asid desc frames entries) s = .next t ∧ Memory.readBytes t.mem at' 256 = desc ∧
      (∀ off, off < 512 → Memory.byte t.mem (table + off) = 0) ∧ SameMemBut s t [(at', 256), (table, 512)] ∧
      (∀ c ∈ t.cores, ∀ x ∈ c.moulds, x.asid ≠ asid) ∧ t.core.f = s.core.f) ∧
  (∀ (asid slot frame pte pa cb entry idx : Nat) (v : BitVec 64) (i : SlotInfo) (s : State), Resumable s i asid slot pa cb entry →
    i.waits [3] = true → bit (s.ctxRaw asid 0 4) 1 = true → populated pte = true → pte % 8 = 0 →
    Apart [(pte, 8), (ctxAddr s asid 0, 256)] → Apart [(pte, 8), (s.ctxRaw asid 0x10 8 + 2 ^ 20 * slot, 128)] → Apart [(pte, 8), (pa, 64)] →
    Apart [(pte, 8), (cb, 64)] → Apart [(pte, 8), (entry, 32)] →
    ∃ t, exec (.firmwareResolvesNotmapped asid { slot := slot, idx := idx } [frame] [(pte, v)]) s = .next t ∧
      SMap.get 0 frame t.owners = asid + 1 ∧ Memory.read t.mem pte 8 = v.toNat ∧
      Pushed s t cb entry (slot + 2 ^ 16 * (i.info.lastCore / 4)) (mkMeta asid i.info.lid 1) ∧
      SMap.get none (slotKey asid slot) t.slots = some { i with owed := false, answered := true } ∧
      SameMemBut s t [(pte, 8), (entry, 32), (cb + 12, 4)] ∧ t.core = s.core)
end

