-- ==== Sys2Proof/Laws/Run.lean ====
section
/-!
SUPPORT. How the operations of the step monad run: one equation for each, by which a proof computes a meaning's result.
-/

namespace Sys2Proof.Machine

section
variable {α β : Type}

@[simp] theorem run_bind (x : M α) (g : α → M β) (s : State) :
    (x >>= g) s = match x s with
      | (.ok a, t) => g a t
      | (.error e, t) => (.error e, t) := by
  show (ExceptT.bind x g) s = _
  simp only [ExceptT.bind, ExceptT.mk, bind, StateT.bind]
  rcases x s with ⟨r, t⟩
  cases r <;> rfl

@[simp] theorem run_map (x : M α) (g : α → β) (s : State) :
    (g <$> x) s = match x s with
      | (.ok a, t) => (.ok (g a), t)
      | (.error e, t) => (.error e, t) := by
  show (ExceptT.map g x) s = _
  simp only [ExceptT.map, ExceptT.mk, bind, StateT.bind]
  rcases x s with ⟨r, t⟩
  cases r <;> rfl

@[simp] theorem run_pure (a : α) (s : State) : (pure a : M α) s = (.ok a, s) := rfl
@[simp] theorem run_getS (s : State) : getS s = (.ok s, s) := rfl
@[simp] theorem run_getF (s : State) : getF s = (.ok s.core.f, s) := rfl
/-- A control block with no write of `TRCTL` awaiting its cycle is the one in force (R405). -/
theorem inForce_none {t : Trace} (h : t.pending = none) (now : Nat) : t.inForce now = t := by simp [Trace.inForce, h]
@[simp] theorem run_getT (s : State) : getT s = (.ok (s.core.trace.inForce s.cycle.toNat), s) := rfl
@[simp] theorem run_set (t s : State) : (set t : M Unit) s = (.ok (), t) := rfl
@[simp] theorem run_modS (g : State → State) (s : State) : modS g s = (.ok (), g s) := rfl
@[simp] theorem run_modF (g : Firing → Firing) (s : State) : modF g s = (.ok (), s.onF g) := rfl
@[simp] theorem run_modC (g : Core → Core) (s : State) : modC g s = (.ok (), s.onCore g) := rfl
@[simp] theorem run_modT (g : Trace → Trace) (s : State) :
    modT g s = (.ok (), s.onCore fun c => { c with trace := g (c.trace.inForce s.cycle.toNat) }) := rfl
@[simp] theorem run_modCur (g : DumpEntry → DumpEntry) (s : State) :
    modCur g s = (.ok (), s.onCore fun c => { c with cur := c.cur.map g }) := rfl
@[simp] theorem run_stop (e : Stop) (s : State) : (stopWith e : M α) s = (.error e, s) := rfl
@[simp] theorem run_fresh (s : State) : fresh s = (.ok s.freeCtr, { s with freeCtr := s.freeCtr + 1 }) := rfl
@[simp] theorem run_ite {c : Prop} [Decidable c] (x y : M α) (s : State) :
    (if c then x else y) s = if c then x s else y s := by split <;> rfl

theorem run_physRead {s : State} {pa n : Nat} (h : populated pa = true) :
    physRead pa n s = (.ok (Memory.read s.mem pa n), s) := by
  simp only [physRead, h, run_bind, run_ite, run_pure, run_getS]
  rfl
theorem run_physWrite {s : State} {pa n v : Nat} (h : populated pa = true) :
    physWrite pa n v s = (.ok (), (s.homeStore pa n v false).1) := by
  simp only [physWrite, h, run_bind, run_ite, run_modS]
  rfl
theorem run_ctxField {s : State} {asid off n : Nat} (h : populated (ctxAddr s asid off) = true) :
    ctxField asid off n s = (.ok (s.ctxRaw asid off n), s) := by
  simp only [ctxField, run_bind, run_getS, run_physRead h]
  rfl
theorem run_olMode {s : State} {asid : Nat} (h0 : populated (ctxAddr s asid 0) = true)
    (h1 : populated (ctxAddr s asid 0x7C) = true) (h : bits (s.ctxRaw asid 0 4) 2 2 ≠ 2) :
    olMode asid s = (.ok (bits (s.ctxRaw asid 0 4) 2 2), s) := by
  simp only [olMode, ctxFlags, lrStat, run_bind, run_ctxField h0, run_ctxField h1, run_pure, h, false_and, if_false]

/-- A loop that runs to its end keeps what each round keeps. -/
theorem run_forM (P : State → Prop) {α : Type} (l : List α) (g : α → M Unit)
    (h : ∀ a ∈ l, ∀ s, P s → ∃ t, g a s = (.ok (), t) ∧ P t) :
    ∀ s, P s → ∃ t, l.forM g s = (.ok (), t) ∧ P t := by
  induction l with
  | nil => exact fun s hs => ⟨s, rfl, hs⟩
  | cons a r ih =>
    intro s hs
    obtain ⟨t, ht, hp⟩ := h a (List.mem_cons_self ..) s hs
    obtain ⟨u, hu, hq⟩ := ih (fun b hb => h b (List.mem_cons_of_mem _ hb)) t hp
    exact ⟨u, by
      show (g a >>= fun _ => r.forM g) s = _
      simp only [run_bind, ht, hu], hq⟩
theorem run_upTo (P : State → Prop) (n : Nat) (g : Nat → M Unit)
    (h : ∀ k, k < n → ∀ s, P s → ∃ t, g k s = (.ok (), t) ∧ P t) {s : State} (hs : P s) :
    ∃ t, upTo n g s = (.ok (), t) ∧ P t :=
  run_forM P (List.range n) g (fun k hk => h k (List.mem_range.mp hk)) s hs

end

end Sys2Proof.Machine
end

