-- ==== Sys2Proof/Laws/Issue.lean ====
section
/-!
SUPPORT. What each way of running an instruction comes to when nothing stops it: at the front, at an engine, as an event.
-/

namespace Sys2Proof.Machine

theorem any_reads {f : Firing} {regs : List (Fin 32)} (h : ∀ r ∈ regs, ReadOk f r) :
    (regs.any fun r => r != 0 && f.badX.getLsbD r.val) = false ∧
    (regs.any fun r => r != 0 && f.xp.getLsbD r.val) = false := by
  constructor <;>
  · simp only [List.any_eq_false]
    intro r hr
    rcases h r hr with h | ⟨h, h'⟩
    · simp only [h]; simp
    · simp only [h, h']; simp

/-- Alone, an instruction has no older one beside it. -/
theorem older_alone {s : State} (h : s.core.ahead = none) : s.older = [] := by unfold State.older; rw [h]
theorem unfinished_alone {s : State} (h : s.core.ahead = none) : s.unfinished = [] := by rw [State.unfinished, older_alone h]; rfl
theorem anyUnfinished_alone {s : State} (h : s.core.ahead = none) (p : DumpEntry → Instr → Bool) : s.anyUnfinished p = false := by
  rw [State.anyUnfinished, unfinished_alone h]; rfl
theorem awaits_alone {s : State} (h : s.core.ahead = none) (regs : List (Fin 32)) : s.awaits regs = false := by
  rw [State.awaits, older_alone h]; rfl
theorem awaitQueue_ok {s : State} (h : s.core.ahead = none) : awaitQueue s = (.ok (), s) := by
  simp only [awaitQueue, run_bind, run_getS, older_alone h, List.isEmpty_nil, Bool.not_true, Bool.false_eq_true, if_false, run_ite, run_pure]
theorem apart_alone {s : State} (h : s.core.ahead = none) (loc n : Nat) : apart s loc n = true := by
  rw [apart, older_alone h]; rfl
/-- Nothing older and no store on its way: the load/store queue is empty. -/
theorem queueHeld_alone {s : State} (h : s.core.ahead = none) (hs : s.stores = []) : queueHeld s = 0 := by
  simp only [queueHeld, unfinished_alone h, hs]; rfl
theorem queueEntries_le (s : State) (e : DumpEntry) (i : Instr) : queueEntries s e i ≤ 4 := by
  unfold queueEntries
  split
  · decide
  · unfold portStreams; split <;> omega
/-- What is executed alone writes its scalar result. -/
theorem writeX_ok {s : State} (d : Fin 32) (v : Word) (hc : s.core.cur.any (·.dead) = false) (ha : s.core.ahead = none) :
    writeX d v s = (.ok (), s.onF fun f => f.setX d v) := by
  simp only [writeX, writeReg, run_bind, run_getS, hc, ha, Option.isSome_none, Bool.not_false, if_true, run_ite, Bool.false_and, Bool.false_eq_true,
    if_false]
  rfl

/-- An instruction whose registers can be read reads them. -/
theorem issue_ok {s : State} {regs : List (Fin 32)} (h : Issues s regs) : issue regs s = (.ok s.core.f.rx, s) := by
  have hd : (s.core.f.pend.filter fun p => regs.contains p.reg && decide (p.dist < p.lat)) = [] := by
    simp only [List.filter_eq_nil_iff, Bool.and_eq_true, decide_eq_true_eq, not_and, Nat.not_lt]
    intro p hp hr
    exact h.due p hp (List.contains_iff_mem.mp hr)
  have hm := run_olMode (h.here 0 (by decide)) (h.here 0x7C (by decide)) h.log
  simp only [issue, olCheckBad, run_bind, run_getS, run_ite, run_pure, hm, h.log, awaits_alone h.ahead, Bool.false_eq_true, if_false, (any_reads h.sound).1,
    (any_reads h.sound).2, hd]

/-- With no store on its way, an issue performs none. -/
theorem run_storesAdvance {s : State} (h : s.stores = []) : storesAdvance s = (.ok (), s) := by
  simp only [storesAdvance, run_bind, run_getS, h, List.isEmpty_nil, Bool.not_true, Bool.false_eq_true, if_false, run_ite, run_pure]
theorem run_because (off code : Nat) (s : State) :
    because off code s = (.ok (), s.onCore fun c => { c with trace := c.trace.because (s.cycle.toNat + off) code }) := rfl
theorem because_plain (t : Trace) (cycle code : Nat) :
    ({ t.because cycle code with seq := 0, why := [] } : Trace) = { t with seq := 0, why := [] } := by
  unfold Trace.because; split <;> rfl
theorem because_pending (t : Trace) (cycle code : Nat) : (t.because cycle code).pending = t.pending := by
  unfold Trace.because; split <;> rfl
theorem because_ctl (t : Trace) (cycle code : Nat) : (t.because cycle code).ctl = t.ctl := by
  unfold Trace.because; split <;> rfl
theorem because_seq (t : Trace) (cycle code : Nat) : (t.because cycle code).seq = t.seq := by
  unfold Trace.because; split <;> rfl

/-- What the front's marks of time leave of a state. -/
structure Timed (s t : State) : Prop where
  content : t.content = s.content
  f : t.core.f = s.core.f
  cur : t.core.cur = s.core.cur
  ahead : t.core.ahead = s.core.ahead
  budget : t.core.budget = s.core.budget
  pending : t.core.trace.pending = s.core.trace.pending
  ctl : t.core.trace.ctl = s.core.trace.ctl
  seq : t.core.trace.seq = s.core.trace.seq
  overlaps : t.overlaps = s.overlaps

theorem Timed.trans {s t u : State} (h : Timed s t) (g : Timed t u) : Timed s u :=
  ⟨g.content.trans h.content, g.f.trans h.f, g.cur.trans h.cur, g.ahead.trans h.ahead, g.budget.trans h.budget,
    g.pending.trans h.pending, g.ctl.trans h.ctl, g.seq.trans h.seq, g.overlaps.trans h.overlaps⟩

theorem because_timed (off code : Nat) (s : State) :
    ∃ t, because off code s = (.ok (), t) ∧ Timed s t ∧ t.freeCtr = s.freeCtr := by
  refine ⟨_, run_because off code s, ⟨?_, rfl, rfl, rfl, rfl, because_pending .., because_ctl .., because_seq .., rfl⟩, rfl⟩
  simp only [State.content, State.onCore, Core.plain, because_plain]
theorem spend_timed (n : Nat) (s : State) : ∃ t, spend n s = (.ok (), t) ∧ Timed s t ∧ t.freeCtr = s.freeCtr + 1 := by
  refine ⟨_, rfl, ⟨?_, rfl, rfl, rfl, rfl, because_pending .., because_ctl .., because_seq .., rfl⟩, rfl⟩
  simp only [State.content, Core.plain, because_plain]

theorem because_if (c : Prop) [Decidable c] (off code : Nat) (s : State) :
    ∃ t, (if c then because off code else pure ()) s = (.ok (), t) ∧ Timed s t ∧ t.freeCtr = s.freeCtr := by
  split
  · exact because_timed off code s
  · exact ⟨s, rfl, ⟨rfl, rfl, rfl, rfl, rfl, rfl, rfl, rfl, rfl⟩, rfl⟩
/-- A step that may be left out, before the rest. -/
theorem run_then {α : Type} {c : Prop} [Decidable c] {x : M Unit} {y : M α} {s t : State}
    (h : (if c then x else pure ()) s = (.ok (), t)) : (if c then x >>= fun _ => y else y) s = y t := by
  split at h
  · next hc => simp only [hc, if_true, run_bind, h]
  · next hc => simp only [hc, if_false]; obtain rfl : s = t := congrArg Prod.snd h; rfl

/-- What an issue leaves of a state: the counter, the distances (R22), time. -/
structure Advanced (st : Fin 16) (target : Option Word) (s t : State) : Prop where
  content : t.content = s.content
  fpc : t.core.f.fpc = target.getD (s.core.f.fpc + 8)
  cur : t.core.cur = s.core.cur
  ahead : t.core.ahead = s.core.ahead
  budget : t.core.budget = s.core.budget
  pending : t.core.trace.pending = s.core.trace.pending
  ctl : t.core.trace.ctl = s.core.trace.ctl
  seq : t.core.trace.seq = s.core.trace.seq
  overlaps : t.overlaps = s.overlaps
  free : t.freeCtr = s.freeCtr + 1
  pend : t.core.f.pend = (s.core.f.pend.map fun p => { p with dist := p.dist + 1 + st.val, back := p.back + 1 }).filter
    fun p => decide (p.dist < p.lat)

theorem advance_ok (st : Fin 16) (target : Option Word) {s : State} (h : s.stores = []) :
    ∃ t, advance st target s = (.ok (), t) ∧ Advanced st target s t := by
  obtain ⟨u, hu⟩ : ∃ u : State, u = (s.onF fun f => { f with fpc := target.getD (f.fpc + 8), pend := (f.pend.map fun p =>
      { p with dist := p.dist + 1 + st.val, back := p.back + 1 }).filter fun p => decide (p.dist < p.lat) }).onCore fun c =>
      { c with wait := none, watch := none, issued := c.issued + 1, bkptPassed := none, expired := false } := ⟨_, rfl⟩
  have hs : u.stores = [] := by rw [hu]; exact h
  obtain ⟨b, hb⟩ : ∃ b : Nat, b = if target.isSome = true then 2 else 0 := ⟨_, rfl⟩
  obtain ⟨v, hv, tv, fv⟩ := because_timed 0 0 u
  obtain ⟨w, hw, tw, fw⟩ := because_if (st ≠ 0) 1 1 v
  obtain ⟨x, hx, tx, fx⟩ := because_if (st.val < b) (1 + st.val) 2 w
  obtain ⟨t, ht, tt, ft⟩ := spend_timed (1 + max st.val b) x
  have tu := ((tv.trans tw).trans tx).trans tt
  refine ⟨t, ?_, ?_⟩
  · simp only [advance, run_bind, run_modF, run_modC, ← hu, run_storesAdvance hs, hv, ← hb]
    rw [run_then hw, run_then hx, ht]
  · subst hu
    exact ⟨tu.content, by rw [tu.f]; rfl, tu.cur, tu.ahead, tu.budget, tu.pending, tu.ctl, tu.seq, tu.overlaps,
      by rw [ft, fx, fw, fv]; rfl, by rw [tu.f]; rfl⟩

/-- A front instruction whose effect is `s'` completes with it. -/
theorem runFront_next {st : Fin 16} {regs : List (Fin 32)} {body : (Fin 32 → Word) → M (Option Word)} {s s' : State}
    {target : Option Word} (h : Issues s regs) (hb : body s.core.f.rx s = (.ok target, s'))
    (hk : s'.core.budget = none) (hs : s'.stores = []) :
    ∃ t, runFront st regs body s = .next t ∧ t.core.f.fpc = target.getD (s'.core.f.fpc + 8) ∧ t.content = s'.content := by
  obtain ⟨t, ht, a⟩ := advance_ok st target hs
  refine ⟨t, ?_, a.fpc, a.content⟩
  simp only [runFront, conclude, h.ahead, run_bind, issue_ok h, hb, ht, finish, boundary, a.budget, hk]
  rfl

/-- The same at a level that may run it. -/
theorem runPriv_next {level : Nat} {st : Fin 16} {regs : List (Fin 32)} {body : (Fin 32 → Word) → M (Option Word)}
    {s s' : State} {target : Option Word} (h : Issues s regs) (hl : level ≤ s.core.f.level)
    (hb : body s.core.f.rx s = (.ok target, s')) (hk : s'.core.budget = none) (hs : s'.stores = []) :
    ∃ t, runPriv level st regs body s = .next t ∧ t.core.f.fpc = target.getD (s'.core.f.fpc + 8) ∧
      t.content = s'.content := by
  obtain ⟨t, ht, a⟩ := advance_ok st target hs
  refine ⟨t, ?_, a.fpc, a.content⟩
  have hn : ¬ s.core.f.level < level := by omega
  simp only [runPriv, conclude, h.ahead, run_bind, run_getF, run_ite, if_neg hn, issue_ok h, hb, ht, finish,
    boundary, a.budget, hk]
  rfl

/-- What the dispatch of an instruction leaves of the firing: one that makes an event takes its ordinal (R360). -/
def State.counted (s : State) (i : Instr) : State := if makesEvent i then s.event else s

/-- The entry of an engine instruction dispatched in `s` (R19). -/
def freshEntry (i : Instr) (engine : Nat) (scalars : List (Fin 4 × Fin 32)) (foll : Option (Vector Word 4)) (s : State) :
    DumpEntry :=
  let event := makesEvent i && !s.core.f.paused
  { word := (encode i).getD 0, pc := s.core.f.fpc,
    scal := scalars.foldl (fun (v : Vector Word 4) (k, r) => v.set k (s.core.f.rx r)) #v[0, 0, 0, 0],
    prog := 0, vlen := 0, engine := engine, started := false, pcm := false, raiser := false,
    ordn := if event then s.core.f.ordinal else 0, mask := 0,
    sp := scalars.foldl (fun (v : BitVec 4) (k, r) => if r != 0 && s.core.f.xp.getLsbD r.val then v ||| (1 <<< k.val) else v) 0,
    logged := event, foll := foll, seq := some s.core.trace.seq, begun := true, name := s.issueName }

/-- The state in which the engine performs an instruction dispatched in `s`. -/
structure Dispatched (i : Instr) (s s0 : State) (e : DumpEntry) : Prop where
  cur : s0.core.cur = some e
  fpc : s0.core.f.fpc = s.core.f.fpc + 8
  content : s0.content = ((s.counted i).onCore fun c => { c with cur := some e }).content
  free : s0.freeCtr = s.freeCtr + 1
  spaced : ∃ st : Nat, s0.core.f.pend = (s.core.f.pend.map fun p => { p with dist := p.dist + 1 + st, back := p.back + 1 }).filter
    fun p => decide (p.dist < p.lat)

theorem run_trTrace_quiet {s : State} (h : Quiet s.core.trace) (kind rf eng aux pay : Nat) :
    trTrace kind rf eng aux pay s = (.ok (), s) := by
  simp only [trTrace, trTraceOf, run_bind, run_getS, run_getT, inForce_none h.2, h.1, Bool.false_eq_true, if_false, run_ite, run_pure]

/-- The ordinal of a firing that is paused stays, that of another advances. -/
theorem event_paused {s : State} (h : s.core.f.paused = true) : s.event = s :=
  if_pos h
theorem event_counts {s : State} (h : s.core.f.paused = false) : s.event = s.onF fun f => { f with ordinal := f.ordinal + 1 } :=
  if_neg (by simp [h])

theorem dispatch_ok {i : Instr} {st : Fin 16} {engine : Nat} {scalars : List (Fin 4 × Fin 32)} {s : State}
    {pre : (Fin 32 → Word) → M (Option (Vector Word 4))} {foll : Option (Vector Word 4)}
    (h : Issues s (scalars.map (·.2))) (hp : pre s.core.f.rx s = (.ok foll, s)) :
    dispatch i st engine scalars false pre s =
      advance st none ((s.counted i).onCore fun c =>
        { c with cur := some { freshEntry i engine scalars foll s with seq := none, begun := false }, curAt := c.f.queue.length }) := by
  have hd : dispatchHeld s i = false := by rw [dispatchHeld, h.ahead]; rfl
  have hq (e : DumpEntry) : (decide (0 < queueEntries s e i) && decide (96 < queueHeld s + queueEntries s e i)) = false := by
    have := queueEntries_le s e i
    rw [queueHeld_alone h.ahead h.stored, Bool.and_eq_false_iff]
    exact .inr (by simp only [decide_eq_false_iff_not]; omega)
  cases hf : s.core.f.paused
  all_goals cases hi : makesEvent i
  all_goals simp only [dispatch, run_bind, run_ite, issue_ok h, hp, run_getS, hd, hq, hi, hf, State.counted, freshEntry, run_modC,
    run_modF, Bool.not_false, Bool.not_true, Bool.and_true, Bool.and_false, Bool.false_and, Bool.true_and, if_true, if_false,
    Bool.false_eq_true, State.event]
  all_goals rfl

theorem takeSeq_ok {s : State} (h : s.core.trace.pending = none) :
    takeSeq s = (.ok (), s.onCore fun c =>
      { c with cur := c.cur.map fun e => { e with seq := some c.trace.seq },
               trace := { c.trace with seq := (c.trace.seq + 1) % 65536 } }) := by
  simp only [takeSeq, run_bind, run_getT, run_modT, run_modCur, inForce_none h]
  simp only [State.onCore, inForce_none h]

/-- A state with an entry in execution, its trace number taken. -/
def State.begin (s : State) (e : DumpEntry) : State :=
  s.onCore fun c => { c with cur := some e, trace := { c.trace with seq := (c.trace.seq + 1) % 65536 } }

theorem begin_content {s t : State} {e e' : DumpEntry} (h : t.content = (s.onCore fun c => { c with cur := some e' }).content) :
    (t.begin e).content = (s.onCore fun c => { c with cur := some e }).content := by
  simp only [State.content, State.begin, State.onCore, Core.plain, State.mk.injEq, Core.mk.injEq] at h ⊢
  simp only [h, and_self]

theorem run_getCur {s : State} {e : DumpEntry} (h : s.core.cur = some e) : getCur s = (.ok e, s) := by
  simp only [getCur, run_bind, run_getS, h, run_pure]

/-- An entry that has not begun begins. -/
theorem beginEntry_ok {engine : Nat} {v : State} {e : DumpEntry} (hc : v.core.cur = some e) (hb : e.begun = false)
    (hq : Quiet v.core.trace) :
    beginEntry engine v = (.ok (), v.onCore fun c => { c with cur := c.cur.map fun e => { e with begun := true } }) := by
  unfold beginEntry
  rw [run_bind, run_getCur hc]
  simp only [hb, Bool.not_false, if_true]
  rw [run_bind, run_trTrace_quiet hq]
  rfl

/-- An entry that is numbered and has not begun runs its body, and ends. -/
theorem performEntry_ok {engine k n : Nat} {body : M Nat} {v s1 : State} {e : DumpEntry} (hc : v.core.cur = some e)
    (hk : e.seq = some k) (hb : e.begun = false) (hn : e.done = none) (hq : Quiet v.core.trace)
    (hr : body (v.onCore fun c => { c with cur := c.cur.map fun e => { e with begun := true } }) = (.ok n, s1)) :
    performEntry engine body v = (do
      modC fun c => { c with cur := none, wait := none, vat := if engine = 2 then none else c.vat, expired := false }
      spend 1
      trTrace 3 0 engine k (min n 127) : M Unit) s1 := by
  unfold performEntry
  rw [run_bind, run_getCur hc]
  simp only [hk, Option.isNone_some, Bool.false_eq_true, if_false]
  rw [run_bind, run_getCur hc]
  simp only [hk, Option.getD_some]
  rw [run_bind, beginEntry_ok hc hb hq]
  simp only
  rw [run_bind, run_getCur (e := { e with begun := true }) (by simp [State.onCore, hc])]
  simp only [hn]
  rw [run_bind, hr]

/-- An instruction of an engine is dispatched and numbered, and its entry runs, if nothing overlaps it. -/
theorem runEngine_dispatches {i : Instr} {st : Fin 16} {engine : Nat} {scalars : List (Fin 4 × Fin 32)} {body : M Nat} {s u v : State}
    {pre : (Fin 32 → Word) → M (Option (Vector Word 4))} (ha : s.core.ahead = none) (hc : s.core.cur = none)
    (hd : dispatch i st engine scalars false pre s = (.ok (), u)) (ht : takeSeq u = (.ok (), v)) (hva : v.core.ahead = none)
    (ho : v.overlaps = []) :
    runEngine i st engine scalars body s false pre = finish s (performEntry engine body v) := by
  unfold runEngine conclude
  rw [ha]
  simp only
  rw [run_bind, run_getS]
  simp only [hc, Option.isSome_none, Bool.not_false, if_true]
  rw [run_bind, hd]
  simp only
  rw [run_bind, ht]
  simp only
  rw [run_bind, run_getS]
  simp only [hva, Option.isSome_none, Bool.false_eq_true, if_false]
  rw [run_bind, run_getS]
  simp only [ho]
  rw [run_bind, run_getS]

/-- The effect of an engine instruction, from the state it is dispatched into, is its completion. -/
theorem runEngine_pre_next {i : Instr} {st : Fin 16} {engine : Nat} {scalars : List (Fin 4 × Fin 32)} {body : M Nat} {s : State}
    {pre : (Fin 32 → Word) → M (Option (Vector Word 4))} {foll : Option (Vector Word 4)}
    (h : Dispatches s (scalars.map (·.2))) (hp : pre s.core.f.rx s = (.ok foll, s)) :
    ∃ s0, Dispatched i s s0 (freshEntry i engine scalars foll s) ∧
      ∀ n s1, body s0 = (.ok n, s1) → s1.core.budget = none → Quiet s1.core.trace →
        ∃ t, runEngine i st engine scalars body s false pre = .next t ∧ t.core.f.fpc = s1.core.f.fpc ∧
          t.content = (s1.onCore fun c => { c with cur := none, vat := if engine = 2 then none else c.vat }).content := by
  obtain ⟨h, hq, -⟩ := h
  obtain ⟨k, hk⟩ : ∃ k : State, k = (s.counted i).onCore fun c =>
      { c with cur := some { freshEntry i engine scalars foll s with seq := none, begun := false }, curAt := c.f.queue.length } := ⟨_, rfl⟩
  have kcore : k.core.trace = s.core.trace ∧ k.core.ahead = s.core.ahead ∧ k.stores = s.stores ∧ k.overlaps = s.overlaps ∧ k.freeCtr = s.freeCtr ∧
      k.core.f.fpc = s.core.f.fpc ∧ k.core.f.pend = s.core.f.pend := by
    rw [hk]; unfold State.counted State.event
    split
    · split <;> exact ⟨rfl, rfl, rfl, rfl, rfl, rfl, rfl⟩
    · exact ⟨rfl, rfl, rfl, rfl, rfl, rfl, rfl⟩
  obtain ⟨kt, ka, ks, ko, kf, kp, kn⟩ := kcore
  obtain ⟨u, hu, a⟩ := advance_ok st none (ks.trans h.stored)
  have hd := (dispatch_ok (i := i) (st := st) (engine := engine) h hp).trans (hk ▸ hu)
  have hcur : u.core.cur = some { freshEntry i engine scalars foll s with seq := none, begun := false } :=
    a.cur.trans (by rw [hk]; rfl)
  have hahead : u.core.ahead = none := a.ahead.trans (ka.trans h.ahead)
  have hover : u.overlaps = [] := a.overlaps.trans (ko.trans h.alone)
  have hpd : u.core.trace.pending = none := a.pending.trans (by rw [kt]; exact hq.2)
  have htr : Quiet u.core.trace := ⟨by unfold trTen; rw [a.ctl, kt]; exact hq.1, hpd⟩
  have hseq : u.core.trace.seq = s.core.trace.seq := a.seq.trans (by rw [kt])
  have e1 : takeSeq u = (.ok (), u.begin { freshEntry i engine scalars foll s with begun := false }) := by
    rw [takeSeq_ok hpd]
    unfold State.onCore State.begin State.onCore
    simp only [hcur, Option.map_some, hseq]
    rfl
  refine ⟨u.begin (freshEntry i engine scalars foll s), ⟨rfl, ?_, begin_content (a.content.trans (by rw [hk]; rfl)), ?_, st.val, ?_⟩, ?_⟩
  · show u.core.f.fpc = _
    rw [a.fpc, kp]; rfl
  · show u.freeCtr = _
    rw [a.free, kf]
  · show u.core.f.pend = _
    rw [a.pend, kn]
  intro n s1 hb hbu ht
  have e2 := (runEngine_dispatches (body := body) h.ahead h.cur hd e1 hahead hover).trans
    (congrArg (finish s) (performEntry_ok rfl rfl rfl rfl htr hb))
  rw [e2]
  obtain ⟨s2, hs2⟩ : ∃ s2 : State, s2 = s1.onCore fun c => 
    { c with cur := none, wait := none, vat := if engine = 2 then none else c.vat, expired := false } := ⟨_, rfl⟩
  obtain ⟨t, ht', tt, -⟩ := spend_timed 1 s2
  have hq1 : Quiet t.core.trace := ⟨by unfold trTen; rw [tt.ctl, hs2]; exact ht.1, by rw [tt.pending, hs2]; exact ht.2⟩
  have hb1 : t.core.budget = none := by rw [tt.budget, hs2]; exact hbu
  simp only [run_bind, run_modC, ← hs2, ht', run_trTrace_quiet hq1, finish, boundary, hb1]
  exact ⟨t, rfl, by rw [tt.f, hs2]; rfl, by rw [tt.content, hs2]; rfl⟩

/-- The same for an instruction that reads nothing else at its dispatch. -/
theorem runEngine_next {i : Instr} {st : Fin 16} {engine : Nat} {scalars : List (Fin 4 × Fin 32)} {body : M Nat} {s : State}
    (h : Dispatches s (scalars.map (·.2))) :
    ∃ s0, Dispatched i s s0 (freshEntry i engine scalars none s) ∧
      ∀ n s1, body s0 = (.ok n, s1) → s1.core.budget = none → Quiet s1.core.trace →
        ∃ t, runEngine i st engine scalars body s = .next t ∧ t.core.f.fpc = s1.core.f.fpc ∧
          t.content = (s1.onCore fun c => { c with cur := none, vat := if engine = 2 then none else c.vat }).content :=
  runEngine_pre_next h rfl

/-- An event whose effect runs to its end, unless it needs the core clock, or comes from outside, and there is none (R425). -/
theorem runEvent_next {i : Instr} {body : M Unit} {s t : State} (hk : (needsClock i || fromOutside i) = true → s.mgmt.pstate ≤ 1)
    (h : body s = (.ok (), t)) : runEvent i body s = .next t := by
  have h1 : ¬(needsClock i = true ∧ 2 ≤ s.mgmt.pstate) := fun ⟨hi, hp⟩ => by have := hk (by simp [hi]); omega
  have h2 : ¬(fromOutside i = true ∧ 2 ≤ s.mgmt.pstate) := fun ⟨hi, hp⟩ => by have := hk (by simp [hi]); omega
  simp only [runEvent, Bool.and_eq_true, decide_eq_true_eq, if_neg h1, if_neg h2, h]
/-- Without the core clock such an event does not happen. -/
theorem runEvent_stands {i : Instr} {body : M Unit} {s : State} (hi : needsClock i = true) (hp : 2 ≤ s.mgmt.pstate) :
    runEvent i body s = .next s := by
  simp only [runEvent, hi, hp, decide_true, Bool.and_self, if_true]

/-- A mailbox command that runs at once. -/
theorem runMailbox_next {i : Instr} {code : Nat} {args : List Byte} {body : M (Nat × List Byte)} {s t : State} {st : Nat}
    {res : List Byte} (hb : s.mgmt.mbusy = false) (hm : s.mgmt.mrun = none)
    (h : body { s with mgmt := { s.mgmt with mbusy := true, mbox := some (i, args), mcmd := code, margs := args, mrun := some i } } =
      (.ok (st, res), t)) :
    runMailbox i code args body s = .next (mailboxDone t st res) := by
  simp only [runMailbox, hb, Bool.false_and, Bool.false_eq_true, if_false, State.inTurn, hm, Option.isNone_none, Bool.true_or,
    Bool.not_true, h]
/-- A request of the board controller that runs at once. -/
theorem runRequest_next {i : Instr} {body : M Unit} {s t : State} (hm : s.mgmt.mrun = none) (hk : (needsClock i || fromOutside i) = false)
    (h : body { s with mgmt := { s.mgmt with mrun := some i } } = (.ok (), t)) :
    runRequest i body s = .next { t with mgmt := { t.mgmt with mrun := none } } := by
  simp only [runRequest, State.inTurn, hm, Option.isNone_none, Bool.true_or, Bool.not_true, Bool.false_eq_true, if_false]
  exact runEvent_next (by simp [hk]) (by rw [run_bind, h]; rfl)

/-! No way of running an instruction refuses it. -/

theorem settle_never_refuses (b : State) (r : Except Stop Unit × State) (x : Refusal) : settle b r ≠ .refused x := by
  unfold settle
  split <;> simp
theorem boundary_never_refuses (s : State) (x : Refusal) : boundary s ≠ .refused x := by
  unfold boundary
  split
  · exact settle_never_refuses _ _ _
  · simp
theorem delivered_never_refuses (b : State) (r : Except Stop Unit × State) (x : Refusal) : delivered b r ≠ .refused x := by
  unfold delivered
  split
  · exact boundary_never_refuses _ _
  · exact settle_never_refuses _ _ _
theorem finish_never_refuses (b : State) (r : Except Stop Unit × State) (x : Refusal) : finish b r ≠ .refused x := by
  unfold finish hold
  split <;> try split
  all_goals first | exact boundary_never_refuses _ _ | exact settle_never_refuses _ _ _ | exact delivered_never_refuses _ _ _ | simp
theorem finishGoing_never_refuses (b : State) (r : Except Stop Unit × State) (x : Refusal) : finishGoing b r ≠ .refused x := by
  unfold finishGoing
  split
  · exact boundary_never_refuses _ _
  · exact boundary_never_refuses _ _
  · exact finish_never_refuses _ _ _
theorem conclude_never_refuses (b : State) (r : Except Stop Unit × State) (x : Refusal) : conclude b r ≠ .refused x := by
  unfold conclude finishAhead
  split
  · exact finish_never_refuses _ _ _
  · exact finishGoing_never_refuses _ _ _
  · split <;> first | exact delivered_never_refuses _ _ _ | simp
theorem runEvent_never_refuses (i : Instr) (body : M Unit) (s : State) (x : Refusal) : runEvent i body s ≠ .refused x := by
  unfold runEvent
  split
  · simp
  · split
    · simp
    · split <;> first | exact settle_never_refuses _ _ _ | simp
theorem runRequest_never_refuses (i : Instr) (body : M Unit) (s : State) (x : Refusal) : runRequest i body s ≠ .refused x := by
  unfold runRequest
  split
  · simp
  · exact runEvent_never_refuses _ _ _ _
theorem runMailbox_never_refuses (i : Instr) (code : Nat) (args : List Byte) (body : M (Nat × List Byte)) (s : State)
    (x : Refusal) : runMailbox i code args body s ≠ .refused x := by
  unfold runMailbox
  split
  · simp
  · generalize (if s.mgmt.mbusy = true then s else _ : State) = s0
    simp only
    split
    · simp
    · split <;> simp

end Sys2Proof.Machine
end

