-- ==== Sys2Proof/Laws/Memory.lean ====
section
/-!
SUPPORT. Sparse tables and memory: reading after a write, and the canonical form that every operation on memory keeps.
-/

namespace Sys2Proof.Machine

section
variable {β : Type}

/-- Every key of a table is above `k`. -/
def SMap.Above (k : Nat) (m : SMap β) : Prop := ∀ x ∈ m, k < x.1

/-- The canonical form, as a proposition: entries that are no default, keys rising. -/
theorem SMap.wf_cons [DecidableEq β] (d : β) (k : Nat) (v : β) (r : SMap β) :
    SMap.wf d ((k, v) :: r) = true ↔ v ≠ d ∧ SMap.Above k r ∧ SMap.wf d r = true := by
  induction r generalizing k v with
  | nil => simp [SMap.wf, SMap.Above]
  | cons x r ih =>
    obtain ⟨k', v'⟩ := x
    have h := ih k' v'
    simp only [SMap.wf, Bool.and_eq_true, decide_eq_true_eq]
    constructor
    · rintro ⟨⟨hv, hk⟩, hr⟩
      refine ⟨hv, ?_, hr⟩
      intro x hx
      rcases List.mem_cons.mp hx with rfl | hx
      · exact hk
      · exact Nat.lt_trans hk ((h.mp hr).2.1 x hx)
    · rintro ⟨hv, ha, hr⟩
      exact ⟨⟨hv, ha (k', v') (List.mem_cons_self ..)⟩, hr⟩

theorem SMap.above_erase {k j : Nat} {m : SMap β} (h : SMap.Above k m) : SMap.Above k (SMap.erase j m) := by
  induction m with
  | nil => exact h
  | cons x r ih =>
    have hr := ih fun y hy => h y (List.mem_cons_of_mem _ hy)
    simp only [SMap.erase]
    split
    · exact hr
    · intro y hy
      rcases List.mem_cons.mp hy with rfl | hy
      · exact h _ (List.mem_cons_self ..)
      · exact hr y hy

theorem SMap.above_insert {k j : Nat} {v : β} {m : SMap β} (h : SMap.Above k m) (hk : k < j) :
    SMap.Above k (SMap.insert j v m) := by
  induction m with
  | nil =>
    intro y hy
    simp only [SMap.insert, List.mem_singleton] at hy
    rw [hy]
    exact hk
  | cons x r ih =>
    have hr := ih fun y hy => h y (List.mem_cons_of_mem _ hy)
    simp only [SMap.insert]
    split <;> intro y hy <;> rcases List.mem_cons.mp hy with rfl | hy
    · exact hk
    · exact h y hy
    · exact h _ (List.mem_cons_self ..)
    · exact hr y hy

theorem SMap.wf_erase [DecidableEq β] {d : β} {j : Nat} {m : SMap β} (h : SMap.wf d m = true) :
    SMap.wf d (SMap.erase j m) = true := by
  induction m with
  | nil => rfl
  | cons x r ih =>
    obtain ⟨k, v⟩ := x
    obtain ⟨hv, ha, hr⟩ := (SMap.wf_cons d k v r).mp h
    simp only [SMap.erase]
    split
    · exact ih hr
    · exact (SMap.wf_cons d k v _).mpr ⟨hv, SMap.above_erase ha, ih hr⟩

theorem SMap.not_mem_erase {j : Nat} {m : SMap β} : ∀ x ∈ SMap.erase j m, x.1 ≠ j := by
  induction m with
  | nil => intro x hx; cases hx
  | cons y r ih =>
    simp only [SMap.erase]
    split
    · exact ih
    · rename_i hne
      intro x hx
      rcases List.mem_cons.mp hx with rfl | hx
      · exact hne
      · exact ih x hx

theorem SMap.wf_insert [DecidableEq β] {d v : β} {j : Nat} {m : SMap β} (h : SMap.wf d m = true) (hv : v ≠ d)
    (hj : ∀ x ∈ m, x.1 ≠ j) : SMap.wf d (SMap.insert j v m) = true := by
  induction m with
  | nil => simpa [SMap.insert, SMap.wf] using hv
  | cons x r ih =>
    obtain ⟨k, w⟩ := x
    obtain ⟨hw, ha, hr⟩ := (SMap.wf_cons d k w r).mp h
    simp only [SMap.insert]
    split
    · rename_i hlt
      refine (SMap.wf_cons d j v _).mpr ⟨hv, ?_, h⟩
      intro y hy
      rcases List.mem_cons.mp hy with rfl | hy
      · exact hlt
      · exact Nat.lt_trans hlt (ha y hy)
    · rename_i hge
      have hne : k ≠ j := hj (k, w) (List.mem_cons_self ..)
      exact (SMap.wf_cons d k w _).mpr
        ⟨hw, SMap.above_insert ha (by omega), ih hr fun y hy => hj y (List.mem_cons_of_mem _ hy)⟩

/-- A write keeps the canonical form. -/
theorem SMap.wf_put [DecidableEq β] {d v : β} {j : Nat} {m : SMap β} (h : SMap.wf d m = true) :
    SMap.wf d (SMap.put d j v m) = true := by
  unfold SMap.put
  split
  · exact SMap.wf_erase h
  · rename_i hv
    exact SMap.wf_insert (SMap.wf_erase h) hv SMap.not_mem_erase

theorem SMap.get_erase_same {d : β} {j : Nat} {m : SMap β} : SMap.get d j (SMap.erase j m) = d := by
  induction m with
  | nil => rfl
  | cons x r ih =>
    simp only [SMap.erase]
    split
    · exact ih
    · rename_i h
      simp only [SMap.get, if_neg h, ih]

theorem SMap.get_erase_other {d : β} {i j : Nat} {m : SMap β} (h : i ≠ j) :
    SMap.get d i (SMap.erase j m) = SMap.get d i m := by
  induction m with
  | nil => rfl
  | cons x r ih =>
    obtain ⟨k, v⟩ := x
    simp only [SMap.erase]
    split
    · rename_i hk
      simp only [SMap.get, ih]
      rw [if_neg (by omega)]
    · simp only [SMap.get, ih]

theorem SMap.get_insert_same {d v : β} {j : Nat} {m : SMap β} (h : ∀ x ∈ m, x.1 ≠ j) :
    SMap.get d j (SMap.insert j v m) = v := by
  induction m with
  | nil => simp [SMap.insert, SMap.get]
  | cons x r ih =>
    obtain ⟨k, w⟩ := x
    have hk : k ≠ j := h (k, w) (List.mem_cons_self ..)
    simp only [SMap.insert]
    split
    · simp [SMap.get]
    · simp only [SMap.get, if_neg hk]
      exact ih fun y hy => h y (List.mem_cons_of_mem _ hy)

theorem SMap.get_insert_other {d v : β} {i j : Nat} {m : SMap β} (h : i ≠ j) :
    SMap.get d i (SMap.insert j v m) = SMap.get d i m := by
  induction m with
  | nil => simp only [SMap.insert, SMap.get]; rw [if_neg (by omega)]
  | cons x r ih =>
    obtain ⟨k, w⟩ := x
    simp only [SMap.insert]
    split
    · rw [SMap.get, if_neg (by omega)]
    · simp only [SMap.get, ih]

/-- A table reads back what was written. -/
theorem SMap.get_put_same [DecidableEq β] {d v : β} {j : Nat} {m : SMap β} : SMap.get d j (SMap.put d j v m) = v := by
  unfold SMap.put
  split
  · rename_i h
    rw [SMap.get_erase_same, h]
  · exact SMap.get_insert_same SMap.not_mem_erase

/-- A write leaves every other place alone. -/
theorem SMap.get_put_other [DecidableEq β] {d v : β} {i j : Nat} {m : SMap β} (h : i ≠ j) :
    SMap.get d i (SMap.put d j v m) = SMap.get d i m := by
  unfold SMap.put
  split
  · exact SMap.get_erase_other h
  · rw [SMap.get_insert_other h, SMap.get_erase_other h]

theorem SMap.wf_filter [DecidableEq β] {d : β} {m : SMap β} (p : Nat × β → Bool) (h : SMap.wf d m = true) :
    SMap.wf d (m.filter p) = true := by
  induction m with
  | nil => rfl
  | cons x r ih =>
    obtain ⟨k, v⟩ := x
    obtain ⟨hv, ha, hr⟩ := (SMap.wf_cons d k v r).mp h
    simp only [List.filter_cons]
    split
    · refine (SMap.wf_cons d k v _).mpr ⟨hv, ?_, ih hr⟩
      intro y hy
      exact ha y (List.mem_filter.mp hy).1
    · exact ih hr

end

/-! Memory. -/

theorem byte_setByte_same (m : List Host.Cell) (a : Nat) (b : Byte) : Memory.byte (Memory.setByte m a b) a = b :=
  SMap.get_put_same
theorem byte_setByte_other {m : List Host.Cell} {a c : Nat} {b : Byte} (h : c ≠ a) :
    Memory.byte (Memory.setByte m a b) c = Memory.byte m c := SMap.get_put_other h

/-- A byte outside a write stays. -/
theorem byte_write_outside {m : List Host.Cell} {a n v c : Nat} (h : ¬(a ≤ c ∧ c < a + n)) :
    Memory.byte (Memory.write m a n v) c = Memory.byte m c := by
  induction n generalizing m a v with
  | zero => rfl
  | succ n ih =>
    simp only [Memory.write]
    rw [ih (by omega), byte_setByte_other (by omega)]

/-- A byte inside a write is the byte of the value (R8). -/
theorem byte_write_inside {m : List Host.Cell} {a n v c : Nat} (h : a ≤ c ∧ c < a + n) :
    Memory.byte (Memory.write m a n v) c = BitVec.ofNat 8 (v / 2 ^ (8 * (c - a))) := by
  induction n generalizing m a v with
  | zero => omega
  | succ n ih =>
    simp only [Memory.write]
    by_cases hc : c = a
    · subst hc
      rw [byte_write_outside (by omega), byte_setByte_same, Nat.sub_self]
      simp
    · rw [ih (by omega), Nat.div_div_eq_div_mul]
      congr 2
      have : c - a = (c - (a + 1)) + 1 := by omega
      rw [this, Nat.mul_add, Nat.pow_add]
      omega

theorem read_congr {m m' : List Host.Cell} {a n : Nat}
    (h : ∀ c, a ≤ c → c < a + n → Memory.byte m' c = Memory.byte m c) : Memory.read m' a n = Memory.read m a n := by
  induction n generalizing a with
  | zero => rfl
  | succ n ih =>
    simp only [Memory.read]
    rw [h a (Nat.le_refl _) (by omega), ih fun c h1 h2 => h c (by omega) (by omega)]

/-- Memory reads back what was written (R8). -/
theorem read_write_same (m : List Host.Cell) (a n v : Nat) :
    Memory.read (Memory.write m a n v) a n = v % 2 ^ (8 * n) := by
  induction n generalizing m a v with
  | zero => simp [Memory.read, Nat.mod_one]
  | succ n ih =>
    simp only [Memory.read]
    rw [byte_write_inside (by omega), Nat.sub_self]
    simp only [Memory.write]
    rw [ih]
    simp only [Nat.mul_zero, Nat.pow_zero, Nat.div_one, BitVec.toNat_ofNat]
    have hp : 2 ^ (8 * (n + 1)) = 256 * 2 ^ (8 * n) := by rw [Nat.mul_add, Nat.pow_add, Nat.mul_comm]
    rw [hp, Nat.mod_mul]

/-- Reads beside a write stay. -/
theorem read_write_other {m : List Host.Cell} {a n v b k : Nat} (h : b + k ≤ a ∨ a + n ≤ b) :
    Memory.read (Memory.write m a n v) b k = Memory.read m b k :=
  read_congr fun _ _ _ => byte_write_outside (by omega)

/-! The canonical form. -/

theorem wf_setByte {m : List Host.Cell} {a : Nat} {b : Byte} (h : Memory.wf m = true) :
    Memory.wf (Memory.setByte m a b) = true := SMap.wf_put h
theorem wf_write {m : List Host.Cell} {a n v : Nat} (h : Memory.wf m = true) : Memory.wf (Memory.write m a n v) = true := by
  induction n generalizing m a v with
  | zero => exact h
  | succ n ih => exact ih (wf_setByte h)
theorem wf_writeBytes {m : List Host.Cell} {a : Nat} {bs : List Byte} (h : Memory.wf m = true) :
    Memory.wf (Memory.writeBytes m a bs) = true := by
  induction bs generalizing m a with
  | nil => exact h
  | cons b r ih => exact ih (wf_setByte h)
theorem wf_clearRange {m : List Host.Cell} {a n : Nat} (h : Memory.wf m = true) :
    Memory.wf (Memory.clearRange m a n) = true := SMap.wf_filter _ h
theorem wf_fill {m : List Host.Cell} {a n v : Nat} (h : Memory.wf m = true) : Memory.wf (Memory.fill m a n v) = true := by
  unfold Memory.fill
  simp only
  split
  · exact wf_clearRange h
  · exact wf_write (wf_clearRange h)
theorem cover_mem (s : State) (loc n : Nat) : (s.cover loc n).mem = s.mem := by
  unfold State.cover
  simp only
  repeat' split
  all_goals rfl
theorem homeStore_mem (s : State) (loc n v : Nat) (p : Bool) :
    (s.homeStore loc n v p).1.mem = s.mem ∨ (s.homeStore loc n v p).1.mem = Memory.write s.mem loc n v := by
  unfold State.homeStore
  simp only
  repeat' split
  all_goals first | exact Or.inl rfl | exact Or.inr rfl | exact Or.inr (cover_mem ..)
theorem wf_homeStore {s : State} {loc n v : Nat} {p : Bool} (h : s.Canonical) : (s.homeStore loc n v p).1.Canonical := by
  unfold State.Canonical at h ⊢
  rcases homeStore_mem s loc n v p with e | e <;> rw [e]
  · exact h
  · exact wf_write h
theorem wf_reset : State.reset.Canonical := rfl

/-! The cipher is a permutation of the data units of a length (log entry 11). -/

theorem swapped_swapped (x : Nat) (p : Nat × Nat) : swapped (swapped x p) p = x := by
  unfold swapped
  repeat' split
  all_goals omega
theorem swaps_undo (l : List (Nat × Nat)) (x : Nat) : l.reverse.foldl swapped (l.foldl swapped x) = x := by
  induction l generalizing x with
  | nil => rfl
  | cons p r ih => rw [List.foldl_cons, List.reverse_cons, List.foldl_append, ih]; exact swapped_swapped x p
theorem swaps_lt {m : Nat} (l : List (Nat × Nat)) (h : ∀ p ∈ l, p.1 < m ∧ p.2 < m) {x : Nat} (hx : x < m) :
    l.foldl swapped x < m := by
  induction l generalizing x with
  | nil => exact hx
  | cons p r ih =>
    obtain ⟨h1, h2⟩ := h p (List.mem_cons_self ..)
    refine ih (fun q hq => h q (List.mem_cons_of_mem _ hq)) ?_
    unfold swapped
    repeat' split
    all_goals assumption
theorem bytesOf_length (n v : Nat) : (bytesOf n v).length = n := by
  induction n generalizing v with
  | zero => rfl
  | succ n ih => simp only [bytesOf, List.length_cons, ih]
theorem ofBytes_lt (l : List Byte) : ofBytes l < 2 ^ (8 * l.length) := by
  induction l with
  | nil => simp [ofBytes]
  | cons b r ih =>
    have := b.isLt
    have e : (2 : Nat) ^ (8 * (r.length + 1)) = 256 * 2 ^ (8 * r.length) := by rw [Nat.mul_add, Nat.pow_add]; omega
    simp only [ofBytes, List.length_cons, e]
    omega
theorem ofBytes_bytesOf {n v : Nat} (h : v < 2 ^ (8 * n)) : ofBytes (bytesOf n v) = v := by
  induction n generalizing v with
  | zero => simp only [Nat.mul_zero, Nat.pow_zero, Nat.lt_one_iff] at h; simp [h, bytesOf, ofBytes]
  | succ n ih =>
    have e : (2 : Nat) ^ (8 * (n + 1)) = 2 ^ (8 * n) * 256 := by rw [Nat.mul_add, Nat.pow_add]
    rw [e] at h
    simp only [bytesOf, ofBytes, BitVec.toNat_ofNat, ih (Nat.div_lt_of_lt_mul (by omega : v < 256 * 2 ^ (8 * n)))]
    omega
theorem bytesOf_ofBytes (l : List Byte) : bytesOf l.length (ofBytes l) = l := by
  induction l with
  | nil => rfl
  | cons b r ih =>
    have := b.isLt
    have hd : (b.toNat + 256 * ofBytes r) / 256 = ofBytes r := by omega
    have hm : BitVec.ofNat 8 (b.toNat + 256 * ofBytes r) = b := by
      apply BitVec.eq_of_toNat_eq
      rw [BitVec.toNat_ofNat]
      omega
    simp only [List.length_cons, ofBytes, bytesOf, hd, hm, ih]
/-- What has been encrypted decrypts to what it was. -/
theorem xtsDecrypt_xtsEncrypt (key tweak : Nat) (bs : List Byte) : xtsDecrypt key tweak (xtsEncrypt key tweak bs) = bs := by
  have hp : ∀ p ∈ xtsPairs key tweak bs.length, p.1 < 2 ^ (8 * bs.length) ∧ p.2 < 2 ^ (8 * bs.length) := by
    intro p hp
    obtain ⟨q, -, rfl⟩ := List.mem_map.mp hp
    exact ⟨Nat.mod_lt _ (Nat.two_pow_pos _), Nat.mod_lt _ (Nat.two_pow_pos _)⟩
  unfold xtsDecrypt xtsEncrypt
  rw [bytesOf_length, ofBytes_bytesOf (swaps_lt _ hp (ofBytes_lt bs)), swaps_undo, bytesOf_ofBytes]

end Sys2Proof.Machine
end

