-- ==== Sys2Proof/Laws/PerInstr.lean ====
section
/-!
SUPPORT. Properties of every instruction as syntax, one lemma for each constructor.
-/

/-- The word of an instruction has 64 bits (R31). -/
def Sys2Proof.Laws.Fits.Statement (i : Sys2Proof.Instr) : Prop :=
  ∀ w, Sys2Proof.encode i = some w → w < 2 ^ 64

namespace Sys2Proof
set_option Elab.async false

/-! The bounds of the codes of the operands. -/

theorem Laws.Fmt_code_lt (x : Fmt) : x.code < 32 := by cases x <;> decide
theorem Laws.Order_code_lt (x : Order) : x.code < 4 := by cases x <;> decide
theorem Laws.Scope_code_lt (x : Scope) : x.code < 4 := by cases x <;> decide
theorem Laws.Cond_code_lt (x : Cond) : x.code < 16 := by cases x <;> decide
theorem Laws.AmoOp_code_lt (x : AmoOp) : x.code < 256 := by cases x <;> decide
theorem Laws.IntCond_code_lt (x : IntCond) : x.code < 256 := by cases x <;> decide
theorem Laws.FpCond_code_lt (x : FpCond) : x.code < 256 := by cases x <;> decide
theorem Laws.CollKind_code_lt (x : CollKind) : x.code < 256 := by cases x <;> (try decide) <;> rename_i r <;> cases r <;> decide
theorem Laws.BankMode_code_lt (x : BankMode) : x.code < 4 := by cases x <;> decide
theorem Laws.TlbKind_code_lt (x : TlbKind) : x.code < 4 := by cases x <;> decide
theorem Laws.LaneReg_num_lt (x : LaneReg) : x.num < 64 := by cases x <;> simp only [LaneReg.num] <;> omega
theorem Laws.LaneB_num_lt (x : LaneB) : x.num < 64 := by cases x <;> simp only [LaneB.num] <;> omega
theorem Laws.LaneB_sub_lt (x : LaneB) : x.sub < 256 := by cases x <;> simp only [LaneB.sub] <;> omega
theorem Laws.LaneB_bf_lt (x : LaneB) : x.bf < 4 := by cases x <;> simp only [LaneB.bf] <;> omega
theorem Laws.cvc_lt (x : Option (Fin 64)) : cvc x < 64 := by cases x <;> simp only [cvc] <;> omega

/-! One lemma for each constructor. -/

theorem Laws.Fits.add : ∀ st d a b, Laws.Fits.Statement (.add st d a b) := by
  intro st d a b w h; simp only [encode, packV, Option.some.injEq] at h; omega
theorem Laws.Fits.sub : ∀ st d a b, Laws.Fits.Statement (.sub st d a b) := by
  intro st d a b w h; simp only [encode, packV, Option.some.injEq] at h; omega
theorem Laws.Fits.and : ∀ st d a b, Laws.Fits.Statement (.and st d a b) := by
  intro st d a b w h; simp only [encode, packV, Option.some.injEq] at h; omega
theorem Laws.Fits.or : ∀ st d a b, Laws.Fits.Statement (.or st d a b) := by
  intro st d a b w h; simp only [encode, packV, Option.some.injEq] at h; omega
theorem Laws.Fits.xor : ∀ st d a b, Laws.Fits.Statement (.xor st d a b) := by
  intro st d a b w h; simp only [encode, packV, Option.some.injEq] at h; omega
theorem Laws.Fits.shl : ∀ st d a b, Laws.Fits.Statement (.shl st d a b) := by
  intro st d a b w h; simp only [encode, packV, Option.some.injEq] at h; omega
theorem Laws.Fits.shr : ∀ st d a b, Laws.Fits.Statement (.shr st d a b) := by
  intro st d a b w h; simp only [encode, packV, Option.some.injEq] at h; omega
theorem Laws.Fits.sra : ∀ st d a b, Laws.Fits.Statement (.sra st d a b) := by
  intro st d a b w h; simp only [encode, packV, Option.some.injEq] at h; omega
theorem Laws.Fits.mul : ∀ st d a b, Laws.Fits.Statement (.mul st d a b) := by
  intro st d a b w h; simp only [encode, packV, Option.some.injEq] at h; omega
theorem Laws.Fits.mulh : ∀ st d a b, Laws.Fits.Statement (.mulh st d a b) := by
  intro st d a b w h; simp only [encode, packV, Option.some.injEq] at h; omega
theorem Laws.Fits.mulhn : ∀ st d a b, Laws.Fits.Statement (.mulhn st d a b) := by
  intro st d a b w h; simp only [encode, packV, Option.some.injEq] at h; omega
theorem Laws.Fits.div : ∀ st d a b, Laws.Fits.Statement (.div st d a b) := by
  intro st d a b w h; simp only [encode, packV, Option.some.injEq] at h; omega
theorem Laws.Fits.divn : ∀ st d a b, Laws.Fits.Statement (.divn st d a b) := by
  intro st d a b w h; simp only [encode, packV, Option.some.injEq] at h; omega
theorem Laws.Fits.rem : ∀ st d a b, Laws.Fits.Statement (.rem st d a b) := by
  intro st d a b w h; simp only [encode, packV, Option.some.injEq] at h; omega
theorem Laws.Fits.remn : ∀ st d a b, Laws.Fits.Statement (.remn st d a b) := by
  intro st d a b w h; simp only [encode, packV, Option.some.injEq] at h; omega
theorem Laws.Fits.min : ∀ st d a b, Laws.Fits.Statement (.min st d a b) := by
  intro st d a b w h; simp only [encode, packV, Option.some.injEq] at h; omega
theorem Laws.Fits.max : ∀ st d a b, Laws.Fits.Statement (.max st d a b) := by
  intro st d a b w h; simp only [encode, packV, Option.some.injEq] at h; omega
theorem Laws.Fits.minn : ∀ st d a b, Laws.Fits.Statement (.minn st d a b) := by
  intro st d a b w h; simp only [encode, packV, Option.some.injEq] at h; omega
theorem Laws.Fits.maxn : ∀ st d a b, Laws.Fits.Statement (.maxn st d a b) := by
  intro st d a b w h; simp only [encode, packV, Option.some.injEq] at h; omega
theorem Laws.Fits.clz : ∀ st d a, Laws.Fits.Statement (.clz st d a) := by
  intro st d a w h; simp only [encode, packV, Option.some.injEq] at h; omega
theorem Laws.Fits.popc : ∀ st d a, Laws.Fits.Statement (.popc st d a) := by
  intro st d a w h; simp only [encode, packV, Option.some.injEq] at h; omega
theorem Laws.Fits.addi : ∀ st d a imm, Laws.Fits.Statement (.addi st d a imm) := by
  intro st d a imm w h; simp only [encode, packI, Option.some.injEq] at h; omega
theorem Laws.Fits.andi : ∀ st d a imm, Laws.Fits.Statement (.andi st d a imm) := by
  intro st d a imm w h; simp only [encode, packI, Option.some.injEq] at h; omega
theorem Laws.Fits.ori : ∀ st d a imm, Laws.Fits.Statement (.ori st d a imm) := by
  intro st d a imm w h; simp only [encode, packI, Option.some.injEq] at h; omega
theorem Laws.Fits.xori : ∀ st d a imm, Laws.Fits.Statement (.xori st d a imm) := by
  intro st d a imm w h; simp only [encode, packI, Option.some.injEq] at h; omega
theorem Laws.Fits.shli : ∀ st d a sh, Laws.Fits.Statement (.shli st d a sh) := by
  intro st d a sh w h; simp only [encode, packI, Option.some.injEq] at h; omega
theorem Laws.Fits.shri : ∀ st d a sh, Laws.Fits.Statement (.shri st d a sh) := by
  intro st d a sh w h; simp only [encode, packI, Option.some.injEq] at h; omega
theorem Laws.Fits.srai : ∀ st d a sh, Laws.Fits.Statement (.srai st d a sh) := by
  intro st d a sh w h; simp only [encode, packI, Option.some.injEq] at h; omega
theorem Laws.Fits.limm : ∀ st d imm, Laws.Fits.Statement (.limm st d imm) := by
  intro st d imm w h; simp only [encode, packI, Option.some.injEq] at h; omega
theorem Laws.Fits.limh : ∀ st d a imm, Laws.Fits.Statement (.limh st d a imm) := by
  intro st d a imm w h; simp only [encode, packI, Option.some.injEq] at h; omega
theorem Laws.Fits.cset : ∀ st cond d a b, Laws.Fits.Statement (.cset st cond d a b) := by
  intro st cond d a b w h; have := Laws.Cond_code_lt cond; simp only [encode, packV, Option.some.injEq] at h; omega
theorem Laws.Fits.br : ∀ st cond d a imm, Laws.Fits.Statement (.br st cond d a imm) := by
  intro st cond d a imm w h; have := Laws.Cond_code_lt cond; simp only [encode, packI, Option.some.injEq] at h; omega
theorem Laws.Fits.jal : ∀ st d imm, Laws.Fits.Statement (.jal st d imm) := by
  intro st d imm w h; simp only [encode, packI, Option.some.injEq] at h; omega
theorem Laws.Fits.jalr : ∀ st d a imm, Laws.Fits.Statement (.jalr st d a imm) := by
  intro st d a imm w h; simp only [encode, packI, Option.some.injEq] at h; omega
theorem Laws.Fits.ld : ∀ st w d a imm, Laws.Fits.Statement (.ld st w d a imm) := by
  intro st w d a imm w h; simp only [encode, packI, Option.some.injEq] at h; omega
theorem Laws.Fits.st : ∀ st w d a imm, Laws.Fits.Statement (.st st w d a imm) := by
  intro st w d a imm w h; simp only [encode, packI, Option.some.injEq] at h; omega
theorem Laws.Fits.amo : ∀ st op ord scope d a b c disp fmt, Laws.Fits.Statement (.amo st op ord scope d a b c disp fmt) := by
  intro st op ord scope d a b c disp fmt w h; have := Laws.AmoOp_code_lt op; have := Laws.Scope_code_lt scope; have := Laws.Order_code_lt ord; have := Laws.Fmt_code_lt fmt; simp only [encode, packV, Option.some.injEq] at h; omega
theorem Laws.Fits.fence : ∀ st ord scope, Laws.Fits.Statement (.fence st ord scope) := by
  intro st ord scope w h; have := Laws.Scope_code_lt scope; have := Laws.Order_code_lt ord; simp only [encode, packV, Option.some.injEq] at h; omega
theorem Laws.Fits.waita : ∀ st ord scope d a b c disp fmt, Laws.Fits.Statement (.waita st ord scope d a b c disp fmt) := by
  intro st ord scope d a b c disp fmt w h; have := Laws.Scope_code_lt scope; have := Laws.Order_code_lt ord; have := Laws.Fmt_code_lt fmt; simp only [encode, packV, Option.some.injEq] at h; omega
theorem Laws.Fits.mfc : ∀ st d cr, Laws.Fits.Statement (.mfc st d cr) := by
  intro st d cr w h; simp only [encode, packI, Option.some.injEq] at h; omega
theorem Laws.Fits.mtc : ∀ st a cr, Laws.Fits.Statement (.mtc st a cr) := by
  intro st a cr w h; simp only [encode, packI, Option.some.injEq] at h; omega
theorem Laws.Fits.sys : ∀ st imm, Laws.Fits.Statement (.sys st imm) := by
  intro st imm w h; simp only [encode, packI, Option.some.injEq] at h; omega
theorem Laws.Fits.eret : ∀ st, Laws.Fits.Statement (.eret st) := by
  intro st w h; simp only [encode, packV, Option.some.injEq] at h; omega
theorem Laws.Fits.brk : ∀ st imm, Laws.Fits.Statement (.brk st imm) := by
  intro st imm w h; simp only [encode, packI, Option.some.injEq] at h; omega
theorem Laws.Fits.endF : ∀ st, Laws.Fits.Statement (.endF st) := by
  intro st w h; simp only [encode, packV, Option.some.injEq] at h; omega
theorem Laws.Fits.nop : ∀ st, Laws.Fits.Statement (.nop st) := by
  intro st w h; simp only [encode, packV, Option.some.injEq] at h; omega
theorem Laws.Fits.vsetvl : ∀ st d a b blk fmt, Laws.Fits.Statement (.vsetvl st d a b blk fmt) := by
  intro st d a b blk fmt w h; have := Laws.Fmt_code_lt fmt; simp only [encode, packV, Option.some.injEq] at h; omega
theorem Laws.Fits.vsetvlRd : ∀ st d b, Laws.Fits.Statement (.vsetvlRd st d b) := by
  intro st d b w h; simp only [encode, packV, Option.some.injEq] at h; omega
theorem Laws.Fits.vld : ∀ st o d a m disp fmt, Laws.Fits.Statement (.vld st o d a m disp fmt) := by
  intro st o d a m disp fmt w h; have := Laws.Fmt_code_lt fmt; simp only [encode, packV, Option.some.injEq] at h; omega
theorem Laws.Fits.vlds : ∀ st d a b m disp fmt, Laws.Fits.Statement (.vlds st d a b m disp fmt) := by
  intro st d a b m disp fmt w h; have := Laws.Fmt_code_lt fmt; simp only [encode, packV, Option.some.injEq] at h; omega
theorem Laws.Fits.vldx : ∀ st sc d a b c m x32 bnd fmt, Laws.Fits.Statement (.vldx st sc d a b c m x32 bnd fmt) := by
  intro st sc d a b c m x32 bnd fmt w h; have := Bool.toNat_lt x32; have := Bool.toNat_lt bnd; have := Laws.Fmt_code_lt fmt; simp only [encode, packV, Option.some.injEq] at h; omega
theorem Laws.Fits.vst : ∀ st o d a m disp fmt, Laws.Fits.Statement (.vst st o d a m disp fmt) := by
  intro st o d a m disp fmt w h; have := Laws.Fmt_code_lt fmt; simp only [encode, packV, Option.some.injEq] at h; omega
theorem Laws.Fits.vsts : ∀ st d a b m disp fmt, Laws.Fits.Statement (.vsts st d a b m disp fmt) := by
  intro st d a b m disp fmt w h; have := Laws.Fmt_code_lt fmt; simp only [encode, packV, Option.some.injEq] at h; omega
theorem Laws.Fits.vstx : ∀ st sc d a b c m x32 bnd fmt, Laws.Fits.Statement (.vstx st sc d a b c m x32 bnd fmt) := by
  intro st sc d a b c m x32 bnd fmt w h; have := Bool.toNat_lt x32; have := Bool.toNat_lt bnd; have := Laws.Fmt_code_lt fmt; simp only [encode, packV, Option.some.injEq] at h; omega
theorem Laws.Fits.vadd : ∀ st d a b m fmt, Laws.Fits.Statement (.vadd st d a b m fmt) := by
  intro st d a b m fmt w h; have := Laws.LaneReg_num_lt d; have := Laws.LaneReg_num_lt a; have := Laws.LaneB_num_lt b; have := Laws.LaneB_sub_lt b; have := Bool.toNat_lt a.isStream; have := Bool.toNat_lt d.isStream; have := Laws.LaneB_bf_lt b; have := Laws.Fmt_code_lt fmt; simp only [encode, packV, Option.some.injEq] at h; omega
theorem Laws.Fits.vsub : ∀ st d a b m fmt, Laws.Fits.Statement (.vsub st d a b m fmt) := by
  intro st d a b m fmt w h; have := Laws.LaneReg_num_lt d; have := Laws.LaneReg_num_lt a; have := Laws.LaneB_num_lt b; have := Laws.LaneB_sub_lt b; have := Bool.toNat_lt a.isStream; have := Bool.toNat_lt d.isStream; have := Laws.LaneB_bf_lt b; have := Laws.Fmt_code_lt fmt; simp only [encode, packV, Option.some.injEq] at h; omega
theorem Laws.Fits.vmul : ∀ st d a b m fmt, Laws.Fits.Statement (.vmul st d a b m fmt) := by
  intro st d a b m fmt w h; have := Laws.LaneReg_num_lt d; have := Laws.LaneReg_num_lt a; have := Laws.LaneB_num_lt b; have := Laws.LaneB_sub_lt b; have := Bool.toNat_lt a.isStream; have := Bool.toNat_lt d.isStream; have := Laws.LaneB_bf_lt b; have := Laws.Fmt_code_lt fmt; simp only [encode, packV, Option.some.injEq] at h; omega
theorem Laws.Fits.vmulh : ∀ st d a b m fmt, Laws.Fits.Statement (.vmulh st d a b m fmt) := by
  intro st d a b m fmt w h; have := Laws.LaneReg_num_lt d; have := Laws.LaneReg_num_lt a; have := Laws.LaneB_num_lt b; have := Laws.LaneB_sub_lt b; have := Bool.toNat_lt a.isStream; have := Bool.toNat_lt d.isStream; have := Laws.LaneB_bf_lt b; have := Laws.Fmt_code_lt fmt; simp only [encode, packV, Option.some.injEq] at h; omega
theorem Laws.Fits.vmin : ∀ st d a b m fmt, Laws.Fits.Statement (.vmin st d a b m fmt) := by
  intro st d a b m fmt w h; have := Laws.LaneReg_num_lt d; have := Laws.LaneReg_num_lt a; have := Laws.LaneB_num_lt b; have := Laws.LaneB_sub_lt b; have := Bool.toNat_lt a.isStream; have := Bool.toNat_lt d.isStream; have := Laws.LaneB_bf_lt b; have := Laws.Fmt_code_lt fmt; simp only [encode, packV, Option.some.injEq] at h; omega
theorem Laws.Fits.vmax : ∀ st d a b m fmt, Laws.Fits.Statement (.vmax st d a b m fmt) := by
  intro st d a b m fmt w h; have := Laws.LaneReg_num_lt d; have := Laws.LaneReg_num_lt a; have := Laws.LaneB_num_lt b; have := Laws.LaneB_sub_lt b; have := Bool.toNat_lt a.isStream; have := Bool.toNat_lt d.isStream; have := Laws.LaneB_bf_lt b; have := Laws.Fmt_code_lt fmt; simp only [encode, packV, Option.some.injEq] at h; omega
theorem Laws.Fits.vand : ∀ st d a b m fmt, Laws.Fits.Statement (.vand st d a b m fmt) := by
  intro st d a b m fmt w h; have := Laws.LaneReg_num_lt d; have := Laws.LaneReg_num_lt a; have := Laws.LaneB_num_lt b; have := Laws.LaneB_sub_lt b; have := Bool.toNat_lt a.isStream; have := Bool.toNat_lt d.isStream; have := Laws.LaneB_bf_lt b; have := Laws.Fmt_code_lt fmt; simp only [encode, packV, Option.some.injEq] at h; omega
theorem Laws.Fits.vor : ∀ st d a b m fmt, Laws.Fits.Statement (.vor st d a b m fmt) := by
  intro st d a b m fmt w h; have := Laws.LaneReg_num_lt d; have := Laws.LaneReg_num_lt a; have := Laws.LaneB_num_lt b; have := Laws.LaneB_sub_lt b; have := Bool.toNat_lt a.isStream; have := Bool.toNat_lt d.isStream; have := Laws.LaneB_bf_lt b; have := Laws.Fmt_code_lt fmt; simp only [encode, packV, Option.some.injEq] at h; omega
theorem Laws.Fits.vxor : ∀ st d a b m fmt, Laws.Fits.Statement (.vxor st d a b m fmt) := by
  intro st d a b m fmt w h; have := Laws.LaneReg_num_lt d; have := Laws.LaneReg_num_lt a; have := Laws.LaneB_num_lt b; have := Laws.LaneB_sub_lt b; have := Bool.toNat_lt a.isStream; have := Bool.toNat_lt d.isStream; have := Laws.LaneB_bf_lt b; have := Laws.Fmt_code_lt fmt; simp only [encode, packV, Option.some.injEq] at h; omega
theorem Laws.Fits.vshl : ∀ st d a b m fmt, Laws.Fits.Statement (.vshl st d a b m fmt) := by
  intro st d a b m fmt w h; have := Laws.LaneReg_num_lt d; have := Laws.LaneReg_num_lt a; have := Laws.LaneB_num_lt b; have := Laws.LaneB_sub_lt b; have := Bool.toNat_lt a.isStream; have := Bool.toNat_lt d.isStream; have := Laws.LaneB_bf_lt b; have := Laws.Fmt_code_lt fmt; simp only [encode, packV, Option.some.injEq] at h; omega
theorem Laws.Fits.vshr : ∀ st d a b m fmt, Laws.Fits.Statement (.vshr st d a b m fmt) := by
  intro st d a b m fmt w h; have := Laws.LaneReg_num_lt d; have := Laws.LaneReg_num_lt a; have := Laws.LaneB_num_lt b; have := Laws.LaneB_sub_lt b; have := Bool.toNat_lt a.isStream; have := Bool.toNat_lt d.isStream; have := Laws.LaneB_bf_lt b; have := Laws.Fmt_code_lt fmt; simp only [encode, packV, Option.some.injEq] at h; omega
theorem Laws.Fits.vsra : ∀ st d a b m fmt, Laws.Fits.Statement (.vsra st d a b m fmt) := by
  intro st d a b m fmt w h; have := Laws.LaneReg_num_lt d; have := Laws.LaneReg_num_lt a; have := Laws.LaneB_num_lt b; have := Laws.LaneB_sub_lt b; have := Bool.toNat_lt a.isStream; have := Bool.toNat_lt d.isStream; have := Laws.LaneB_bf_lt b; have := Laws.Fmt_code_lt fmt; simp only [encode, packV, Option.some.injEq] at h; omega
theorem Laws.Fits.vfadd : ∀ st d a b m fmt, Laws.Fits.Statement (.vfadd st d a b m fmt) := by
  intro st d a b m fmt w h; have := Laws.LaneReg_num_lt d; have := Laws.LaneReg_num_lt a; have := Laws.LaneB_num_lt b; have := Laws.LaneB_sub_lt b; have := Bool.toNat_lt a.isStream; have := Bool.toNat_lt d.isStream; have := Laws.LaneB_bf_lt b; have := Laws.Fmt_code_lt fmt; simp only [encode, packV, Option.some.injEq] at h; omega
theorem Laws.Fits.vfsub : ∀ st d a b m fmt, Laws.Fits.Statement (.vfsub st d a b m fmt) := by
  intro st d a b m fmt w h; have := Laws.LaneReg_num_lt d; have := Laws.LaneReg_num_lt a; have := Laws.LaneB_num_lt b; have := Laws.LaneB_sub_lt b; have := Bool.toNat_lt a.isStream; have := Bool.toNat_lt d.isStream; have := Laws.LaneB_bf_lt b; have := Laws.Fmt_code_lt fmt; simp only [encode, packV, Option.some.injEq] at h; omega
theorem Laws.Fits.vfmul : ∀ st d a b m fmt, Laws.Fits.Statement (.vfmul st d a b m fmt) := by
  intro st d a b m fmt w h; have := Laws.LaneReg_num_lt d; have := Laws.LaneReg_num_lt a; have := Laws.LaneB_num_lt b; have := Laws.LaneB_sub_lt b; have := Bool.toNat_lt a.isStream; have := Bool.toNat_lt d.isStream; have := Laws.LaneB_bf_lt b; have := Laws.Fmt_code_lt fmt; simp only [encode, packV, Option.some.injEq] at h; omega
theorem Laws.Fits.vfma : ∀ st d a b m fmt, Laws.Fits.Statement (.vfma st d a b m fmt) := by
  intro st d a b m fmt w h; have := Laws.LaneReg_num_lt d; have := Laws.LaneReg_num_lt a; have := Laws.LaneB_num_lt b; have := Laws.LaneB_sub_lt b; have := Bool.toNat_lt a.isStream; have := Bool.toNat_lt d.isStream; have := Laws.LaneB_bf_lt b; have := Laws.Fmt_code_lt fmt; simp only [encode, packV, Option.some.injEq] at h; omega
theorem Laws.Fits.vfnma : ∀ st d a b m fmt, Laws.Fits.Statement (.vfnma st d a b m fmt) := by
  intro st d a b m fmt w h; have := Laws.LaneReg_num_lt d; have := Laws.LaneReg_num_lt a; have := Laws.LaneB_num_lt b; have := Laws.LaneB_sub_lt b; have := Bool.toNat_lt a.isStream; have := Bool.toNat_lt d.isStream; have := Laws.LaneB_bf_lt b; have := Laws.Fmt_code_lt fmt; simp only [encode, packV, Option.some.injEq] at h; omega
theorem Laws.Fits.vfdiv : ∀ st d a b m fmt, Laws.Fits.Statement (.vfdiv st d a b m fmt) := by
  intro st d a b m fmt w h; have := Laws.LaneReg_num_lt d; have := Laws.LaneReg_num_lt a; have := Laws.LaneB_num_lt b; have := Laws.LaneB_sub_lt b; have := Bool.toNat_lt a.isStream; have := Bool.toNat_lt d.isStream; have := Laws.LaneB_bf_lt b; have := Laws.Fmt_code_lt fmt; simp only [encode, packV, Option.some.injEq] at h; omega
theorem Laws.Fits.vfsqrt : ∀ st d a m fmt, Laws.Fits.Statement (.vfsqrt st d a m fmt) := by
  intro st d a m fmt w h; have := Laws.LaneReg_num_lt d; have := Laws.LaneReg_num_lt a; have := Bool.toNat_lt a.isStream; have := Bool.toNat_lt d.isStream; have := Laws.Fmt_code_lt fmt; simp only [encode, packV, Option.some.injEq] at h; omega
theorem Laws.Fits.vfmin : ∀ st d a b m fmt, Laws.Fits.Statement (.vfmin st d a b m fmt) := by
  intro st d a b m fmt w h; have := Laws.LaneReg_num_lt d; have := Laws.LaneReg_num_lt a; have := Laws.LaneB_num_lt b; have := Laws.LaneB_sub_lt b; have := Bool.toNat_lt a.isStream; have := Bool.toNat_lt d.isStream; have := Laws.LaneB_bf_lt b; have := Laws.Fmt_code_lt fmt; simp only [encode, packV, Option.some.injEq] at h; omega
theorem Laws.Fits.vfmax : ∀ st d a b m fmt, Laws.Fits.Statement (.vfmax st d a b m fmt) := by
  intro st d a b m fmt w h; have := Laws.LaneReg_num_lt d; have := Laws.LaneReg_num_lt a; have := Laws.LaneB_num_lt b; have := Laws.LaneB_sub_lt b; have := Bool.toNat_lt a.isStream; have := Bool.toNat_lt d.isStream; have := Laws.LaneB_bf_lt b; have := Laws.Fmt_code_lt fmt; simp only [encode, packV, Option.some.injEq] at h; omega
theorem Laws.Fits.vfrcp : ∀ st d a m fmt, Laws.Fits.Statement (.vfrcp st d a m fmt) := by
  intro st d a m fmt w h; have := Laws.LaneReg_num_lt d; have := Laws.LaneReg_num_lt a; have := Bool.toNat_lt a.isStream; have := Bool.toNat_lt d.isStream; have := Laws.Fmt_code_lt fmt; simp only [encode, packV, Option.some.injEq] at h; omega
theorem Laws.Fits.vfexp2 : ∀ st d a m fmt, Laws.Fits.Statement (.vfexp2 st d a m fmt) := by
  intro st d a m fmt w h; have := Laws.LaneReg_num_lt d; have := Laws.LaneReg_num_lt a; have := Bool.toNat_lt a.isStream; have := Bool.toNat_lt d.isStream; have := Laws.Fmt_code_lt fmt; simp only [encode, packV, Option.some.injEq] at h; omega
theorem Laws.Fits.vcvt : ∀ st d a src blk m fmt, Laws.Fits.Statement (.vcvt st d a src blk m fmt) := by
  intro st d a src blk m fmt w h; have := Laws.LaneReg_num_lt d; have := Laws.LaneReg_num_lt a; have := Bool.toNat_lt a.isStream; have := Bool.toNat_lt d.isStream; have := Laws.Fmt_code_lt src; have := Bool.toNat_lt blk.isSome; have := Laws.Fmt_code_lt fmt; have := Laws.cvc_lt blk; simp only [encode, packV, Option.some.injEq] at h; omega
theorem Laws.Fits.vscale : ∀ st d a b m fmt, Laws.Fits.Statement (.vscale st d a b m fmt) := by
  intro st d a b m fmt w h; have := Laws.LaneReg_num_lt d; have := Laws.LaneReg_num_lt a; have := Laws.LaneB_num_lt b; have := Laws.LaneB_sub_lt b; have := Bool.toNat_lt a.isStream; have := Bool.toNat_lt d.isStream; have := Laws.LaneB_bf_lt b; have := Laws.Fmt_code_lt fmt; simp only [encode, packV, Option.some.injEq] at h; omega
theorem Laws.Fits.vcmp : ∀ st cond d a b m fmt, Laws.Fits.Statement (.vcmp st cond d a b m fmt) := by
  intro st cond d a b m fmt w h; have := Laws.IntCond_code_lt cond; have := Laws.LaneReg_num_lt a; have := Laws.LaneB_num_lt b; have := Laws.LaneB_sub_lt b; have := Bool.toNat_lt a.isStream; have := Laws.LaneB_bf_lt b; have := Laws.Fmt_code_lt fmt; simp only [encode, packV, Option.some.injEq] at h; omega
theorem Laws.Fits.vfcmp : ∀ st cond d a b m fmt, Laws.Fits.Statement (.vfcmp st cond d a b m fmt) := by
  intro st cond d a b m fmt w h; have := Laws.FpCond_code_lt cond; have := Laws.LaneReg_num_lt a; have := Laws.LaneB_num_lt b; have := Laws.LaneB_sub_lt b; have := Bool.toNat_lt a.isStream; have := Laws.LaneB_bf_lt b; have := Laws.Fmt_code_lt fmt; simp only [encode, packV, Option.some.injEq] at h; omega
theorem Laws.Fits.mand : ∀ st d a b, Laws.Fits.Statement (.mand st d a b) := by
  intro st d a b w h; simp only [encode, packV, Option.some.injEq] at h; omega
theorem Laws.Fits.mor : ∀ st d a b, Laws.Fits.Statement (.mor st d a b) := by
  intro st d a b w h; simp only [encode, packV, Option.some.injEq] at h; omega
theorem Laws.Fits.mxor : ∀ st d a b, Laws.Fits.Statement (.mxor st d a b) := by
  intro st d a b w h; simp only [encode, packV, Option.some.injEq] at h; omega
theorem Laws.Fits.mnot : ∀ st d a, Laws.Fits.Statement (.mnot st d a) := by
  intro st d a w h; simp only [encode, packV, Option.some.injEq] at h; omega
theorem Laws.Fits.mpop : ∀ st d a m, Laws.Fits.Statement (.mpop st d a m) := by
  intro st d a m w h; simp only [encode, packV, Option.some.injEq] at h; omega
theorem Laws.Fits.mfirst : ∀ st d a m, Laws.Fits.Statement (.mfirst st d a m) := by
  intro st d a m w h; simp only [encode, packV, Option.some.injEq] at h; omega
theorem Laws.Fits.vmtx : ∀ st d a k, Laws.Fits.Statement (.vmtx st d a k) := by
  intro st d a k w h; simp only [encode, packV, Option.some.injEq] at h; omega
theorem Laws.Fits.vmerge : ∀ st d a b m fmt, Laws.Fits.Statement (.vmerge st d a b m fmt) := by
  intro st d a b m fmt w h; have := Laws.LaneReg_num_lt d; have := Laws.LaneReg_num_lt a; have := Laws.LaneB_num_lt b; have := Laws.LaneB_sub_lt b; have := Bool.toNat_lt a.isStream; have := Bool.toNat_lt d.isStream; have := Laws.LaneB_bf_lt b; have := Laws.Fmt_code_lt fmt; simp only [encode, packV, Option.some.injEq] at h; omega
theorem Laws.Fits.vredsum : ∀ st d a b m fmt, Laws.Fits.Statement (.vredsum st d a b m fmt) := by
  intro st d a b m fmt w h; have := Laws.Fmt_code_lt fmt; simp only [encode, packV, Option.some.injEq] at h; omega
theorem Laws.Fits.vfredsum : ∀ st d a b m fmt, Laws.Fits.Statement (.vfredsum st d a b m fmt) := by
  intro st d a b m fmt w h; have := Laws.Fmt_code_lt fmt; simp only [encode, packV, Option.some.injEq] at h; omega
theorem Laws.Fits.vredmax : ∀ st d a b m fmt, Laws.Fits.Statement (.vredmax st d a b m fmt) := by
  intro st d a b m fmt w h; have := Laws.Fmt_code_lt fmt; simp only [encode, packV, Option.some.injEq] at h; omega
theorem Laws.Fits.vredmin : ∀ st d a b m fmt, Laws.Fits.Statement (.vredmin st d a b m fmt) := by
  intro st d a b m fmt w h; have := Laws.Fmt_code_lt fmt; simp only [encode, packV, Option.some.injEq] at h; omega
theorem Laws.Fits.vscan : ∀ st d a b m exc fmt, Laws.Fits.Statement (.vscan st d a b m exc fmt) := by
  intro st d a b m exc fmt w h; have := Bool.toNat_lt exc; have := Laws.Fmt_code_lt fmt; simp only [encode, packV, Option.some.injEq] at h; omega
theorem Laws.Fits.viota : ∀ st d a m cnt fmt, Laws.Fits.Statement (.viota st d a m cnt fmt) := by
  intro st d a m cnt fmt w h; have := Bool.toNat_lt cnt; have := Laws.Fmt_code_lt fmt; simp only [encode, packV, Option.some.injEq] at h; omega
theorem Laws.Fits.vslide : ∀ st d a b m up fmt, Laws.Fits.Statement (.vslide st d a b m up fmt) := by
  intro st d a b m up fmt w h; have := Bool.toNat_lt up; have := Laws.Fmt_code_lt fmt; simp only [encode, packV, Option.some.injEq] at h; omega
theorem Laws.Fits.vgrp : ∀ st d a b m n x32 bnd fmt, Laws.Fits.Statement (.vgrp st d a b m n x32 bnd fmt) := by
  intro st d a b m n x32 bnd fmt w h; have := Bool.toNat_lt x32; have := Bool.toNat_lt bnd; have := Laws.Fmt_code_lt fmt; simp only [encode, packV, Option.some.injEq] at h; omega
theorem Laws.Fits.vbcast : ∀ st d a b m el bnd fmt, Laws.Fits.Statement (.vbcast st d a b m el bnd fmt) := by
  intro st d a b m el bnd fmt w h; have := Bool.toNat_lt el; have := Bool.toNat_lt bnd; have := Laws.Fmt_code_lt fmt; simp only [encode, packV, Option.some.injEq] at h; omega
theorem Laws.Fits.vextr : ∀ st d a b bnd fmt, Laws.Fits.Statement (.vextr st d a b bnd fmt) := by
  intro st d a b bnd fmt w h; have := Bool.toNat_lt bnd; have := Laws.Fmt_code_lt fmt; simp only [encode, packV, Option.some.injEq] at h; omega
theorem Laws.Fits.vcomp : ∀ st d a b m fmt, Laws.Fits.Statement (.vcomp st d a b m fmt) := by
  intro st d a b m fmt w h; have := Laws.Fmt_code_lt fmt; simp only [encode, packV, Option.some.injEq] at h; omega
theorem Laws.Fits.vappend : ∀ st ord scope d a b m fmt, Laws.Fits.Statement (.vappend st ord scope d a b m fmt) := by
  intro st ord scope d a b m fmt w h; have := Laws.Scope_code_lt scope; have := Laws.Order_code_lt ord; have := Laws.Fmt_code_lt fmt; simp only [encode, packV, Option.some.injEq] at h; omega
theorem Laws.Fits.vprune : ∀ st d a b m j fmt, Laws.Fits.Statement (.vprune st d a b m j fmt) := by
  intro st d a b m j fmt w h; have := Laws.Fmt_code_lt fmt; simp only [encode, packV, Option.some.injEq] at h; omega
theorem Laws.Fits.vspill : ∀ st d a b disp fmt, Laws.Fits.Statement (.vspill st d a b disp fmt) := by
  intro st d a b disp fmt w h; have := Laws.Fmt_code_lt fmt; simp only [encode, packV, Option.some.injEq] at h; omega
theorem Laws.Fits.vfill : ∀ st d a b disp fmt, Laws.Fits.Statement (.vfill st d a b disp fmt) := by
  intro st d a b disp fmt w h; have := Laws.Fmt_code_lt fmt; simp only [encode, packV, Option.some.injEq] at h; omega
theorem Laws.Fits.tset : ∀ st d a, Laws.Fits.Statement (.tset st d a) := by
  intro st d a w h; simp only [encode, packV, Option.some.injEq] at h; omega
theorem Laws.Fits.tld : ∀ st d a b disp, Laws.Fits.Statement (.tld st d a b disp) := by
  intro st d a b disp w h; simp only [encode, packV, Option.some.injEq] at h; omega
theorem Laws.Fits.tldRegister : ∀ st d a, Laws.Fits.Statement (.tldRegister st d a) := by
  intro st d a w h; simp only [encode, packV, Option.some.injEq] at h; omega
theorem Laws.Fits.tst : ∀ st d a b disp, Laws.Fits.Statement (.tst st d a b disp) := by
  intro st d a b disp w h; simp only [encode, packV, Option.some.injEq] at h; omega
theorem Laws.Fits.tstRegister : ∀ st d a, Laws.Fits.Statement (.tstRegister st d a) := by
  intro st d a w h; simp only [encode, packV, Option.some.injEq] at h; omega
theorem Laws.Fits.tzero : ∀ st d, Laws.Fits.Statement (.tzero st d) := by
  intro st d w h; simp only [encode, packV, Option.some.injEq] at h; omega
theorem Laws.Fits.azero : ∀ st d, Laws.Fits.Statement (.azero st d) := by
  intro st d w h; simp only [encode, packV, Option.some.injEq] at h; omega
theorem Laws.Fits.ald : ∀ st d a b c disp fmt, Laws.Fits.Statement (.ald st d a b c disp fmt) := by
  intro st d a b c disp fmt w h; have := Laws.Fmt_code_lt fmt; simp only [encode, packV, Option.some.injEq] at h; omega
theorem Laws.Fits.aldRegister : ∀ st d a row0, Laws.Fits.Statement (.aldRegister st d a row0) := by
  intro st d a row0 w h; simp only [encode, packV, Option.some.injEq] at h; omega
theorem Laws.Fits.ast : ∀ st d a b c disp fmt, Laws.Fits.Statement (.ast st d a b c disp fmt) := by
  intro st d a b c disp fmt w h; have := Laws.Fmt_code_lt fmt; simp only [encode, packV, Option.some.injEq] at h; omega
theorem Laws.Fits.astRegister : ∀ st d a row0 fmt, Laws.Fits.Statement (.astRegister st d a row0 fmt) := by
  intro st d a row0 fmt w h; have := Laws.Fmt_code_lt fmt; simp only [encode, packV, Option.some.injEq] at h; omega
theorem Laws.Fits.bfly : ∀ st j d a b src fmt, Laws.Fits.Statement (.bfly st j d a b src fmt) := by
  intro st j d a b src fmt w h; have := Laws.Fmt_code_lt src; have := Laws.Fmt_code_lt fmt; simp only [encode, packV, Option.some.injEq] at h; omega
theorem Laws.Fits.bchain : ∀ st j d a b c src fmt, Laws.Fits.Statement (.bchain st j d a b c src fmt) := by
  intro st j d a b c src fmt w h; have := Laws.Fmt_code_lt src; have := Laws.Fmt_code_lt fmt; simp only [encode, packV, Option.some.injEq] at h; omega
theorem Laws.Fits.bblk : ∀ st d a b c m fmt, Laws.Fits.Statement (.bblk st d a b c m fmt) := by
  intro st d a b c m fmt w h; have := Laws.Fmt_code_lt fmt; simp only [encode, packV, Option.some.injEq] at h; omega
theorem Laws.Fits.bmma : ∀ st d a b c m fmt, Laws.Fits.Statement (.bmma st d a b c m fmt) := by
  intro st d a b c m fmt w h; have := Laws.Fmt_code_lt fmt; simp only [encode, packV, Option.some.injEq] at h; omega
theorem Laws.Fits.bmmx : ∀ st d a b c m vsb, Laws.Fits.Statement (.bmmx st d a b c m vsb) := by
  intro st d a b c m vsb w h; simp only [encode, packV, Option.some.injEq] at h; omega
theorem Laws.Fits.tmac : ∀ st d a b c m, Laws.Fits.Statement (.tmac st d a b c m) := by
  intro st d a b c m w h; simp only [encode, packV, Option.some.injEq] at h; omega
theorem Laws.Fits.pstat : ∀ st d sel, Laws.Fits.Statement (.pstat st d sel) := by
  intro st d sel w h; have := Bool.toNat_lt sel; simp only [encode, packV, Option.some.injEq] at h; omega
theorem Laws.Fits.qbind : ∀ st wr d a, Laws.Fits.Statement (.qbind st wr d a) := by
  intro st wr d a w h; have := Bool.toNat_lt wr; simp only [encode, packV, Option.some.injEq] at h; omega
theorem Laws.Fits.qrel : ∀ st d, Laws.Fits.Statement (.qrel st d) := by
  intro st d w h; simp only [encode, packV, Option.some.injEq] at h; omega
theorem Laws.Fits.qsync : ∀ st d, Laws.Fits.Statement (.qsync st d) := by
  intro st d w h; simp only [encode, packV, Option.some.injEq] at h; omega
theorem Laws.Fits.cpy : ∀ st ord scope d a b, Laws.Fits.Statement (.cpy st ord scope d a b) := by
  intro st ord scope d a b w h; have := Laws.Scope_code_lt scope; have := Laws.Order_code_lt ord; simp only [encode, packV, Option.some.injEq] at h; omega
theorem Laws.Fits.cpym : ∀ st ord scope d a b c, Laws.Fits.Statement (.cpym st ord scope d a b c) := by
  intro st ord scope d a b c w h; have := Laws.Scope_code_lt scope; have := Laws.Order_code_lt ord; simp only [encode, packV, Option.some.injEq] at h; omega
theorem Laws.Fits.cpyf : ∀ st ord scope d a b c v add, Laws.Fits.Statement (.cpyf st ord scope d a b c v add) := by
  intro st ord scope d a b c v add w h; have := Laws.Scope_code_lt scope; have := Laws.Order_code_lt ord; have := Bool.toNat_lt add; simp only [encode, packV, Option.some.injEq] at h; omega
theorem Laws.Fits.cwait : ∀ st n, Laws.Fits.Statement (.cwait st n) := by
  intro st n w h; simp only [encode, packV, Option.some.injEq] at h; omega
theorem Laws.Fits.bmode : ∀ st mode d bank, Laws.Fits.Statement (.bmode st mode d bank) := by
  intro st mode d bank w h; have := Laws.BankMode_code_lt mode; simp only [encode, packV, Option.some.injEq] at h; omega
theorem Laws.Fits.cfill : ∀ st ord scope d a b fmt, Laws.Fits.Statement (.cfill st ord scope d a b fmt) := by
  intro st ord scope d a b fmt w h; have := Laws.Scope_code_lt scope; have := Laws.Order_code_lt ord; have := Laws.Fmt_code_lt fmt; simp only [encode, packV, Option.some.injEq] at h; omega
theorem Laws.Fits.vscadd : ∀ st ord scope d a b c m x32 bnd sc fmt, Laws.Fits.Statement (.vscadd st ord scope d a b c m x32 bnd sc fmt) := by
  intro st ord scope d a b c m x32 bnd sc fmt w h; have := Laws.Scope_code_lt scope; have := Laws.Order_code_lt ord; have := Bool.toNat_lt x32; have := Bool.toNat_lt bnd; have := Laws.Fmt_code_lt fmt; simp only [encode, packV, Option.some.injEq] at h; omega
theorem Laws.Fits.vamo : ∀ st op ord scope d a b c m x32 bnd sc j fmt, Laws.Fits.Statement (.vamo st op ord scope d a b c m x32 bnd sc j fmt) := by
  intro st op ord scope d a b c m x32 bnd sc j fmt w h; have := Laws.AmoOp_code_lt op; have := Laws.Scope_code_lt scope; have := Laws.Order_code_lt ord; have := Bool.toNat_lt x32; have := Bool.toNat_lt bnd; have := Laws.Fmt_code_lt fmt; simp only [encode, packV, Option.some.injEq] at h; omega
theorem Laws.Fits.vstc : ∀ st ord scope d a b c m x32 bnd sc fmt, Laws.Fits.Statement (.vstc st ord scope d a b c m x32 bnd sc fmt) := by
  intro st ord scope d a b c m x32 bnd sc fmt w h; have := Laws.Scope_code_lt scope; have := Laws.Order_code_lt ord; have := Bool.toNat_lt x32; have := Bool.toNat_lt bnd; have := Laws.Fmt_code_lt fmt; simp only [encode, packV, Option.some.injEq] at h; omega
theorem Laws.Fits.bcfg : ∀ st d a, Laws.Fits.Statement (.bcfg st d a) := by
  intro st d a w h; simp only [encode, packV, Option.some.injEq] at h; omega
theorem Laws.Fits.phend : ∀ st ord scope d a disp, Laws.Fits.Statement (.phend st ord scope d a disp) := by
  intro st ord scope d a disp w h; have := Laws.Scope_code_lt scope; have := Laws.Order_code_lt ord; simp only [encode, packV, Option.some.injEq] at h; omega
theorem Laws.Fits.bar : ∀ st ord scope d a disp, Laws.Fits.Statement (.bar st ord scope d a disp) := by
  intro st ord scope d a disp w h; have := Laws.Scope_code_lt scope; have := Laws.Order_code_lt ord; simp only [encode, packV, Option.some.injEq] at h; omega
theorem Laws.Fits.cpost : ∀ st ord scope d a b disp, Laws.Fits.Statement (.cpost st ord scope d a b disp) := by
  intro st ord scope d a b disp w h; have := Laws.Scope_code_lt scope; have := Laws.Order_code_lt ord; simp only [encode, packV, Option.some.injEq] at h; omega
theorem Laws.Fits.ctake : ∀ st ord scope d a b disp, Laws.Fits.Statement (.ctake st ord scope d a b disp) := by
  intro st ord scope d a b disp w h; have := Laws.Scope_code_lt scope; have := Laws.Order_code_lt ord; simp only [encode, packV, Option.some.injEq] at h; omega
theorem Laws.Fits.csteal : ∀ st ord scope d a b disp, Laws.Fits.Statement (.csteal st ord scope d a b disp) := by
  intro st ord scope d a b disp w h; have := Laws.Scope_code_lt scope; have := Laws.Order_code_lt ord; simp only [encode, packV, Option.some.injEq] at h; omega
theorem Laws.Fits.cjoin : ∀ st ord scope d a b disp, Laws.Fits.Statement (.cjoin st ord scope d a b disp) := by
  intro st ord scope d a b disp w h; have := Laws.Scope_code_lt scope; have := Laws.Order_code_lt ord; simp only [encode, packV, Option.some.injEq] at h; omega
theorem Laws.Fits.launch : ∀ st d a b c, Laws.Fits.Statement (.launch st d a b c) := by
  intro st d a b c w h; simp only [encode, packV, Option.some.injEq] at h; omega
theorem Laws.Fits.yield : ∀ st, Laws.Fits.Statement (.yield st) := by
  intro st w h; simp only [encode, packV, Option.some.injEq] at h; omega
theorem Laws.Fits.abind : ∀ st d a, Laws.Fits.Statement (.abind st d a) := by
  intro st d a w h; simp only [encode, packV, Option.some.injEq] at h; omega
theorem Laws.Fits.abindOff : ∀ st d a, Laws.Fits.Statement (.abindOff st d a) := by
  intro st d a w h; simp only [encode, packV, Option.some.injEq] at h; omega
theorem Laws.Fits.fcommit : ∀ st, Laws.Fits.Statement (.fcommit st) := by
  intro st w h; simp only [encode, packV, Option.some.injEq] at h; omega
theorem Laws.Fits.spawn : ∀ st d a, Laws.Fits.Statement (.spawn st d a) := by
  intro st d a w h; simp only [encode, packV, Option.some.injEq] at h; omega
theorem Laws.Fits.olmark : ∀ st a, Laws.Fits.Statement (.olmark st a) := by
  intro st a w h; simp only [encode, packV, Option.some.injEq] at h; omega
theorem Laws.Fits.olpause : ∀ st, Laws.Fits.Statement (.olpause st) := by
  intro st w h; simp only [encode, packV, Option.some.injEq] at h; omega
theorem Laws.Fits.olresume : ∀ st, Laws.Fits.Statement (.olresume st) := by
  intro st w h; simp only [encode, packV, Option.some.injEq] at h; omega
theorem Laws.Fits.olstat : ∀ st d sel, Laws.Fits.Statement (.olstat st d sel) := by
  intro st d sel w h; simp only [encode, packV, Option.some.injEq] at h; omega
theorem Laws.Fits.lput : ∀ st ord scope d a b c sw, Laws.Fits.Statement (.lput st ord scope d a b c sw) := by
  intro st ord scope d a b c sw w h; have := Laws.Scope_code_lt scope; have := Laws.Order_code_lt ord; simp only [encode, packV, Option.some.injEq] at h; omega
theorem Laws.Fits.lget : ∀ st ord scope d a b c sw, Laws.Fits.Statement (.lget st ord scope d a b c sw) := by
  intro st ord scope d a b c sw w h; have := Laws.Scope_code_lt scope; have := Laws.Order_code_lt ord; simp only [encode, packV, Option.some.injEq] at h; omega
theorem Laws.Fits.lsend : ∀ st ord scope d a b c sw, Laws.Fits.Statement (.lsend st ord scope d a b c sw) := by
  intro st ord scope d a b c sw w h; have := Laws.Scope_code_lt scope; have := Laws.Order_code_lt ord; simp only [encode, packV, Option.some.injEq] at h; omega
theorem Laws.Fits.coll : ∀ st kind ord scope d a b c sw fmt, Laws.Fits.Statement (.coll st kind ord scope d a b c sw fmt) := by
  intro st kind ord scope d a b c sw fmt w h; have := Laws.CollKind_code_lt kind; have := Laws.Scope_code_lt scope; have := Laws.Order_code_lt ord; have := Laws.Fmt_code_lt fmt; simp only [encode, packV, Option.some.injEq] at h; omega
theorem Laws.Fits.lwait : ∀ st n, Laws.Fits.Statement (.lwait st n) := by
  intro st n w h; simp only [encode, packV, Option.some.injEq] at h; omega
theorem Laws.Fits.lfence : ∀ st ord scope, Laws.Fits.Statement (.lfence st ord scope) := by
  intro st ord scope w h; have := Laws.Scope_code_lt scope; have := Laws.Order_code_lt ord; simp only [encode, packV, Option.some.injEq] at h; omega
theorem Laws.Fits.tmark : ∀ st a tag, Laws.Fits.Statement (.tmark st a tag) := by
  intro st a tag w h; simp only [encode, packV, Option.some.injEq] at h; omega
theorem Laws.Fits.tsamp : ∀ st d, Laws.Fits.Statement (.tsamp st d) := by
  intro st d w h; simp only [encode, packV, Option.some.injEq] at h; omega
theorem Laws.Fits.tlbinv : ∀ st kind scope d a, Laws.Fits.Statement (.tlbinv st kind scope d a) := by
  intro st kind scope d a w h; have := Laws.Scope_code_lt scope; have := Laws.TlbKind_code_lt kind; simp only [encode, packV, Option.some.injEq] at h; omega
theorem Laws.Fits.halt : ∀ st a, Laws.Fits.Statement (.halt st a) := by
  intro st a w h; simp only [encode, packV, Option.some.injEq] at h; omega
theorem Laws.Fits.mbind : ∀ st a slot, Laws.Fits.Statement (.mbind st a slot) := by
  intro st a slot w h; simp only [encode, packV, Option.some.injEq] at h; omega
theorem Laws.Fits.munbind : ∀ st slot, Laws.Fits.Statement (.munbind st slot) := by
  intro st slot w h; simp only [encode, packV, Option.some.injEq] at h; omega
theorem Laws.Fits.mprobe : ∀ st d slot addr, Laws.Fits.Statement (.mprobe st d slot addr) := by
  intro st d slot addr w h; have := Bool.toNat_lt addr; simp only [encode, packV, Option.some.injEq] at h; omega
theorem Laws.Fits.fxres : ∀ st d a b c m e l, Laws.Fits.Statement (.fxres st d a b c m e l) := by
  intro st d a b c m e l w h; simp only [encode, packV, Option.some.injEq] at h; omega
theorem Laws.Fits.fxstat : ∀ st d k, Laws.Fits.Statement (.fxstat st d k) := by
  intro st d k w h; simp only [encode, packV, Option.some.injEq] at h; omega
theorem Laws.Fits.fx : ∀ st fn slot d a b c m e l, Laws.Fits.Statement (.fx st fn slot d a b c m e l) := by
  intro st fn slot d a b c m e l w h; simp only [encode, packV, Option.some.injEq] at h; omega
theorem Laws.Fits.waitaWake : ∀ core, Laws.Fits.Statement (.waitaWake core) := by
  intros; intro w h; cases h
theorem Laws.Fits.qbankGrantWrite : ∀ cluster bank gv gasid, Laws.Fits.Statement (.qbankGrantWrite cluster bank gv gasid) := by
  intros; intro w h; cases h
theorem Laws.Fits.streamFetch : ∀ core q, Laws.Fits.Statement (.streamFetch core q) := by
  intros; intro w h; cases h
theorem Laws.Fits.streamDrain : ∀ core q, Laws.Fits.Statement (.streamDrain core q) := by
  intros; intro w h; cases h
theorem Laws.Fits.copyTransfer : ∀ core slot, Laws.Fits.Statement (.copyTransfer core slot) := by
  intros; intro w h; cases h
theorem Laws.Fits.followOnCommand : ∀ core slot, Laws.Fits.Statement (.followOnCommand core slot) := by
  intros; intro w h; cases h
theorem Laws.Fits.modeSwitch : ∀ cluster bank mode, Laws.Fits.Statement (.modeSwitch cluster bank mode) := by
  intros; intro w h; cases h
theorem Laws.Fits.tokenPerformed : ∀ idx, Laws.Fits.Statement (.tokenPerformed idx) := by
  intros; intro w h; cases h
theorem Laws.Fits.barrierWake : ∀ core, Laws.Fits.Statement (.barrierWake core) := by
  intros; intro w h; cases h
theorem Laws.Fits.actorFiring : ∀ cluster idx, Laws.Fits.Statement (.actorFiring cluster idx) := by
  intros; intro w h; cases h
theorem Laws.Fits.launchAcceptance : ∀ post, Laws.Fits.Statement (.launchAcceptance post) := by
  intros; intro w h; cases h
theorem Laws.Fits.pick : ∀ core, Laws.Fits.Statement (.pick core) := by
  intros; intro w h; cases h
theorem Laws.Fits.deficitCharge : ∀ core, Laws.Fits.Statement (.deficitCharge core) := by
  intros; intro w h; cases h
theorem Laws.Fits.quantumExpiry : ∀ core, Laws.Fits.Statement (.quantumExpiry core) := by
  intros; intro w h; cases h
theorem Laws.Fits.preemption : ∀ core budget accepted, Laws.Fits.Statement (.preemption core budget accepted) := by
  intros; intro w h; cases h
theorem Laws.Fits.accessPerformedAfterStop : ∀ idx, Laws.Fits.Statement (.accessPerformedAfterStop idx) := by
  intros; intro w h; cases h
theorem Laws.Fits.breakpointHalt : ∀ core, Laws.Fits.Statement (.breakpointHalt core) := by
  intros; intro w h; cases h
theorem Laws.Fits.fxStall : ∀ core, Laws.Fits.Statement (.fxStall core) := by
  intros; intro w h; cases h
theorem Laws.Fits.logEntryReserve : ∀ core, Laws.Fits.Statement (.logEntryReserve core) := by
  intros; intro w h; cases h
theorem Laws.Fits.replayEventMatch : ∀ core, Laws.Fits.Statement (.replayEventMatch core) := by
  intros; intro w h; cases h
theorem Laws.Fits.replayWindowExpiry : ∀ core, Laws.Fits.Statement (.replayWindowExpiry core) := by
  intros; intro w h; cases h
theorem Laws.Fits.linkTransfer : ∀ core slot answer, Laws.Fits.Statement (.linkTransfer core slot answer) := by
  intros; intro w h; cases h
theorem Laws.Fits.remoteAccess : ∀ src access, Laws.Fits.Statement (.remoteAccess src access) := by
  intros; intro w h; cases h
theorem Laws.Fits.messageReceive : ∀ src asid head payload, Laws.Fits.Statement (.messageReceive src asid head payload) := by
  intros; intro w h; cases h
theorem Laws.Fits.collectiveInstance : ∀ core slot peers, Laws.Fits.Statement (.collectiveInstance core slot peers) := by
  intros; intro w h; cases h
theorem Laws.Fits.collectiveTimeout : ∀ core slot, Laws.Fits.Statement (.collectiveTimeout core slot) := by
  intros; intro w h; cases h
theorem Laws.Fits.deviceLaunchShare : ∀ src record, Laws.Fits.Statement (.deviceLaunchShare src record) := by
  intros; intro w h; cases h
theorem Laws.Fits.flitCrcFailure : ∀ port, Laws.Fits.Statement (.flitCrcFailure port) := by
  intros; intro w h; cases h
theorem Laws.Fits.sample : ∀ core, Laws.Fits.Statement (.sample core) := by
  intros; intro w h; cases h
theorem Laws.Fits.lostRecord : ∀ core, Laws.Fits.Statement (.lostRecord core) := by
  intros; intro w h; cases h
theorem Laws.Fits.traceControlWrite : ∀ core reg value, Laws.Fits.Statement (.traceControlWrite core reg value) := by
  intros; intro w h; cases h
theorem Laws.Fits.submitRecordWrite : ∀ page offset bytes, Laws.Fits.Statement (.submitRecordWrite page offset bytes) := by
  intros; intro w h; cases h
theorem Laws.Fits.apertureAccess : ∀ access, Laws.Fits.Statement (.apertureAccess access) := by
  intros; intro w h; cases h
theorem Laws.Fits.fixed : ∀ asid slot idx, Laws.Fits.Statement (.fixed asid slot idx) := by
  intros; intro w h; cases h
theorem Laws.Fits.kill : ∀ asid slot idx, Laws.Fits.Statement (.kill asid slot idx) := by
  intros; intro w h; cases h
theorem Laws.Fits.ctxstop : ∀ asid dbg, Laws.Fits.Statement (.ctxstop asid dbg) := by
  intros; intro w h; cases h
theorem Laws.Fits.ctxgo : ∀ asid, Laws.Fits.Statement (.ctxgo asid) := by
  intros; intro w h; cases h
theorem Laws.Fits.dbggo : ∀ asid slot, Laws.Fits.Statement (.dbggo asid slot) := by
  intros; intro w h; cases h
theorem Laws.Fits.subreg : ∀ post pa, Laws.Fits.Statement (.subreg post pa) := by
  intros; intro w h; cases h
theorem Laws.Fits.subregUnregister : ∀ post, Laws.Fits.Statement (.subregUnregister post) := by
  intros; intro w h; cases h
theorem Laws.Fits.fwwrite : ∀ offset bytes, Laws.Fits.Statement (.fwwrite offset bytes) := by
  intros; intro w h; cases h
theorem Laws.Fits.activate : Laws.Fits.Statement .activate := by
  intros; intro w h; cases h
theorem Laws.Fits.keyload : ∀ slot asid session wrapped, Laws.Fits.Statement (.keyload slot asid session wrapped) := by
  intros; intro w h; cases h
theorem Laws.Fits.mstatWrite : ∀ value, Laws.Fits.Statement (.mstatWrite value) := by
  intros; intro w h; cases h
theorem Laws.Fits.mintWrite : ∀ value, Laws.Fits.Statement (.mintWrite value) := by
  intros; intro w h; cases h
theorem Laws.Fits.schedqWrite : ∀ value, Laws.Fits.Statement (.schedqWrite value) := by
  intros; intro w h; cases h
theorem Laws.Fits.pstateWrite : ∀ value, Laws.Fits.Statement (.pstateWrite value) := by
  intros; intro w h; cases h
theorem Laws.Fits.managementRegisterWrite : ∀ offset value, Laws.Fits.Statement (.managementRegisterWrite offset value) := by
  intros; intro w h; cases h
theorem Laws.Fits.telemetrySample : ∀ milliwatts milliCelsius, Laws.Fits.Statement (.telemetrySample milliwatts milliCelsius) := by
  intros; intro w h; cases h
theorem Laws.Fits.moduleReset : ∀ boot, Laws.Fits.Statement (.moduleReset boot) := by
  intros; intro w h; cases h
theorem Laws.Fits.getCertificate : ∀ slot offset length, Laws.Fits.Statement (.getCertificate slot offset length) := by
  intros; intro w h; cases h
theorem Laws.Fits.challenge : ∀ nonce, Laws.Fits.Statement (.challenge nonce) := by
  intros; intro w h; cases h
theorem Laws.Fits.getMeasurements : ∀ nonce, Laws.Fits.Statement (.getMeasurements nonce) := by
  intros; intro w h; cases h
theorem Laws.Fits.keyExchange : ∀ exchange, Laws.Fits.Statement (.keyExchange exchange) := by
  intros; intro w h; cases h
theorem Laws.Fits.pldmBase : ∀ command, Laws.Fits.Statement (.pldmBase command) := by
  intros; intro w h; cases h
theorem Laws.Fits.pldmMonitoring : ∀ request, Laws.Fits.Statement (.pldmMonitoring request) := by
  intros; intro w h; cases h
theorem Laws.Fits.pldmFru : Laws.Fits.Statement .pldmFru := by
  intros; intro w h; cases h
theorem Laws.Fits.pldmFirmwareUpdate : ∀ image, Laws.Fits.Statement (.pldmFirmwareUpdate image) := by
  intros; intro w h; cases h
theorem Laws.Fits.illegalInstruction : ∀ core fmt, Laws.Fits.Statement (.illegalInstruction core fmt) := by
  intros; intro w h; cases h
theorem Laws.Fits.instructionFetchFault : ∀ core, Laws.Fits.Statement (.instructionFetchFault core) := by
  intros; intro w h; cases h
theorem Laws.Fits.lineLeavesL1 : ∀ core line, Laws.Fits.Statement (.lineLeavesL1 core line) := by
  intros; intro w h; cases h
theorem Laws.Fits.firmwareResolvesNotmapped : ∀ asid slot frames entries, Laws.Fits.Statement (.firmwareResolvesNotmapped asid slot frames entries) := by
  intros; intro w h; cases h
theorem Laws.Fits.contextDescriptorValid : ∀ asid descriptor frames entries, Laws.Fits.Statement (.contextDescriptorValid asid descriptor frames entries) := by
  intros; intro w h; cases h
theorem Laws.Fits.badCommandCode : ∀ code, Laws.Fits.Statement (.badCommandCode code) := by
  intros; intro w h; cases h

end Sys2Proof
end

