-- ==== Sys2Proof/Laws/State.lean ====
section
/-!
SUPPORT. What the named updates of a state leave as it is, one lemma for each field.
-/

namespace Sys2Proof.Machine
set_option Elab.async false

/-! `State.onF`, `State.onCore`, `State.setX`, `State.setBank`. -/

@[simp] theorem State.onF_f (s : State) (g : Firing → Firing) : (s.onF g).core.f = g s.core.f := rfl
@[simp] theorem State.onCore_core (s : State) (g : Core → Core) : (s.onCore g).core = g s.core := rfl
@[simp] theorem State.setX_f (s : State) (d : Fin 32) (v : Word) : (s.setX d v).core.f = s.core.f.setX d v := rfl
@[simp] theorem State.onF_core_id (s : State) (g : Firing → Firing) : (s.onF g).core.id = s.core.id := rfl
@[simp] theorem State.setX_core_id (s : State) (d : Fin 32) (v : Word) : (s.setX d v).core.id = s.core.id := rfl
@[simp] theorem State.onF_core_running (s : State) (g : Firing → Firing) : (s.onF g).core.running = s.core.running := rfl
@[simp] theorem State.setX_core_running (s : State) (d : Fin 32) (v : Word) : (s.setX d v).core.running = s.core.running := rfl
@[simp] theorem State.onF_core_info (s : State) (g : Firing → Firing) : (s.onF g).core.info = s.core.info := rfl
@[simp] theorem State.setX_core_info (s : State) (d : Fin 32) (v : Word) : (s.setX d v).core.info = s.core.info := rfl
@[simp] theorem State.onF_core_wait (s : State) (g : Firing → Firing) : (s.onF g).core.wait = s.core.wait := rfl
@[simp] theorem State.setX_core_wait (s : State) (d : Fin 32) (v : Word) : (s.setX d v).core.wait = s.core.wait := rfl
@[simp] theorem State.onF_core_schk (s : State) (g : Firing → Firing) : (s.onF g).core.schk = s.core.schk := rfl
@[simp] theorem State.setX_core_schk (s : State) (d : Fin 32) (v : Word) : (s.setX d v).core.schk = s.core.schk := rfl
@[simp] theorem State.onF_core_cur (s : State) (g : Firing → Firing) : (s.onF g).core.cur = s.core.cur := rfl
@[simp] theorem State.setX_core_cur (s : State) (d : Fin 32) (v : Word) : (s.setX d v).core.cur = s.core.cur := rfl
@[simp] theorem State.onF_core_ahead (s : State) (g : Firing → Firing) : (s.onF g).core.ahead = s.core.ahead := rfl
@[simp] theorem State.setX_core_ahead (s : State) (d : Fin 32) (v : Word) : (s.setX d v).core.ahead = s.core.ahead := rfl
@[simp] theorem State.onF_core_budget (s : State) (g : Firing → Firing) : (s.onF g).core.budget = s.core.budget := rfl
@[simp] theorem State.setX_core_budget (s : State) (d : Fin 32) (v : Word) : (s.setX d v).core.budget = s.core.budget := rfl
@[simp] theorem State.onF_core_accepted (s : State) (g : Firing → Firing) : (s.onF g).core.accepted = s.core.accepted := rfl
@[simp] theorem State.setX_core_accepted (s : State) (d : Fin 32) (v : Word) : (s.setX d v).core.accepted = s.core.accepted := rfl
@[simp] theorem State.onF_core_cmds (s : State) (g : Firing → Firing) : (s.onF g).core.cmds = s.core.cmds := rfl
@[simp] theorem State.setX_core_cmds (s : State) (d : Fin 32) (v : Word) : (s.setX d v).core.cmds = s.core.cmds := rfl
@[simp] theorem State.onF_core_l1 (s : State) (g : Firing → Firing) : (s.onF g).core.l1 = s.core.l1 := rfl
@[simp] theorem State.setX_core_l1 (s : State) (d : Fin 32) (v : Word) : (s.setX d v).core.l1 = s.core.l1 := rfl
@[simp] theorem State.onF_core_tlb (s : State) (g : Firing → Firing) : (s.onF g).core.tlb = s.core.tlb := rfl
@[simp] theorem State.setX_core_tlb (s : State) (d : Fin 32) (v : Word) : (s.setX d v).core.tlb = s.core.tlb := rfl
@[simp] theorem State.onF_core_moulds (s : State) (g : Firing → Firing) : (s.onF g).core.moulds = s.core.moulds := rfl
@[simp] theorem State.setX_core_moulds (s : State) (d : Fin 32) (v : Word) : (s.setX d v).core.moulds = s.core.moulds := rfl
@[simp] theorem State.onF_core_vat (s : State) (g : Firing → Firing) : (s.onF g).core.vat = s.core.vat := rfl
@[simp] theorem State.setX_core_vat (s : State) (d : Fin 32) (v : Word) : (s.setX d v).core.vat = s.core.vat := rfl
@[simp] theorem State.onF_core_picks (s : State) (g : Firing → Firing) : (s.onF g).core.picks = s.core.picks := rfl
@[simp] theorem State.setX_core_picks (s : State) (d : Fin 32) (v : Word) : (s.setX d v).core.picks = s.core.picks := rfl
@[simp] theorem State.onF_core_since (s : State) (g : Firing → Firing) : (s.onF g).core.since = s.core.since := rfl
@[simp] theorem State.setX_core_since (s : State) (d : Fin 32) (v : Word) : (s.setX d v).core.since = s.core.since := rfl
@[simp] theorem State.onF_core_charged (s : State) (g : Firing → Firing) : (s.onF g).core.charged = s.core.charged := rfl
@[simp] theorem State.setX_core_charged (s : State) (d : Fin 32) (v : Word) : (s.setX d v).core.charged = s.core.charged := rfl
@[simp] theorem State.onF_core_issued (s : State) (g : Firing → Firing) : (s.onF g).core.issued = s.core.issued := rfl
@[simp] theorem State.setX_core_issued (s : State) (d : Fin 32) (v : Word) : (s.setX d v).core.issued = s.core.issued := rfl
@[simp] theorem State.onF_core_bkptPassed (s : State) (g : Firing → Firing) : (s.onF g).core.bkptPassed = s.core.bkptPassed := rfl
@[simp] theorem State.setX_core_bkptPassed (s : State) (d : Fin 32) (v : Word) : (s.setX d v).core.bkptPassed = s.core.bkptPassed := rfl
@[simp] theorem State.onF_core_expired (s : State) (g : Firing → Firing) : (s.onF g).core.expired = s.core.expired := rfl
@[simp] theorem State.setX_core_expired (s : State) (d : Fin 32) (v : Word) : (s.setX d v).core.expired = s.core.expired := rfl
@[simp] theorem State.onF_core_badLsq (s : State) (g : Firing → Firing) : (s.onF g).core.badLsq = s.core.badLsq := rfl
@[simp] theorem State.setX_core_badLsq (s : State) (d : Fin 32) (v : Word) : (s.setX d v).core.badLsq = s.core.badLsq := rfl
@[simp] theorem State.onF_core_curAt (s : State) (g : Firing → Firing) : (s.onF g).core.curAt = s.core.curAt := rfl
@[simp] theorem State.setX_core_curAt (s : State) (d : Fin 32) (v : Word) : (s.setX d v).core.curAt = s.core.curAt := rfl
@[simp] theorem State.onF_core_watch (s : State) (g : Firing → Firing) : (s.onF g).core.watch = s.core.watch := rfl
@[simp] theorem State.setX_core_watch (s : State) (d : Fin 32) (v : Word) : (s.setX d v).core.watch = s.core.watch := rfl
@[simp] theorem State.onF_core_badBeat (s : State) (g : Firing → Firing) : (s.onF g).core.badBeat = s.core.badBeat := rfl
@[simp] theorem State.setX_core_badBeat (s : State) (d : Fin 32) (v : Word) : (s.setX d v).core.badBeat = s.core.badBeat := rfl
@[simp] theorem State.onF_core_picking (s : State) (g : Firing → Firing) : (s.onF g).core.picking = s.core.picking := rfl
@[simp] theorem State.setX_core_picking (s : State) (d : Fin 32) (v : Word) : (s.setX d v).core.picking = s.core.picking := rfl
@[simp] theorem State.onF_core_trace (s : State) (g : Firing → Firing) : (s.onF g).core.trace = s.core.trace := rfl
@[simp] theorem State.setX_core_trace (s : State) (d : Fin 32) (v : Word) : (s.setX d v).core.trace = s.core.trace := rfl
@[simp] theorem State.setBank_core (s : State) (k : Nat) (b : QBank) : (s.setBank k b).core = s.core := rfl
@[simp] theorem State.onF_others (s : State) (g : Firing → Firing) : (s.onF g).others = s.others := rfl
@[simp] theorem State.onCore_others (s : State) (g : Core → Core) : (s.onCore g).others = s.others := rfl
@[simp] theorem State.setX_others (s : State) (d : Fin 32) (v : Word) : (s.setX d v).others = s.others := rfl
@[simp] theorem State.setBank_others (s : State) (k : Nat) (b : QBank) : (s.setBank k b).others = s.others := rfl
@[simp] theorem State.onF_mem (s : State) (g : Firing → Firing) : (s.onF g).mem = s.mem := rfl
@[simp] theorem State.onCore_mem (s : State) (g : Core → Core) : (s.onCore g).mem = s.mem := rfl
@[simp] theorem State.setX_mem (s : State) (d : Fin 32) (v : Word) : (s.setX d v).mem = s.mem := rfl
@[simp] theorem State.setBank_mem (s : State) (k : Nat) (b : QBank) : (s.setBank k b).mem = s.mem := rfl
@[simp] theorem State.onF_poison (s : State) (g : Firing → Firing) : (s.onF g).poison = s.poison := rfl
@[simp] theorem State.onCore_poison (s : State) (g : Core → Core) : (s.onCore g).poison = s.poison := rfl
@[simp] theorem State.setX_poison (s : State) (d : Fin 32) (v : Word) : (s.setX d v).poison = s.poison := rfl
@[simp] theorem State.setBank_poison (s : State) (k : Nat) (b : QBank) : (s.setBank k b).poison = s.poison := rfl
@[simp] theorem State.onF_banks (s : State) (g : Firing → Firing) : (s.onF g).banks = s.banks := rfl
@[simp] theorem State.onCore_banks (s : State) (g : Core → Core) : (s.onCore g).banks = s.banks := rfl
@[simp] theorem State.setX_banks (s : State) (d : Fin 32) (v : Word) : (s.setX d v).banks = s.banks := rfl
@[simp] theorem State.onF_ctlbs (s : State) (g : Firing → Firing) : (s.onF g).ctlbs = s.ctlbs := rfl
@[simp] theorem State.onCore_ctlbs (s : State) (g : Core → Core) : (s.onCore g).ctlbs = s.ctlbs := rfl
@[simp] theorem State.setX_ctlbs (s : State) (d : Fin 32) (v : Word) : (s.setX d v).ctlbs = s.ctlbs := rfl
@[simp] theorem State.setBank_ctlbs (s : State) (k : Nat) (b : QBank) : (s.setBank k b).ctlbs = s.ctlbs := rfl
@[simp] theorem State.onF_owners (s : State) (g : Firing → Firing) : (s.onF g).owners = s.owners := rfl
@[simp] theorem State.onCore_owners (s : State) (g : Core → Core) : (s.onCore g).owners = s.owners := rfl
@[simp] theorem State.setX_owners (s : State) (d : Fin 32) (v : Word) : (s.setX d v).owners = s.owners := rfl
@[simp] theorem State.setBank_owners (s : State) (k : Nat) (b : QBank) : (s.setBank k b).owners = s.owners := rfl
@[simp] theorem State.onF_tokens (s : State) (g : Firing → Firing) : (s.onF g).tokens = s.tokens := rfl
@[simp] theorem State.onCore_tokens (s : State) (g : Core → Core) : (s.onCore g).tokens = s.tokens := rfl
@[simp] theorem State.setX_tokens (s : State) (d : Fin 32) (v : Word) : (s.setX d v).tokens = s.tokens := rfl
@[simp] theorem State.setBank_tokens (s : State) (k : Nat) (b : QBank) : (s.setBank k b).tokens = s.tokens := rfl
@[simp] theorem State.onF_sticky (s : State) (g : Firing → Firing) : (s.onF g).sticky = s.sticky := rfl
@[simp] theorem State.onCore_sticky (s : State) (g : Core → Core) : (s.onCore g).sticky = s.sticky := rfl
@[simp] theorem State.setX_sticky (s : State) (d : Fin 32) (v : Word) : (s.setX d v).sticky = s.sticky := rfl
@[simp] theorem State.setBank_sticky (s : State) (k : Nat) (b : QBank) : (s.setBank k b).sticky = s.sticky := rfl
@[simp] theorem State.onF_lostOwed (s : State) (g : Firing → Firing) : (s.onF g).lostOwed = s.lostOwed := rfl
@[simp] theorem State.onCore_lostOwed (s : State) (g : Core → Core) : (s.onCore g).lostOwed = s.lostOwed := rfl
@[simp] theorem State.setX_lostOwed (s : State) (d : Fin 32) (v : Word) : (s.setX d v).lostOwed = s.lostOwed := rfl
@[simp] theorem State.setBank_lostOwed (s : State) (k : Nat) (b : QBank) : (s.setBank k b).lostOwed = s.lostOwed := rfl
@[simp] theorem State.onF_bseq (s : State) (g : Firing → Firing) : (s.onF g).bseq = s.bseq := rfl
@[simp] theorem State.onCore_bseq (s : State) (g : Core → Core) : (s.onCore g).bseq = s.bseq := rfl
@[simp] theorem State.setX_bseq (s : State) (d : Fin 32) (v : Word) : (s.setX d v).bseq = s.bseq := rfl
@[simp] theorem State.setBank_bseq (s : State) (k : Nat) (b : QBank) : (s.setBank k b).bseq = s.bseq := rfl
@[simp] theorem State.onF_cmdCtr (s : State) (g : Firing → Firing) : (s.onF g).cmdCtr = s.cmdCtr := rfl
@[simp] theorem State.onCore_cmdCtr (s : State) (g : Core → Core) : (s.onCore g).cmdCtr = s.cmdCtr := rfl
@[simp] theorem State.setX_cmdCtr (s : State) (d : Fin 32) (v : Word) : (s.setX d v).cmdCtr = s.cmdCtr := rfl
@[simp] theorem State.setBank_cmdCtr (s : State) (k : Nat) (b : QBank) : (s.setBank k b).cmdCtr = s.cmdCtr := rfl
@[simp] theorem State.onF_cycle (s : State) (g : Firing → Firing) : (s.onF g).cycle = s.cycle := rfl
@[simp] theorem State.onCore_cycle (s : State) (g : Core → Core) : (s.onCore g).cycle = s.cycle := rfl
@[simp] theorem State.setX_cycle (s : State) (d : Fin 32) (v : Word) : (s.setX d v).cycle = s.cycle := rfl
@[simp] theorem State.setBank_cycle (s : State) (k : Nat) (b : QBank) : (s.setBank k b).cycle = s.cycle := rfl
@[simp] theorem State.onF_slots (s : State) (g : Firing → Firing) : (s.onF g).slots = s.slots := rfl
@[simp] theorem State.onCore_slots (s : State) (g : Core → Core) : (s.onCore g).slots = s.slots := rfl
@[simp] theorem State.setX_slots (s : State) (d : Fin 32) (v : Word) : (s.setX d v).slots = s.slots := rfl
@[simp] theorem State.setBank_slots (s : State) (k : Nat) (b : QBank) : (s.setBank k b).slots = s.slots := rfl
@[simp] theorem State.onF_late (s : State) (g : Firing → Firing) : (s.onF g).late = s.late := rfl
@[simp] theorem State.onCore_late (s : State) (g : Core → Core) : (s.onCore g).late = s.late := rfl
@[simp] theorem State.setX_late (s : State) (d : Fin 32) (v : Word) : (s.setX d v).late = s.late := rfl
@[simp] theorem State.setBank_late (s : State) (k : Nat) (b : QBank) : (s.setBank k b).late = s.late := rfl
@[simp] theorem State.onF_sealed (s : State) (g : Firing → Firing) : (s.onF g).sealed = s.sealed := rfl
@[simp] theorem State.onCore_sealed (s : State) (g : Core → Core) : (s.onCore g).sealed = s.sealed := rfl
@[simp] theorem State.setX_sealed (s : State) (d : Fin 32) (v : Word) : (s.setX d v).sealed = s.sealed := rfl
@[simp] theorem State.setBank_sealed (s : State) (k : Nat) (b : QBank) : (s.setBank k b).sealed = s.sealed := rfl
@[simp] theorem State.onF_launches (s : State) (g : Firing → Firing) : (s.onF g).launches = s.launches := rfl
@[simp] theorem State.onCore_launches (s : State) (g : Core → Core) : (s.onCore g).launches = s.launches := rfl
@[simp] theorem State.setX_launches (s : State) (d : Fin 32) (v : Word) : (s.setX d v).launches = s.launches := rfl
@[simp] theorem State.setBank_launches (s : State) (k : Nat) (b : QBank) : (s.setBank k b).launches = s.launches := rfl
@[simp] theorem State.onF_submits (s : State) (g : Firing → Firing) : (s.onF g).submits = s.submits := rfl
@[simp] theorem State.onCore_submits (s : State) (g : Core → Core) : (s.onCore g).submits = s.submits := rfl
@[simp] theorem State.setX_submits (s : State) (d : Fin 32) (v : Word) : (s.setX d v).submits = s.submits := rfl
@[simp] theorem State.setBank_submits (s : State) (k : Nat) (b : QBank) : (s.setBank k b).submits = s.submits := rfl
@[simp] theorem State.onF_schedPtr (s : State) (g : Firing → Firing) : (s.onF g).schedPtr = s.schedPtr := rfl
@[simp] theorem State.onCore_schedPtr (s : State) (g : Core → Core) : (s.onCore g).schedPtr = s.schedPtr := rfl
@[simp] theorem State.setX_schedPtr (s : State) (d : Fin 32) (v : Word) : (s.setX d v).schedPtr = s.schedPtr := rfl
@[simp] theorem State.setBank_schedPtr (s : State) (k : Nat) (b : QBank) : (s.setBank k b).schedPtr = s.schedPtr := rfl
@[simp] theorem State.onF_origins (s : State) (g : Firing → Firing) : (s.onF g).origins = s.origins := rfl
@[simp] theorem State.onCore_origins (s : State) (g : Core → Core) : (s.onCore g).origins = s.origins := rfl
@[simp] theorem State.setX_origins (s : State) (d : Fin 32) (v : Word) : (s.setX d v).origins = s.origins := rfl
@[simp] theorem State.setBank_origins (s : State) (k : Nat) (b : QBank) : (s.setBank k b).origins = s.origins := rfl
@[simp] theorem State.onF_actors (s : State) (g : Firing → Firing) : (s.onF g).actors = s.actors := rfl
@[simp] theorem State.onCore_actors (s : State) (g : Core → Core) : (s.onCore g).actors = s.actors := rfl
@[simp] theorem State.setX_actors (s : State) (d : Fin 32) (v : Word) : (s.setX d v).actors = s.actors := rfl
@[simp] theorem State.setBank_actors (s : State) (k : Nat) (b : QBank) : (s.setBank k b).actors = s.actors := rfl
@[simp] theorem State.onF_sessions (s : State) (g : Firing → Firing) : (s.onF g).sessions = s.sessions := rfl
@[simp] theorem State.onCore_sessions (s : State) (g : Core → Core) : (s.onCore g).sessions = s.sessions := rfl
@[simp] theorem State.setX_sessions (s : State) (d : Fin 32) (v : Word) : (s.setX d v).sessions = s.sessions := rfl
@[simp] theorem State.setBank_sessions (s : State) (k : Nat) (b : QBank) : (s.setBank k b).sessions = s.sessions := rfl
@[simp] theorem State.onF_portsUp (s : State) (g : Firing → Firing) : (s.onF g).portsUp = s.portsUp := rfl
@[simp] theorem State.onCore_portsUp (s : State) (g : Core → Core) : (s.onCore g).portsUp = s.portsUp := rfl
@[simp] theorem State.setX_portsUp (s : State) (d : Fin 32) (v : Word) : (s.setX d v).portsUp = s.portsUp := rfl
@[simp] theorem State.setBank_portsUp (s : State) (k : Nat) (b : QBank) : (s.setBank k b).portsUp = s.portsUp := rfl
@[simp] theorem State.onF_portFails (s : State) (g : Firing → Firing) : (s.onF g).portFails = s.portFails := rfl
@[simp] theorem State.onCore_portFails (s : State) (g : Core → Core) : (s.onCore g).portFails = s.portFails := rfl
@[simp] theorem State.setX_portFails (s : State) (d : Fin 32) (v : Word) : (s.setX d v).portFails = s.portFails := rfl
@[simp] theorem State.setBank_portFails (s : State) (k : Nat) (b : QBank) : (s.setBank k b).portFails = s.portFails := rfl
@[simp] theorem State.onF_debugHold (s : State) (g : Firing → Firing) : (s.onF g).debugHold = s.debugHold := rfl
@[simp] theorem State.onCore_debugHold (s : State) (g : Core → Core) : (s.onCore g).debugHold = s.debugHold := rfl
@[simp] theorem State.setX_debugHold (s : State) (d : Fin 32) (v : Word) : (s.setX d v).debugHold = s.debugHold := rfl
@[simp] theorem State.setBank_debugHold (s : State) (k : Nat) (b : QBank) : (s.setBank k b).debugHold = s.debugHold := rfl
@[simp] theorem State.onF_drops (s : State) (g : Firing → Firing) : (s.onF g).drops = s.drops := rfl
@[simp] theorem State.onCore_drops (s : State) (g : Core → Core) : (s.onCore g).drops = s.drops := rfl
@[simp] theorem State.setX_drops (s : State) (d : Fin 32) (v : Word) : (s.setX d v).drops = s.drops := rfl
@[simp] theorem State.setBank_drops (s : State) (k : Nat) (b : QBank) : (s.setBank k b).drops = s.drops := rfl
@[simp] theorem State.onF_expansions (s : State) (g : Firing → Firing) : (s.onF g).expansions = s.expansions := rfl
@[simp] theorem State.onCore_expansions (s : State) (g : Core → Core) : (s.onCore g).expansions = s.expansions := rfl
@[simp] theorem State.setX_expansions (s : State) (d : Fin 32) (v : Word) : (s.setX d v).expansions = s.expansions := rfl
@[simp] theorem State.setBank_expansions (s : State) (k : Nat) (b : QBank) : (s.setBank k b).expansions = s.expansions := rfl
@[simp] theorem State.onF_shares (s : State) (g : Firing → Firing) : (s.onF g).shares = s.shares := rfl
@[simp] theorem State.onCore_shares (s : State) (g : Core → Core) : (s.onCore g).shares = s.shares := rfl
@[simp] theorem State.setX_shares (s : State) (d : Fin 32) (v : Word) : (s.setX d v).shares = s.shares := rfl
@[simp] theorem State.setBank_shares (s : State) (k : Nat) (b : QBank) : (s.setBank k b).shares = s.shares := rfl
@[simp] theorem State.onF_totals (s : State) (g : Firing → Firing) : (s.onF g).totals = s.totals := rfl
@[simp] theorem State.onCore_totals (s : State) (g : Core → Core) : (s.onCore g).totals = s.totals := rfl
@[simp] theorem State.setX_totals (s : State) (d : Fin 32) (v : Word) : (s.setX d v).totals = s.totals := rfl
@[simp] theorem State.setBank_totals (s : State) (k : Nat) (b : QBank) : (s.setBank k b).totals = s.totals := rfl
@[simp] theorem State.onF_mgmt (s : State) (g : Firing → Firing) : (s.onF g).mgmt = s.mgmt := rfl
@[simp] theorem State.onCore_mgmt (s : State) (g : Core → Core) : (s.onCore g).mgmt = s.mgmt := rfl
@[simp] theorem State.setX_mgmt (s : State) (d : Fin 32) (v : Word) : (s.setX d v).mgmt = s.mgmt := rfl
@[simp] theorem State.setBank_mgmt (s : State) (k : Nat) (b : QBank) : (s.setBank k b).mgmt = s.mgmt := rfl
@[simp] theorem State.onF_freeCtr (s : State) (g : Firing → Firing) : (s.onF g).freeCtr = s.freeCtr := rfl
@[simp] theorem State.onCore_freeCtr (s : State) (g : Core → Core) : (s.onCore g).freeCtr = s.freeCtr := rfl
@[simp] theorem State.setX_freeCtr (s : State) (d : Fin 32) (v : Word) : (s.setX d v).freeCtr = s.freeCtr := rfl
@[simp] theorem State.setBank_freeCtr (s : State) (k : Nat) (b : QBank) : (s.setBank k b).freeCtr = s.freeCtr := rfl
@[simp] theorem State.onF_agenda (s : State) (g : Firing → Firing) : (s.onF g).agenda = s.agenda := rfl
@[simp] theorem State.onCore_agenda (s : State) (g : Core → Core) : (s.onCore g).agenda = s.agenda := rfl
@[simp] theorem State.setX_agenda (s : State) (d : Fin 32) (v : Word) : (s.setX d v).agenda = s.agenda := rfl
@[simp] theorem State.setBank_agenda (s : State) (k : Nat) (b : QBank) : (s.setBank k b).agenda = s.agenda := rfl
@[simp] theorem State.onF_turns (s : State) (g : Firing → Firing) : (s.onF g).turns = s.turns := rfl
@[simp] theorem State.onCore_turns (s : State) (g : Core → Core) : (s.onCore g).turns = s.turns := rfl
@[simp] theorem State.setX_turns (s : State) (d : Fin 32) (v : Word) : (s.setX d v).turns = s.turns := rfl
@[simp] theorem State.setBank_turns (s : State) (k : Nat) (b : QBank) : (s.setBank k b).turns = s.turns := rfl
@[simp] theorem State.onF_leads (s : State) (g : Firing → Firing) : (s.onF g).leads = s.leads := rfl
@[simp] theorem State.onCore_leads (s : State) (g : Core → Core) : (s.onCore g).leads = s.leads := rfl
@[simp] theorem State.setX_leads (s : State) (d : Fin 32) (v : Word) : (s.setX d v).leads = s.leads := rfl
@[simp] theorem State.setBank_leads (s : State) (k : Nat) (b : QBank) : (s.setBank k b).leads = s.leads := rfl
@[simp] theorem State.onF_upsets (s : State) (g : Firing → Firing) : (s.onF g).upsets = s.upsets := rfl
@[simp] theorem State.onCore_upsets (s : State) (g : Core → Core) : (s.onCore g).upsets = s.upsets := rfl
@[simp] theorem State.setX_upsets (s : State) (d : Fin 32) (v : Word) : (s.setX d v).upsets = s.upsets := rfl
@[simp] theorem State.setBank_upsets (s : State) (k : Nat) (b : QBank) : (s.setBank k b).upsets = s.upsets := rfl
@[simp] theorem State.onF_writer (s : State) (g : Firing → Firing) : (s.onF g).writer = s.writer := rfl
@[simp] theorem State.onCore_writer (s : State) (g : Core → Core) : (s.onCore g).writer = s.writer := rfl
@[simp] theorem State.setX_writer (s : State) (d : Fin 32) (v : Word) : (s.setX d v).writer = s.writer := rfl
@[simp] theorem State.setBank_writer (s : State) (k : Nat) (b : QBank) : (s.setBank k b).writer = s.writer := rfl
@[simp] theorem State.onF_covers (s : State) (g : Firing → Firing) : (s.onF g).covers = s.covers := rfl
@[simp] theorem State.onCore_covers (s : State) (g : Core → Core) : (s.onCore g).covers = s.covers := rfl
@[simp] theorem State.setX_covers (s : State) (d : Fin 32) (v : Word) : (s.setX d v).covers = s.covers := rfl
@[simp] theorem State.setBank_covers (s : State) (k : Nat) (b : QBank) : (s.setBank k b).covers = s.covers := rfl
@[simp] theorem State.onF_stores (s : State) (g : Firing → Firing) : (s.onF g).stores = s.stores := rfl
@[simp] theorem State.onCore_stores (s : State) (g : Core → Core) : (s.onCore g).stores = s.stores := rfl
@[simp] theorem State.setX_stores (s : State) (d : Fin 32) (v : Word) : (s.setX d v).stores = s.stores := rfl
@[simp] theorem State.setBank_stores (s : State) (k : Nat) (b : QBank) : (s.setBank k b).stores = s.stores := rfl
@[simp] theorem State.onF_storeLags (s : State) (g : Firing → Firing) : (s.onF g).storeLags = s.storeLags := rfl
@[simp] theorem State.onCore_storeLags (s : State) (g : Core → Core) : (s.onCore g).storeLags = s.storeLags := rfl
@[simp] theorem State.setX_storeLags (s : State) (d : Fin 32) (v : Word) : (s.setX d v).storeLags = s.storeLags := rfl
@[simp] theorem State.setBank_storeLags (s : State) (k : Nat) (b : QBank) : (s.setBank k b).storeLags = s.storeLags := rfl
@[simp] theorem State.onF_remoteHolds (s : State) (g : Firing → Firing) : (s.onF g).remoteHolds = s.remoteHolds := rfl
@[simp] theorem State.onCore_remoteHolds (s : State) (g : Core → Core) : (s.onCore g).remoteHolds = s.remoteHolds := rfl
@[simp] theorem State.setX_remoteHolds (s : State) (d : Fin 32) (v : Word) : (s.setX d v).remoteHolds = s.remoteHolds := rfl
@[simp] theorem State.setBank_remoteHolds (s : State) (k : Nat) (b : QBank) : (s.setBank k b).remoteHolds = s.remoteHolds := rfl
@[simp] theorem State.onF_starts (s : State) (g : Firing → Firing) : (s.onF g).starts = s.starts := rfl
@[simp] theorem State.onCore_starts (s : State) (g : Core → Core) : (s.onCore g).starts = s.starts := rfl
@[simp] theorem State.setX_starts (s : State) (d : Fin 32) (v : Word) : (s.setX d v).starts = s.starts := rfl
@[simp] theorem State.setBank_starts (s : State) (k : Nat) (b : QBank) : (s.setBank k b).starts = s.starts := rfl
@[simp] theorem State.onF_merges (s : State) (g : Firing → Firing) : (s.onF g).merges = s.merges := rfl
@[simp] theorem State.onCore_merges (s : State) (g : Core → Core) : (s.onCore g).merges = s.merges := rfl
@[simp] theorem State.setX_merges (s : State) (d : Fin 32) (v : Word) : (s.setX d v).merges = s.merges := rfl
@[simp] theorem State.setBank_merges (s : State) (k : Nat) (b : QBank) : (s.setBank k b).merges = s.merges := rfl
@[simp] theorem State.onF_slowSwitches (s : State) (g : Firing → Firing) : (s.onF g).slowSwitches = s.slowSwitches := rfl
@[simp] theorem State.onCore_slowSwitches (s : State) (g : Core → Core) : (s.onCore g).slowSwitches = s.slowSwitches := rfl
@[simp] theorem State.setX_slowSwitches (s : State) (d : Fin 32) (v : Word) : (s.setX d v).slowSwitches = s.slowSwitches := rfl
@[simp] theorem State.setBank_slowSwitches (s : State) (k : Nat) (b : QBank) : (s.setBank k b).slowSwitches = s.slowSwitches := rfl
@[simp] theorem State.onF_expired (s : State) (g : Firing → Firing) : (s.onF g).expired = s.expired := rfl
@[simp] theorem State.onCore_expired (s : State) (g : Core → Core) : (s.onCore g).expired = s.expired := rfl
@[simp] theorem State.setX_expired (s : State) (d : Fin 32) (v : Word) : (s.setX d v).expired = s.expired := rfl
@[simp] theorem State.setBank_expired (s : State) (k : Nat) (b : QBank) : (s.setBank k b).expired = s.expired := rfl
@[simp] theorem State.onF_outbox (s : State) (g : Firing → Firing) : (s.onF g).outbox = s.outbox := rfl
@[simp] theorem State.onCore_outbox (s : State) (g : Core → Core) : (s.onCore g).outbox = s.outbox := rfl
@[simp] theorem State.setX_outbox (s : State) (d : Fin 32) (v : Word) : (s.setX d v).outbox = s.outbox := rfl
@[simp] theorem State.setBank_outbox (s : State) (k : Nat) (b : QBank) : (s.setBank k b).outbox = s.outbox := rfl
@[simp] theorem State.onF_blocked (s : State) (g : Firing → Firing) : (s.onF g).blocked = s.blocked := rfl
@[simp] theorem State.onCore_blocked (s : State) (g : Core → Core) : (s.onCore g).blocked = s.blocked := rfl
@[simp] theorem State.setX_blocked (s : State) (d : Fin 32) (v : Word) : (s.setX d v).blocked = s.blocked := rfl
@[simp] theorem State.setBank_blocked (s : State) (k : Nat) (b : QBank) : (s.setBank k b).blocked = s.blocked := rfl
@[simp] theorem State.onF_overlaps (s : State) (g : Firing → Firing) : (s.onF g).overlaps = s.overlaps := rfl
@[simp] theorem State.onF_advances (s : State) (g : Firing → Firing) : (s.onF g).advances = s.advances := rfl
@[simp] theorem State.onCore_overlaps (s : State) (g : Core → Core) : (s.onCore g).overlaps = s.overlaps := rfl
@[simp] theorem State.onCore_advances (s : State) (g : Core → Core) : (s.onCore g).advances = s.advances := rfl
@[simp] theorem State.setX_overlaps (s : State) (d : Fin 32) (v : Word) : (s.setX d v).overlaps = s.overlaps := rfl
@[simp] theorem State.setX_advances (s : State) (d : Fin 32) (v : Word) : (s.setX d v).advances = s.advances := rfl
@[simp] theorem State.setBank_overlaps (s : State) (k : Nat) (b : QBank) : (s.setBank k b).overlaps = s.overlaps := rfl
@[simp] theorem State.setBank_advances (s : State) (k : Nat) (b : QBank) : (s.setBank k b).advances = s.advances := rfl

/-! Updates of a firing. -/

@[simp] theorem Firing.setX_fpc (f : Firing) (r : Fin 32) (v : Word) : (f.setX r v).fpc = f.fpc := by unfold Firing.setX; split <;> rfl
@[simp] theorem Firing.setX_level (f : Firing) (r : Fin 32) (v : Word) : (f.setX r v).level = f.level := by unfold Firing.setX; split <;> rfl
@[simp] theorem Firing.setX_prog (f : Firing) (r : Fin 32) (v : Word) : (f.setX r v).prog = f.prog := by unfold Firing.setX; split <;> rfl
@[simp] theorem Firing.setX_trap (f : Firing) (r : Fin 32) (v : Word) : (f.setX r v).trap = f.trap := by unfold Firing.setX; split <;> rfl
@[simp] theorem Firing.setX_v (f : Firing) (r : Fin 32) (v : Word) : (f.setX r v).v = f.v := by unfold Firing.setX; split <;> rfl
@[simp] theorem Firing.setX_resident (f : Firing) (r : Fin 32) (v : Word) : (f.setX r v).resident = f.resident := by unfold Firing.setX; split <;> rfl
@[simp] theorem Firing.setX_m (f : Firing) (r : Fin 32) (v : Word) : (f.setX r v).m = f.m := by unfold Firing.setX; split <;> rfl
@[simp] theorem Firing.setX_ln (f : Firing) (r : Fin 32) (v : Word) : (f.setX r v).ln = f.ln := by unfold Firing.setX; split <;> rfl
@[simp] theorem Firing.setX_vfmt (f : Firing) (r : Fin 32) (v : Word) : (f.setX r v).vfmt = f.vfmt := by unfold Firing.setX; split <;> rfl
@[simp] theorem Firing.setX_vblk (f : Firing) (r : Fin 32) (v : Word) : (f.setX r v).vblk = f.vblk := by unfold Firing.setX; split <;> rfl
@[simp] theorem Firing.setX_vrm (f : Firing) (r : Fin 32) (v : Word) : (f.setX r v).vrm = f.vrm := by unfold Firing.setX; split <;> rfl
@[simp] theorem Firing.setX_vstart (f : Firing) (r : Fin 32) (v : Word) : (f.setX r v).vstart = f.vstart := by unfold Firing.setX; split <;> rfl
@[simp] theorem Firing.setX_fflags (f : Firing) (r : Fin 32) (v : Word) : (f.setX r v).fflags = f.fflags := by unfold Firing.setX; split <;> rfl
@[simp] theorem Firing.setX_pseed0 (f : Firing) (r : Fin 32) (v : Word) : (f.setX r v).pseed0 = f.pseed0 := by unfold Firing.setX; split <;> rfl
@[simp] theorem Firing.setX_pseed1 (f : Firing) (r : Fin 32) (v : Word) : (f.setX r v).pseed1 = f.pseed1 := by unfold Firing.setX; split <;> rfl
@[simp] theorem Firing.setX_bwin (f : Firing) (r : Fin 32) (v : Word) : (f.setX r v).bwin = f.bwin := by unfold Firing.setX; split <;> rfl
@[simp] theorem Firing.setX_border (f : Firing) (r : Fin 32) (v : Word) : (f.setX r v).border = f.border := by unfold Firing.setX; split <;> rfl
@[simp] theorem Firing.setX_t (f : Firing) (r : Fin 32) (v : Word) : (f.setX r v).t = f.t := by unfold Firing.setX; split <;> rfl
@[simp] theorem Firing.setX_a (f : Firing) (r : Fin 32) (v : Word) : (f.setX r v).a = f.a := by unfold Firing.setX; split <;> rfl
@[simp] theorem Firing.setX_tcfg (f : Firing) (r : Fin 32) (v : Word) : (f.setX r v).tcfg = f.tcfg := by unfold Firing.setX; split <;> rfl
@[simp] theorem Firing.setX_bstride (f : Firing) (r : Fin 32) (v : Word) : (f.setX r v).bstride = f.bstride := by unfold Firing.setX; split <;> rfl
@[simp] theorem Firing.setX_bcfmt (f : Firing) (r : Fin 32) (v : Word) : (f.setX r v).bcfmt = f.bcfmt := by unfold Firing.setX; split <;> rfl
@[simp] theorem Firing.setX_bcrm (f : Firing) (r : Fin 32) (v : Word) : (f.setX r v).bcrm = f.bcrm := by unfold Firing.setX; split <;> rfl
@[simp] theorem Firing.setX_panel (f : Firing) (r : Fin 32) (v : Word) : (f.setX r v).panel = f.panel := by unfold Firing.setX; split <;> rfl
@[simp] theorem Firing.setX_stage (f : Firing) (r : Fin 32) (v : Word) : (f.setX r v).stage = f.stage := by unfold Firing.setX; split <;> rfl
@[simp] theorem Firing.setX_panels (f : Firing) (r : Fin 32) (v : Word) : (f.setX r v).panels = f.panels := by unfold Firing.setX; split <;> rfl
@[simp] theorem Firing.setX_fx (f : Firing) (r : Fin 32) (v : Word) : (f.setX r v).fx = f.fx := by unfold Firing.setX; split <;> rfl
@[simp] theorem Firing.setX_q (f : Firing) (r : Fin 32) (v : Word) : (f.setX r v).q = f.q := by unfold Firing.setX; split <;> rfl
@[simp] theorem Firing.setX_queue (f : Firing) (r : Fin 32) (v : Word) : (f.setX r v).queue = f.queue := by unfold Firing.setX; split <;> rfl
@[simp] theorem Firing.setX_fid (f : Firing) (r : Fin 32) (v : Word) : (f.setX r v).fid = f.fid := by unfold Firing.setX; split <;> rfl
@[simp] theorem Firing.setX_ordinal (f : Firing) (r : Fin 32) (v : Word) : (f.setX r v).ordinal = f.ordinal := by unfold Firing.setX; split <;> rfl
@[simp] theorem Firing.setX_session (f : Firing) (r : Fin 32) (v : Word) : (f.setX r v).session = f.session := by unfold Firing.setX; split <;> rfl
@[simp] theorem Firing.setX_paused (f : Firing) (r : Fin 32) (v : Word) : (f.setX r v).paused = f.paused := by unfold Firing.setX; split <;> rfl
@[simp] theorem Firing.setX_beatFlags (f : Firing) (r : Fin 32) (v : Word) : (f.setX r v).beatFlags = f.beatFlags := by unfold Firing.setX; split <;> rfl
@[simp] theorem Firing.setX_poisonOut (f : Firing) (r : Fin 32) (v : Word) : (f.setX r v).poisonOut = f.poisonOut := by unfold Firing.setX; split <;> rfl
@[simp] theorem Firing.setX_faultOwed (f : Firing) (r : Fin 32) (v : Word) : (f.setX r v).faultOwed = f.faultOwed := by unfold Firing.setX; split <;> rfl
@[simp] theorem Firing.setX_linkCauses (f : Firing) (r : Fin 32) (v : Word) : (f.setX r v).linkCauses = f.linkCauses := by unfold Firing.setX; split <;> rfl
@[simp] theorem Firing.setX_relFence (f : Firing) (r : Fin 32) (v : Word) : (f.setX r v).relFence = f.relFence := by unfold Firing.setX; split <;> rfl
@[simp] theorem Firing.setX_acqFence (f : Firing) (r : Fin 32) (v : Word) : (f.setX r v).acqFence = f.acqFence := by unfold Firing.setX; split <;> rfl
@[simp] theorem Firing.setX_trapSide (f : Firing) (r : Fin 32) (v : Word) : (f.setX r v).trapSide = f.trapSide := by unfold Firing.setX; split <;> rfl
@[simp] theorem Firing.setX_fxEnds (f : Firing) (r : Fin 32) (v : Word) : (f.setX r v).fxEnds = f.fxEnds := by unfold Firing.setX; split <;> rfl
@[simp] theorem Firing.setX_trapEnds (f : Firing) (r : Fin 32) (v : Word) : (f.setX r v).trapEnds = f.trapEnds := by unfold Firing.setX; split <;> rfl
@[simp] theorem Firing.setX_badM (f : Firing) (r : Fin 32) (v : Word) : (f.setX r v).badM = f.badM := by unfold Firing.setX; split <;> rfl
@[simp] theorem Firing.poisonX_x (f : Firing) (r : Fin 32) : (f.poisonX r).x = f.x := by unfold Firing.poisonX; split <;> rfl
@[simp] theorem Firing.poisonX_fpc (f : Firing) (r : Fin 32) : (f.poisonX r).fpc = f.fpc := by unfold Firing.poisonX; split <;> rfl
@[simp] theorem Firing.poisonX_level (f : Firing) (r : Fin 32) : (f.poisonX r).level = f.level := by unfold Firing.poisonX; split <;> rfl
@[simp] theorem Firing.poisonX_prog (f : Firing) (r : Fin 32) : (f.poisonX r).prog = f.prog := by unfold Firing.poisonX; split <;> rfl
@[simp] theorem Firing.poisonX_pend (f : Firing) (r : Fin 32) : (f.poisonX r).pend = f.pend := by unfold Firing.poisonX; split <;> rfl
@[simp] theorem Firing.poisonX_trap (f : Firing) (r : Fin 32) : (f.poisonX r).trap = f.trap := by unfold Firing.poisonX; split <;> rfl
@[simp] theorem Firing.poisonX_v (f : Firing) (r : Fin 32) : (f.poisonX r).v = f.v := by unfold Firing.poisonX; split <;> rfl
@[simp] theorem Firing.poisonX_resident (f : Firing) (r : Fin 32) : (f.poisonX r).resident = f.resident := by unfold Firing.poisonX; split <;> rfl
@[simp] theorem Firing.poisonX_m (f : Firing) (r : Fin 32) : (f.poisonX r).m = f.m := by unfold Firing.poisonX; split <;> rfl
@[simp] theorem Firing.poisonX_ln (f : Firing) (r : Fin 32) : (f.poisonX r).ln = f.ln := by unfold Firing.poisonX; split <;> rfl
@[simp] theorem Firing.poisonX_vfmt (f : Firing) (r : Fin 32) : (f.poisonX r).vfmt = f.vfmt := by unfold Firing.poisonX; split <;> rfl
@[simp] theorem Firing.poisonX_vblk (f : Firing) (r : Fin 32) : (f.poisonX r).vblk = f.vblk := by unfold Firing.poisonX; split <;> rfl
@[simp] theorem Firing.poisonX_vrm (f : Firing) (r : Fin 32) : (f.poisonX r).vrm = f.vrm := by unfold Firing.poisonX; split <;> rfl
@[simp] theorem Firing.poisonX_vstart (f : Firing) (r : Fin 32) : (f.poisonX r).vstart = f.vstart := by unfold Firing.poisonX; split <;> rfl
@[simp] theorem Firing.poisonX_fflags (f : Firing) (r : Fin 32) : (f.poisonX r).fflags = f.fflags := by unfold Firing.poisonX; split <;> rfl
@[simp] theorem Firing.poisonX_pseed0 (f : Firing) (r : Fin 32) : (f.poisonX r).pseed0 = f.pseed0 := by unfold Firing.poisonX; split <;> rfl
@[simp] theorem Firing.poisonX_pseed1 (f : Firing) (r : Fin 32) : (f.poisonX r).pseed1 = f.pseed1 := by unfold Firing.poisonX; split <;> rfl
@[simp] theorem Firing.poisonX_bwin (f : Firing) (r : Fin 32) : (f.poisonX r).bwin = f.bwin := by unfold Firing.poisonX; split <;> rfl
@[simp] theorem Firing.poisonX_border (f : Firing) (r : Fin 32) : (f.poisonX r).border = f.border := by unfold Firing.poisonX; split <;> rfl
@[simp] theorem Firing.poisonX_t (f : Firing) (r : Fin 32) : (f.poisonX r).t = f.t := by unfold Firing.poisonX; split <;> rfl
@[simp] theorem Firing.poisonX_a (f : Firing) (r : Fin 32) : (f.poisonX r).a = f.a := by unfold Firing.poisonX; split <;> rfl
@[simp] theorem Firing.poisonX_tcfg (f : Firing) (r : Fin 32) : (f.poisonX r).tcfg = f.tcfg := by unfold Firing.poisonX; split <;> rfl
@[simp] theorem Firing.poisonX_bstride (f : Firing) (r : Fin 32) : (f.poisonX r).bstride = f.bstride := by unfold Firing.poisonX; split <;> rfl
@[simp] theorem Firing.poisonX_bcfmt (f : Firing) (r : Fin 32) : (f.poisonX r).bcfmt = f.bcfmt := by unfold Firing.poisonX; split <;> rfl
@[simp] theorem Firing.poisonX_bcrm (f : Firing) (r : Fin 32) : (f.poisonX r).bcrm = f.bcrm := by unfold Firing.poisonX; split <;> rfl
@[simp] theorem Firing.poisonX_panel (f : Firing) (r : Fin 32) : (f.poisonX r).panel = f.panel := by unfold Firing.poisonX; split <;> rfl
@[simp] theorem Firing.poisonX_stage (f : Firing) (r : Fin 32) : (f.poisonX r).stage = f.stage := by unfold Firing.poisonX; split <;> rfl
@[simp] theorem Firing.poisonX_panels (f : Firing) (r : Fin 32) : (f.poisonX r).panels = f.panels := by unfold Firing.poisonX; split <;> rfl
@[simp] theorem Firing.poisonX_fx (f : Firing) (r : Fin 32) : (f.poisonX r).fx = f.fx := by unfold Firing.poisonX; split <;> rfl
@[simp] theorem Firing.poisonX_q (f : Firing) (r : Fin 32) : (f.poisonX r).q = f.q := by unfold Firing.poisonX; split <;> rfl
@[simp] theorem Firing.poisonX_queue (f : Firing) (r : Fin 32) : (f.poisonX r).queue = f.queue := by unfold Firing.poisonX; split <;> rfl
@[simp] theorem Firing.poisonX_fid (f : Firing) (r : Fin 32) : (f.poisonX r).fid = f.fid := by unfold Firing.poisonX; split <;> rfl
@[simp] theorem Firing.poisonX_ordinal (f : Firing) (r : Fin 32) : (f.poisonX r).ordinal = f.ordinal := by unfold Firing.poisonX; split <;> rfl
@[simp] theorem Firing.poisonX_session (f : Firing) (r : Fin 32) : (f.poisonX r).session = f.session := by unfold Firing.poisonX; split <;> rfl
@[simp] theorem Firing.poisonX_paused (f : Firing) (r : Fin 32) : (f.poisonX r).paused = f.paused := by unfold Firing.poisonX; split <;> rfl
@[simp] theorem Firing.poisonX_beatFlags (f : Firing) (r : Fin 32) : (f.poisonX r).beatFlags = f.beatFlags := by unfold Firing.poisonX; split <;> rfl
@[simp] theorem Firing.poisonX_poisonOut (f : Firing) (r : Fin 32) : (f.poisonX r).poisonOut = f.poisonOut := by unfold Firing.poisonX; split <;> rfl
@[simp] theorem Firing.poisonX_faultOwed (f : Firing) (r : Fin 32) : (f.poisonX r).faultOwed = f.faultOwed := by unfold Firing.poisonX; split <;> rfl
@[simp] theorem Firing.poisonX_linkCauses (f : Firing) (r : Fin 32) : (f.poisonX r).linkCauses = f.linkCauses := by unfold Firing.poisonX; split <;> rfl
@[simp] theorem Firing.poisonX_relFence (f : Firing) (r : Fin 32) : (f.poisonX r).relFence = f.relFence := by unfold Firing.poisonX; split <;> rfl
@[simp] theorem Firing.poisonX_acqFence (f : Firing) (r : Fin 32) : (f.poisonX r).acqFence = f.acqFence := by unfold Firing.poisonX; split <;> rfl
@[simp] theorem Firing.poisonX_badX (f : Firing) (r : Fin 32) : (f.poisonX r).badX = f.badX := by unfold Firing.poisonX; split <;> rfl
@[simp] theorem Firing.poisonX_trapSide (f : Firing) (r : Fin 32) : (f.poisonX r).trapSide = f.trapSide := by unfold Firing.poisonX; split <;> rfl
@[simp] theorem Firing.poisonX_fxEnds (f : Firing) (r : Fin 32) : (f.poisonX r).fxEnds = f.fxEnds := by unfold Firing.poisonX; split <;> rfl
@[simp] theorem Firing.poisonX_trapEnds (f : Firing) (r : Fin 32) : (f.poisonX r).trapEnds = f.trapEnds := by unfold Firing.poisonX; split <;> rfl
@[simp] theorem Firing.poisonX_badM (f : Firing) (r : Fin 32) : (f.poisonX r).badM = f.badM := by unfold Firing.poisonX; split <;> rfl
@[simp] theorem Firing.setLn_x (f : Firing) (l : Fin 4) (r : LnReg) : (f.setLn l r).x = f.x := rfl
@[simp] theorem Firing.setLn_xp (f : Firing) (l : Fin 4) (r : LnReg) : (f.setLn l r).xp = f.xp := rfl
@[simp] theorem Firing.setLn_fpc (f : Firing) (l : Fin 4) (r : LnReg) : (f.setLn l r).fpc = f.fpc := rfl
@[simp] theorem Firing.setLn_level (f : Firing) (l : Fin 4) (r : LnReg) : (f.setLn l r).level = f.level := rfl
@[simp] theorem Firing.setLn_prog (f : Firing) (l : Fin 4) (r : LnReg) : (f.setLn l r).prog = f.prog := rfl
@[simp] theorem Firing.setLn_pend (f : Firing) (l : Fin 4) (r : LnReg) : (f.setLn l r).pend = f.pend := rfl
@[simp] theorem Firing.setLn_trap (f : Firing) (l : Fin 4) (r : LnReg) : (f.setLn l r).trap = f.trap := rfl
@[simp] theorem Firing.setLn_v (f : Firing) (l : Fin 4) (r : LnReg) : (f.setLn l r).v = f.v := rfl
@[simp] theorem Firing.setLn_resident (f : Firing) (l : Fin 4) (r : LnReg) : (f.setLn l r).resident = f.resident := rfl
@[simp] theorem Firing.setLn_m (f : Firing) (l : Fin 4) (r : LnReg) : (f.setLn l r).m = f.m := rfl
@[simp] theorem Firing.setLn_vfmt (f : Firing) (l : Fin 4) (r : LnReg) : (f.setLn l r).vfmt = f.vfmt := rfl
@[simp] theorem Firing.setLn_vblk (f : Firing) (l : Fin 4) (r : LnReg) : (f.setLn l r).vblk = f.vblk := rfl
@[simp] theorem Firing.setLn_vrm (f : Firing) (l : Fin 4) (r : LnReg) : (f.setLn l r).vrm = f.vrm := rfl
@[simp] theorem Firing.setLn_vstart (f : Firing) (l : Fin 4) (r : LnReg) : (f.setLn l r).vstart = f.vstart := rfl
@[simp] theorem Firing.setLn_fflags (f : Firing) (l : Fin 4) (r : LnReg) : (f.setLn l r).fflags = f.fflags := rfl
@[simp] theorem Firing.setLn_pseed0 (f : Firing) (l : Fin 4) (r : LnReg) : (f.setLn l r).pseed0 = f.pseed0 := rfl
@[simp] theorem Firing.setLn_pseed1 (f : Firing) (l : Fin 4) (r : LnReg) : (f.setLn l r).pseed1 = f.pseed1 := rfl
@[simp] theorem Firing.setLn_bwin (f : Firing) (l : Fin 4) (r : LnReg) : (f.setLn l r).bwin = f.bwin := rfl
@[simp] theorem Firing.setLn_border (f : Firing) (l : Fin 4) (r : LnReg) : (f.setLn l r).border = f.border := rfl
@[simp] theorem Firing.setLn_t (f : Firing) (l : Fin 4) (r : LnReg) : (f.setLn l r).t = f.t := rfl
@[simp] theorem Firing.setLn_a (f : Firing) (l : Fin 4) (r : LnReg) : (f.setLn l r).a = f.a := rfl
@[simp] theorem Firing.setLn_tcfg (f : Firing) (l : Fin 4) (r : LnReg) : (f.setLn l r).tcfg = f.tcfg := rfl
@[simp] theorem Firing.setLn_bstride (f : Firing) (l : Fin 4) (r : LnReg) : (f.setLn l r).bstride = f.bstride := rfl
@[simp] theorem Firing.setLn_bcfmt (f : Firing) (l : Fin 4) (r : LnReg) : (f.setLn l r).bcfmt = f.bcfmt := rfl
@[simp] theorem Firing.setLn_bcrm (f : Firing) (l : Fin 4) (r : LnReg) : (f.setLn l r).bcrm = f.bcrm := rfl
@[simp] theorem Firing.setLn_panel (f : Firing) (l : Fin 4) (r : LnReg) : (f.setLn l r).panel = f.panel := rfl
@[simp] theorem Firing.setLn_stage (f : Firing) (l : Fin 4) (r : LnReg) : (f.setLn l r).stage = f.stage := rfl
@[simp] theorem Firing.setLn_panels (f : Firing) (l : Fin 4) (r : LnReg) : (f.setLn l r).panels = f.panels := rfl
@[simp] theorem Firing.setLn_fx (f : Firing) (l : Fin 4) (r : LnReg) : (f.setLn l r).fx = f.fx := rfl
@[simp] theorem Firing.setLn_q (f : Firing) (l : Fin 4) (r : LnReg) : (f.setLn l r).q = f.q := rfl
@[simp] theorem Firing.setLn_queue (f : Firing) (l : Fin 4) (r : LnReg) : (f.setLn l r).queue = f.queue := rfl
@[simp] theorem Firing.setLn_fid (f : Firing) (l : Fin 4) (r : LnReg) : (f.setLn l r).fid = f.fid := rfl
@[simp] theorem Firing.setLn_ordinal (f : Firing) (l : Fin 4) (r : LnReg) : (f.setLn l r).ordinal = f.ordinal := rfl
@[simp] theorem Firing.setLn_session (f : Firing) (l : Fin 4) (r : LnReg) : (f.setLn l r).session = f.session := rfl
@[simp] theorem Firing.setLn_paused (f : Firing) (l : Fin 4) (r : LnReg) : (f.setLn l r).paused = f.paused := rfl
@[simp] theorem Firing.setLn_beatFlags (f : Firing) (l : Fin 4) (r : LnReg) : (f.setLn l r).beatFlags = f.beatFlags := rfl
@[simp] theorem Firing.setLn_poisonOut (f : Firing) (l : Fin 4) (r : LnReg) : (f.setLn l r).poisonOut = f.poisonOut := rfl
@[simp] theorem Firing.setLn_faultOwed (f : Firing) (l : Fin 4) (r : LnReg) : (f.setLn l r).faultOwed = f.faultOwed := rfl
@[simp] theorem Firing.setLn_linkCauses (f : Firing) (l : Fin 4) (r : LnReg) : (f.setLn l r).linkCauses = f.linkCauses := rfl
@[simp] theorem Firing.setLn_relFence (f : Firing) (l : Fin 4) (r : LnReg) : (f.setLn l r).relFence = f.relFence := rfl
@[simp] theorem Firing.setLn_acqFence (f : Firing) (l : Fin 4) (r : LnReg) : (f.setLn l r).acqFence = f.acqFence := rfl
@[simp] theorem Firing.setLn_badX (f : Firing) (l : Fin 4) (r : LnReg) : (f.setLn l r).badX = f.badX := rfl
@[simp] theorem Firing.setLn_trapSide (f : Firing) (l : Fin 4) (r : LnReg) : (f.setLn l r).trapSide = f.trapSide := rfl
@[simp] theorem Firing.setLn_fxEnds (f : Firing) (l : Fin 4) (r : LnReg) : (f.setLn l r).fxEnds = f.fxEnds := rfl
@[simp] theorem Firing.setLn_trapEnds (f : Firing) (l : Fin 4) (r : LnReg) : (f.setLn l r).trapEnds = f.trapEnds := rfl
@[simp] theorem Firing.setLn_badM (f : Firing) (l : Fin 4) (r : LnReg) : (f.setLn l r).badM = f.badM := rfl
@[simp] theorem Firing.raise_x (f : Firing) (fl : Flags) : (f.raise fl).x = f.x := rfl
@[simp] theorem Firing.raise_xp (f : Firing) (fl : Flags) : (f.raise fl).xp = f.xp := rfl
@[simp] theorem Firing.raise_fpc (f : Firing) (fl : Flags) : (f.raise fl).fpc = f.fpc := rfl
@[simp] theorem Firing.raise_level (f : Firing) (fl : Flags) : (f.raise fl).level = f.level := rfl
@[simp] theorem Firing.raise_prog (f : Firing) (fl : Flags) : (f.raise fl).prog = f.prog := rfl
@[simp] theorem Firing.raise_pend (f : Firing) (fl : Flags) : (f.raise fl).pend = f.pend := rfl
@[simp] theorem Firing.raise_trap (f : Firing) (fl : Flags) : (f.raise fl).trap = f.trap := rfl
@[simp] theorem Firing.raise_v (f : Firing) (fl : Flags) : (f.raise fl).v = f.v := rfl
@[simp] theorem Firing.raise_resident (f : Firing) (fl : Flags) : (f.raise fl).resident = f.resident := rfl
@[simp] theorem Firing.raise_m (f : Firing) (fl : Flags) : (f.raise fl).m = f.m := rfl
@[simp] theorem Firing.raise_ln (f : Firing) (fl : Flags) : (f.raise fl).ln = f.ln := rfl
@[simp] theorem Firing.raise_vfmt (f : Firing) (fl : Flags) : (f.raise fl).vfmt = f.vfmt := rfl
@[simp] theorem Firing.raise_vblk (f : Firing) (fl : Flags) : (f.raise fl).vblk = f.vblk := rfl
@[simp] theorem Firing.raise_vrm (f : Firing) (fl : Flags) : (f.raise fl).vrm = f.vrm := rfl
@[simp] theorem Firing.raise_vstart (f : Firing) (fl : Flags) : (f.raise fl).vstart = f.vstart := rfl
@[simp] theorem Firing.raise_pseed0 (f : Firing) (fl : Flags) : (f.raise fl).pseed0 = f.pseed0 := rfl
@[simp] theorem Firing.raise_pseed1 (f : Firing) (fl : Flags) : (f.raise fl).pseed1 = f.pseed1 := rfl
@[simp] theorem Firing.raise_bwin (f : Firing) (fl : Flags) : (f.raise fl).bwin = f.bwin := rfl
@[simp] theorem Firing.raise_border (f : Firing) (fl : Flags) : (f.raise fl).border = f.border := rfl
@[simp] theorem Firing.raise_t (f : Firing) (fl : Flags) : (f.raise fl).t = f.t := rfl
@[simp] theorem Firing.raise_a (f : Firing) (fl : Flags) : (f.raise fl).a = f.a := rfl
@[simp] theorem Firing.raise_tcfg (f : Firing) (fl : Flags) : (f.raise fl).tcfg = f.tcfg := rfl
@[simp] theorem Firing.raise_bstride (f : Firing) (fl : Flags) : (f.raise fl).bstride = f.bstride := rfl
@[simp] theorem Firing.raise_bcfmt (f : Firing) (fl : Flags) : (f.raise fl).bcfmt = f.bcfmt := rfl
@[simp] theorem Firing.raise_bcrm (f : Firing) (fl : Flags) : (f.raise fl).bcrm = f.bcrm := rfl
@[simp] theorem Firing.raise_panel (f : Firing) (fl : Flags) : (f.raise fl).panel = f.panel := rfl
@[simp] theorem Firing.raise_stage (f : Firing) (fl : Flags) : (f.raise fl).stage = f.stage := rfl
@[simp] theorem Firing.raise_panels (f : Firing) (fl : Flags) : (f.raise fl).panels = f.panels := rfl
@[simp] theorem Firing.raise_fx (f : Firing) (fl : Flags) : (f.raise fl).fx = f.fx := rfl
@[simp] theorem Firing.raise_q (f : Firing) (fl : Flags) : (f.raise fl).q = f.q := rfl
@[simp] theorem Firing.raise_queue (f : Firing) (fl : Flags) : (f.raise fl).queue = f.queue := rfl
@[simp] theorem Firing.raise_fid (f : Firing) (fl : Flags) : (f.raise fl).fid = f.fid := rfl
@[simp] theorem Firing.raise_ordinal (f : Firing) (fl : Flags) : (f.raise fl).ordinal = f.ordinal := rfl
@[simp] theorem Firing.raise_session (f : Firing) (fl : Flags) : (f.raise fl).session = f.session := rfl
@[simp] theorem Firing.raise_paused (f : Firing) (fl : Flags) : (f.raise fl).paused = f.paused := rfl
@[simp] theorem Firing.raise_beatFlags (f : Firing) (fl : Flags) : (f.raise fl).beatFlags = f.beatFlags := rfl
@[simp] theorem Firing.raise_poisonOut (f : Firing) (fl : Flags) : (f.raise fl).poisonOut = f.poisonOut := rfl
@[simp] theorem Firing.raise_faultOwed (f : Firing) (fl : Flags) : (f.raise fl).faultOwed = f.faultOwed := rfl
@[simp] theorem Firing.raise_linkCauses (f : Firing) (fl : Flags) : (f.raise fl).linkCauses = f.linkCauses := rfl
@[simp] theorem Firing.raise_relFence (f : Firing) (fl : Flags) : (f.raise fl).relFence = f.relFence := rfl
@[simp] theorem Firing.raise_acqFence (f : Firing) (fl : Flags) : (f.raise fl).acqFence = f.acqFence := rfl
@[simp] theorem Firing.raise_badX (f : Firing) (fl : Flags) : (f.raise fl).badX = f.badX := rfl
@[simp] theorem Firing.raise_trapSide (f : Firing) (fl : Flags) : (f.raise fl).trapSide = f.trapSide := rfl
@[simp] theorem Firing.raise_fxEnds (f : Firing) (fl : Flags) : (f.raise fl).fxEnds = f.fxEnds := rfl
@[simp] theorem Firing.raise_trapEnds (f : Firing) (fl : Flags) : (f.raise fl).trapEnds = f.trapEnds := rfl
@[simp] theorem Firing.raise_badM (f : Firing) (fl : Flags) : (f.raise fl).badM = f.badM := rfl
@[simp] theorem Firing.setPstart_x (f : Firing) (w : Nat) : (f.setPstart w).x = f.x := rfl
@[simp] theorem Firing.setPstart_xp (f : Firing) (w : Nat) : (f.setPstart w).xp = f.xp := rfl
@[simp] theorem Firing.setPstart_fpc (f : Firing) (w : Nat) : (f.setPstart w).fpc = f.fpc := rfl
@[simp] theorem Firing.setPstart_level (f : Firing) (w : Nat) : (f.setPstart w).level = f.level := rfl
@[simp] theorem Firing.setPstart_prog (f : Firing) (w : Nat) : (f.setPstart w).prog = f.prog := rfl
@[simp] theorem Firing.setPstart_pend (f : Firing) (w : Nat) : (f.setPstart w).pend = f.pend := rfl
@[simp] theorem Firing.setPstart_trap (f : Firing) (w : Nat) : (f.setPstart w).trap = f.trap := rfl
@[simp] theorem Firing.setPstart_v (f : Firing) (w : Nat) : (f.setPstart w).v = f.v := rfl
@[simp] theorem Firing.setPstart_resident (f : Firing) (w : Nat) : (f.setPstart w).resident = f.resident := rfl
@[simp] theorem Firing.setPstart_m (f : Firing) (w : Nat) : (f.setPstart w).m = f.m := rfl
@[simp] theorem Firing.setPstart_ln (f : Firing) (w : Nat) : (f.setPstart w).ln = f.ln := rfl
@[simp] theorem Firing.setPstart_vfmt (f : Firing) (w : Nat) : (f.setPstart w).vfmt = f.vfmt := rfl
@[simp] theorem Firing.setPstart_vblk (f : Firing) (w : Nat) : (f.setPstart w).vblk = f.vblk := rfl
@[simp] theorem Firing.setPstart_vrm (f : Firing) (w : Nat) : (f.setPstart w).vrm = f.vrm := rfl
@[simp] theorem Firing.setPstart_vstart (f : Firing) (w : Nat) : (f.setPstart w).vstart = f.vstart := rfl
@[simp] theorem Firing.setPstart_fflags (f : Firing) (w : Nat) : (f.setPstart w).fflags = f.fflags := rfl
@[simp] theorem Firing.setPstart_pseed0 (f : Firing) (w : Nat) : (f.setPstart w).pseed0 = f.pseed0 := rfl
@[simp] theorem Firing.setPstart_pseed1 (f : Firing) (w : Nat) : (f.setPstart w).pseed1 = f.pseed1 := rfl
@[simp] theorem Firing.setPstart_bwin (f : Firing) (w : Nat) : (f.setPstart w).bwin = f.bwin := rfl
@[simp] theorem Firing.setPstart_border (f : Firing) (w : Nat) : (f.setPstart w).border = f.border := rfl
@[simp] theorem Firing.setPstart_t (f : Firing) (w : Nat) : (f.setPstart w).t = f.t := rfl
@[simp] theorem Firing.setPstart_a (f : Firing) (w : Nat) : (f.setPstart w).a = f.a := rfl
@[simp] theorem Firing.setPstart_tcfg (f : Firing) (w : Nat) : (f.setPstart w).tcfg = f.tcfg := rfl
@[simp] theorem Firing.setPstart_bstride (f : Firing) (w : Nat) : (f.setPstart w).bstride = f.bstride := rfl
@[simp] theorem Firing.setPstart_bcfmt (f : Firing) (w : Nat) : (f.setPstart w).bcfmt = f.bcfmt := rfl
@[simp] theorem Firing.setPstart_bcrm (f : Firing) (w : Nat) : (f.setPstart w).bcrm = f.bcrm := rfl
@[simp] theorem Firing.setPstart_panels (f : Firing) (w : Nat) : (f.setPstart w).panels = f.panels := rfl
@[simp] theorem Firing.setPstart_fx (f : Firing) (w : Nat) : (f.setPstart w).fx = f.fx := rfl
@[simp] theorem Firing.setPstart_q (f : Firing) (w : Nat) : (f.setPstart w).q = f.q := rfl
@[simp] theorem Firing.setPstart_queue (f : Firing) (w : Nat) : (f.setPstart w).queue = f.queue := rfl
@[simp] theorem Firing.setPstart_fid (f : Firing) (w : Nat) : (f.setPstart w).fid = f.fid := rfl
@[simp] theorem Firing.setPstart_ordinal (f : Firing) (w : Nat) : (f.setPstart w).ordinal = f.ordinal := rfl
@[simp] theorem Firing.setPstart_session (f : Firing) (w : Nat) : (f.setPstart w).session = f.session := rfl
@[simp] theorem Firing.setPstart_paused (f : Firing) (w : Nat) : (f.setPstart w).paused = f.paused := rfl
@[simp] theorem Firing.setPstart_beatFlags (f : Firing) (w : Nat) : (f.setPstart w).beatFlags = f.beatFlags := rfl
@[simp] theorem Firing.setPstart_poisonOut (f : Firing) (w : Nat) : (f.setPstart w).poisonOut = f.poisonOut := rfl
@[simp] theorem Firing.setPstart_faultOwed (f : Firing) (w : Nat) : (f.setPstart w).faultOwed = f.faultOwed := rfl
@[simp] theorem Firing.setPstart_linkCauses (f : Firing) (w : Nat) : (f.setPstart w).linkCauses = f.linkCauses := rfl
@[simp] theorem Firing.setPstart_relFence (f : Firing) (w : Nat) : (f.setPstart w).relFence = f.relFence := rfl
@[simp] theorem Firing.setPstart_acqFence (f : Firing) (w : Nat) : (f.setPstart w).acqFence = f.acqFence := rfl
@[simp] theorem Firing.setPstart_badX (f : Firing) (w : Nat) : (f.setPstart w).badX = f.badX := rfl
@[simp] theorem Firing.setPstart_trapSide (f : Firing) (w : Nat) : (f.setPstart w).trapSide = f.trapSide := rfl
@[simp] theorem Firing.setPstart_fxEnds (f : Firing) (w : Nat) : (f.setPstart w).fxEnds = f.fxEnds := rfl
@[simp] theorem Firing.setPstart_trapEnds (f : Firing) (w : Nat) : (f.setPstart w).trapEnds = f.trapEnds := rfl
@[simp] theorem Firing.setPstart_badM (f : Firing) (w : Nat) : (f.setPstart w).badM = f.badM := rfl

/-- A register written reads as it was written, but for `x0` (R129). -/
theorem Firing.rx_setX_same (f : Firing) (d : Fin 32) (v : Word) : (f.setX d v).rx d = if d = 0 then 0 else v := by
  unfold Firing.rx Firing.setX; split <;> simp
/-- Another one reads as before. -/
theorem Firing.rx_setX_other (f : Firing) (d r : Fin 32) (v : Word) (h : r ≠ d) : (f.setX d v).rx r = f.rx r := by
  have h : d.val ≠ r.val := fun e => h (Fin.ext e.symm)
  unfold Firing.rx Firing.setX; split; · rfl
  · split; · rfl
    · simp [Vector.getElem_set_ne, h]

end Sys2Proof.Machine
end

