-- ==== Sys2Proof/Tests/Slice0.lean ====
section
/-!
SUPPORT. Tests: ill-formed terms that `Instr.wf` refuses, words that the spec writes out with the instructions they stand for, a state that
meets the hypotheses of each statement, and single steps with results worked out by hand.
-/

namespace Sys2Proof
set_option Elab.async false

open Sys2Proof.Machine

/-- A decidable fact, checked by evaluation. -/
theorem checks {p : Prop} (h : p := by decide +kernel) : p := h

/-! Checks on operands. -/

theorem test_wf_refuses_cset_al : Instr.wf (.cset 0 .al 1 0 2) = false := by decide
theorem test_wf_refuses_br_al : Instr.wf (.br 0 .al 0 3 8) = false := by decide
theorem test_wf_refuses_amo_third : Instr.wf (.amo 0 .add .rlx .cl 1 2 3 4 0 .i64) = false := by decide
theorem test_wf_refuses_amo_format : Instr.wf (.amo 0 .add .rlx .cl 1 2 3 0 0 .i16) = false := by decide
theorem test_wf_refuses_amo_fadd : Instr.wf (.amo 0 .fadd .rlx .cl 1 2 3 0 0 .i32) = false := by decide
theorem test_wf_refuses_fence_relaxed : Instr.wf (.fence 0 .rlx .cl) = false := by decide
theorem test_wf_refuses_waita_both : Instr.wf (.waita 0 .rlx .cl 1 2 3 4 0 .n64) = false := by decide
theorem test_wf_refuses_waita_release : Instr.wf (.waita 0 .rel .cl 1 2 3 0 0 .n64) = false := by decide
theorem test_wf_refuses_waita_format : Instr.wf (.waita 0 .rlx .cl 1 2 3 0 0 .i64) = false := by decide
theorem test_wf_refuses_vsetvl_block : Instr.wf (.vsetvl 0 1 2 0 2 .f32) = false := by decide
theorem test_wf_refuses_vld_offset : Instr.wf (.vld 0 3 1 2 0 0 .f32) = false := by decide
theorem test_wf_refuses_vlds_format : Instr.wf (.vlds 0 1 2 3 0 0 .e2m1) = false := by decide
theorem test_wf_refuses_vldx_same : Instr.wf (.vldx 0 0 1 2 1 3 0 false false .f32) = false := by decide
theorem test_wf_refuses_vldx_format : Instr.wf (.vldx 0 0 1 2 3 4 0 false false .i4) = false := by decide
theorem test_wf_refuses_vst_offset : Instr.wf (.vst 0 1 1 2 0 0 .i8) = false := by decide
theorem test_wf_refuses_vsts_format : Instr.wf (.vsts 0 1 2 3 0 0 .tern) = false := by decide
theorem test_wf_refuses_vstx_format : Instr.wf (.vstx 0 0 1 2 3 4 0 false false .n4) = false := by decide
theorem test_wf_refuses_vadd_format : Instr.wf (.vadd 0 (.vec 1) (.vec 2) (.vec 3) 0 .f32) = false := by decide
theorem test_wf_refuses_vadd_immediate : Instr.wf (.vadd 0 (.vec 1) (.vec 2) (.imm 16) 0 .i4) = false := by decide
theorem test_wf_refuses_vsub_format : Instr.wf (.vsub 0 (.vec 1) (.vec 2) (.vec 3) 0 .f64) = false := by decide
theorem test_wf_refuses_vmul_format : Instr.wf (.vmul 0 (.vec 1) (.vec 2) (.vec 3) 0 .bf16) = false := by decide
theorem test_wf_refuses_vmulh_format : Instr.wf (.vmulh 0 (.vec 1) (.vec 2) (.vec 3) 0 .f16) = false := by decide
theorem test_wf_refuses_vmin_format : Instr.wf (.vmin 0 (.vec 1) (.vec 2) (.vec 3) 0 .f32) = false := by decide
theorem test_wf_refuses_vmax_format : Instr.wf (.vmax 0 (.vec 1) (.vec 2) (.vec 3) 0 .f32) = false := by decide
theorem test_wf_refuses_vand_immediate : Instr.wf (.vand 0 (.vec 1) (.vec 2) (.imm 4) 0 .tern) = false := by decide
theorem test_wf_refuses_vor_immediate : Instr.wf (.vor 0 (.vec 1) (.vec 2) (.imm 64) 0 .e3m2) = false := by decide
theorem test_wf_refuses_vxor_immediate : Instr.wf (.vxor 0 (.vec 1) (.vec 2) (.imm 64) 0 .e2m3) = false := by decide
theorem test_wf_refuses_vshl_format : Instr.wf (.vshl 0 (.vec 1) (.vec 2) (.vec 3) 0 .e8m0) = false := by decide
theorem test_wf_refuses_vshr_format : Instr.wf (.vshr 0 (.vec 1) (.vec 2) (.vec 3) 0 .e4m3) = false := by decide
theorem test_wf_refuses_vsra_format : Instr.wf (.vsra 0 (.vec 1) (.vec 2) (.vec 3) 0 .e5m2) = false := by decide
theorem test_wf_refuses_vfadd_format : Instr.wf (.vfadd 0 (.vec 1) (.vec 2) (.vec 3) 0 .i32) = false := by decide
theorem test_wf_refuses_vfsub_format : Instr.wf (.vfsub 0 (.vec 1) (.vec 2) (.vec 3) 0 .e4m3) = false := by decide
theorem test_wf_refuses_vfmul_format : Instr.wf (.vfmul 0 (.vec 1) (.vec 2) (.vec 3) 0 .n32) = false := by decide
theorem test_wf_refuses_vfma_stream : Instr.wf (.vfma 0 (.stream 1) (.vec 2) (.vec 3) 0 .f32) = false := by decide
theorem test_wf_refuses_vfma_format : Instr.wf (.vfma 0 (.vec 1) (.vec 2) (.vec 3) 0 .i32) = false := by decide
theorem test_wf_refuses_vfnma_stream : Instr.wf (.vfnma 0 (.stream 1) (.vec 2) (.vec 3) 0 .f32) = false := by decide
theorem test_wf_refuses_vfdiv_format : Instr.wf (.vfdiv 0 (.vec 1) (.vec 2) (.vec 3) 0 .i64) = false := by decide
theorem test_wf_refuses_vfsqrt_format : Instr.wf (.vfsqrt 0 (.vec 1) (.vec 2) 0 .i32) = false := by decide
theorem test_wf_refuses_vfmin_format : Instr.wf (.vfmin 0 (.vec 1) (.vec 2) (.vec 3) 0 .i32) = false := by decide
theorem test_wf_refuses_vfmax_format : Instr.wf (.vfmax 0 (.vec 1) (.vec 2) (.vec 3) 0 .i32) = false := by decide
theorem test_wf_refuses_vfrcp_format : Instr.wf (.vfrcp 0 (.vec 1) (.vec 2) 0 .n8) = false := by decide
theorem test_wf_refuses_vfexp2_format : Instr.wf (.vfexp2 0 (.vec 1) (.vec 2) 0 .n16) = false := by decide
theorem test_wf_refuses_vcvt_pair : Instr.wf (.vcvt 0 (.vec 1) (.vec 2) .f32 (some 3) 0 .f32) = false := by decide
theorem test_wf_refuses_vscale_format : Instr.wf (.vscale 0 (.vec 1) (.vec 2) (.vec 3) 0 .i32) = false := by decide
theorem test_wf_refuses_vcmp_m0 : Instr.wf (.vcmp 0 .eq 0 (.vec 2) (.vec 3) 0 .i32) = false := by decide
theorem test_wf_refuses_vcmp_format : Instr.wf (.vcmp 0 .eq 1 (.vec 2) (.vec 3) 0 .f32) = false := by decide
theorem test_wf_refuses_vfcmp_m0 : Instr.wf (.vfcmp 0 .eq 0 (.vec 2) (.vec 3) 0 .f32) = false := by decide
theorem test_wf_refuses_vfcmp_format : Instr.wf (.vfcmp 0 .eq 1 (.vec 2) (.vec 3) 0 .i32) = false := by decide
theorem test_wf_refuses_mand_m0 : Instr.wf (.mand 0 0 1 2) = false := by decide
theorem test_wf_refuses_mor_m0 : Instr.wf (.mor 0 0 1 2) = false := by decide
theorem test_wf_refuses_mxor_m0 : Instr.wf (.mxor 0 0 1 2) = false := by decide
theorem test_wf_refuses_mnot_m0 : Instr.wf (.mnot 0 0 1) = false := by decide
theorem test_wf_refuses_vmerge_immediate : Instr.wf (.vmerge 0 (.vec 1) (.vec 2) (.imm 255) 1 .n4) = false := by decide
theorem test_wf_refuses_vredsum_format : Instr.wf (.vredsum 0 1 2 3 0 .f32) = false := by decide
theorem test_wf_refuses_vfredsum_format : Instr.wf (.vfredsum 0 1 2 3 0 .i32) = false := by decide
theorem test_wf_refuses_vredmax_format : Instr.wf (.vredmax 0 1 2 3 0 .e4m3) = false := by decide
theorem test_wf_refuses_vredmin_format : Instr.wf (.vredmin 0 1 2 3 0 .tern) = false := by decide
theorem test_wf_refuses_vscan_format : Instr.wf (.vscan 0 1 2 3 0 false .e8m0) = false := by decide
theorem test_wf_refuses_viota_mask : Instr.wf (.viota 0 1 2 0 false .i32) = false := by decide
theorem test_wf_refuses_viota_format : Instr.wf (.viota 0 1 0 0 false .f32) = false := by decide
theorem test_wf_refuses_vslide_same : Instr.wf (.vslide 0 1 1 2 0 false .f32) = false := by decide
theorem test_wf_refuses_vgrp_range : Instr.wf (.vgrp 0 1 60 2 0 7 false false .f32) = false := by decide
theorem test_wf_refuses_vgrp_overlap : Instr.wf (.vgrp 0 5 4 2 0 3 false false .f32) = false := by decide
theorem test_wf_refuses_vgrp_index : Instr.wf (.vgrp 0 2 4 2 0 3 false false .f32) = false := by decide
theorem test_wf_refuses_vbcast_register : Instr.wf (.vbcast 0 1 2 3 0 false false .f32) = false := by decide
theorem test_wf_refuses_vbcast_bound : Instr.wf (.vbcast 0 1 0 3 0 false true .f32) = false := by decide
theorem test_wf_refuses_vappend_order : Instr.wf (.vappend 0 .rel .cl 1 2 3 0 .f32) = false := by decide
theorem test_wf_refuses_vappend_format : Instr.wf (.vappend 0 .rlx .cl 1 2 3 0 .i4) = false := by decide
theorem test_wf_refuses_vprune_format : Instr.wf (.vprune 0 1 2 3 0 1 .i32) = false := by decide
theorem test_wf_refuses_ald_format : Instr.wf (.ald 0 1 2 3 4 0 .f64) = false := by decide
theorem test_wf_refuses_ast_format : Instr.wf (.ast 0 1 2 3 4 0 .n32) = false := by decide
theorem test_wf_refuses_ast_register_format : Instr.wf (.astRegister 0 1 2 0 .i64) = false := by decide
theorem test_wf_refuses_bfly_source : Instr.wf (.bfly 0 0 1 2 3 .i8 .f32) = false := by decide
theorem test_wf_refuses_bfly_target : Instr.wf (.bfly 0 0 1 2 3 .f32 .e4m3) = false := by decide
theorem test_wf_refuses_bchain_target : Instr.wf (.bchain 0 0 1 2 3 4 .f32 .f64) = false := by decide
theorem test_wf_refuses_bblk_accumulator : Instr.wf (.bblk 0 7 1 2 3 0 .f32) = false := by decide
theorem test_wf_refuses_bblk_tile : Instr.wf (.bblk 0 1 15 2 3 0 .f32) = false := by decide
theorem test_wf_refuses_bmma_format : Instr.wf (.bmma 0 1 2 3 4 0 .f64) = false := by decide
theorem test_wf_refuses_cfill_order : Instr.wf (.cfill 0 .acq .cl 1 2 3 .n32) = false := by decide
theorem test_wf_refuses_cfill_format : Instr.wf (.cfill 0 .rlx .cl 1 2 3 .i32) = false := by decide
theorem test_wf_refuses_vscadd_order : Instr.wf (.vscadd 0 .acq .cl 1 2 3 4 0 false false 0 .f32) = false := by decide
theorem test_wf_refuses_vscadd_format : Instr.wf (.vscadd 0 .rlx .cl 1 2 3 4 0 false false 0 .bf16) = false := by decide
theorem test_wf_refuses_vamo_masks : Instr.wf (.vamo 0 .add .rlx .cl 1 2 3 4 5 false false 0 5 .i32) = false := by decide
theorem test_wf_refuses_vamo_target : Instr.wf (.vamo 0 .add .rlx .cl 3 2 3 4 0 false false 0 0 .i32) = false := by decide
theorem test_wf_refuses_vamo_format : Instr.wf (.vamo 0 .add .rlx .cl 1 2 3 4 0 false false 0 0 .i8) = false := by decide
theorem test_wf_refuses_vstc_order : Instr.wf (.vstc 0 .ar .cl 1 2 3 4 0 false false 0 .f32) = false := by decide
theorem test_wf_refuses_vstc_format : Instr.wf (.vstc 0 .rlx .cl 1 2 3 4 0 false false 0 .i4) = false := by decide
theorem test_wf_refuses_coll_format : Instr.wf (.coll 0 (.allreduce .and) .rlx .dm 1 2 3 4 0 .f32) = false := by decide
theorem test_wf_refuses_lfence_relaxed : Instr.wf (.lfence 0 .rlx .dm) = false := by decide
theorem test_wf_refuses_tlbinv_scope : Instr.wf (.tlbinv 0 .all .co 0 0) = false := by decide
theorem test_wf_refuses_tlbinv_address : Instr.wf (.tlbinv 0 .asid .dm 1 2) = false := by decide
theorem test_wf_refuses_tlbinv_identifier : Instr.wf (.tlbinv 0 .all .dm 0 2) = false := by decide
theorem test_wf_refuses_event_core : Instr.wf (.pick 160) = false := by decide

/-! Words of the spec (the tables of encoded examples of chapters 2 to 18). -/

theorem test_decode_add : decodeTableWord 64 0x0000000040C50001 = some (.add 0 5 3 4) := by decide
theorem test_decode_limh : decodeTableWord 64 0x0000123401C7001E = some (.limh 0 7 7 0x1234) := by decide
theorem test_decode_br_ne : decodeTableWord 64 0xFFFFFFFD00091020 = some (.br 0 .ne 9 0 0xFFFFFFFD) := by decide
theorem test_decode_br_lt : decodeTableWord 64 0xFFFFFFFB01032020 = some (.br 0 .lt 3 4 0xFFFFFFFB) := by decide
theorem test_decode_mfc_cycle : decodeTableWord 64 0x0000000300040028 = some (.mfc 0 4 .cycle) := by decide
theorem test_decode_mtc_bstride : decodeTableWord 64 0x0000003001000029 = some (.mtc 0 4 .bstride) := by decide
theorem test_decode_amo_cas : decodeTableWord 64 0x0830081C60C57025 = some (.amo 0 .cas .ar .cl 5 3 6 7 8 .i64) := by decide
theorem test_decode_amo_add : decodeTableWord 64 0x003010001782C025 = some (.amo 0 .add .rlx .dm 2 30 1 0 0 .i64) := by decide
theorem test_decode_waita : decodeTableWord 64 0x0038000040C65027 = some (.waita 0 .acq .cl 6 3 4 0 0 .n64) := by decide
theorem test_decode_nop : decodeTableWord 64 0x000000000000002E = some (.nop 0) := by decide
theorem test_decode_vsetvl : decodeTableWord 64 0x0280000001850040 = some (.vsetvl 0 5 6 0 2 .e2m1) := by decide
theorem test_decode_vsetvl_ln3 : decodeTableWord 64 0x0260000034800040 = some (.vsetvl 0 0 18 3 2 .e4m3) := by decide
theorem test_decode_vsetvl_rd : decodeTableWord 64 0x0000000020071040 = some (.vsetvlRd 0 7 2) := by decide
theorem test_decode_vld_bits : decodeTableWord 64 0x0380000001095041 = some (.vld 0 5 9 4 0 3 .e2m1) := by decide
theorem test_decode_vld : decodeTableWord 64 0x0028000002C10041 = some (.vld 0 0 1 11 0 0 .n32) := by decide
theorem test_decode_vlds : decodeTableWord 64 0xF840000061480042 = some (.vlds 0 8 5 6 0 0xF8 .f64) := by decide
theorem test_decode_vldx : decodeTableWord 64 0x0148003412822043 = some (.vldx 0 2 2 10 1 13 0 true false .f32) := by decide
theorem test_decode_vst : decodeTableWord 64 0x1000020000C40044 = some (.vst 0 0 4 3 2 16 .i8) := by decide
theorem test_decode_vfma : decodeTableWord 64 0x0048010061440356 = some (.vfma 3 (.vec 4) (.vec 5) (.vec 6) 1 .f32) := by decide
theorem test_decode_vfadd_streams : decodeTableWord 64 0x004800004001D053 = some (.vfadd 0 (.stream 1) (.stream 0) (.scalar 4) 0 .f32) := by decide
theorem test_decode_vcmp_immediate : decodeTableWord 64 0x0020080000412060 = some (.vcmp 0 .ne 1 (.vec 1) (.imm 0) 0 .i32) := by decide
theorem test_decode_vcmp_scalar : decodeTableWord 64 0x0028300060411060 = some (.vcmp 0 .ltn 1 (.vec 1) (.scalar 6) 0 .n32) := by decide
theorem test_decode_vfcmp : decodeTableWord 64 0x0048080003432061 = some (.vfcmp 0 .ne 3 (.vec 13) (.imm 0) 0 .f32) := by decide
theorem test_decode_vcomp : decodeTableWord 64 0x0020010010420074 = some (.vcomp 0 2 1 1 1 .i32) := by decide
theorem test_decode_vscan : decodeTableWord 64 0x012000000043006E = some (.vscan 0 3 1 0 0 true .i32) := by decide
theorem test_decode_vfredsum : decodeTableWord 64 0x0048000000C7006B = some (.vfredsum 0 7 3 0 0 .f32) := by decide
theorem test_decode_vgrp : decodeTableWord 64 0x0848010090CB0071 = some (.vgrp 0 11 3 9 1 0 true false .f32) := by decide
theorem test_decode_vspill : decodeTableWord 64 0x4048000010850077 = some (.vspill 0 5 2 1 64 .f32) := by decide
theorem test_decode_fx5 : decodeTableWord 64 0x00000000204400E5 = some (.fx 0 0 5 4 1 2 0 0 0 0) := by decide
theorem test_decode_fx3 : decodeTableWord 64 0x01000000714600E3 = some (.fx 0 0 3 6 5 7 0 0 0 1) := by decide
theorem test_decode_mbind : decodeTableWord 64 0x03000000024000D8 = some (.mbind 0 9 3) := by decide
theorem test_decode_fxstat : decodeTableWord 64 0x00000000000800DC = some (.fxstat 0 8 0) := by decide
theorem test_decode_fxres : decodeTableWord 64 0x03000000508100DB = some (.fxres 0 1 2 5 0 0 0 3) := by decide
theorem test_decode_tset : decodeTableWord 64 0x0000000001010080 = some (.tset 0 1 4) := by decide
theorem test_decode_tld : decodeTableWord 64 0x0000000072810081 = some (.tld 0 1 10 7 0) := by decide
theorem test_decode_bmma : decodeTableWord 64 0x004800002040008A = some (.bmma 0 0 1 2 0 0 .f32) := by decide
theorem test_decode_ast : decodeTableWord 64 0x0048002073000086 = some (.ast 0 0 12 7 8 0 .f32) := by decide
theorem test_decode_bchain : decodeTableWord 64 0x0950000000432088 = some (.bchain 0 2 3 1 0 0 .f32 .bf16) := by decide
theorem test_decode_bmmx : decodeTableWord 64 0x0B4800285101008B = some (.bmmx 0 1 4 5 10 0 11) := by decide
theorem test_decode_qbind_rd : decodeTableWord 64 0x00000000014000A0 = some (.qbind 0 false 0 5) := by decide
theorem test_decode_qbind_wr : decodeTableWord 64 0x00000000018110A0 = some (.qbind 0 true 1 6) := by decide
theorem test_decode_qsync : decodeTableWord 64 0x00000000000100A2 = some (.qsync 0 1) := by decide
theorem test_decode_cpyf : decodeTableWord 64 0x01000034C2CA60A5 = some (.cpyf 0 .rel .cl 10 11 12 13 1 false) := by decide
theorem test_decode_cpym : decodeTableWord 64 0x00000038C2CA10A4 = some (.cpym 0 .acq .co 10 11 12 14) := by decide
theorem test_decode_bmode : decodeTableWord 64 0x05000000000720A7 = some (.bmode 0 .fifo 7 5) := by decide
theorem test_decode_cfill : decodeTableWord 64 0x00280000C08A60A8 = some (.cfill 0 .rel .cl 10 2 12 .n32) := by decide
theorem test_decode_vamo : decodeTableWord 64 0x3920111820C570B1 = some (.vamo 0 .add .ar .cl 5 3 2 6 1 true false 2 3 .i32) := by decide
theorem test_decode_vscadd : decodeTableWord 64 0x09480200948FC0B0 = some (.vscadd 0 .rlx .dm 15 18 9 0 2 true false 2 .f32) := by decide
theorem test_decode_phend : decodeTableWord 64 0x100000000780F0B4 = some (.phend 0 .ar .dm 0 30 16) := by decide
theorem test_decode_ctake : decodeTableWord 64 0x0000000040C550B7 = some (.ctake 0 .acq .cl 5 3 4 0) := by decide
theorem test_decode_csteal : decodeTableWord 64 0x00000000A785D0B8 = some (.csteal 0 .acq .dm 5 30 10 0) := by decide
theorem test_decode_launch : decodeTableWord 64 0x00000078D30E00C0 = some (.launch 0 14 12 13 30) := by decide
theorem test_decode_yield : decodeTableWord 64 0x00000000000000C1 = some (.yield 0) := by decide
theorem test_decode_abind_off : decodeTableWord 64 0x0000000000C510C2 = some (.abindOff 0 5 3) := by decide
theorem test_decode_fcommit : decodeTableWord 64 0x00000000000000C3 = some (.fcommit 0) := by decide
theorem test_decode_spawn : decodeTableWord 64 0x00000000028B00C4 = some (.spawn 0 11 10) := by decide
theorem test_decode_olmark : decodeTableWord 64 0x0000000001C000C5 = some (.olmark 0 7) := by decide
theorem test_decode_olpause : decodeTableWord 64 0x00000000000000C6 = some (.olpause 0) := by decide
theorem test_decode_olresume : decodeTableWord 64 0x00000000000000C7 = some (.olresume 0) := by decide
theorem test_decode_olstat : decodeTableWord 64 0x01000000000500C8 = some (.olstat 0 5 1) := by decide
theorem test_decode_lput : decodeTableWord 64 0x0E000034C2CAE0D0 = some (.lput 0 .rel .dm 10 11 12 13 14) := by decide
theorem test_decode_lsend : decodeTableWord 64 0x090000207185C0D2 = some (.lsend 0 .rlx .dm 5 6 7 8 9) := by decide
theorem test_decode_coll : decodeTableWord 64 0x1848185D6554F0D3 = some (.coll 0 (.allreduce .sum) .ar .dm 20 21 22 23 24 .f32) := by decide
theorem test_decode_lwait : decodeTableWord 64 0x02000000000000D4 = some (.lwait 0 2) := by decide
theorem test_decode_lfence : decodeTableWord 64 0x000008000000E0D4 = some (.lfence 0 .rel .dm) := by decide
theorem test_decode_tmark : decodeTableWord 64 0x0500000001C000D5 = some (.tmark 0 7 5) := by decide
theorem test_decode_tsamp : decodeTableWord 64 0x00000800000900D5 = some (.tsamp 0 9) := by decide
theorem test_decode_tlbinv : decodeTableWord 64 0x000000000185A0D6 = some (.tlbinv 0 .page .sg 5 6) := by decide

/-! A small machine: core 0 runs a firing of context 1, whose descriptor, slot, fault queue, tables and submit post lie in HBM, and which
owns a scratch bank. -/

/-- Memory with the given words: address, bytes, value. -/
def memoryOf (l : List (Nat × Nat × Nat)) : List Host.Cell := l.foldl (fun m x => Memory.write m x.1 x.2.1 x.2.2) []
/-- Where the window of cluster 0 begins. -/
def window : Nat := 0xFFFFFF800000
/-- What stands in memory: the context's descriptor, the four levels that map 0x40000 to 0x7000000, and the launch entry 3. -/
def smallMem : List (Nat × Nat × Nat) :=
  [(0x1000100, 1, 1), (0x1000104, 2, 1), (0x1000108, 8, 0x5000000), (0x1000110, 8, 0x2000000), (0x1000118, 2, 64),
   (0x1000120, 8, 0x3000000), (0x1000128, 1, 6), (0x1000148, 8, 0x5001), (0x1000150, 8, 0x6001), (0x40000C0, 8, 0x40000),
   (0x40000C8, 4, 2), (0x40000E8, 2, 1), (0x5000000, 8, 0x5001003), (0x5001000, 8, 0x5002003), (0x5002000, 8, 0x5003003),
   (0x5003200, 8, 0x70000ED)]
/-- The machine, with more words in memory and its firing changed. -/
def small (l : List (Nat × Nat × Nat)) (g : Firing → Firing) : State :=
  { State.reset with
    mgmt := { State.reset.mgmt with
      ready := true, run := true, bridge := true, based := 7, ctxbase := 0x1000000, mslotbase := 0x8000000, ltbase := 0x4000000 }
    banks := SMap.put {} 0 { mode := .scratch, gv := true, gasid := 1 } []
    mem := memoryOf (smallMem ++ l)
    launches := [(3, some { okind := 1, spost := 0, pfid := 0, pord := 0 })]
    slots := [(slotKey 1 0, some { info := { asid := 1, lid := 3 }, onCore := some 0 })]
    core := { State.reset.core with
      running := true
      info := { State.reset.core.info with asid := 1, lid := 3 }
      f := g { State.reset.core.f with fpc := 0x4000 } } }
/-- A firing with scalar registers from 1 on. -/
def withX (l : List Nat) (f : Firing) : Firing :=
  { f with x := Vector.ofFn fun r => if r = 0 then 0 else BitVec.ofNat 64 (l.getD (r.val - 1) 0) }

/-- A check of what an instruction makes of a state. -/
def after (i : Instr) (s : State) (p : State → Bool) : Bool := match exec i s with | .next t => p t | _ => false

/-! When the conditions of the statements hold, as checks that evaluate. -/

def issuesB (s : State) : Bool :=
  s.core.ahead.isNone && s.core.budget.isNone && s.core.cur.isNone && s.stores.isEmpty &&
    decide (ctxAddr s s.core.info.asid 0 + 256 ≤ 64000000000) && decide (bits (s.ctxRaw s.core.info.asid 0 4) 2 2 ≠ 2) &&
    decide (s.core.f.badX = 0 ∧ s.core.f.xp = 0) && s.core.f.pend.isEmpty && s.overlaps.isEmpty

theorem populated_low {a : Nat} (h : a < 64000000000) : populated a = true := by
  have h1 : a / 2 ^ 36 = 0 := Nat.div_eq_of_lt (by omega)
  have h2 : a % 2 ^ 36 = a := Nat.mod_eq_of_lt (by omega)
  simp only [populated, h1, h2]
  simp [h]

theorem issues_of {s : State} (h : issuesB s = true) (regs : List (Fin 32)) : Issues s regs := by
  simp only [issuesB, Bool.and_eq_true, decide_eq_true_eq, Option.isNone_iff_eq_none, List.isEmpty_iff] at h
  obtain ⟨⟨⟨⟨⟨⟨⟨⟨h1, h2⟩, h3⟩, h4⟩, h5⟩, h6⟩, h7, h8⟩, h9⟩, h10⟩ := h
  refine ⟨h1, h10, h2, h3, h4, fun off ho => populated_low ?_, h6, fun r _ => .inr ?_, by simp [h9]⟩
  · simp only [ctxAddr] at h5 ⊢; omega
  · simp [h7, h8]

def quietB (s : State) : Bool := !trTen s.core.trace && s.core.trace.pending.isNone
theorem dispatches_of {s : State} (h : (issuesB s && quietB s && s.core.vat.isNone) = true) (regs : List (Fin 32)) : Dispatches s regs := by
  simp only [Bool.and_eq_true, quietB, Option.isNone_iff_eq_none, Bool.not_eq_true'] at h
  exact ⟨issues_of h.1.1 regs, h.1.2, h.2⟩

def laneB (s : State) : Bool := issuesB s && quietB s && s.core.vat.isNone && decide (s.core.f.badM = 0) && s.core.f.resident.isEmpty
theorem laneOk_of {s : State} (h : laneB s = true) (xs : List (Fin 32)) (ms : List (Fin 8)) (vs : List (Fin 64)) (hv : vs.length ≤ 32) :
    LaneOk s xs ms vs := by
  simp only [laneB, Bool.and_eq_true, decide_eq_true_eq, List.isEmpty_iff] at h
  refine ⟨dispatches_of (by simp [h.1.1]) xs, fun m _ => .inr (by simp [h.1.2]), ?_⟩
  have := List.length_filter_le (fun n => !s.core.f.resident.contains n) vs
  simp only [Room, h.2, List.length_nil] at this ⊢; omega

theorem pressOk_of {s : State} (h : laneB s = true)
    (ht : decide ((∀ k : Fin 16, s.core.f.t[k].bad = 0) ∧ ∀ k : Fin 8, s.core.f.a[k].bad = 0) = true)
    (xs : List (Fin 32)) (ms : List (Fin 8)) (vs : List (Fin 64)) (hv : vs.length ≤ 32) : PressOk s xs ms vs :=
  ⟨laneOk_of h xs ms vs hv, (of_decide_eq_true ht).1, (of_decide_eq_true ht).2⟩

def memB (s : State) : Bool :=
  !s.core.badLsq && !s.core.badBeat && !fenced s && s.storeLags.isEmpty && s.covers.isEmpty && decide (s.writer = 0) &&
    s.tokens.isEmpty && s.core.l1.isEmpty && s.late.isEmpty
theorem memOk_of {s : State} (h : memB s = true) : MemOk s := by
  simp only [memB, Bool.and_eq_true, decide_eq_true_eq, List.isEmpty_iff, Bool.not_eq_true'] at h
  obtain ⟨⟨⟨⟨⟨⟨⟨⟨h1, h2⟩, h3⟩, h4⟩, h5⟩, h6⟩, h7⟩, h8⟩, h9⟩ := h
  exact ⟨⟨h1, h2, h3, h4, ⟨h5, h6⟩, by simp [h7], by simp [h9]⟩, by simp [Coherent, h8]⟩

def presentB (s : State) (l : List (Nat × Nat)) : Bool :=
  l.all fun x => decide (x.1 + x.2 ≤ 64000000000) && !s.isPoisoned x.1 x.2
theorem present_of {s : State} {l : List (Nat × Nat)} (h : presentB s l = true) : Present s l := by
  simp only [presentB, Bool.and_eq_true, List.all_eq_true, decide_eq_true_eq, Bool.not_eq_true'] at h
  intro x hx
  exact ⟨fun off ho => populated_low (by have := (h x hx).1; omega), (h x hx).2⟩

def stopsB (s : State) : Bool :=
  issuesB s && presentB s [(s.slotAt, 2 ^ 20)] &&
    decide (s.slotAt + 2 ^ 20 ≤ ctxAddr s s.core.info.asid 0 ∨ ctxAddr s s.core.info.asid 256 ≤ s.slotAt) && !bit (s.desc 0 4) 1 &&
    quietB s && s.core.f.queue.isEmpty && s.core.vat.isNone && decide (∀ q : Fin 8, (s.core.f.q[q]).held = []) &&
    (s.session s.core.info.asid).stalls.isEmpty
theorem stops_of {s : State} (h : stopsB s = true) (regs : List (Fin 32)) : Stops s regs := by
  simp only [stopsB, quietB, Bool.and_eq_true, decide_eq_true_eq, List.isEmpty_iff, Bool.not_eq_true', Option.isNone_iff_eq_none] at h
  obtain ⟨⟨⟨⟨⟨⟨⟨⟨h1, h2⟩, h3⟩, h4⟩, h5⟩, h6⟩, h7⟩, h8⟩, h9⟩ := h
  exact ⟨issues_of h1 regs, ⟨present_of h2, h3, h4, h5⟩, h6, h7, h8, by simp [h9]⟩

def stillB (s : State) : Bool :=
  s.tokens.isEmpty && (s.cores.all fun c => c.cmds.toList.all (·.isNone)) &&
    decide (∀ q : Fin 8, (s.core.f.q[q]).held = [] ∧ (s.core.f.q[q]).fetched = [] ∧ (s.core.f.q[q]).drainFault = none) &&
    s.core.f.linkCauses.isEmpty && s.late.isEmpty && (s.banks.all fun x => x.2.switchTo.isNone) && s.core.running &&
    !trSen s.core.trace
theorem still_of {s : State} (h : stillB s = true) : Still s := by
  simp only [stillB, Bool.and_eq_true, decide_eq_true_eq, List.isEmpty_iff, List.all_eq_true, Option.isNone_iff_eq_none, Bool.not_eq_true'] at h
  obtain ⟨⟨⟨⟨⟨⟨⟨h1, h2⟩, h3⟩, h4⟩, h5⟩, h6⟩, h7⟩, h8⟩ := h
  exact ⟨h1, h2, h3, h4, h5, h6, h7, h8⟩
theorem idle_of {s : State} (h : (stillB s && s.submits.isEmpty) = true) : Idle s := by
  simp only [Bool.and_eq_true, List.isEmpty_iff] at h
  exact ⟨still_of h.1, h.2⟩

def queueB (s : State) : Bool :=
  let q := s.desc 0x20 8
  let n := s.desc 0x28 1
  let c := fun off => ctxAddr s s.core.info.asid off
  decide (6 ≤ n ∧ n ≤ 16 ∧ (q + 32 * 2 ^ n ≤ c 0 ∨ c 256 ≤ q) ∧ (q + 32 * 2 ^ n ≤ s.slotAt ∨ s.slotAt + 2 ^ 20 ≤ q) ∧
    (s.desc 0x34 4 + 1) % 2 ^ n ≠ s.desc 0x30 4 % 2 ^ n ∧ s.core.info.asid ∉ s.lostOwed) &&
    presentB s [(q, 32 * 2 ^ n), (c 0, 256)]
theorem queueHere_of {s : State} (h : queueB s = true) : QueueHere s := by
  simp only [queueB, Bool.and_eq_true, decide_eq_true_eq] at h
  obtain ⟨⟨h1, h2, h3, h4, h5, h6⟩, h7⟩ := h
  exact ⟨⟨h1, h2⟩, present_of h7, h3, h4, h5, h6⟩

def reachesB (s : State) (need : Need) (l : List (Word × Nat)) : Bool :=
  l.all fun x => (s.hit need x.1 x.2).isSome && !s.isPoisoned (s.locOf need x.1 x.2 / 8 * 8) 8
theorem reaches_of {s : State} {need : Need} {l : List (Word × Nat)} (h : reachesB s need l = true) : Reaches s need l := by
  simp only [reachesB, List.all_eq_true, Bool.and_eq_true, Bool.not_eq_true'] at h
  exact h

def farB (s : State) (asid : Nat) (va : Word) (n : Nat) : Bool :=
  (List.range n).all fun j => (s.farLoc asid (va + BitVec.ofNat 64 j)).any fun loc => !s.isPoisoned (loc / 8 * 8) 8
theorem farReach_of {s : State} {asid : Nat} {va : Word} {n : Nat} (h : farB s asid va n = true) : FarReach s asid va n := by
  simp only [farB, List.all_eq_true, List.mem_range] at h
  intro j hj
  have := h j hj
  cases hl : s.farLoc asid (va + BitVec.ofNat 64 j) with
  | none => simp [hl] at this
  | some loc => exact ⟨loc, rfl, by simpa [hl] using this⟩

def farOkB (s : State) (asid : Nat) : Bool :=
  presentB s [(ctxAddr s asid 0, 256)] && !descBad s asid && !bit (s.ctxRaw asid 0 4) 1 &&
    decide (bits (s.ctxRaw asid 0 4) 2 2 = 0 ∧ s.ctxRaw asid 0x7C 4 / 65536 = s.ctxRaw asid 0x7A 2 ∧ asid < 16384)
theorem farOk_of {s : State} {asid : Nat} (h : farOkB s asid = true) : FarOk s asid := by
  simp only [farOkB, Bool.and_eq_true, decide_eq_true_eq, Bool.not_eq_true'] at h
  obtain ⟨⟨⟨h1, h2⟩, h3⟩, h4, h5, h6⟩ := h
  exact ⟨present_of h1, h2, h3, h4, h5, h6⟩

/-- Nothing has been issued ahead, no handler is active, and the vector of the firing's level names one. -/
def trapB (s : State) : Bool :=
  stopsB s && s.leads.isEmpty && !s.core.f.trap.act && decide (s.desc (if s.core.f.level = 0 then 0x48 else 0x50) 8 % 2 = 1)
theorem trapReady_of {s : State} (h : trapB s = true) (regs : List (Fin 32)) : TrapReady s regs := by
  simp only [trapB, Bool.and_eq_true, List.isEmpty_iff, Bool.not_eq_true', decide_eq_true_eq] at h
  obtain ⟨⟨⟨h1, h2⟩, h3⟩, h4⟩ := h
  exact ⟨stops_of h1 regs, h2, h3, h4⟩

def unmappedB (s : State) (va : Word) (n : Nat) : Bool :=
  decide (va.toNat < 2 ^ 48 ∧ va.toNat % n = 0 ∧ inWindow va = false) && s.core.tlb.all (fun e => !e.covers s.core.info.asid va.toNat) &&
    (SMap.get [] (clusterOf s.core.id) s.ctlbs).all (fun e => !e.covers s.core.info.asid va.toNat) && populated (s.desc 0x08 8) &&
    match walkLevels s va.toNat 3 (s.desc 0x08 8) with | .error c => decide (c = 0x20) | .ok _ => false
theorem unmapped_of {s : State} {va : Word} {n : Nat} (h : unmappedB s va n = true) : Unmapped s va n := by
  simp only [unmappedB, Bool.and_eq_true, decide_eq_true_eq] at h
  obtain ⟨⟨⟨⟨h1, h2⟩, h3⟩, h4⟩, h5⟩ := h
  refine ⟨h1, h2, h3, h4, ?_⟩
  cases hw : walkLevels s va.toNat 3 (s.desc 0x08 8) with
  | error c => simp only [hw, decide_eq_true_eq] at h5; rw [h5]
  | ok y => simp [hw] at h5

def apartB : List (Nat × Nat) → Bool
  | [] => true
  | x :: r => (r.all fun y => decide (x.1 + x.2 ≤ y.1 ∨ y.1 + y.2 ≤ x.1)) && apartB r
theorem apart_of : {l : List (Nat × Nat)} → apartB l = true → Apart l
  | [], _ => trivial
  | _ :: _, h => by
    simp only [apartB, Bool.and_eq_true, List.all_eq_true, decide_eq_true_eq] at h
    exact ⟨h.1, apart_of h.2⟩

/-! Each statement's hypotheses are met. -/

/-- `x1` is the window's first byte, `x3` one 0x200 further, `x4` the page of the table, `x2` 7 and `x5` 16. -/
def base : State := small [(quireBase + 0x208, 8, 1)] (withX [window, 7, window + 0x200, 0x40000, 16])
/-- The same at level S. -/
def baseS : State := base.onF fun f => { f with level := 1 }
/-- The same with the words of the window's first line poisoned. -/
def baseP : State := { base with poison := (List.range 16).map (quireBase / 8 + ·) }
/-- Where the first bytes of the window are. -/
def place0 : Place := ⟨quireBase, false⟩

theorem base_issues (regs : List (Fin 32)) : Issues base regs := issues_of checks regs
theorem base_mem : MemOk base := memOk_of checks
theorem base_stops (regs : List (Fin 32)) : Stops base regs := stops_of checks regs
theorem base_unlogged : Unlogged base := by unfold Unlogged; decide +kernel
theorem base_idle : Idle base := idle_of checks

/-- A machine about to fetch `nop`. -/
def fetching : State := State.reset.withFetchWord 64 0x2E
theorem witness_StepRunsDecoded_fetch :
    traceWrites (prepare fetching) = (.ok (), fetching) ∧ fetching.agenda = [] ∧ fetching.turns = [] ∧ fetching.core.running = true ∧
      trSen (fetching.core.trace.inForce fetching.cycle.toNat) = false ∧ fetching.core.wait = none ∧ bit fetching.core.trace.bkpt 0 = false ∧
      fetching.held < fetching.mgmt.schedq ∧ fetching.core.ahead = none ∧ fetching.core.f.queue = [] ∧
      Hits fetching needFetch fetching.core.f.fpc 8 ⟨fetchPage * 4096, true⟩ ∧ fetching.isPoisoned (fetchPage * 4096) 8 = false ∧
      (fetching.core.badBeat = false ∧ fetching.stores = [] ∧ fetching.tokens = []) ∧
      decode (Memory.read fetching.mem (fetchPage * 4096) 8) = .ok (.nop 0) := by
  refine ⟨by rfl, checks, checks, checks, checks, checks, checks,
    checks, checks, checks, ?_, checks, checks, by rfl⟩
  unfold Hits; decide +kernel
/-- A queue entry of `vadd`. -/
def vaddEntry : DumpEntry :=
  { word := (encode (.vadd 0 (.vec 1) (.vec 2) (.vec 3) 0 .i32)).getD 0, pc := 0x4000, scal := Vector.replicate 4 0, prog := 0, vlen := 0,
    engine := 1, started := false, pcm := false, raiser := false, ordn := 0, mask := 0 }
theorem witness_StepRunsDecoded_queue :
    heldFollow fetching vaddEntry = none ∧ decode vaddEntry.word = .ok (.vadd 0 (.vec 1) (.vec 2) (.vec 3) 0 .i32) :=
  ⟨by rfl, by rfl⟩
theorem witness_DecodeEncode : Instr.wf (.add 0 5 3 4) = true ∧ encode (.add 0 5 3 4) = some 0x0000000040C50001 := by decide +kernel
theorem witness_StepKeepsCanonical : State.reset.Canonical ∧ (match step State.reset with | .next _ => true | _ => false) = true :=
  ⟨rfl, checks⟩

theorem witness_NoOperation : Issues base [] := base_issues []
theorem witness_ScalarArithmetic : Issues base [1, 2] ∧ Issues base [1] := ⟨base_issues _, base_issues _⟩
theorem witness_ScalarImmediates : Issues base [1] ∧ 64 ≤ (64#32).toNat := ⟨base_issues _, by decide⟩
theorem witness_BranchesAndJumps :
    Issues base [2, 5] ∧ Cond.holds .lt (base.rx 2) (base.rx 5) = true ∧ Cond.holds .eq (base.rx 2) (base.rx 5) = false ∧
      (base.core.f.fpc + 8 * 1).toNat < 2 ^ 48 ∧ (base.core.f.fpc + 8 * 1).toNat % 8 = 0 ∧ (base.rx 5).toNat < 2 ^ 48 ∧
      (base.rx 5).toNat % 8 = 0 := ⟨base_issues _, checks⟩
/-- The targets are above the 48 bits of an address, or no multiple of 8. -/
theorem witness_BranchesAndJumps_traps :
    Stops base [2, 5] ∧ base.core.f.trap.act = false ∧ base.desc 0x48 8 % 2 = 1 ∧ 2 ^ 48 ≤ (base.core.f.fpc + 8 * (-2049)).toNat ∧
      Cond.holds .lt (base.rx 2) (base.rx 5) = true ∧ 2 ^ 48 ≤ (base.rx 5 + (-17)).toNat ∧ (base.rx 5 + 4).toNat < 2 ^ 48 ∧
      (base.rx 5 + 4).toNat % 8 ≠ 0 := ⟨base_stops _, by decide +kernel⟩
theorem witness_ReadControl : Issues base [] ∧ base.core.id < 160 := ⟨base_issues _, checks⟩
theorem witness_WriteControl :
    Issues baseS [2] ∧ 1 ≤ baseS.core.f.level ∧ (baseS.bank 1).mode = .cache ∧ (baseS.bank 0).mode ≠ .cache ∧ baseS.tokens = [] :=
  ⟨issues_of checks _, checks⟩
theorem witness_Privilege : Stops base [] ∧ base.core.f.level = 0 ∧ base.core.f.trap.act = false ∧ base.desc 0x48 8 % 2 = 1 :=
  ⟨base_stops _, checks⟩
theorem witness_ScalarLoad :
    Issues base [1] ∧ MemReady base ∧ Coherent base ∧ Hits base needLoad (base.rx 1) 8 place0 ∧ base.isPoisoned place0.loc 8 = false ∧
      Issues baseP [1] ∧ MemReady baseP ∧ Coherent baseP ∧ Hits baseP needLoad (baseP.rx 1) 8 place0 ∧
      baseP.isPoisoned place0.loc 8 = true := by
  have hp : MemOk baseP := memOk_of checks
  refine ⟨base_issues _, base_mem.toMemReady, base_mem.coherent, ?_, checks, issues_of checks _, hp.toMemReady,
    hp.coherent, ?_, checks⟩ <;> unfold Hits <;> decide +kernel
theorem witness_ScalarStore :
    Issues base [1, 2] ∧ MemReady base ∧ Coherent base ∧ Hits base needStore (base.rx 1) 8 place0 ∧
      base.isPoisoned (place0.loc / 8 * 8) 8 = false := by
  refine ⟨base_issues _, base_mem.toMemReady, base_mem.coherent, ?_, checks⟩
  unfold Hits; decide +kernel
theorem witness_ScalarAtomic :
    Issues base [1, 2, 0] ∧ MemReady base ∧ Unlogged base ∧ base.core.running = true ∧
      Instr.wf (.amo 0 .add .rlx .cl 6 1 2 0 0 .i64) = true ∧ Hits base needBoth (base.rx 1) 8 place0 ∧
      scopeBad .cl (base.rx 1) = false ∧ base.isPoisoned (place0.loc / 8 * 8) 8 = false ∧ base.tokens = [] := by
  refine ⟨base_issues _, base_mem.toMemReady, base_unlogged, checks, checks, ?_, checks⟩
  unfold Hits; decide +kernel
theorem witness_FenceAndWait :
    Issues base [1, 2, 5] ∧ MemReady base ∧ Unlogged base ∧ Instr.wf (.waita 0 .acq .cl 6 1 2 0 0 .n64) = true ∧
      Instr.wf (.waita 0 .acq .cl 6 1 0 5 0 .n64) = true ∧ Hits base needLoad (base.rx 1) 8 place0 ∧
      scopeBad .cl (base.rx 1) = false ∧ base.isPoisoned place0.loc 8 = false ∧ base.core.watch = none ∧
      Memory.read base.mem place0.loc 8 ≠ (base.rx 2).toNat ∧ Memory.read base.mem place0.loc 8 ≠ (base.rx 5).toNat := by
  refine ⟨base_issues _, base_mem.toMemReady, base_unlogged, checks, checks, ?_, checks⟩
  unfold Hits; decide +kernel
theorem witness_SoftwareTraps :
    (Stops base [] ∧ base.core.f.trap.act = false ∧ base.desc 0x50 8 % 2 = 1 ∧ base.desc 0x48 8 % 2 = 1 ∧ bit (base.desc 0 4) 5 = false) ∧
      Stops baseS [2] ∧ QueueHere baseS ∧ Idle baseS ∧ 1 ≤ baseS.core.f.level :=
  ⟨⟨base_stops _, checks⟩, stops_of checks _, queueHere_of checks, idle_of checks,
    checks⟩
/-- In a handler; with one dumped entry. -/
def inHandler (n : Nat) : State := base.onF fun f => { f with trap := { f.trap with act := true, dumpn := n } }
/-- In a handler whose `SKIP` names the dumped entry, a `vld` of the lanes. -/
def skipping : State := { (inHandler 1).onF fun f => { f with trap := { f.trap with skip := true, dvalid := true, didx := 0 } } with
  mem := memoryOf (smallMem ++ [(base.slotAt + 0x1900, 8, 20266198327623745), (base.slotAt + 0x193A, 1, 1)]) }
theorem skipping_word :
    Memory.read skipping.mem (skipping.slotAt + 0x1900) 8 = 20266198327623745 := checks
theorem witness_ReturnFromTrap :
    Stops (inHandler 0) [] ∧ Stops (inHandler 1) [] ∧ Stops base [] ∧ (inHandler 1).desc 0x48 8 % 2 = 1 ∧
      (inHandler 1).desc 0x50 8 % 2 = 1 ∧ (inHandler 0).core.f.trap.act = true ∧ (inHandler 0).core.f.trap.dumpn = 0 ∧
      (inHandler 1).core.f.trap.dumpn = 0 + 1 ∧ (inHandler 1).core.f.trap.skip = false ∧ base.core.f.trap.act = false ∧
      (Stops skipping [] ∧ skipping.desc 0x48 8 % 2 = 1 ∧ skipping.desc 0x50 8 % 2 = 1 ∧ skipping.core.f.trap.act = true ∧
        skipping.core.f.trap.dumpn = 0 + 1 ∧ skipping.core.f.trap.skip = true ∧ skipping.core.f.trap.dvalid = true ∧
        skipping.core.f.trap.didx ≤ 0 ∧ Memory.read skipping.mem (skipping.slotAt + 0x193A) 1 % 8 = 1) ∧
      decode (Memory.read skipping.mem (skipping.slotAt + 0x1900) 8) = .ok (.vld 0 0 4 1 0 0 .f32) :=
  ⟨stops_of checks _, stops_of checks _, base_stops _, checks, checks, checks, checks, checks, checks, checks,
    ⟨stops_of checks _, checks⟩,
    by rw [skipping_word]; rfl⟩
theorem witness_YieldAndEnd :
    Stops base [] ∧ Idle base ∧ Unlogged base ∧ base.core.info.actor = none ∧ base.core.info.kind ≠ 3 ∧
      SMap.get none 3 base.launches = some { okind := 1, spost := 0, pfid := 0, pord := 0 } ∧ Present base [(launchAddr base 3, 64)] ∧
      (launchAddr base 3 + 64 ≤ ctxAddr base 1 0 ∨ ctxAddr base 1 256 ≤ launchAddr base 3) ∧ bit base.core.f.prog.toNat 40 = false ∧
      Memory.read base.mem (launchAddr base 3) 8 = 0x40000 ∧ Memory.read base.mem (launchAddr base 3 + 8) 4 = 2 ∧
      ({ base with mem := Memory.write base.mem (launchAddr base 3 + 8) 4 1 } : State).walked
        (Memory.read base.mem (launchAddr base 3 + 0x28) 2) 0 needBoth 0x40000 = some 0x7000000 ∧
      base.isPoisoned 0x7000000 8 = false ∧ Apart [(0x7000000, 8), (launchAddr base 3, 64)] :=
  ⟨base_stops _, base_idle, base_unlogged, checks, checks, checks, present_of checks,
    checks, checks, checks, checks, checks, checks,
    apart_of checks⟩
theorem witness_TlbInvalidate : Issues baseS [1, 2] ∧ 1 ≤ baseS.core.f.level ∧ baseS.tokens = [] ∧ ∀ x ∈ baseS.others, x.2.id = x.1 :=
  ⟨issues_of checks _, checks⟩
theorem witness_VectorLength : Issues base [2] := base_issues _

/-- A run of two elements: `v1` holds 5 and 2^32 - 3, `v2` holds 2 and 3, `v3` the indices 0 and 2 of 16 bits. -/
def lanes : State := base.onF fun f => { f with
  ln := f.ln.set 0 { count := 2 }
  v := ((f.v.set 1 { bits := 0xFFFFFFFD00000005, len := 8 }).set 2 { bits := 0x0000000300000002, len := 8 }).set 3
    { bits := 0x00020000, len := 4 } }
/-- The same with blocks of 32 elements. -/
def blocks : State := lanes.onF fun f => { f with vblk := 2 }
theorem lanes_ok (xs : List (Fin 32)) (ms : List (Fin 8)) (vs : List (Fin 64)) (h : vs.length ≤ 32) : LaneOk lanes xs ms vs :=
  laneOk_of checks xs ms vs h
theorem lanes_mem : MemOk lanes := memOk_of checks
theorem lanes_unlogged : Unlogged lanes := by unfold Unlogged; decide +kernel

theorem witness_LaneInteger :
    LaneOk lanes (bRegs (.vec 2)) [0] ([4, 1] ++ bVec (.vec 2)) ∧ Instr.wf (.vadd 0 (.vec 4) (.vec 1) (.vec 2) 0 .i32) = true ∧
      Instr.wf (.vsra 0 (.vec 4) (.vec 1) (.vec 2) 0 .i32) = true :=
  ⟨lanes_ok _ _ _ (by decide), checks⟩
theorem witness_LaneFloat :
    LaneOk lanes (bRegs (.vec 2)) [0] ([4, 1] ++ bVec (.vec 2)) ∧ Instr.wf (.vfma 0 (.vec 4) (.vec 1) (.vec 2) 0 .f32) = true ∧
      Instr.wf (.vscale 0 (.vec 4) (.vec 1) (.vec 2) 0 .f32) = true ∧ Instr.wf (.vfsqrt 0 (.vec 4) (.vec 1) 0 .f32) = true :=
  ⟨lanes_ok _ _ _ (by decide), checks⟩
theorem witness_LaneConvert :
    LaneOk blocks [] [0] [4, 1, 2] ∧ Fmt.f32.width = Fmt.f32.width ∧ Instr.wf (.vcvt 0 (.vec 4) (.vec 1) .f32 none 0 .bf16) = true ∧
      Instr.wf (.vcvt 0 (.vec 4) (.vec 1) .f32 (some 2) 0 .e4m3) = true ∧
      Instr.wf (.vcvt 0 (.vec 4) (.vec 1) .e4m3 (some 2) 0 .f32) = true ∧ 0 < [0, 16, 32, 64].getD blocks.core.f.vblk 0 :=
  ⟨laneOk_of checks _ _ _ (by decide), checks⟩
theorem witness_CompareAndMask :
    LaneOk lanes (bRegs (.vec 2)) [0] ([4, 1] ++ bVec (.vec 2)) ∧
      (∀ e, e < (freshRun lanes.core.f 32 0).evl → (freshRun lanes.core.f 32 0).active e = true →
        lanes.core.f.v[1].elemPoison 32 e = false ∧ bPoison lanes.core.f 32 e (.vec 2) = false) ∧
      Instr.wf (.vcmp 0 .lt 1 (.vec 1) (.vec 2) 0 .i32) = true ∧ Instr.wf (.vfcmp 0 .lt 1 (.vec 1) (.vec 2) 0 .f32) = true ∧
      Instr.wf (.vmerge 0 (.vec 4) (.vec 1) (.vec 2) 1 .i32) = true ∧ LaneOk lanes [] [1, 2] [] :=
  ⟨lanes_ok _ _ _ (by decide), checks, checks, checks, checks, lanes_ok _ _ _ (by decide)⟩
theorem witness_ReduceAndScan :
    LaneOk lanes [2] [0] [1] ∧
      (∀ e ∈ (List.range (freshRun lanes.core.f 32 0).evl).filter (freshRun lanes.core.f 32 0).active,
        lanes.core.f.v[1].elemPoison 32 e = false) ∧
      Instr.wf (.vredsum 0 6 1 2 0 .i32) = true ∧ Instr.wf (.vfredsum 0 6 1 2 0 .f32) = true ∧ Instr.wf (.vredmax 0 6 1 2 0 .i32) = true ∧
      Instr.wf (.vredmin 0 6 1 2 0 .i32) = true ∧ fpFmt .f32 = true ∧ LaneOk lanes [2] [0, 1] [4, 1] ∧
      Instr.wf (.vscan 0 4 1 2 0 true .i32) = true ∧ Instr.wf (.viota 0 4 1 0 true .i32) = true :=
  ⟨lanes_ok _ _ _ (by decide), checks, checks, checks, checks, checks,
    checks, lanes_ok _ _ _ (by decide), checks, checks⟩
theorem witness_MoveAndExtract :
    LaneOk lanes [2] [0] ([4, 3] ++ (List.range 1).map fun i => Fin.ofNat 64 (1 + i)) ∧ Instr.wf (.vslide 0 4 1 2 0 true .i32) = true ∧
      Instr.wf (.vgrp 0 4 1 3 0 0 false true .i32) = true ∧
      (∀ e, e < (freshRun lanes.core.f 32 0).evl → (freshRun lanes.core.f 32 0).active e = true →
        lanes.core.f.v[3].elem 16 e < min 1024 0xFFFF) ∧
      (lanes.rx 2).toNat < min 16384 (32768 / 32) ∧ Instr.wf (.vbcast 0 4 1 2 0 true true .i32) = true ∧
      Instr.wf (.vbcast 0 4 0 2 0 false false .i32) = true ∧ LaneOk lanes [2] [0] [4, 1] ∧ Instr.wf (.vcomp 0 4 1 1 0 .i32) = true ∧
      Instr.wf (.vextr 0 6 1 2 true .i32) = true ∧ lanes.core.f.v[1].elemPoison 32 7 = false :=
  ⟨lanes_ok _ _ _ (by decide), checks, checks, checks, checks, checks,
    checks, lanes_ok _ _ _ (by decide), checks⟩
/-- A work vector at `x3`: its elements at the window's byte 0x400, nothing appended yet, room for one. -/
def appending : State := (small [(quireBase + 0x200, 8, window + 0x400), (quireBase + 0x210, 8, 1)] (withX [window, 7, window + 0x200])).onF
  fun _ => { lanes.core.f with x := (withX [window, 7, window + 0x200] lanes.core.f).x }
theorem witness_PruneAndAppend :
    (LaneOk lanes [2] [0] [4, 1] ∧ Instr.wf (.vprune 0 4 1 2 0 1 .f32) = true) ∧
    LaneOk appending [3] [0] [1] ∧ MemOk appending ∧ Unlogged appending ∧ appending.core.running = true ∧
      Instr.wf (.vappend 0 .rlx .cl 6 3 1 0 .i32) = true ∧ scopeBad .cl (appending.rx 3) = false ∧
      Reaches appending needLoad [(appending.rx 3, 8), (appending.rx 3 + 16, 8)] ∧ Reaches appending needBoth [(appending.rx 3 + 8, 8)] ∧
      (∀ e, e < 2 → appending.core.f.v[1].elemPoison 32 e = false) ∧ Reaches appending needStore [(BitVec.ofNat 64 (window + 0x400), 4)] ∧
      appending.tokens = [] :=
  ⟨⟨lanes_ok _ _ _ (by decide), checks⟩, laneOk_of checks _ _ _ (by decide), memOk_of checks,
    by unfold Unlogged; decide +kernel, checks, checks, checks, reaches_of checks,
    reaches_of checks, checks, reaches_of checks, checks⟩
/-- With the first group of bytes of the registers named poisoned. -/
def spoil (s : State) (vs : List (Fin 64)) : State :=
  s.onF fun f => { f with v := Vector.ofFn fun n => if n ∈ vs then { f.v[n] with poison := 1 } else f.v[n] }
theorem witness_PruneAndAppend_poison :
    let s := spoil lanes [1]
    LaneOk s [2] [0] [4, 1] ∧ TrapReady s [2] ∧ Instr.wf (.vprune 0 4 1 2 0 1 .f32) = true ∧
      (freshRun s.core.f 32 0).active 0 = true ∧ s.core.f.v[1].elemPoison 32 0 = true :=
  ⟨laneOk_of checks _ _ _ (by decide), trapReady_of checks _, checks⟩
/-- Stream 0 reads, with its first block fetched, and stream 1 writes, each of 128 bytes. -/
def streaming : State := lanes.onF fun f =>
  let q : Stream := { base := BitVec.ofNat 64 window, stride := #v[4, 0, 0, 0], cnt := #v[31, 0, 0, 0], esize := 2, bound := true }
  { f with q := (f.q.set 0 { q with fetched := [{ idx := 0, bits := 7, poison := false }] }).set 1 { q with dir := true } }
theorem witness_StreamOperands :
    LaneOk streaming (bRegs (.vec 2)) [0] ([4, 1] ++ bVec (.vec 2)) ∧ (freshRun streaming.core.f 32 0).empty = false ∧
      (∀ e, e < (freshRun streaming.core.f 32 0).evl → bPoison streaming.core.f 32 e (.vec 2) = false ∧
        streaming.core.f.v[1].elemPoison 32 e = false) ∧ Instr.wf (.vadd 0 (.vec 4) (.vec 1) (.vec 2) 0 .i32) = true ∧
      (let r := streaming.core.f.q[0]
       r.bound = true ∧ r.dir = false ∧ r.fifo = false ∧ 64 * (r.pos / 64 + 1) < r.total + 64 ∧
         r.fetched.find? (·.idx = 0) = some { idx := 0, bits := 7, poison := false }) ∧
      (let r := streaming.core.f.q[1]
       r.bound = true ∧ r.dir = true ∧ r.fifo = false ∧ r.drainFault = none ∧ r.pos % 64 = 0 ∧ r.held = [] ∧
         64 * (r.pos / 64 + 1) < r.total + 64) :=
  ⟨laneOk_of checks _ _ _ (by decide), checks⟩
/-- The same streams over FIFO banks 2 and 3: the block to be read is still in its bank. -/
def queues : State :=
  let s := lanes.onF fun f =>
    let q : Stream := { base := BitVec.ofNat 64 (window + 2 * bankSize), cnt := #v[31, 0, 0, 0], esize := 2, fifo := true, bound := true }
    { f with q := (f.q.set 0 q).set 1 { q with base := BitVec.ofNat 64 (window + 3 * bankSize), dir := true } }
  (s.setBank 2 { mode := .fifo, gv := true, gasid := 1, fifo := [7] }).setBank 3 { mode := .fifo, gv := true, gasid := 1 }
theorem witness_StreamOperands_fifo :
    LaneOk queues (bRegs (.vec 2)) [0] ([4, 1] ++ bVec (.vec 2) ++ [5]) ∧ Takes queues 1 (.stream 0) ∧ Gives queues 1 (.stream 1) ∧
      Instr.wf (.vfadd 0 (.stream 1) (.stream 0) (.vec 2) 0 .f32) = true ∧ Instr.wf (.vmerge 0 (.stream 1) (.stream 0) (.vec 2) 1 .i32) = true ∧
      Instr.wf (.vcmp 0 .lt 1 (.stream 0) (.vec 2) 0 .i32) = true ∧ Instr.wf (.vfcmp 0 .lt 1 (.stream 0) (.vec 2) 0 .f32) = true ∧
      Instr.wf (.vcvt 0 (.stream 1) (.stream 0) .f32 none 0 .bf16) = true ∧ Instr.wf (.vfsqrt 0 (.stream 1) (.stream 0) 0 .f32) = true ∧
      Instr.wf (.vscale 0 (.stream 1) (.stream 0) (.vec 2) 0 .f32) = true ∧ queues.core.f.badM = 0 := by
  refine ⟨laneOk_of checks _ _ _ (by decide), ⟨checks, checks, fun _ => by decide +kernel, checks, fun k h => ?_⟩,
    ⟨checks, checks, checks, checks, checks, checks, fun _ => by decide +kernel, checks⟩, by decide +kernel⟩
  obtain rfl : k = 0 := by omega
  exact ⟨7, by decide +kernel⟩
theorem witness_VectorLoad :
    LaneOk lanes [1, 5, 0] [0] [4, 3] ∧ MemOk lanes ∧ Instr.wf (.vld 0 0 4 1 0 0 .i32) = true ∧ Instr.wf (.vlds 0 4 1 5 0 0 .i32) = true ∧
      Instr.wf (.vldx 0 2 4 1 3 0 0 false true .i32) = true ∧
      Reaches lanes needLoad [(lanes.rx 1, 4), (lanes.rx 1 + 4, 4), (lanes.rx 1 + lanes.rx 5, 4), (lanes.rx 1 + 8, 4)] ∧
      (∀ e, e < 2 → lanes.core.f.v[3].elemPoison 16 e = false ∧ lanes.core.f.v[3].elem 16 e < 2 ^ 16 - 1) :=
  ⟨lanes_ok _ _ _ (by decide), lanes_mem, checks, checks, checks, reaches_of checks,
    checks⟩
/-- The window's first line poisoned in memory. -/
def lanesP : State := { lanes with poison := (List.range 16).map (quireBase / 8 + ·) }
/-- With `x1` the address of a page that is not mapped. -/
def lanesU : State := lanes.onF fun f => withX [0x10000000, 7, window + 0x200, 0x40000, 16] f
theorem witness_VectorLoad_poison :
    LaneOk lanesP [1, 5, 0] [0] [4, 3] ∧ MemOk lanesP ∧ Hit lanesP needLoad [(lanesP.rx 1, 4), (lanesP.rx 1 + 4, 4)] ∧
      lanesP.struck needLoad [(lanesP.rx 1, 4)] = true ∧ CleanL1 lanesP :=
  ⟨laneOk_of checks _ _ _ (by decide), memOk_of checks, by unfold Hit; decide +kernel, checks, by unfold CleanL1; decide +kernel⟩
/-- A limit of 0 in `x6`; a poisoned index. -/
theorem witness_VectorLoad_stops :
    (TrapReady lanes [1, 6] ∧ Instr.wf (.vldx 0 2 4 1 3 6 0 false true .i32) = true ∧ lanes.rx 6 = 0) ∧
      (let s := spoil lanes [3]
       LaneOk s [1, 0] [0] [4, 3] ∧ MemOk s ∧ TrapReady s [1, 0] ∧ s.core.f.v[3].elem 16 0 < 2 ^ 16 - 1 ∧ s.core.f.v[3].elemPoison 16 0 = true) :=
  ⟨⟨trapReady_of checks _, checks⟩, laneOk_of checks _ _ _ (by decide), memOk_of checks, trapReady_of checks _, checks⟩
theorem witness_VectorLoad_page :
    LaneOk lanesU [1, 5, 0] [0] [4, 3] ∧ MemOk lanesU ∧ Stops lanesU [1, 5, 0] ∧ QueueHere lanesU ∧ Idle lanesU ∧ lanesU.leads = [] ∧
      (∀ e, e < 2 → Unmapped lanesU (lanesU.rx 1 + BitVec.ofNat 64 (e * 32 / 8)) 4) :=
  ⟨laneOk_of checks _ _ _ (by decide), memOk_of checks, stops_of checks _, queueHere_of checks, idle_of checks, checks,
    fun e h => unmapped_of ((by decide +kernel : ∀ e, e < 2 → unmappedB lanesU (lanesU.rx 1 + BitVec.ofNat 64 (e * 32 / 8)) 4 = true) e h)⟩
/-- A poisoned element, and a single element of 4 bytes over a poisoned word. -/
theorem witness_VectorStore_poison :
    (let s := spoil lanes [1]
     LaneOk s [1, 5, 0] [0] [1, 3] ∧ MemOk s ∧ s.core.f.v[1].elemPoison 32 0 = true ∧
       (storeElement s 32 0 (s.rx 1) 5 true (s, false)).2 = false) ∧
    (let s := lanesP.onF fun f => { f with ln := f.ln.set 0 { count := 1 } }
     LaneOk s [1, 5, 0] [0] [1, 3] ∧ MemOk s ∧ QueueHere s ∧ bit (s.desc 0 4) 1 = false ∧ (freshRun s.core.f 32 0).evl = 1 ∧
       Hit s needStore [(s.rx 1, 4)] ∧ s.isPoisoned (s.locOf needStore (s.rx 1) 4 / 8 * 8) 8 = true) :=
  ⟨⟨laneOk_of checks _ _ _ (by decide), memOk_of checks, checks⟩, laneOk_of checks _ _ _ (by decide), memOk_of checks,
    queueHere_of checks, checks, checks, by unfold Hit; decide +kernel, checks⟩
theorem witness_VectorStore :
    LaneOk lanes [1, 5, 0] [0] [1, 3] ∧ MemOk lanes ∧ Instr.wf (.vst 0 0 1 1 0 0 .i32) = true ∧ Instr.wf (.vsts 0 1 1 5 0 0 .i32) = true ∧
      Instr.wf (.vstx 0 2 1 1 3 0 0 false true .i32) = true ∧
      Reaches lanes needStore [(lanes.rx 1, 4), (lanes.rx 1 + 4, 4), (lanes.rx 1 + lanes.rx 5, 4), (lanes.rx 1 + 8, 4)] ∧
      (∀ e, e < 2 → lanes.core.f.v[1].elemPoison 32 e = false ∧ lanes.core.f.v[3].elem 16 e < 2 ^ 16 - 1) :=
  ⟨lanes_ok _ _ _ (by decide), lanes_mem, checks, checks, checks, reaches_of checks,
    checks⟩
theorem witness_SpillAndFill :
    LaneOk lanes [1] [] [1] ∧ MemOk lanes ∧ Instr.wf (.vspill 0 1 1 0 0 .i32) = true ∧ Instr.wf (.vfill 0 1 1 0 0 .i32) = true ∧
      (∀ k, k < 2 → (lanes.hit needStore (lanes.rx 1 + BitVec.ofNat 64 (64 * k)) 64).isSome = true ∧
        lanes.locOf needStore (lanes.rx 1 + BitVec.ofNat 64 (64 * k)) 64 = lanes.locOf needStore (lanes.rx 1) 64 + 64 * k ∧
        lanes.isPoisoned (lanes.locOf needStore (lanes.rx 1) 64 + 64 * k) 64 = false) ∧
      lanes.core.f.v[1].poison.getLsbD 0 = false ∧
      (lanes.hit needLoad (lanes.rx 1) 64).isSome = true ∧ bits (Memory.read lanes.mem (lanes.locOf needLoad (lanes.rx 1) 64) 64) 16 16 = 0 :=
  ⟨lanes_ok _ _ _ (by decide), lanes_mem, checks⟩
theorem witness_ScatterAdd :
    LaneOk lanes [1, 0] [0] [1, 3] ∧ MemOk lanes ∧ Unlogged lanes ∧ lanes.core.running = true ∧ lanes.tokens = [] ∧
      Instr.wf (.vscadd 0 .rlx .cl 1 1 3 0 0 false true 2 .i32) = true ∧ Instr.wf (.vstc 0 .rel .cl 1 1 3 0 0 false true 2 .i32) = true ∧
      (∀ e, e < 2 → lanes.core.f.v[3].elemPoison 16 e = false ∧ lanes.core.f.v[1].elemPoison 32 e = false ∧
        lanes.core.f.v[3].elem 16 e < 2 ^ 16 - 1) ∧
      scopeBad .cl (lanes.rx 1) = false ∧ scopeBad .cl (lanes.rx 1 + 8) = false ∧
      Reaches lanes needBoth [(lanes.rx 1, 4), (lanes.rx 1 + 8, 4)] ∧ Reaches lanes needStore [(lanes.rx 1, 4), (lanes.rx 1 + 8, 4)] :=
  ⟨lanes_ok _ _ _ (by decide), lanes_mem, lanes_unlogged, checks, checks, checks, checks,
    checks, checks, checks, reaches_of checks, reaches_of checks⟩
/-- Poisoned values, poisoned indices, and the end of the range of indices. -/
theorem witness_ScatterAdd_poison :
    (let s := spoil lanes [1]
     LaneOk s [1, 0] [0] [1, 3] ∧ MemOk s ∧ Unlogged s ∧ s.core.f.v[1].elemPoison 32 0 = true ∧ Hit s needBoth [(s.rx 1, 4)]) ∧
    (let s := spoil lanes [3]
     TrapReady s [1, 0] ∧ LaneOk s [1, 0] [0] [1, 3, 2] ∧ MemOk s ∧ Unlogged s ∧ s.core.f.v[3].elem 16 0 < 2 ^ 16 - 1 ∧
       s.core.f.v[3].elemPoison 16 0 = true) ∧
    (let s := lanes.onF fun f => { f with v := f.v.set 3 { bits := 0xFFFF0000, len := 4 } }
     TrapReady s [1, 0] ∧ LaneOk s [1, 0] [0] [1, 3, 2] ∧ MemOk s ∧ Unlogged s ∧ ¬s.core.f.v[3].elem 16 1 < 2 ^ 16 - 1 ∧
       Reaches s needBoth [(s.rx 1, 4)] ∧ s.locOf needBoth (s.rx 1) 4 = quireBase ∧ s.slotAt + 2 ^ 20 ≤ quireBase ∧
       ctxAddr s 1 0 + 256 ≤ quireBase) := by
  refine ⟨⟨laneOk_of checks _ _ _ (by decide), memOk_of checks, ?_, checks, by unfold Hit; decide +kernel⟩,
    ⟨trapReady_of checks _, laneOk_of checks _ _ _ (by decide), memOk_of checks, ?_, checks⟩,
    trapReady_of checks _, laneOk_of checks _ _ _ (by decide), memOk_of checks, ?_, checks, reaches_of checks, checks⟩ <;>
    unfold Unlogged <;> decide +kernel
theorem witness_VectorAtomic :
    LaneOk lanes [1] [0] [4, 3, 2] ∧ MemOk lanes ∧ Unlogged lanes ∧ lanes.core.running = true ∧ lanes.tokens = [] ∧
      Instr.wf (.vamo 0 .add .rlx .cl 4 1 3 2 0 false true 2 1 .i32) = true ∧
      (∀ e, e < 2 → lanes.core.f.v[3].elem 16 e < 2 ^ 16 - 1 ∧ lanes.core.f.v[3].elemPoison 16 e = false ∧
        lanes.core.f.v[4].elemPoison 32 e = false ∧ lanes.core.f.v[2].elemPoison 32 e = false) ∧
      scopeBad .cl (lanes.rx 1) = false ∧ scopeBad .cl (lanes.rx 1 + 8) = false ∧
      Reaches lanes needBoth [(lanes.rx 1, 4), (lanes.rx 1 + 8, 4)] :=
  ⟨lanes_ok _ _ _ (by decide), lanes_mem, lanes_unlogged, checks, checks, checks, checks,
    checks, checks, reaches_of checks⟩
/-- The first word of the window is a control word of a barrier of 2, of which 0 or 1 have arrived. -/
def atBarrier (here : Nat) : State := small [(quireBase, 8, 2 + 65536 * here)] (withX [window])
theorem witness_Barriers :
    Issues base [2] ∧ ∀ here, here < 2 → issuesB (atBarrier here) = true ∧ memB (atBarrier here) = true ∧
      bits ((atBarrier here).ctxRaw 1 0 4) 2 2 = 0 ∧ (atBarrier here).core.running = true ∧ (atBarrier here).core.f.prog = 0 ∧
      scopeBad .cl ((atBarrier here).rx 1) = false ∧ reachesB (atBarrier here) needBoth [((atBarrier here).rx 1, 8)] = true ∧
      Memory.read (atBarrier here).mem ((atBarrier here).locOf needBoth ((atBarrier here).rx 1) 8) 8 / 2 ^ 16 = here :=
  ⟨base_issues _, checks⟩
/-- A post of 4 records at `x1` that holds `n`, its ring at the window's byte 0x100, and a record at `x3`, which awaits 2 joins. -/
def posting (n : Nat) : State :=
  small [(quireBase, 8, window + 0x100), (quireBase + 12, 4, n), (quireBase + 16, 4, 4), (quireBase + 0x218, 4, 2)]
    (withX [window, 1, window + 0x200])
theorem witness_PostsAndJoins :
    ∀ n ∈ [0, 1, 4], issuesB (posting n) = true ∧ memB (posting n) = true ∧ bits ((posting n).ctxRaw 1 0 4) 2 2 = 0 ∧
      (posting n).core.running = true ∧ scopeBad .cl ((posting n).rx 1) = false ∧ scopeBad .cl ((posting n).rx 3) = false ∧
      reachesB (posting n) needBoth [((posting n).rx 1, 64), ((posting n).rx 3, 32)] = true ∧
      (posting n).isPoisoned quireBase 24 = false ∧ Memory.read (posting n).mem (quireBase + 20) 2 % 2 = 0 ∧
      Memory.read (posting n).mem (quireBase + 12) 4 = n ∧
      reachesB (posting n) needLoad ((List.range 4).flatMap fun k =>
        [((posting n).rx 3 + BitVec.ofNat 64 (8 * k), 8), (BitVec.ofNat 64 (window + 0x100 + 32 * (n % 4) + 8 * k), 8)]) = true ∧
      reachesB (posting n) needStore ((List.range 4).flatMap fun k =>
        [((posting n).rx 3 + BitVec.ofNat 64 (8 * k), 8), (BitVec.ofNat 64 (window + 0x100 + 32 * (n % 4) + 8 * k), 8)]) = true ∧
      ((posting n).rx 2).toNat < Memory.read (posting n).mem ((posting n).locOf needBoth ((posting n).rx 3) 32 + 0x18) 4 := by
  decide +kernel

/-- Tiles 0 to 3 of one configuration, 4 and 5 of another. -/
def tiled (a b : TCfg) : State := lanes.onF fun f => { f with
  tcfg := Vector.ofFn fun k => if k.val < 4 then a else if k.val < 6 then b else {}
  vblk := 1 }
/-- Tiles of rows `r` of `rb` bytes. -/
def tileOf (f : Fmt) (r rb : Nat) : TCfg := { fmt := BitVec.ofNat 5 f.code, rows := BitVec.ofNat 7 r, rb := BitVec.ofNat 7 rb }
/-- One row of one byte, and a rectangle of one row and one column at `x1`, with `x6` its shape. -/
def oneTile : State := (tiled (tileOf .i8 1 1) (tileOf .i8 1 1)).onF fun f => withX [window, 7, window + 0x200, 0x40000, 16, 0x101] f
theorem oneTile_ok (xs : List (Fin 32)) (ms : List (Fin 8)) (vs : List (Fin 64)) (h : vs.length ≤ 32) : PressOk oneTile xs ms vs :=
  pressOk_of checks checks xs ms vs h
theorem witness_TileRegisters :
    PressOk oneTile [6] [] [1] ∧ 1 ≤ (oneTile.core.f.tcfg[(0 : Fin 16)]).rows.toNat ∧ (oneTile.core.f.tcfg[(0 : Fin 16)]).rows.toNat ≤ 64 :=
  ⟨oneTile_ok _ _ _ (by decide), checks⟩
theorem witness_TileMemory :
    PressOk oneTile [1, 2, 6] [] [1] ∧ MemOk oneTile ∧ (oneTile.core.f.tcfg[(0 : Fin 16)]).fit = true ∧
      Reaches oneTile needLoad [(rowByte (oneTile.rx 1) (oneTile.rx 2) 0 0, 1)] ∧
      Reaches oneTile needStore [(rowByte (oneTile.rx 1) (oneTile.rx 2) 0 0, 1)] ∧ (oneTile.core.f.t[(0 : Fin 16)]).poison.getLsbD 0 = false ∧
      (oneTile.rx 6).toNat % 128 = 1 ∧ (oneTile.rx 6).toNat / 256 % 128 = 1 ∧ Instr.wf (.ald 0 0 1 2 6 0 .f32) = true ∧
      Instr.wf (.ast 0 0 1 2 6 0 .f32) = true ∧ Instr.wf (.astRegister 0 1 0 0 .f32) = true ∧
      Reaches oneTile needLoad [(rowByte (oneTile.rx 1) (oneTile.rx 2) 0 0, 4)] ∧
      Reaches oneTile needStore [(rowByte (oneTile.rx 1) (oneTile.rx 2) 0 0, 4)] ∧ (oneTile.core.f.a[(0 : Fin 8)]).grain 0 0 = false :=
  ⟨oneTile_ok _ _ _ (by decide), memOk_of checks, checks, reaches_of checks,
    reaches_of checks, checks, checks, checks, checks, checks,
    checks, reaches_of checks, reaches_of checks, checks⟩
/-- The formats of two tiles that fit each other. -/
def matrixB (s : State) (fa fb : Fmt) : Bool :=
  let a := s.core.f.tcfg[(0 : Fin 16)]
  let b := s.core.f.tcfg[(4 : Fin 16)]
  laneB s && decide ((∀ k : Fin 16, s.core.f.t[k].bad = 0) ∧ ∀ k : Fin 8, s.core.f.a[k].bad = 0) && a.fit && b.fit &&
    decide (a.perRow a.width = b.rows.toNat) && decide (b.perRow b.width ≤ 64) && decide (a.fmt? = some fa) && decide (b.fmt? = some fb)
theorem witness_MatrixProducts :
    matrixB oneTile .i8 .i8 = true ∧ matrixB (tiled (tileOf .f32 1 4) (tileOf .f32 1 4)) .f32 .f32 = true ∧
      matrixB (tiled (tileOf .tern 1 1) (tileOf .n8 4 1)) .tern .n8 = true ∧ Instr.wf (.bblk 0 0 4 0 0 0 .i32) = true ∧
      Instr.wf (.bblk 0 0 4 0 0 0 .f32) = true ∧ (∀ k, k < 4 → oneTile.core.f.tcfg[Fin.ofNat 16 k] = oneTile.core.f.tcfg[(0 : Fin 16)]) ∧
      oneTile.core.f.tcfg[(5 : Fin 16)] = oneTile.core.f.tcfg[(4 : Fin 16)] ∧
      (let s := tiled (tileOf .e4m3 1 16) (tileOf .e5m2 16 1)
       matrixB s .e4m3 .e5m2 = true ∧ blockLen s.core.f.vblk = 16 ∧ Fmt.e4m3 ∈ mxFmts ∧ Fmt.e5m2 ∈ mxFmts) ∧
      -- without a row, and without a column
      (oneTile.core.f.rm 1).getLsbD 0 = false ∧ (oneTile.rx 7).getLsbD 0 = false := by
  decide +kernel
theorem witness_Butterflies :
    let s := tiled (tileOf .f32 1 16) (tileOf .f32 1 16)
    PressOk s [] [] [4, 1] ∧ Instr.wf (.bfly 0 0 4 1 0 .f32 .f32) = true ∧ Instr.wf (.bchain 0 1 4 1 0 0 .f32 .f32) = true ∧
      (s.core.f.tcfg[(0 : Fin 16)]).fit = true ∧ s.core.f.tcfg[(1 : Fin 16)] = s.core.f.tcfg[(0 : Fin 16)] ∧
      (freshRun s.core.f 32 0).evl = 2 ∧ (s.core.f.ln[(0 : Fin 4)]).pad = 0 ∧ 2 ^ bits s.core.f.bstride.toNat 0 4 = 1 ∧
      s.core.f.panel = 0 ∧ s.core.f.stage = 0 ∧ s.core.f.v[1].poison = 0 ∧ s.core.f.a[(0 : Fin 8)].poison = 0 ∧
      -- resumed at its second stage, and from a start past the last panel
      (∀ k ∈ [1, 2], PressOk (s.onF fun f => { f with stage := k }) [] [] [4, 1]) :=
  ⟨pressOk_of checks checks _ _ _ (by decide), checks, checks, checks, checks, checks, checks, checks, checks, checks, checks, checks,
    fun k h => pressOk_of ((by decide +kernel : ∀ k ∈ [1, 2], laneB ((tiled (tileOf .f32 1 16) (tileOf .f32 1 16)).onF fun f => { f with stage := k }) = true) k h)
      (by change decide ((∀ j : Fin 16, (tiled (tileOf .f32 1 16) (tileOf .f32 1 16)).core.f.t[j].bad = 0) ∧
            ∀ j : Fin 8, (tiled (tileOf .f32 1 16) (tileOf .f32 1 16)).core.f.a[j].bad = 0) = true
          decide +kernel) _ _ _ (by decide)⟩

/-- A pattern of 32 words at `x3`, and one over bank 1, a FIFO of the context, at `x6`; no stream is bound. -/
def patterns : State :=
  let s := small [(quireBase + 0x200, 8, window), (quireBase + 0x208, 8, 4), (quireBase + 0x228, 2, 31), (quireBase + 0x238, 8, 2),
    (quireBase + 0x240, 8, window + bankSize), (quireBase + 0x268, 2, 15), (quireBase + 0x278, 8, 10)]
    (withX [window, 7, window + 0x200, 0x40000, 16, window + 0x240])
  { s with banks := SMap.put {} 1 { mode := .fifo, gv := true, gasid := 1 } s.banks, slots := [] }
/-- A read stream in register 0 and a write stream in register 1 that holds a whole block, both of 32 words at the window's start. -/
def streams : State := base.onF fun f =>
  let q : Stream := { base := BitVec.ofNat 64 window, stride := #v[4, 0, 0, 0], cnt := #v[31, 0, 0, 0], esize := 2, bound := true }
  { f with q := (f.q.set 0 q).set 1 { q with dir := true, pos := 64, held := [{ idx := 0, bits := 7, poison := false }] } }
theorem witness_StreamRegisters :
    Dispatches patterns [3, 6] ∧ MemOk patterns ∧ (patterns.core.f.q[(0 : Fin 8)]).bound = false ∧
      (∀ r ∈ ([3, 6] : List (Fin 32)), (patterns.hit needLoad (patterns.rx r) 64).isSome = true ∧
        patterns.isPoisoned (patterns.locOf needLoad (patterns.rx r) 64) 64 = false ∧
        Memory.read patterns.mem (patterns.locOf needLoad (patterns.rx r) 64 + 48) 8 = 0) ∧
      Memory.read patterns.mem (quireBase + 0x238) 8 = 2 ∧ window % 4 = 0 ∧ Memory.read patterns.mem (quireBase + 0x278) 8 = 10 ∧
      inWindow (BitVec.ofNat 64 (window + bankSize)) = true ∧ (window + bankSize) % bankSize = 0 ∧ (15 + 1) * 4 % 64 = 0 ∧
      (patterns.bank 1).busy = false ∧ (patterns.bank 1).mode = .fifo ∧ (patterns.bank 1).gv = true ∧ (patterns.bank 1).gasid = 1 ∧
      patterns.slots = [] ∧ (∀ c ∈ patterns.cores, ∀ q ∈ c.f.q.toList, q.bound = false) ∧
      (Dispatches streams [] ∧ MemOk streams ∧ streams.core.running = true ∧ streams.core.wait = none ∧
        (let q := streams.core.f.q[(0 : Fin 8)]
         q.bound = true ∧ q.dir = false ∧ q.drainFault = none ∧ q.held = [] ∧ q.fifo = false ∧ q.fetched.length < 16 ∧ 0 < q.total ∧
           Reaches streams needLoad ((List.range 16).map fun i => (q.elemAddr i, 4))) ∧
        (let q := streams.core.f.q[(1 : Fin 8)]
         q.bound = true ∧ q.dir = true ∧ q.drainFault = none ∧ q.fifo = false ∧ q.esize ≤ 6 ∧
           q.held = [{ idx := 0, bits := 7, poison := false }] ∧ Reaches streams needStore ((List.range 16).map fun i => (q.elemAddr i, 4)))) :=
  ⟨dispatches_of checks _, memOk_of checks, checks, checks, checks,
    checks, checks, checks, checks, checks, checks, checks,
    checks, checks, checks, checks,
    dispatches_of checks _, memOk_of checks, checks, checks,
    ⟨checks, checks, checks, checks, checks, checks, checks,
      reaches_of checks⟩,
    checks, checks, checks, checks, checks, checks,
    reaches_of checks⟩

/-- `x5` bytes from `x1` to `x3`, a flag at `x4`, and in `x6` the word of `tzero` of tile 0. -/
def copying : State := small [] (withX [window, 7, window + 0x200, window + 0x300, 16, 0x83])
/-- A command of the firing in slot 0. -/
def aCmd (kind : CmdKind) : Cmd :=
  { kind := kind, owner := (1, 0), level := 0, seqNo := 1, dst := BitVec.ofNat 64 (window + 0x200), src := BitVec.ofNat 64 window,
    value := 0, n := 16, ord := .rlx, scope := .co }
/-- With that command under way. -/
def busy (x : Cmd) : State := copying.onCore fun c => { c with cmds := c.cmds.set 0 (some x) }
theorem witness_CopyCommands :
    Dispatches copying [3, 1, 5, 4] ∧ MemOk copying ∧ Unlogged copying ∧ copying.core.running = true ∧
      copying.core.cmds[(0 : Fin 16)] = none ∧ Instr.wf (.cpy 0 .rlx .co 3 1 5) = true ∧ Instr.wf (.cpyf 0 .rel .cl 3 1 5 4 1 true) = true ∧
      Instr.wf (.cpyf 0 .rel .cl 3 1 5 4 1 false) = true ∧ Instr.wf (.cfill 0 .rlx .co 3 2 5 .n32) = true ∧
      Instr.wf (.cpym 0 .rlx .co 3 1 5 6) = true ∧ (copying.rx 6).toNat % 256 = 0x83 ∧ decode (copying.rx 6).toNat = .ok (.tzero 0 0) ∧ (pressCommand (.tzero 0 0)).map (·.1) = some [] ∧
      (copying.hit needStore (copying.rx 3) 4).isSome = true ∧ (copying.hit needStore (copying.rx 3) 1).isSome = true ∧
      (copying.hit needLoad (copying.rx 1) 1).isSome = true ∧ (copying.hit needBoth (copying.rx 4) 8).isSome = true ∧
      (copying.hit needStore (copying.rx 4) 8).isSome = true ∧ scopeBad .cl (copying.rx 4) = false ∧
      (copying.rx 5).toNat % 2 ^ 32 % 4 = 0 ∧ (copying.rx 3).toNat % 4 = 0 ∧
      Dispatches (busy (aCmd .copy)) [] ∧ (busy (aCmd .copy)).core.cmds[(0 : Fin 16)] = some (aCmd .copy) ∧
      (aCmd .copy).ownedBy (slotKey 1 0) = true :=
  ⟨dispatches_of checks _, memOk_of checks, by unfold Unlogged; decide +kernel, checks, checks, checks, checks, checks, checks, checks,
    checks, by rfl, checks, checks, checks, checks, checks, checks, checks, checks, checks, dispatches_of checks _, checks, checks⟩
/-- What the statements about commands under way ask of the state. -/
def busyB (s : State) : Bool :=
  memB s && decide (bits (s.ctxRaw s.core.info.asid 0 4) 2 2 = 0) && quietB s && s.core.running && s.core.ahead.isNone && s.core.wait.isNone &&
    s.stores.isEmpty && (s.session s.core.info.asid).stalls.isEmpty &&
    (SMap.get none (slotKey s.core.info.asid s.core.info.slot) s.slots).all (·.onCore.isSome) && !bit (s.desc 0 4) 1 && s.others.isEmpty &&
    decide (ctxAddr s s.core.info.asid 0 + 256 ≤ 64000000000) && decide (s.mgmt.pstate ≤ 1)
theorem witness_CopyProgress :
    (∀ x ∈ [aCmd .copy, aCmd (.fill 8), aCmd (.fill 64), { aCmd .copy with done := 16 },
        { aCmd .copy with done := 16, flag := some (BitVec.ofNat 64 (window + 0x300), 1, true) },
        { aCmd .copy with done := 16, follow := some 0x83 }],
      busyB (busy x) = true ∧ (busy x).core.cmds[(0 : Fin 16)] = some x ∧ x.isCopy = true ∧ x.trapHeld = false ∧ (busy x).core.f.queue = [] ∧
        (busy x).core.cur = none) ∧
      (∀ j, j < 16 → reachesB (busy (aCmd .copy)) needStore [(BitVec.ofNat 64 (window + 0x200 + j), 1)] = true ∧
        reachesB (busy (aCmd .copy)) needLoad [(BitVec.ofNat 64 (window + j), 1)] = true) ∧
      reachesB (busy (aCmd .copy)) needBoth [(BitVec.ofNat 64 (window + 0x300), 8)] = true := by decide +kernel
/-- A bank of the context that holds the mode, or a FIFO with a block, or one whose switch is under way. -/
def bankOf (b : QBank) : State := { base with banks := [(0, { b with gv := true, gasid := 1 })] }
theorem witness_BankModes :
    (∀ b ∈ [{ mode := .scratch, outcomes := [(7, false)] }, { mode := .fifo, fifo := [0] }, { mode := .scratch, busy := true, switchTo := some (.cache, slotKey 1 0) }],
      laneB (bankOf b) = true ∧ (bankOf b).core.id < 160 ∧ (bankOf b).tokens = [] ∧ (bankOf b).late = [] ∧ (bankOf b).slowSwitches = [] ∧
        (bankOf b).bank 0 = { b with gv := true, gasid := 1 } ∧ ∀ x ∈ b.outcomes, x.1 ≠ slotKey 1 0) ∧
      (SMap.get none (slotKey 1 0) base.slots).all (·.onCore.isSome) = true ∧ clusterOf base.core.id < 40 ∧ base.mgmt.pstate ≤ 1 ∧
      (∀ x ∈ base.slots, x.2.all (·.draining.isEmpty) = true) := by decide +kernel

/-- The least mould as an image at `x3`, an IN cell that feeds an OUT cell, and slot 2 bound to it. -/
def leastImage : Nat :=
  0x444C4F4D + 2 ^ 32 * 1 + 2 ^ 48 * 1 + 2 ^ 64 * 2 + 2 ^ 96 * 1 + 2 ^ 104 * 1 + 2 ^ 112 * 1 + 2 ^ 128 * 2 + 2 ^ 136 * 1 + 2 ^ 200 * 4 +
    2 ^ 288 * 64 + 2 ^ 320 * 64 + 2 ^ 352 * 112
def leastMould : Mould :=
  { quads := 1, rm := 0, anchor := 1, level := 0, nin := 1, nout := 1, ntab := 0, nmem := 0, role := [2, 1, 0, 0, 0], ilen := [0, 0, 0, 0],
    ofmt := [4, 0], cells := [{ y := 0, x := 0, word := 1 + 2 ^ 16 + 2 ^ 37 * 4 }, { y := 0, x := 1, word := 2 + 2 ^ 6 + 2 ^ 33 * 4 }] }
def fabric : State :=
  let s := small [(quireBase + 0x200, 64, leastImage), (quireBase + 0x240, 24, 2 ^ 64 * (1 + 2 ^ 16 + 2 ^ 37 * 4)),
      (quireBase + 0x258, 24, 2 ^ 8 + 2 ^ 64 * (2 + 2 ^ 6 + 2 ^ 33 * 4)), (0x8000000 + 512 + 32, 16, 1 + 2 ^ 8 + 2 ^ 32 * 5 + 2 ^ 64 * (window + 0x200))]
    fun _ => { lanes.core.f with x := (withX [window, 7, window + 0x200] lanes.core.f).x }
  s.onCore fun c => { c with moulds := [{ asid := 1, slot := 2, seq := 5, va := BitVec.ofNat 64 (window + 0x200), mould := leastMould }] }
/-- Its run stopped after one element. -/
def resuming : State := fabric.onF fun f => { f with fx := #v[BitVec.ofNat 64 (2 + 8 * 2), 1, 0, 1, 1, 0, BitVec.ofNat 64 (5 + 2 ^ 32), 0] }
theorem witness_Fabric :
    Dispatches fabric [3] ∧ MemOk fabric ∧ (∀ off, off < 16 → populated (slotAddr fabric 1 2 + off) = true) ∧
      (fabric.rx 3).toNat % 64 = 0 ∧ bits (Memory.read fabric.mem (quireBase + 0x200) 64) 288 32 = 64 ∧
      bits (Memory.read fabric.mem (quireBase + 0x200) 64) 352 32 = 112 ∧ headerBad (Memory.read fabric.mem (quireBase + 0x200) 64) = false ∧
      (∀ j, j < 112 → (fabric.hit needLoad (fabric.rx 3 + BitVec.ofNat 64 j) 1).isSome = true ∧
        fabric.locOf needLoad (fabric.rx 3 + BitVec.ofNat 64 j) 1 = fabric.locOf needLoad (fabric.rx 3) 1 + j ∧
        fabric.isPoisoned (fabric.locOf needLoad (fabric.rx 3) 1 + j) 1 = false) ∧
      Mould.ofImage (Memory.read fabric.mem (quireBase + 0x200) 64)
        ((List.range 2).map fun i => Memory.read fabric.mem (quireBase + 0x200 + 64 + 24 * i) 24) [] = some leastMould ∧
      LaneOk fabric [4, 1] [] [4, 1] ∧ Memory.read fabric.mem (slotAddr fabric 1 2) 16 % 2 = 1 ∧
      bits (Memory.read fabric.mem (slotAddr fabric 1 2) 16) 32 32 = 5 ∧ (fabric.core.f.ln[(0 : Fin 4)]).count ≤ 1000 ∧
      (fabric.core.f.ln[(0 : Fin 4)]).pad = 0 ∧ (fabric.core.f.v[(1 : Fin 64)]).poison = 0 ∧
      LaneOk resuming [4, 1] [] [4, 1] ∧ resuming.core.f.fx[(0 : Fin 8)] = BitVec.ofNat 64 (2 + 8 * 2 + 256 * 0) ∧
      (fabric.core.f.fx[(0 : Fin 8)]).toNat % 8 ≠ 2 :=
  ⟨dispatches_of checks _, memOk_of checks, checks, checks, checks,
    checks, checks, checks, checks, laneOk_of checks _ _ _ (by decide),
    checks, checks, checks, checks, checks,
    laneOk_of checks _ _ _ (by decide), checks, checks⟩

/-- Submit post 0 with a weight, a deficit of 1,000, and the run posts of core 0, cluster 0 and the device, each with 64 places. -/
def postWords : List (Nat × Nat × Nat) :=
  [(0x6000000, 8, 0x6010000), (0x6000010, 4, 64), (0x6000020, 1, 1), (0x6000028, 8, 0x6100000), (0x6000030, 4, 64), (0x6000038, 8, 1000),
   (0x6100000, 8, 0x6200000), (0x6100010, 4, 64), (0x6102800, 8, 0x6200800), (0x6102810, 4, 64), (0x6103400, 8, 0x6201000),
   (0x6103410, 4, 64)]
/-- A machine with that post. -/
def posted (l : List (Nat × Nat × Nat)) (g : Firing → Firing) : State :=
  { small (postWords ++ l) g with submits := [(0, some ⟨0x6000000⟩)] }
/-- A continuation record at the window's start, with a join counter or none. -/
def spawning (join : Nat) : State := posted [(quireBase + 0x18, 4, join)] (withX [window])
theorem witness_Spawn :
    ∀ join, join < 2 → let s := spawning join
      issuesB s = true ∧ memB s = true ∧ bits (s.ctxRaw 1 0 4) 2 2 = 0 ∧ s.core.running = true ∧ (s.hit needStore (s.rx 1) 32).isSome = true ∧
        s.isPoisoned (s.locOf needStore (s.rx 1) 32) 32 = false ∧ presentB s [(0x40000C0, 64), (0x6000000, 64), (0x6100000, 64), (0x6200000, 32)] = true ∧
        apartB [(quireBase, 32), (0x40000C0, 64), (0x6000000, 64), (0x6100000, 64), (0x6200000, 32)] = true ∧
        Memory.read s.mem (s.locOf needStore (s.rx 1) 32 + 0x18) 4 = join ∧ SMap.get none 0 s.submits = some ⟨0x6000000⟩ ∧
        s.runPost 0x6000000 (runIndex (Memory.read s.mem (0x40000C0 + 0x2B) 1 % 4) (instOf 0 s.core.id)) = 0x6100000 ∧
        Memory.read s.mem 0x6100000 8 = 0x6200000 ∧ Memory.read s.mem 0x6100010 4 = 64 := by decide +kernel

/-- A parameter block of a plain grid of 2 at `x3`, a kernel at `x6` and its descriptor before it. -/
def launching : State := posted [(quireBase + 0x200, 8, 0x40000), (quireBase + 0x210, 8, 2 + 2 ^ 48 * 3), (quireBase + 0x230, 8, 0xFFFF),
  (quireBase + 0x300, 8, 0x4353444B + 2 ^ 32 + 2 ^ 40)] (withX [window, 7, window + 0x200, 0x40000, 16, window + 0x320])
theorem walkLevels_congr {s t : State} {va : Nat} (hp : s.poison = []) (hq : t.poison = [])
    (hr : ∀ table, table ∈ [0x5000000, 0x5001000, 0x5002000, 0x5003000] → ∀ k, k < 512 →
      Memory.read t.mem (table + 8 * k) 8 = Memory.read s.mem (table + 8 * k) 8)
    (hs : ∀ lv, lv < 4 → ∀ table, table ∈ [0x5000000, 0x5001000, 0x5002000, 0x5003000] →
      bit (Memory.read s.mem (table + 8 * bits va (12 + 9 * lv) 9) 8) 1 = true →
      ptePa (Memory.read s.mem (table + 8 * bits va (12 + 9 * lv) 9) 8) ∈ [0x5000000, 0x5001000, 0x5002000, 0x5003000])
    (hg : ∀ lv, lv < 4 → ∀ table, table ∈ [0x5000000, 0x5001000, 0x5002000, 0x5003000] →
      bit (Memory.read s.mem (table + 8 * bits va (12 + 9 * lv) 9) 8) 8 = false) :
    ∀ lv, lv < 4 → ∀ table, table ∈ [0x5000000, 0x5001000, 0x5002000, 0x5003000] → walkLevels t va lv table = walkLevels s va lv table := by
  have hps : ∀ a n, s.isPoisoned a n = false := fun a n => by simp [State.isPoisoned, hp]
  have hpt : ∀ a n, t.isPoisoned a n = false := fun a n => by simp [State.isPoisoned, hq]
  intro lv
  induction lv with
  | zero =>
    intro _ table ht
    simp only [walkLevels, hps, hpt, hr table ht (bits va (12 + 9 * 0) 9) (Nat.mod_lt _ (by decide)), hg 0 (by decide) table ht, Bool.false_and]
  | succ lv ih =>
    intro hl table ht
    have h1 := hs (lv + 1) hl table ht
    simp only [walkLevels, hps, hpt, hr table ht (bits va (12 + 9 * (lv + 1)) 9) (Nat.mod_lt _ (by decide)), hg (lv + 1) hl table ht]
    cases hn : bit (Memory.read s.mem (table + 8 * bits va (12 + 9 * (lv + 1)) 9) 8) 1 with
    | false => simp
    | true => simp [ih (by omega) _ (h1 hn)]
theorem walked_congr {s : State} {mem : List Host.Cell} {va : Word} {pa : Nat} (hc : s.mgmt.ctxbase = 0x1000000) (hp : s.poison = [])
    (hr : ∀ a n, a + n ≤ 0x6000000 → 0x4800000 ≤ a ∨ a + n ≤ 0x2000000 → Memory.read mem a n = Memory.read s.mem a n)
    (hs : ∀ lv, lv < 4 → ∀ table, table ∈ [0x5000000, 0x5001000, 0x5002000, 0x5003000] →
      bit (Memory.read s.mem (table + 8 * bits va.toNat (12 + 9 * lv) 9) 8) 1 = true →
      ptePa (Memory.read s.mem (table + 8 * bits va.toNat (12 + 9 * lv) 9) 8) ∈ [0x5000000, 0x5001000, 0x5002000, 0x5003000])
    (hg : ∀ lv, lv < 4 → ∀ table, table ∈ [0x5000000, 0x5001000, 0x5002000, 0x5003000] →
      bit (Memory.read s.mem (table + 8 * bits va.toNat (12 + 9 * lv) 9) 8) 8 = false)
    (hroot : s.ctxRaw 1 8 8 = 0x5000000) (h : s.walked 1 0 needBoth va = some pa) : ({ s with mem := mem } : State).walked 1 0 needBoth va = some pa := by
  have hctx : ({ s with mem := mem } : State).ctxRaw 1 8 8 = s.ctxRaw 1 8 8 := by
    simp only [State.ctxRaw, ctxAddr, hc]; exact hr _ _ (by decide) (.inr (by decide))
  have hw := walkLevels_congr (s := s) (t := { s with mem := mem }) hp hp (fun table ht k hk => by
    refine hr _ _ ?_ (.inl ?_) <;> simp only [List.mem_cons, List.not_mem_nil, or_false] at ht <;> omega) hs hg 3 (by decide) (s.ctxRaw 1 8 8)
    (by simp [hroot])
  unfold State.walked at h ⊢
  rw [hctx, hw]
  exact h
theorem witness_Launch :
    let s := launching
    Issues s [3, 6, 2] ∧ MemOk s ∧ Unlogged s ∧ s.core.running = true ∧ s.core.f.prog = 0 ∧ Lowest (fun k => k ∈ s.launches.map (·.1)) 0 ∧
      WordsReach s (s.rx 3) 8 ∧ WordsReach s (s.rx 6 - 32) 4 ∧ (s.rx 3).toNat % 64 = 0 ∧ (s.rx 6).toNat % 8 = 0 ∧
      kernelBad ((List.range 4).flatMap fun k => bytesOf 8 (s.words (s.rx 6 - 32) k)) = false ∧
      paramsBad (paramsOf ((List.range 8).flatMap fun k => bytesOf 8 (s.words (s.rx 3) k))) 0 = false ∧
      s.words (s.rx 6 - 32) 1 % 2 ^ 32 = 0 ∧ s.words (s.rx 3) 1 = 0 ∧ s.words (s.rx 3) 4 = 0 ∧ s.words (s.rx 3) 5 = 0 ∧
      bits (s.words (s.rx 3) 2) 48 2 = 3 ∧ s.words (s.rx 3) 2 % 2 ^ 32 = 2 ∧ s.isPoisoned 0x7000000 8 = false ∧
      SMap.get none 0 s.submits = some ⟨0x6000000⟩ ∧ s.runPost 0x6000000 (runIndex 3 0) = 0x6103400 ∧
      Memory.read s.mem 0x6103400 8 = 0x6201000 ∧ Memory.read s.mem (0x6103400 + 16) 4 = 64 ∧
      Present s [(0x6000000, 64), (0x6103400, 64), (0x6201000, 32 * 64), (0x4000000, 64)] ∧
      Apart [(0x6000000, 64), (0x6103400, 64), (0x6201000, 32 * 64), (0x4000000, 64), (0x7000000, 8), (ctxAddr s 1 0, 256),
        (s.locOf needLoad (s.rx 3) 8, 64)] ∧
      (∀ k, k < 8 → s.locOf needLoad (s.rx 3 + BitVec.ofNat 64 (8 * k)) 8 = s.locOf needLoad (s.rx 3) 8 + 8 * k) ∧
      ∀ mem, SameMemBut s { s with mem := mem } [(0x6103400 + 12, 4), (0x6201000, 32 * 64), (0x4000000, 64)] →
        ({ s with mem := mem } : State).walked 1 0 needBoth 0x40000 = some 0x7000000 := by
  refine ⟨issues_of checks _, memOk_of checks, by unfold Unlogged; decide +kernel, checks,
    checks, ⟨checks, fun k h => absurd h (Nat.not_lt_zero k)⟩, reaches_of checks,
    reaches_of checks, checks, checks, checks, checks, checks,
    checks, checks, checks, checks, checks, checks, checks,
    checks, checks, checks, present_of checks, apart_of checks,
    checks, fun mem hm => ?_⟩
  refine walked_congr (s := launching) rfl rfl (fun a n h1 h2 => read_congr fun c h3 h4 => hm c ?_) checks
    checks checks checks
  intro x hx
  simp only [List.mem_cons, List.not_mem_nil, or_false] at hx
  rcases hx with rfl | rfl | rfl <;> omega

/-- An actor block at `x3` with one input, a token ring whose control block is at the window's byte 0x300. -/
def binding : State := small
  [(quireBase + 0x200, 8, window + 0x320), (quireBase + 0x220, 4, 1 + 2 ^ 16), (quireBase + 0x230, 8, window + 0x300 + 2 ^ 48),
   (quireBase + 0x310, 8, 16 + 2 ^ 34 + 2 ^ 48)] (withX [window, 7, window + 0x200])
/-- The actor bound, with `n` firings that have not ended; the firing that runs is its first. -/
def bound (n : Nat) : State :=
  let y : Actor :=
    { asid := 1, va := BitVec.ofNat 64 (window + 0x200), code := 0, frame := 0, arg := 0, nin := 1, maxf := 1
      ports := [{ cb := BitVec.ofNat 64 (window + 0x300), rate := 1, start := 0, bank := none, token := 1 }]
      next := 1, live := n, committed := 0, lid := 5, spost := 0, closing := false, pfid := 0, pord := 0 }
  { binding.onCore fun c => { c with info := { c.info with actor := some 0 } } with actors := [(0, some y)] }
theorem witness_Actors :
    Issues binding [3] ∧ MemOk binding ∧ Unlogged binding ∧ binding.core.running = true ∧ binding.tokens = [] ∧
      (let s := binding
       let word := s.words (s.rx 3)
       (s.rx 3).toNat % 64 = 0 ∧ WordsReach s (s.rx 3) 16 ∧ word 3 = 0 ∧ word 4 % 256 = 1 ∧ word 4 / 256 % 256 = 0 ∧ word 4 / 2 ^ 16 % 256 = 1 ∧
         word 4 / 2 ^ 24 = 0 ∧ word 5 = 0 ∧ word 14 = 0 ∧ word 15 = 0 ∧ (∀ p, p < 8 → 1 ≤ p → word (6 + p) = 0) ∧
         word 6 % 2 ^ 48 = window + 0x300 ∧ word 6 / 2 ^ 48 = 1 ∧ WordsReach s (BitVec.ofNat 64 (window + 0x300)) 8 ∧
         bits (s.words (BitVec.ofNat 64 (window + 0x300)) 2) 34 2 = 1 ∧ s.words (BitVec.ofNat 64 (window + 0x300)) 2 / 2 ^ 48 = 1 ∧
         Lowest (fun k => (SMap.get none k s.actors).isSome) 0 ∧ Present s [(0x40000C0, 64)]) ∧
      (∀ n, n < 2 → let s := bound n
        issuesB s = true ∧ memB s = true ∧ bits (s.ctxRaw 1 0 4) 2 2 = 0 ∧ s.core.info.actor = some 0 ∧ s.core.info.fcommitted = false ∧
          reachesB s needBoth [(BitVec.ofNat 64 (window + 0x308), 8)] = true ∧ (SMap.get none 5 s.launches).isNone = true ∧
          (SMap.get none 0 s.actors).map (fun y => (y.live, y.committed, y.closing)) = some (n, s.core.info.actorN, false) ∧
          (s.actors.find? (fun x => decide (x.1 / 64 = clusterOf s.core.id) &&
            x.2.any fun y => decide (y.va = s.rx 3 ∧ y.asid = s.core.info.asid ∧ y.closing = false))).isSome = true) :=
  ⟨issues_of checks _, memOk_of checks, by unfold Unlogged; decide +kernel, checks, checks,
    ⟨checks, reaches_of checks, checks, checks, checks, checks,
      checks, checks, checks, checks, checks, checks, checks,
      reaches_of checks, checks, checks, ⟨checks, fun k h => absurd h (Nat.not_lt_zero k)⟩,
      present_of checks⟩,
    checks⟩

/-- An idle actor of the launch 3, whose count in its launch entry retires. -/
theorem witness_Actors_off :
    let s := { bound 0 with actors := (bound 0).actors.map fun x => (x.1, x.2.map fun y => { y with lid := 3 })
                            launches := [(3, some { okind := 2, spost := 0, pfid := 0, pord := 0 })] }
    issuesB s = true ∧ memB s = true ∧ SMap.get none 3 s.launches = some { okind := 2, spost := 0, pfid := 0, pord := 0 } ∧
      Present s [(0x40000C0, 64)] ∧ s.isPoisoned 0x7000000 8 = false ∧ Apart [(0x40000C0, 64), (0x7000000, 8)] :=
  ⟨checks, checks, checks, present_of checks, checks, apart_of checks⟩

/-- A context that records its chain log in a ring of 128 records. -/
def recording (paused : Bool) : State := small [(0x1000100, 1, 5), (0x1000170, 8, 0x3100000), (0x1000178, 1, 7)] fun f =>
  { withX [window, 7] f with paused := paused }
theorem recording_ok : Recording (recording false) :=
  ⟨checks, checks, checks, checks, present_of checks, apart_of checks,
    checks, checks, checks⟩
theorem resumed_ok : Recording ((recording true).onF fun f => { f with paused := false }) :=
  ⟨checks, checks, checks, checks, present_of checks, apart_of checks,
    checks, checks, checks⟩
theorem witness_LogMarks :
    Issues base [2] ∧ base.core.wait = none ∧ Unlogged base ∧ bits (base.desc 0 4) 2 2 ≤ 1 ∧
      Issues (recording false) [2] ∧ Recording (recording false) ∧ Issues (recording true) [] ∧
      Recording ((recording true).onF fun f => { f with paused := false }) ∧ (recording true).core.f.paused = true :=
  ⟨base_issues _, checks, base_unlogged, checks, issues_of checks _, recording_ok,
    issues_of checks _, resumed_ok, checks⟩

/-- A trace unit that records (1), samples (2) or both, in a ring of 256 records; `d` records have been dropped. -/
def tracing (ctl d : Nat) (buf : List TraceRec) : State :=
  { base.onCore fun c => { c with trace := { ctl := ctl, log2 := 8, base := 0x3200000, spmin := 64, spcur := 64, timeOwed := false, dropped := d, buf := buf } }
    with cycle := 100 }
theorem witness_TraceUnit :
    (∀ ctl, ctl < 4 → let s := tracing ctl 0 []
      issuesB s = true ∧ s.core.running = true ∧ s.core.wait = none ∧ s.core.id < 160 ∧ s.core.trace.pending = none ∧
        s.core.trace.buf.length < 64 ∧ bit (s.desc 0 4) 1 = false ∧ bit s.core.trace.ctl 2 = false ∧ trTen s.core.trace = bit ctl 0 ∧
        trSen s.core.trace = bit ctl 1 ∧ s.mgmt.recov = false ∧ ({ s with mgmt := { s.mgmt with recov := true } } : State).mgmt.recov = true ∧
        (ctl < 2 → trSen s.core.trace = false) ∧ s.core.trace.spcur ≤ s.cycle.toNat - s.core.trace.spAt) ∧
      (let u := (tracing 1 3 []).core.trace
       u.dropped ≠ 0 ∧ u.timeFirst = false ∧ presentB (tracing 1 3 []) [(u.base, 16 * 2 ^ u.log2)] = true ∧ 8 ≤ u.log2 ∧ u.log2 ≤ 24 ∧
         4 * ((u.tail + 2 ^ 32 - u.head) % 2 ^ 32 + 1) ≤ 3 * 2 ^ u.log2 ∧ 64 ≤ u.spmin ∧ u.spmin ≤ 2 ^ 24) := by decide +kernel
theorem witness_TraceUnit_ring :
    let r : TraceRec := { cycle := 90, kind := 8, rf := 0, eng := 0, aux := 5, asid := 1, pay := 7 }
    TraceRoom (tracing 1 0 [r]) r :=
  ⟨checks, fun off h => populated_low (by simp only [ctxAddr]; have : (tracing 1 0 []).mgmt.ctxbase = 0x1000000 := rfl; show 0x1000000 + 256 * 1 + off < _; omega),
    present_of checks, checks, checks, checks, checks, checks,
    checks, checks⟩

/-- `x5` bytes, elements or payload from `x1` to `x3`, a status word at `x4`, and at `x6` a group descriptor whose bitmap holds the
devices of `bits` and whose root is `root`; this is device 0. -/
def linking (bits root : Nat) : State :=
  small [(quireBase + 0x380, 8, 5 + 2 ^ 32 * root), (quireBase + 0x388, 8, window + 0x400), (quireBase + 0x400, 1, bits)]
    (withX [window, 7, window + 0x200, window + 0x300, 16, window + 0x380])
/-- What the statements about `coll` ask of it. -/
def collB (s : State) (kind : CollKind) : Bool :=
  let word := s.words (s.rx 6)
  let byte := fun j => Memory.read s.mem (s.locOf needLoad (BitVec.ofNat 64 (word 1) + BitVec.ofNat 64 j) 1) 1
  let members := (List.range 1024).filter fun d => (byte (d / 8)).testBit (d % 8)
  let mine := s.mgmt.device
  let root := bits (word 0) 32 16
  decide (collBytes .i32 (collSource kind 16 members.length (mine == root)) ≤ 2 ^ 32 ∧
      collBytes .i32 (collDest kind 16 members.length (mine == root)) ≤ 2 ^ 32 ∧ mine ∈ members ∧ root ∈ members) &&
    Instr.wf (.coll 0 kind .rlx .cl 3 1 5 6 4 .i32)
theorem linking_ok (m r : Nat) (h : (issuesB (linking m r) && quietB (linking m r) && (linking m r).core.vat.isNone) = true) (regs : List (Fin 32)) :
    Dispatches (linking m r) regs := dispatches_of h regs
theorem witness_LinkCommands :
    (let s := linking 3 1
     Dispatches s [3, 1, 5, 6, 4] ∧ MemOk s ∧ Unlogged s ∧ s.core.running = true ∧ s.core.cmds[(0 : Fin 16)] = none ∧
       (s.hit needBoth (s.rx 4) 8).isSome = true ∧ scopeBad .cl (s.rx 4) = false ∧ (s.hit needLoad (s.rx 1) 1).isSome = true ∧
       (s.hit needStore (s.rx 3) 1).isSome = true ∧ Instr.wf (.lput 0 .rlx .cl 3 1 5 2 4) = true ∧ Instr.wf (.lget 0 .rlx .cl 3 1 5 2 4) = true ∧
       Instr.wf (.lsend 0 .rlx .cl 3 1 5 2 4) = true ∧ fencePassed s (slotKey 1 0) s.core.f.relFence false = true ∧ (s.rx 6).toNat % 8 = 0 ∧
       WordsReach s (s.rx 6) 4 ∧ s.words (s.rx 6) 1 = window + 0x400 ∧
       (∀ j, j < 128 → Reaches s needLoad [(BitVec.ofNat 64 (window + 0x400) + BitVec.ofNat 64 j, 1)]) ∧
       (s.hit needLoad (s.rx 1) 4).isSome = true ∧ (s.hit needStore (s.rx 3) 4).isSome = true ∧
       (∀ k ∈ [CollKind.bcast, .allreduce .sum, .reduce .sum, .allgather, .redscat .sum, .alltoall], collB s k = true)) ∧
      -- no device names this one: ended at once
      (linking 2 1).words ((linking 2 1).rx 6) 1 = window + 0x400 ∧ Memory.read (linking 2 1).mem (quireBase + 0x400) 1 = 2 ∧
      (Issues copying [] ∧ copying.core.f.linkCauses = [] ∧ copying.tokens = [] ∧
        (busy (aCmd (.lput 7))).core.cmds[(0 : Fin 16)] = some (aCmd (.lput 7)) ∧ (aCmd (.lput 7)).ownedBy (slotKey 1 0) = true) :=
  ⟨⟨linking_ok _ _ checks _, memOk_of checks, by unfold Unlogged; decide +kernel, checks, checks,
      checks, checks, checks, checks, checks, checks, checks,
      checks, checks, reaches_of checks, checks,
      fun j h => reaches_of ((by decide +kernel : ∀ j, j < 128 →
        reachesB (linking 3 1) needLoad [(BitVec.ofNat 64 (window + 0x400) + BitVec.ofNat 64 j, 1)] = true) j h),
      checks, checks, checks⟩,
    checks, checks, issues_of checks _, checks, checks, checks,
    checks⟩

/-- A message to device 7, handler 2. -/
def aSend : CmdKind := .lsend (BitVec.ofNat 64 (2 + 2 ^ 16 * 7)) #v[11, 12, 13]
/-- What the statements about link commands under way ask of the state and the command in slot 0. -/
def linkB (x : Cmd) (ports : List Nat) : Bool :=
  let s := { busy x with portsUp := ports }
  busyB s && decide (s.core.cmds[(0 : Fin 16)] = some x) && decide (cmdKey s.core.id 0 ∉ (s.session s.core.info.asid).stalls) &&
    decide (x.owner = (s.core.info.asid, s.core.info.slot)) && decide (x.level = s.core.f.level) && !x.isCopy && fenceOpen s x &&
    decide (∀ y ∈ s.cores, y.id = s.core.id) && s.core.f.linkCauses.isEmpty
theorem witness_LinkTransfers :
    (∀ x ∈ [aCmd (.lput 7), { aCmd (.lput 7) with n := 0 }, { aCmd (.lget 7) with n := 0 }, aCmd (.lput 1024), { aCmd (.lput 7) with done := 16 }, aCmd (.lget 7), aCmd (.lget 1024), aCmd aSend,
        aCmd (.lsend (BitVec.ofNat 64 (2 ^ 26)) #v[1, 2, 3]), { aCmd (.lput 7) with ended := true, res := 2 },
        { aCmd (.lput 7) with ended := true, res := 1, status := some (BitVec.ofNat 64 (window + 0x300)) }],
      linkB x [] = true ∧ linkB x [0] = true) ∧
      (∀ j, j < 16 → reachesB (busy (aCmd (.lput 7))) needLoad [(BitVec.ofNat 64 window + BitVec.ofNat 64 j, 1)] = true ∧
        reachesB (busy (aCmd (.lget 7))) needStore [(BitVec.ofNat 64 (window + 0x200) + BitVec.ofNat 64 j, 1)] = true) ∧
      reachesB (busy (aCmd (.lput 7))) needBoth [(BitVec.ofNat 64 (window + 0x300), 8)] = true ∧ (busy (aCmd aSend)).mgmt.device ≠ 7 ∧
      sendHeld (busy (aCmd aSend)) (aCmd aSend) 7 = false ∧
      (let s := (busy (aCmd aSend)).onCore fun c => { c with cmds := c.cmds.set 1 (some { aCmd aSend with seqNo := 2 }) }
       sendHeld s { aCmd aSend with seqNo := 2 } 7 = true) := by decide +kernel

/-- A table of two message handlers at the window's byte 0x280, the first valid; a fault post with a ring of 64 records at 0x400; and
submit post 0. -/
def serving : State := posted
  [(0x1000158, 8, window + 0x280), (0x1000160, 4, 2), (quireBase + 0x280, 8, 0x9001), (quireBase + 0x288, 8, 0x40000),
   (0x1000140, 8, window + 0x300), (quireBase + 0x300, 8, window + 0x400), (quireBase + 0x310, 4, 64)] (withX [])
theorem witness_RemoteRequests :
    (let s := { base with shares := [(3, some { remaining := 1, asid := 1, cword := 0x40000, spost := 0, host := true })] }
     (s.mgmt.pstate ≤ 1 ∧ serving.mgmt.pstate ≤ 1) ∧ FarOk s 1 ∧ FarReach s 1 (BitVec.ofNat 64 window) 16 ∧ s.covers = [] ∧ populated (ctxAddr s 2 0) = true ∧ descBad s 2 = true ∧
       (SMap.get none 3 s.shares).isSome = true ∧ SMap.get none 4 s.shares = none ∧ s.walked 1 0 needBoth 0x40000 = some 0x7000000 ∧
       s.isPoisoned 0x7000000 8 = false) ∧
    (let s := serving
     FarOk s 1 ∧ s.ctxRaw 1 0x60 4 = 2 ∧ s.ctxRaw 1 0x58 8 = window + 0x280 ∧ FarReach s 1 (BitVec.ofNat 64 (window + 0x280)) 32 ∧
       (let w0 := ofBytes (s.far 1 (BitVec.ofNat 64 (window + 0x280)) 8)
        w0 = 0x9001 ∧ ofBytes (s.far 1 (BitVec.ofNat 64 (window + 0x288)) 8) = 0x40000 ∧ w0 % 2 = 1) ∧
       ofBytes (s.far 1 (BitVec.ofNat 64 (window + 0x290)) 8) % 2 = 0 ∧
       Lowest (fun k => k ∈ s.launches.map (·.1)) 0 ∧ SMap.get none 0 s.submits = some ⟨0x6000000⟩ ∧ s.runPost 0x6000000 208 = 0x6103400 ∧
       Memory.read s.mem 0x6103400 8 = 0x6201000 ∧ Memory.read s.mem 0x6103410 4 = 64 ∧ Memory.read s.mem 0x6103408 8 = 0 ∧
       Present s [(0x6000000, 64), (0x6103400, 64), (0x6201000, 32), (0x4000000, 64)] ∧
       Apart [(0x6000000, 64), (0x6103400, 64), (0x6201000, 32), (0x4000000, 64), (ctxAddr s 1 0, 256)] ∧
       s.ctxRaw 1 0x40 8 = window + 0x300 ∧ FarReach s 1 (BitVec.ofNat 64 (window + 0x300)) 64 ∧
       ofBytes (s.far 1 (BitVec.ofNat 64 (window + 0x300)) 8) = window + 0x400 ∧ ofBytes (s.far 1 (BitVec.ofNat 64 (window + 0x308)) 8) = 0 ∧
       ofBytes (s.far 1 (BitVec.ofNat 64 (window + 0x310)) 4) = 64 ∧ FarReach s 1 (BitVec.ofNat 64 (window + 0x400)) 32 ∧
       (∀ j, j < 64 → s.farLoc 1 (BitVec.ofNat 64 (window + 0x300) + BitVec.ofNat 64 j) = some (quireBase + 0x300 + j)) ∧
       ∀ k, k < 32 → s.farLoc 1 (BitVec.ofNat 64 (window + 0x400) + BitVec.ofNat 64 k) = some (quireBase + 0x400 + k)) :=
  ⟨⟨checks, farOk_of checks, farReach_of checks, checks, checks, checks, checks,
      checks, checks, checks⟩,
    farOk_of checks, checks, checks, farReach_of checks, checks, checks,
    ⟨checks, fun k h => absurd h (Nat.not_lt_zero k)⟩, checks, checks, checks, checks,
    checks, present_of checks, apart_of checks, checks, farReach_of checks,
    checks, checks, checks, farReach_of checks, checks, checks⟩

/-- An instance over devices 0 and 7 with two elements each, this device the root. -/
def aColl (kind : CollKind) (count' : Nat) : Cmd := { aCmd (.coll kind .i32 2 0 5 [0, 7]) with n := 4 * count' }
/-- The other participant, with two elements. -/
def aPeer (kind : CollKind) (count : Nat) : CollPeer :=
  { device := 7, kind := kind, fmt := .i32, n := 2, root := 0, members := [0, 7], data := List.replicate (4 * count) 1, poison := 0 }
theorem witness_Collectives :
    (∀ k ∈ [CollKind.barrier, .bcast, .reduce .sum, .allreduce .sum, .allgather, .redscat .sum, .alltoall],
      let x := aColl k (collDest k 2 2 true)
      let p := aPeer k (collSource k 2 2 false)
      linkB x [0] = true ∧ linkB x [] = true ∧ p.data.length = collBytes .i32 (collSource k p.n 2 false) ∧ x.n = collBytes .i32 (collDest k 2 2 true) ∧
        collHeld (busy x) x 5 = false ∧ (busy x).debugHold = [] ∧ (busy x).remoteHolds = [] ∧ [0, 7].filter (· ≠ (busy x).mgmt.device) = [7] ∧
        (List.range (collSource k 2 2 true)).all (fun e =>
          reachesB (busy x) needLoad [(x.src + BitVec.ofNat 64 (e * 4), 4)]) = true ∧
        (List.range (collDest k 2 2 true)).all (fun e =>
          reachesB (busy x) needStore [(x.dst + BitVec.ofNat 64 (e * 4), 4)] &&
            decide ((busy x).locOf needStore (x.dst + BitVec.ofNat 64 (e * 4)) 4 = quireBase + 0x200 + 4 * e)) = true) ∧
      (let x := { aColl (.allreduce .sum) 2 with seqNo := 2 }
       let s := (busy (aColl (.allreduce .sum) 2)).onCore fun c => { c with cmds := c.cmds.set 1 (some x) }
       collHeld s x 5 = true ∧ s.core.cmds[(1 : Fin 16)] = some x) ∧
      (aColl .barrier 0).owner.1 ∈ ({ busy (aColl .barrier 0) with debugHold := [1] } : State).debugHold := by decide +kernel

/-- Ports 3 and 20 are marked as in use, and one flit of port 3 has failed 15 times. -/
def ports : State := { base with portsUp := [3, 20], portFails := [(3, 15)] }
/-- A parameter block of a grid of 2 over devices 0 and 7 at the window's byte 0x200, a kernel at 0x320, the devices' bitmap at 0x400. -/
def sharing : State := small
  [(quireBase + 0x200, 8, 0x40000), (quireBase + 0x210, 8, 2 + 2 ^ 48 * 3), (quireBase + 0x228, 8, window + 0x400), (quireBase + 0x230, 8, 0xFFFF),
   (quireBase + 0x300, 8, 0x4353444B + 2 ^ 32 + 2 ^ 40), (quireBase + 0x400, 1, 129)] (withX [])
/-- The record of that launch, from device 7. -/
def shareRecord : List Byte :=
  bytesOf 8 (window + 0x320) ++ bytesOf 8 (window + 0x200) ++ bytesOf 8 5 ++ bytesOf 4 0 ++ bytesOf 4 1 ++ List.replicate 16 0
theorem witness_DeviceTraffic :
    ((3 ∈ ports.portsUp) ∧ 20 ∈ ports.portsUp ∧ SMap.get 0 3 ports.portFails = 15 ∧ SMap.get 0 20 ports.portFails = 0) ∧
      (let s := sharing
       let f := fun off n => ofBytes ((shareRecord.drop off).take n)
       let param := BitVec.ofNat 64 (window + 0x200)
       let code := BitVec.ofNat 64 (window + 0x320)
       shareRecord.length = 48 ∧ f 0 8 = code.toNat ∧ f 8 8 = param.toNat ∧ f 28 4 = 1 ∧ populated (ctxAddr s 2 0) = true ∧ descBad s 2 = true ∧
         FarOk s 1 ∧ param.toNat % 8 = 0 ∧ code.toNat % 8 = 0 ∧ FarReach s 1 param 64 ∧ FarReach s 1 (code - 32) 32 ∧
         kernelBad (s.far 1 (code - 32) 32) = false ∧ paramsBad (paramsOf (s.far 1 param 64)) 0 = false ∧
         ofBytes (((s.far 1 (code - 32) 32).drop 8).take 4) = 0 ∧ (paramsOf (s.far 1 param 64)).devs = BitVec.ofNat 64 (window + 0x400) ∧
         FarReach s 1 (BitVec.ofNat 64 (window + 0x400)) 128 ∧
         ((List.range 1024).filter fun d => (ofBytes (s.far 1 (BitVec.ofNat 64 (window + 0x400)) 128)).testBit d)[0]? = some s.mgmt.device ∧
         Lowest (fun k => k ∈ s.launches.map (·.1)) 0 ∧ Present s [(0x4000000, 64)] ∧ Apart [(0x4000000, 64), (ctxAddr s 1 0, 256)]) ∧
      -- addresses that cannot be read; a kernel's descriptor, a parameter block and a bitmap that are none
      (let s := sharing
       let at' := fun off => BitVec.ofNat 64 (window + off)
       s.mgmt.pstate ≤ 1 ∧ 2 ^ 48 ≤ (BitVec.ofNat 64 (2 ^ 50)).toNat ∧ (at' 0x204).toNat % 8 ≠ 0 ∧
         (inWindow (at' bankSize) = true ∧ (s.bank 1).busy = false ∧ s.farLoc 1 (at' bankSize) = none) ∧
         (FarReach s 1 (at' 0x240) 32 ∧ kernelBad (s.far 1 (at' 0x240) 32) = true) ∧
         (FarReach s 1 (at' 0x300) 64 ∧ paramsBad (paramsOf (s.far 1 (at' 0x300) 64)) 0 = true) ∧
         FarReach s 1 (at' 0x240) 64 ∧ (paramsOf (s.far 1 (at' 0x240) 64)).devs = 0) :=
  ⟨checks, ⟨checks, checks, checks, checks, checks, checks,
    farOk_of checks, checks, checks, farReach_of checks, farReach_of checks,
    checks, checks, checks, checks, farReach_of checks, checks,
    ⟨checks, fun k h => absurd h (Nat.not_lt_zero k)⟩, present_of checks, apart_of checks⟩,
    checks, checks, checks, checks, ⟨farReach_of checks, checks⟩, ⟨farReach_of checks, checks⟩, farReach_of checks, checks⟩

/-- The statement's forms: a trap of each kind, `yield`, `end`, and the actor and link commands of the statements above. -/
theorem witness_FrontCompletion :
    (Issues base [] ∧ Stops base [] ∧ base.core.f.trap.act = false ∧ base.desc 0x50 8 % 2 = 1 ∧ base.desc 0x48 8 % 2 = 1 ∧
      bit (base.desc 0 4) 5 = false ∧ base.core.running = true) ∧
      (∀ pc : Fin 2, let s := base.onF fun f => { f with fpc := BitVec.ofNat 64 (if pc = 0 then 2 ^ 48 else 0x4004) }
        Stops s [] ∧ s.core.f.trap.act = false ∧ s.desc 0x48 8 % 2 = 1 ∧
          (2 ^ 48 ≤ s.core.f.fpc.toNat ∨ s.core.f.fpc.toNat < 2 ^ 48 ∧ s.core.f.fpc.toNat % 8 ≠ 0)) ∧
      (let s := base.onF fun f => { f with fpc := BitVec.ofNat 64 window }
       Stops s [] ∧ s.core.f.trap.act = false ∧ s.desc 0x48 8 % 2 = 1 ∧ inWindow s.core.f.fpc = true ∧ s.core.f.fpc.toNat % 8 = 0) ∧
      (Idle base ∧ Unlogged base ∧ base.core.info.actor = none ∧ base.core.info.kind ≠ 3 ∧ bit base.core.f.prog.toNat 40 = false ∧
        SMap.get none 3 base.launches = some { okind := 1, spost := 0, pfid := 0, pord := 0 } ∧ base.core.info.lid = 3 ∧
        Present base [(launchAddr base 3, 64)] ∧ Apart [(launchAddr base 3, 64), (ctxAddr base 1 0, 256)] ∧
        Apart [(0x7000000, 8), (launchAddr base 3, 64)] ∧ base.isPoisoned 0x7000000 8 = false ∧
        Memory.read base.mem (launchAddr base 3 + 8) 4 = 2 ∧
        ({ base with mem := Memory.write base.mem (launchAddr base 3 + 8) 4 1 } : State).walked
          (Memory.read base.mem (launchAddr base 3 + 0x28) 2) 0 needBoth 0x40000 = some 0x7000000) ∧
      (bound 1).core.info.actor = some 0 ∧ MemOk (bound 1) ∧ Issues (bound 1) [3] ∧ (bound 1).tokens = [] ∧
      (SMap.get none 0 (bound 1).actors).any (fun y => decide (y.committed = (bound 1).core.info.actorN ∧ y.live ≠ 0 ∧
        ∀ p ∈ y.ports, p.bank = none) && y.ports.all fun p => reachesB (bound 1) needBoth [(p.cb + 8, 8)]) = true :=
  ⟨⟨base_issues _, base_stops _, checks⟩,
    fun pc => match pc with
      | 0 => ⟨stops_of checks _, checks⟩
      | 1 => ⟨stops_of checks _, checks⟩,
    ⟨stops_of checks _, checks⟩,
    ⟨base_idle, base_unlogged, checks, checks, checks, checks, checks,
      present_of checks, apart_of checks, apart_of checks, checks, checks,
      checks⟩,
    checks, memOk_of checks, issues_of checks _, checks, checks⟩

/-- A core that waits for something; in replay, if the context replays its log. -/
def asleep (w : Wait) : State := base.onCore fun c => { c with wait := some w }
def replaying : State := (small [(0x1000100, 1, 9)] (withX [])).onCore fun c => { c with wait := some (.replay 1 0) }
/-- A token that adds 3 to the first word of the window, or stores it. -/
def aToken (op : TokenOp) : Token :=
  { core := 0, asid := 1, slot := 0, lane := 0, va := BitVec.ofNat 64 window, loc := quireBase, n := 4, op := op, value := 3, poison := false
    win := 0, order := false, instr := 0 }
theorem witness_BackgroundEvents :
    (∀ w ∈ [Wait.waita, .barrier, .logRoom 1 0, .replay 1 0], ((asleep w).coreAt 0).wait = some w) ∧
      (let s := replaying
       s.core.id < 160 ∧ s.core.running = true ∧ s.core.wait = some (.replay 1 0) ∧
         (∀ off, off < 256 → populated (ctxAddr s s.core.info.asid off) = true) ∧ bits (s.desc 0 4) 2 2 = 2 ∧ bit (s.desc 0x7C 4) 1 = false ∧
         clockStops s s.core.info.asid = false) ∧
      (base.bank 0).mode ≠ .cache ∧ (base.bank 1).mode = .cache ∧ base.tokens = [] ∧ base.stores = [] ∧ base.late = [] ∧ base.mgmt.pstate ≤ 1 ∧
      2 ≤ ({ base with mgmt := { base.mgmt with pstate := 2 } } : State).mgmt.pstate ∧ needsClock (.waitaWake 0) = true ∧
      (fromOutside (.remoteAccess 7 (.read 1 0 8)) = true ∧ ∀ p ∈ [2, 3], ({ base with mgmt := { base.mgmt with pstate := p } } : State).mgmt.pstate = p) ∧
      ∀ op ∈ [TokenOp.add .i32, .store .i32], let s := { base with tokens := [aToken op] }
        s.tokens[0]? = some (aToken op) ∧ mayPerform s.tokens 0 (aToken op) = true ∧ s.isPoisoned quireBase 8 = false ∧
          (SMap.get none (slotKey 1 0) s.slots).all (·.onCore.isSome) = true := by decide +kernel
theorem witness_BackgroundEvents_vat :
    let r : VatRun := { mould := leastMould, fn := 0, mask := 0, ins := [], outs := [], cells := [], next := Vector.replicate 2 0, idle := 1 }
    ((base.onCore fun c => { c with vat := some r }).coreAt 0).vat = some r ∧ 0 < r.idle := ⟨rfl, by decide⟩

/-- A record of kernel 0x5000 with `ARG` 9 on core 0's run post, while no firing runs. -/
def waitingPost : State := posted [(0x610000C, 4, 1), (0x6200000, 8, 0x5000), (0x6200010, 8, 9), (0x620001C, 4, mkMeta 1 3 0)] (withX [])
def idleCore : State := { waitingPost.onCore fun c => { c with running := false } with slots := [] }
/-- A launch record on submit post 0: the parameter block and the kernel of `launching`. -/
def submitted : State := posted
  [(0x600000C, 4, 1), (0x6010000, 8, window + 0x320), (0x6010008, 8, window + 0x200), (0x601001C, 4, 1), (quireBase + 0x200, 8, 0x40000),
   (quireBase + 0x210, 8, 2 + 2 ^ 48 * 3), (quireBase + 0x230, 8, 0xFFFF), (quireBase + 0x300, 8, 0x4353444B + 2 ^ 32 + 2 ^ 40)] (withX [])
/-- The actor of `bound`, bound on a machine with a submit post, and two tokens on its ring. -/
def fireable : State :=
  { posted [(quireBase + 0x308, 4, 0), (quireBase + 0x30C, 4, 2), (quireBase + 0x310, 8, 16 + 2 ^ 34 + 2 ^ 48)] (withX []) with
    actors := (bound 0).actors }
/-- After 100,000 cycles of the firing. -/
def aged : State := { waitingPost with cycle := 100000 }
/-- An access of a load that was in flight when its firing stopped. -/
def aLate : Late := { slotKey := slotKey 1 0, locs := [quireBase], n := 4, bo := 0, w := 32, reg := 1, elem := 0, core := 0, amo := none }
/-- What a monadic check answers. -/
theorem answers_of {s : State} {r : Except Stop Bool × State} (h : (match r.1 with | .ok b => b | _ => false) = true) (h' : r.2 = s) :
    r = (.ok true, s) := by
  obtain ⟨a, t⟩ := r
  cases a with
  | error e => simp at h
  | ok b => simp only at h h'; rw [h, h']
theorem witness_SchedulerEvents :
    (let s := idleCore
     s.core.running = false ∧ s.core.id < 160 ∧ schedulerRuns s = true ∧ s.core.picking = false ∧ (s.core.picks + 1) % 4 ≠ 0 ∧ s.sessions = [] ∧
       s.submits = [(0, some ⟨0x6000000⟩)] ∧ Quiet s.core.trace ∧ s.runPost 0x6000000 0 = 0x6100000 ∧ Memory.read s.mem 0x6100000 8 = 0x6200000 ∧
       Memory.read s.mem 0x6100008 8 = 2 ^ 32 ∧ Memory.read s.mem 0x620001C 4 = 1 + 2 ^ 14 * 3 ∧ s.origins = [] ∧
       Memory.read s.mem 0x6000020 1 = 1 ∧ Memory.read s.mem 0x6000038 8 = 1000 ∧ FarOk s 1 ∧ s.mgmt.stops = [] ∧ freeSlotOf s 1 = some 0 ∧
       (SMap.get none 3 s.launches).isSome = true ∧ Memory.read s.mem (0x40000C0 + 0x28) 2 = 1 ∧
       Present s [(0x6000000, 64), (0x6100000, 64), (0x6200000, 32), (0x40000C0, 64)] ∧
       Apart [(0x6100000, 64), (0x40000C0, 64), (ctxAddr s 1 0, 256)]) ∧
    (let s := submitted
     let code := BitVec.ofNat 64 (window + 0x320)
     let param := BitVec.ofNat 64 (window + 0x200)
     schedulerRuns s = true ∧ SMap.get none 0 s.submits = some ⟨0x6000000⟩ ∧ s.expansions = [] ∧ Memory.read s.mem 0x6000000 8 = 0x6010000 ∧
       Memory.read s.mem 0x6000008 8 = 2 ^ 32 ∧ Memory.read s.mem 0x6010000 8 = code.toNat ∧ Memory.read s.mem 0x6010008 8 = param.toNat ∧
       Memory.read s.mem 0x6010018 8 = 2 ^ 32 ∧ FarOk s 1 ∧ s.mgmt.stops = [] ∧ param.toNat % 64 = 0 ∧ code.toNat % 8 = 0 ∧ FarReach s 1 param 64 ∧
       FarReach s 1 (code - 32) 32 ∧ kernelBad (s.far 1 (code - 32) 32) = false ∧ paramsBad (paramsOf (s.far 1 param 64)) 0 = false ∧
       (paramsOf (s.far 1 param 64)).devs = 0 ∧ Lowest (fun k => k ∈ s.launches.map (·.1)) 0 ∧ Present s [(0x4000000, 64)] ∧
       Apart [(0x4000000, 64), (ctxAddr s 1 0, 256)]) ∧
    (let s := fireable
     ∃ y, SMap.get none 0 s.actors = some y ∧ actorReady 0 y s = (.ok true, s) ∧ y.lid = 5 ∧ y.spost = 0 ∧ schedulerRuns s = true ∧
       PostRoom s 0 160 0x6000000 0x6102800 0x6200800 ∧ Present s [(0x4000140, 64)] ∧ Apart [(0x4000140, 64), (0x6000000, 64)] ∧
       Apart [(0x4000140, 64), (0x6102800, 64), (0x6200800, 32)]) ∧
    (let s := aged
     s.core.running = true ∧ max 1 s.mgmt.schedq ≤ s.held - s.core.charged ∧ SMap.get none s.core.info.spost s.submits = some ⟨0x6000000⟩ ∧
       populated 0x6000038 = true ∧ Stops s [] ∧ Still s ∧ rivalWaits s = (.ok true, s) ∧ s.submits = [(s.core.info.spost, some ⟨0x6000000⟩)] ∧
       s.mgmt.schedq ≤ s.held ∧ PostRoom s 0 160 0x6000000 0x6102800 0x6200800 ∧ s.slotAt = 0x2000000 ∧
       Apart [(s.slotAt, 2 ^ 20), (0x6000000, 64), (ctxAddr s 1 0, 256)] ∧ Apart [(s.slotAt, 2 ^ 20), (0x6102800, 64), (ctxAddr s 1 0, 256)] ∧
       Apart [(s.slotAt, 2 ^ 20), (0x6200800, 32), (ctxAddr s 1 0, 256)] ∧ Apart [(0x6000000, 64), (0x6102800, 64), (0x6200800, 32)]) ∧
    (let s := (small [(0x1000100, 1, 33)] (withX [])).onCore fun c => { c with trace := { c.trace with bkpt := 0x4001 } }
     Stops s [] ∧ QueueHere s ∧ Idle s ∧ s.core.bkptPassed ≠ some s.core.f.fpc ∧ bit s.core.trace.bkpt 0 = true ∧ bit (s.desc 0 4) 5 = true ∧
       s.core.f.fpc.toNat = bits s.core.trace.bkpt 3 45 * 8) ∧
    (let s := { base with late := [aLate], slots := base.slots.map fun x => (x.1, x.2.map fun i => { i with onCore := none }) }
     (s.mgmt.pstate ≤ 1 ∧ s.stores = [] ∧ s.tokens = [] ∧ (s.coreAt 0).badBeat = false) ∧ s.late[0]? = some aLate ∧ aLate.orphan = false ∧ Present s [(ctxAddr s 1 0, 256), (0x2000000, 2 ^ 20)] ∧ Apart [(ctxAddr s 1 0, 256), (0x2000000, 2 ^ 20)] ∧
       s.ctxRaw 1 0x10 8 = 0x2000000 ∧ bit (s.ctxRaw 1 0 4) 1 = false ∧
       (SMap.get none (slotKey 1 0) s.slots).all (fun i => !i.owed && i.draining.isEmpty && i.info.asid == 1 && i.info.slot == 0) = true ∧
       bit (Memory.read s.mem 0x2000018 8) 1 = false ∧ Memory.read s.mem 0x2000011 1 = 0) :=
  ⟨⟨checks, checks, checks, checks, checks, checks, checks,
      by unfold Quiet; decide +kernel, checks, checks, checks, checks, checks,
      checks, checks, farOk_of checks, checks, checks, checks,
      checks, present_of checks, apart_of checks⟩,
    ⟨checks, checks, checks, checks, checks, checks, checks,
      checks, farOk_of checks, checks, checks, checks, farReach_of checks,
      farReach_of checks, checks, checks, checks,
      ⟨checks, fun k h => absurd h (Nat.not_lt_zero k)⟩, present_of checks, apart_of checks⟩,
    ⟨_, rfl, answers_of checks checks, checks, checks, checks,
      ⟨checks, checks, checks, checks, present_of checks, apart_of checks⟩,
      present_of checks, apart_of checks, apart_of checks⟩,
    ⟨checks, checks, checks, checks, stops_of checks _, still_of checks,
      answers_of checks checks, checks, checks,
      ⟨checks, checks, checks, checks, present_of checks, apart_of checks⟩,
      checks, apart_of checks, apart_of checks, apart_of checks, apart_of checks⟩,
    ⟨stops_of checks _, queueHere_of checks, idle_of checks, checks⟩,
    checks, checks, checks, present_of checks, apart_of checks, checks⟩

/-- The firing of slot 0 saved and waiting for an answer to its stop, in a context with the given flags. -/
def parked (flags stop : Nat) : State :=
  { (posted [(0x1000100, 1, flags)] (withX [])).onCore fun c => { c with running := false } with
    slots := [(slotKey 1 0, some { info := { asid := 1, lid := 3 }, stop := stop })] }
def parkedB (s : State) (stop : Nat) : Bool :=
  let i : SlotInfo := { info := { asid := 1, lid := 3 }, stop := stop }
  decide (SMap.get none (slotKey 1 0) s.slots = some i) && !slotPending s (slotKey 1 0) &&
    presentB s [(ctxAddr s 1 0, 256), (s.ctxRaw 1 0x10 8 + 2 ^ 20 * 0, 128)] &&
    !bit (Memory.read s.mem (s.ctxRaw 1 0x10 8 + 2 ^ 20 * 0 + 6) 2) 2 && decide (SMap.get none 0 s.submits = some ⟨0x6000000⟩) &&
    decide (0x6102800 = s.runPost 0x6000000 160) && decide (0x6200800 = Memory.read s.mem 0x6102800 8 +
      32 * (Memory.read s.mem (0x6102800 + 12) 4 % Memory.read s.mem (0x6102800 + 16) 4)) &&
    decide ((Memory.read s.mem (0x6102800 + 12) 4 + 2 ^ 32 - Memory.read s.mem (0x6102800 + 8) 4) % 2 ^ 32 ≠
      Memory.read s.mem (0x6102800 + 16) 4) && presentB s [(0x6000000, 64), (0x6102800, 64), (0x6200800, 32)]
theorem resumable_of {s : State} {stop : Nat} (h : parkedB s stop = true) :
    Resumable s { info := { asid := 1, lid := 3 }, stop := stop } 1 0 0x6000000 0x6102800 0x6200800 := by
  simp only [parkedB, Bool.and_eq_true, decide_eq_true_eq, Bool.not_eq_true'] at h
  obtain ⟨⟨⟨⟨⟨⟨⟨⟨h1, h2⟩, h3⟩, h4⟩, h5⟩, h6⟩, h7⟩, h8⟩, h9⟩ := h
  exact ⟨⟨rfl, by decide⟩, ⟨rfl, by decide⟩, (by decide : 0 < 160), h1, rfl, h2, present_of h3, h4,
    ⟨h5, by simpa using h6, h7, h8, present_of h9, apart_of (by decide)⟩⟩
theorem witness_MailboxCommands :
    base.mgmt.mbusy = false ∧ base.mgmt.mrun = none ∧ (∀ c ∈ base.cores, c.running = true → c.info.asid ≠ 2) ∧
      (base.core.info.asid = 1 ∧ base.others = [] ∧ Stops base [] ∧ Idle base ∧ QueueHere base) ∧
      (∀ stop ∈ [2, 3, 5], (parked 1 stop).mgmt.mbusy = false ∧
        Resumable (parked 1 stop) { info := { asid := 1, lid := 3 }, stop := stop } 1 0 0x6000000 0x6102800 0x6200800 ∧
        (({ info := { asid := 1, lid := 3 }, stop := stop } : SlotInfo).waits [2, 3] = true ∨
          ({ info := { asid := 1, lid := 3 }, stop := stop } : SlotInfo).waits [5] = true)) ∧
      (let s := { parked 1 3 with submits := [] }
       let entry := launchAddr s 3
       s.mgmt.mbusy = false ∧ SMap.get none (slotKey 1 0) s.slots = some { info := { asid := 1, lid := 3 }, stop := 3 } ∧
         (∀ c ∈ s.cores, c.running = false ∧ ∀ x ∈ c.cmds.toList, x = none) ∧ s.tokens = [] ∧ (s.session 1).underWay = [] ∧
         Present s [(ctxAddr s 1 0, 256), (0x2000000, 2 ^ 20), (entry, 64)] ∧ s.ctxRaw 1 0x10 8 = 0x2000000 ∧ bit (s.ctxRaw 1 0 4) 1 = false ∧
         SMap.get none 3 s.launches = some { okind := 1, spost := 0, pfid := 0, pord := 0 } ∧ Memory.read s.mem entry 8 = 0x40000 ∧
         Memory.read s.mem (entry + 8) 4 = 2 ∧
         ({ s with mem := Memory.write s.mem (entry + 8) 4 1 } : State).walked (Memory.read s.mem (entry + 0x28) 2) 0 needBoth 0x40000 =
           some 0x7000000 ∧ s.isPoisoned 0x7000000 8 = false ∧ Apart [(0x7000000, 8), (entry, 64)]) ∧
      (let s := posted [] (withX [])
       let pa := 0x6000000
       let runs := Memory.read s.mem (pa + 0x28) 8
       let cap := Memory.read s.mem (pa + 0x30) 4
       s.mgmt.mbusy = false ∧ SMap.get none 1 s.submits = none ∧ (∀ off, off < 64 → populated (pa + off) = true) ∧ populated runs = true ∧
         populated (runs + 16384 + 32 * cap * 209 - 1) = true ∧ runs % 4096 = 0 ∧ cap = 2 ^ 6) ∧
      (let s := { (posted [] (withX [])).onCore fun c => { c with running := false } with slots := [] }
       s.mgmt.mbusy = false ∧ SMap.get none 0 s.submits = some ⟨0x6000000⟩ ∧ submitUsed s 0 0x6000000 = false) ∧
      (let s := { idleCore with mgmt := { idleCore.mgmt with spdm := some 4 } }
       s.mgmt.mbusy = false ∧ (∀ c ∈ s.cores, c.running = false) ∧ s.mgmt.spdm = some 4) :=
  ⟨checks, checks, checks, ⟨checks, checks, base_stops _, base_idle, queueHere_of checks⟩,
    fun stop h => ⟨rfl, resumable_of ((by decide +kernel : ∀ stop ∈ [2, 3, 5], parkedB (parked 1 stop) stop = true) stop h),
      (by decide +kernel : ∀ stop ∈ [2, 3, 5], ({ info := { asid := 1, lid := 3 }, stop := stop } : SlotInfo).waits [2, 3] = true ∨
          ({ info := { asid := 1, lid := 3 }, stop := stop } : SlotInfo).waits [5] = true) stop h⟩,
    ⟨checks, checks, checks, checks, checks, present_of checks, checks,
      checks, checks, checks, checks, checks, checks,
      apart_of checks⟩,
    checks, checks, checks⟩

theorem witness_Management :
    (base.mgmt.recov = false ∧ base.mgmt.ctxbase < 2 ^ 64 ∧ base.mgmt.mslotbase < 2 ^ 64 ∧ base.mgmt.ltbase < 2 ^ 64 ∧ base.mgmt.pstate ≠ 3 ∧
      (∀ c ∈ idleCore.cores, c.running = false) ∧ base.mgmt.mbusy = false ∧ base.mgmt.mbox = none ∧ base.mgmt.mrun = none ∧ base.mgmt.mcmd < 2 ^ 32 ∧
      base.mgmt.limited = false ∧ base.mgmt.hasKey = true ∧ (∀ k : Fin 4, ({} : Temperatures).dies[k] ≤ 0) ∧ (({} : Temperatures).dies[(0 : Fin 4)] = 0)) ∧
      (let s := idleCore
       let tail := Memory.read s.mem (0x6000000 + 12) 4
       let entry := Memory.read s.mem 0x6000000 8 + 32 * (tail % Memory.read s.mem (0x6000000 + 16) 4)
       s.mgmt.ready = true ∧ s.mgmt.bridge = true ∧ s.mgmt.device = 0 ∧ SMap.get none 0 s.submits = some ⟨0x6000000⟩ ∧
         (tail + 2 ^ 32 - Memory.read s.mem (0x6000000 + 8) 4) % 2 ^ 32 ≠ Memory.read s.mem (0x6000000 + 16) 4 ∧
         Present s [(0x6000000, 64), (entry, 32)] ∧ Apart [(0x6000000, 64), (entry, 32)] ∧ s.mgmt.apbase = 0 ∧ SMap.get 0 1 s.owners = 0 ∧
         populated 4096 = true ∧ s.isPoisoned 4096 4096 = false ∧ s.mgmt.pstate ≤ 1) ∧
      -- samples: the third above 2000 W, at 110 and at 115 degrees, and the last of 1,000 that are cool
      (({ base.mgmt with hotSamples := 2 } : Mgmt).hotSamples + 1 = 3 ∧
        (∀ c ∈ [110000, 115000], ∀ k : Fin 4, ({ dies := Vector.replicate 4 c } : Temperatures).dies[k] = c) ∧ base.mgmt.activating = false ∧
        (let m := { base.mgmt with limited := true, coolSamples := 999, pstate := 1 }
         m.limited = true ∧ m.coolSamples + 1 = 1000 ∧ m.pstate ≠ 3)) ∧
      (let s := base
       let at' := ctxAddr s 2 0
       let table := s.mgmt.mslotbase + 512 * 2
       populated at' = true ∧ populated table = true ∧ Apart [(at', 256), (table, 512)]) ∧
      (let s := parked 3 3
       Resumable s { info := { asid := 1, lid := 3 }, stop := 3 } 1 0 0x6000000 0x6102800 0x6200800 ∧
         ({ info := { asid := 1, lid := 3 }, stop := 3 } : SlotInfo).waits [3] = true ∧ bit (s.ctxRaw 1 0 4) 1 = true ∧
         populated 0x5003208 = true ∧ Apart [(0x5003208, 8), (ctxAddr s 1 0, 256)] ∧
         Apart [(0x5003208, 8), (s.ctxRaw 1 0x10 8 + 2 ^ 20 * 0, 128)] ∧ Apart [(0x5003208, 8), (0x6000000, 64)] ∧
         Apart [(0x5003208, 8), (0x6102800, 64)] ∧ Apart [(0x5003208, 8), (0x6200800, 32)]) :=
  ⟨checks,
    ⟨checks, checks, checks, checks, checks, present_of checks,
      apart_of checks, checks, checks, checks, checks, checks⟩,
    checks,
    ⟨checks, checks, apart_of checks⟩,
    resumable_of checks, checks, checks, checks, apart_of checks,
    apart_of checks, apart_of checks, apart_of checks, apart_of checks⟩

/-! One step each, with results worked out by hand from the tables of the spec. -/

/-- R135: 2^64 - 1 and 7 make 6. -/
theorem test_step_add_wraps : after (.add 0 3 1 2) (base.onF (withX [2 ^ 64 - 1, 7])) (fun t => decide (t.rx 3 = 6 ∧ t.core.f.fpc = 0x4008)) = true := by
  decide +kernel
/-- R136: -7 divided by 2 is -3, with a remainder of -1. -/
theorem test_step_div_truncates :
    after (.div 0 3 1 2) (base.onF (withX [2 ^ 64 - 7, 2])) (fun t => decide (t.rx 3 = -3)) = true ∧
      after (.rem 0 3 1 2) (base.onF (withX [2 ^ 64 - 7, 2])) (fun t => decide (t.rx 3 = -1)) = true := by decide +kernel
/-- R136: a divisor of 0 gives all ones. -/
theorem test_step_divn_by_zero : after (.divn 0 3 1 2) (base.onF (withX [9, 0])) (fun t => decide (t.rx 3 = BitVec.allOnes 64)) = true := by
  decide +kernel
/-- R139: a taken branch goes to the counter and 8 times the displacement, here -2. -/
theorem test_step_br_back : after (.br 0 .lt 1 2 (-2)) (base.onF (withX [2 ^ 64 - 1, 0])) (fun t => decide (t.core.f.fpc = 0x3FF0)) = true := by
  decide +kernel
/-- R141: width code 0 sign-extends the byte 0x80, code 1 does not. -/
theorem test_step_ld_extends :
    (let s := small [(quireBase + 3, 1, 0x80)] (withX [window])
     after (.ld 0 0 5 1 3) s (fun t => decide (t.rx 5 = -128)) = true ∧ after (.ld 0 1 5 1 3) s (fun t => decide (t.rx 5 = 128)) = true) := by
  decide +kernel
/-- R141: width code 2 stores the low two bytes, the low one first. -/
theorem test_step_st_half : after (.st 0 2 2 1 8) (base.onF (withX [window, 0xABCDE])) (fun t =>
    decide (Memory.read t.mem (quireBase + 8) 1 = 0xDE ∧ Memory.read t.mem (quireBase + 9) 1 = 0xBC ∧ Memory.read t.mem (quireBase + 10) 1 = 0)) = true := by
  decide +kernel
/-- R142: an add answers the old word, sign-extended from 32 bits. -/
theorem test_step_amo_add : after (.amo 0 .add .rlx .cl 5 1 2 0 0 .i32) (small [(quireBase, 8, 0x1_FFFFFFFE)] (withX [window, 3]))
    (fun t => decide (t.rx 5 = -2 ∧ Memory.read t.mem quireBase 8 = 0x1_00000001)) = true := by decide +kernel
/-- R146: `sys` enters the vector of `STRAPVEC` at level S, with its immediate in `TRVAL` and the next address in `TRPC`. -/
theorem test_step_sys_enters : after (.sys 0 0xFFFFFFFF) base (fun t => decide (t.core.f.fpc = 0x6000 ∧ t.core.f.level = 1 ∧
    t.core.f.trap.cause = 0x60 ∧ t.core.f.trap.act = true ∧ t.core.f.trap.val = 0xFFFFFFFF ∧ t.core.f.trap.pc = 0x4008)) = true := by decide +kernel
/-- R101, R103: a word that does not decode raises ILLOP at its own address. -/
theorem test_step_illegal_enters : after (.illegalInstruction 0 false) base (fun t => decide (t.core.f.fpc = 0x5000 ∧ t.core.f.level = 0 ∧
    t.core.f.trap.cause = 1 ∧ t.core.f.trap.pc = 0x4000)) = true := by decide +kernel
/-- R173: 40 elements in blocks of 32 take 64 places, 24 of them padding. -/
theorem test_step_vsetvl_blocks : after (.vsetvl 0 5 2 1 2 .e2m1) (base.onF (withX [window, 40])) (fun t =>
    decide (t.rx 5 = 40 ∧ t.core.f.ln[(1 : Fin 4)] = { count := 64, pad := 24 })) = true := by decide +kernel
/-- R184: 5 + 2 is 7, and -3 + 3 is 0. -/
theorem test_step_vadd : after (.vadd 0 (.vec 4) (.vec 1) (.vec 2) 0 .i32) lanes (fun t =>
    decide ((t.core.f.v[(4 : Fin 64)]).elem 32 0 = 7 ∧ (t.core.f.v[(4 : Fin 64)]).elem 32 1 = 0 ∧ (t.core.f.v[(4 : Fin 64)]).len = 8)) = true := by
  decide +kernel
/-- R185: 1.5 + 2.25 is 3.75 in f32. -/
theorem test_step_vfadd : after (.vfadd 0 (.vec 4) (.vec 1) (.vec 2) 0 .f32)
    (lanes.onF fun f => { f with v := (f.v.set 1 { bits := 0x3FC00000, len := 8 }).set 2 { bits := 0x40100000, len := 8 } })
    (fun t => decide ((t.core.f.v[(4 : Fin 64)]).elem 32 0 = 0x40700000 ∧ t.core.f.fflags = 0)) = true := by decide +kernel
/-- R186, R167: 2.5 rounds to the even 2, and is inexact. -/
theorem test_step_vcvt_rounds : after (.vcvt 0 (.vec 4) (.vec 1) .f32 none 0 .i32)
    (lanes.onF fun f => { f with v := f.v.set 1 { bits := 0x40200000, len := 8 } })
    (fun t => decide ((t.core.f.v[(4 : Fin 64)]).elem 32 0 = 2 ∧ t.core.f.fflags = fNX)) = true := by decide +kernel
/-- R205: the second of two nibbles at a bit offset of 4. -/
theorem test_step_vld_nibbles : after (.vld 0 4 4 1 0 0 .i4) { lanes with mem := Memory.write lanes.mem quireBase 2 0x5A3C } (fun t =>
    decide ((t.core.f.v[(4 : Fin 64)]).elem 4 0 = 3 ∧ (t.core.f.v[(4 : Fin 64)]).elem 4 1 = 10)) = true := by decide +kernel
/-- R314: ordered adds at indices 0 and 2 of words of 4 bytes. -/
theorem test_step_vscadd_ordered : after (.vscadd 0 .rel .cl 1 1 3 0 0 false true 2 .i32) { lanes with mem := Memory.write lanes.mem quireBase 4 10 }
    (fun t => decide (Memory.read t.mem quireBase 4 = 15 ∧ Memory.read t.mem (quireBase + 8) 4 = 0xFFFFFFFD)) = true := by decide +kernel
/-- R322: the second of two arrivals opens the barrier and answers generation 0. -/
theorem test_step_bar_opens : after (.bar 0 .ar .cl 7 1 0) (atBarrier 1) (fun t =>
    decide (t.rx 7 = 0 ∧ t.core.f.fpc = 0x4008 ∧ Memory.read t.mem quireBase 8 = 2 + 2 ^ 32)) = true := by decide +kernel
/-- R323: a ring of 4 that holds 4 is full. -/
theorem test_step_cpost_full : after (.cpost 0 .rlx .cl 7 1 3 0) (posting 4) (fun t => decide (t.rx 7 = 2)) = true := by decide +kernel
/-- R275: 3 times 5 on an element of 100. -/
theorem test_step_bmma : after (.bmma 0 0 0 4 0 0 .i32) (oneTile.onF fun f => { f with
    tcfg := Vector.replicate 16 (tileOf .i8 1 1), t := (f.t.set 0 { bits := 3, written := true }).set 4 { bits := 5, written := true }
    a := f.a.set 0 { bits := 100, written := true } }) (fun t => decide ((t.core.f.a[(0 : Fin 8)]).elem 0 0 = 115 ∧ t.core.f.panels = 1)) = true := by
  decide +kernel
/-- R300: the 16 bytes of a copy arrive. -/
theorem test_step_copy_moves : after (.copyTransfer 0 0) { busy (aCmd .copy) with mem := Memory.write (busy (aCmd .copy)).mem (quireBase + 15) 1 0x77 }
    (fun t => decide (Memory.read t.mem (quireBase + 0x20F) 1 = 0x77 ∧ (t.core.cmds[(0 : Fin 16)]).map (·.done) = some 16)) = true := by decide +kernel
/-- R350: `abind.off` of a block that no actor is bound to answers 1. -/
theorem test_step_abind_off_none : after (.abindOff 0 7 3) base (fun t => decide (t.rx 7 = 1)) = true := by decide +kernel
/-- R380: with the log off, `olstat` selector 0 answers 0. -/
theorem test_step_olstat_off : after (.olstat 0 7 0) base (fun t => decide (t.rx 7 = 0)) = true := by decide +kernel
/-- R413, Table 18.3: a mark while records are on. -/
theorem test_step_tmark : after (.tmark 0 2 5) (tracing 1 0 []) (fun t => decide (t.core.trace.buf.map (fun r => (r.kind, r.aux, r.pay)) = [(8, 5, 7)])) = true := by
  decide +kernel
/-- R386: a put to a device with no route ends with `LINKDOWN`. -/
theorem test_step_put_no_route : after (.linkTransfer 0 0 (.done [] 0)) { busy (aCmd (.lput 7)) with portsUp := [] }
    (fun t => decide ((t.core.cmds[(0 : Fin 16)]).map (fun x => (x.ended, x.res)) = some (true, 2))) = true := by decide +kernel
/-- R424: a command code that the table does not list answers status 1, and raises MINT bit 0. -/
theorem test_step_bad_command : after (.badCommandCode 10) base (fun t => decide (t.mgmt.mstatus = 1 ∧ t.mgmt.mint = 1)) = true := by decide +kernel

end Sys2Proof
end

section
/-!
SUPPORT. What comes before the instruction of a step, and what its fetch does, where nothing stands in their way.
-/

namespace Sys2Proof.Machine

/-! An access whose place is known. -/

@[simp] theorem coreAt_focus (s : State) : s.coreAt s.core.id = s.core := if_pos rfl

/-- An entry that the core's TLB holds answers the lookup, and no TLB changes (R86). -/
theorem tlbLookup_of_find {s : State} {g : Agent} {need : Need} {va : Nat} {e : TlbEntry} (ht : g.tlb = true)
    (h : (s.coreAt g.core).tlb.find? (·.covers g.asid va) = some e) : tlbLookup g need va s = (.ok (.ok e), s) := by
  simp only [tlbLookup, run_bind, run_getS, ht, Bool.not_true, Bool.false_eq_true, if_false, h, run_pure]
/-- Nothing is to be marked dirty by a read, or where the mark stands already (R85). -/
theorem setDirty_settled {s : State} {g : Agent} {need : Need} {va : Nat} {e : TlbEntry} (h : e.dt = true ∨ need.wr = false) :
    setDirty g need va e s = (.ok (.ok e), s) := by
  have hd : (e.dt || !need.wr) = true := by simpa using h
  simp only [setDirty, hd, if_true, run_ite, run_pure]

/-- A page that the TLB holds, with the permission, that can be reached and switches no bank, gives the place of the access. -/
theorem translate_of_find {s : State} {g : Agent} {need : Need} {va : Word} {e : TlbEntry} (kind : Nat) (ht : g.tlb = true)
    (hfind : (s.coreAt g.core).tlb.find? (·.covers g.asid va.toNat) = some e) (hperm : e.permits need g.level = true)
    (hdirty : e.dt = true ∨ need.wr = false) (hreach : s.reachable (e.pa va.toNat) = true) (hbusy : s.homeBusy (e.pa va.toNat) = false) :
    translate g need kind va s = (.ok (.ok ⟨e.pa va.toNat, !e.homeOnly⟩), s) := by
  simp [translate, tlbLookup_of_find ht hfind, hperm, setDirty_settled hdirty, hreach, hbusy]

/-- An access that `State.hit` gives a place passes every check of `locate`, and changes nothing. -/
theorem locate_of_hits {s : State} {need : Need} {va : Word} {n : Nat} {p : Place} (kind : Nat) (h : Hits s need va n p) :
    locate { core := s.core.id, asid := s.core.info.asid, level := s.core.f.level } need kind va n s = (.ok (.ok p), s) := by
  unfold Hits State.hit at h
  split at h
  · cases h
  · next hva =>
    obtain ⟨hcanon, halign⟩ := not_or.mp hva
    simp only [locate, run_ite, hcanon, halign, if_false]
    split at h
    · next hwin =>
      simp only [Option.ite_none_right_eq_some, Option.some.injEq] at h
      obtain ⟨⟨hex, hbusy, hmode, hgv, hown⟩, rfl⟩ := h
      simp [hwin, hex, hbusy, hmode, hgv, hown]
    · next hwin =>
      split at h
      · next e hfind =>
        simp only [Option.ite_none_right_eq_some, Option.some.injEq] at h
        obtain ⟨⟨hperm, hdirty, -, hreach, hbusy⟩, rfl⟩ := h
        rw [if_neg hwin, translate_of_find kind rfl (by rw [coreAt_focus]; exact hfind) hperm hdirty hreach hbusy]
      · cases h

/-- Where no beat has failed, none is taken (Table 3.7). -/
theorem takeBeat_sound {s : State} {core : Nat} (h : (s.coreAt core).badBeat = false) : takeBeat core s = (.ok false, s) := by
  simp [takeBeat, h]
/-- Where nothing has been made visible before it is performed, an access performs nothing (log entry 138). -/
theorem showTo_nothing {s : State} (hs : ∀ x ∈ s.stores, x.shown = none) (ht : ∀ x ∈ s.tokens, x.shown = none) (core loc n : Nat) :
    showTo core loc n s = (.ok (), s) := by
  have hs' : s.stores.any (·.shown.isSome) = false := by simpa using hs
  have ht' : s.tokens.any (·.shown.isSome) = false := by simpa using ht
  simp only [showTo, run_bind, run_getS, run_ite, hs', ht', Bool.or_self, Bool.false_eq_true, if_false, run_pure]

/-! The fetch (R126). -/

/-- The word at the counter can be fetched from a place with nothing else done: no beat fails, no poison, nothing to be made visible. -/
structure Fetches (s : State) (p : Place) : Prop where
  hits : Hits s needFetch s.core.f.fpc 8 p
  clean : s.isPoisoned p.loc 8 = false
  beat : s.core.badBeat = false
  stores : ∀ x ∈ s.stores, x.shown = none
  tokens : ∀ x ∈ s.tokens, x.shown = none

theorem fetchWord_ok {s : State} {p : Place} (h : Fetches s p) : fetchWord s = (.ok (Memory.read s.mem p.loc 8), s) := by
  have hb : (s.coreAt s.core.id).badBeat = false := by rw [coreAt_focus]; exact h.beat
  simp [fetchWord, locate_of_hits aFetch h.hits, takeBeat_sound hb, showTo_nothing h.stores h.tokens, h.clean]
theorem fetchNext_decoded {s : State} {p : Place} {i : Instr} (h : Fetches s p) (hd : decode (Memory.read s.mem p.loc 8) = .ok i) :
    fetchNext s = (i, s) := by
  simp only [fetchNext, fetchWord_ok h, hd]
theorem fetchNext_illegal {s : State} {p : Place} {e : Reject} (h : Fetches s p)
    (hd : decode (Memory.read s.mem p.loc 8) = .error e) : fetchNext s = (.illegalInstruction s.core.id (e == .illfmt), s) := by
  simp only [fetchNext, fetchWord_ok h, hd]

/-! What comes before the next instruction. -/

theorem sampleDue_unsampled {s : State} (h : trSen (s.core.trace.inForce s.cycle.toNat) = false) : peek sampleDue false s = false := by
  simp only [peek, sampleDue, run_bind, run_getS, run_getT, h]
  rcases traced s with ⟨r | r, t⟩ <;> simp
theorem bkptHit_off {s : State} (h : bit s.core.trace.bkpt 0 = false) : peek bkptHit false s = false := by
  simp [peek, bkptHit, bkptNext, h]
theorem quantumEnds_early {s : State} (h : s.held < s.mgmt.schedq) : peek quantumEnds false s = false := by
  simp [peek, quantumEnds, Nat.not_le.mpr h]
theorem chargeDue_early {s : State} (h : s.held < s.mgmt.schedq) : chargeDue s = false := by
  simp only [chargeDue, Bool.and_eq_false_iff, decide_eq_false_iff_not]
  omega

/-- The core in focus runs a firing that waits for nothing, and no stop, sample, breakpoint or quantum's end is due. -/
structure Undisturbed (s : State) : Prop where
  running : s.core.running = true
  unsampled : trSen (s.core.trace.inForce s.cycle.toNat) = false
  wait : s.core.wait = none
  bkpt : bit s.core.trace.bkpt 0 = false
  quantum : s.held < s.mgmt.schedq
  ahead : s.core.ahead = none

theorem frontEvent_undisturbed {s : State} (h : Undisturbed s) : frontEvent s = none := by
  simp [frontEvent, waitEvent, sampleDue_unsampled h.unsampled, chargeDue_early h.quantum, h.wait, bkptHit_off h.bkpt, quantumEnds_early h.quantum]
theorem coreStep_fetches {s : State} (h : Undisturbed s) (hq : s.core.f.queue = []) : coreStep s = exec (fetchNext s).1 (fetchNext s).2 := by
  simp [coreStep, h.running, h.wait, frontEvent_undisturbed h, h.ahead, hq]
theorem coreStep_queued {s : State} {e : DumpEntry} {r : List DumpEntry} (h : Undisturbed s) (hq : s.core.f.queue = e :: r) :
    coreStep s = runQueue e s := by
  simp [coreStep, h.running, h.wait, frontEvent_undisturbed h, h.ahead, hq]

theorem takeHead_cons {s : State} {e : DumpEntry} {r : List DumpEntry} (hq : s.core.f.queue = e :: r) :
    takeHead s = s.onCore fun c => { c with cur := some { e with raiser := false }, curAt := 0, f := { c.f with queue := r } } := by
  simp only [takeHead, hq, State.onCore]
/-- The entry at the head of the queue is reissued, where no held follow-on command comes before it (R109, R303). -/
theorem runQueue_decoded {s : State} {e : DumpEntry} {i : Instr} (hf : heldFollow s e = none) (hd : decode e.word = .ok i) :
    runQueue e s = exec i (takeHead s) := by
  simp only [runQueue, hf, hd]

/-! What precedes a step's own work. -/

theorem noteWatch_none {s : State} {c : Core} (h : c.watch = none) : c.noteWatch s = c := by simp only [Core.noteWatch, h]
/-- A change that leaves every core as it is leaves the state as it is. -/
theorem modifyCores_id {s : State} {g : Core → Core} (h : ∀ c ∈ s.cores, g c = c) : s.modifyCores g = s := by
  simp only [State.cores, List.mem_cons, List.mem_map, forall_eq_or_imp, forall_exists_index, and_imp, forall_apply_eq_imp_iff₂] at h
  obtain ⟨hc, ho⟩ := h
  have hmap : (s.others.map fun x => (x.1, g x.2)) = s.others :=
    (List.map_congr_left fun x hx => by rw [ho x hx]; rfl).trans (List.map_id _)
  show ({ s with core := g s.core, others := s.others.map fun x => (x.1, g x.2) } : State) = s
  rw [hc, hmap]
theorem noteWatches_idle {s : State} (h : ∀ c ∈ s.cores, c.watch = none) : s.noteWatches = s :=
  modifyCores_id fun c hc => noteWatch_none (h c hc)
theorem prepare_idle {u : State} (hu : u.upsets = []) (hm : u.merges = []) (hc : u.covers = []) (hw : ∀ c ∈ u.cores, c.watch = none) :
    prepare u = u := by
  have h1 : applyUpsets u = u := by rw [applyUpsets, hu, List.foldl_nil, ← hu]
  have h2 : u.mergeTokens = u := by rw [State.mergeTokens, hm, List.foldl_nil, ← hm]
  rw [prepare, h1, h2, noteWatches_idle hw]
  simp only [hc, List.filter_nil]
  rw [← hc]
/-- Trace units with no record and no reason in hand write nothing (R410). -/
theorem traceWrites_idle {s : State} (h : ∀ c ∈ s.cores, c.trace.buf = [] ∧ c.trace.why = []) : traceWrites s = (.ok (), s) := by
  have hr : ∀ c ∈ s.cores, ∀ t, t = s →
      ∃ t', (if c.trace.buf.isEmpty && c.trace.why.isEmpty then return () else withCore c.id (trDrain 65) : M Unit) t = (.ok (), t') ∧ t' = s := by
    intro c hc t ht
    obtain ⟨hb, hy⟩ := h c hc
    exact ⟨t, by simp [hb, hy], ht⟩
  obtain ⟨t, ht, rfl⟩ := run_forM (· = s) s.cores _ hr s rfl
  rw [traceWrites, run_bind, run_getS]
  exact ht

/-! The order of a step (log entry 4). -/

section
variable {u s : State} (h : traceWrites (prepare u) = (.ok (), s))
include h

theorem step_agenda {i : Instr} {r : List Instr} (ha : s.agenda = i :: r) : step u = exec i { s with agenda := r } := by
  simp only [step, h, ha]
theorem step_focus (ha : s.agenda = []) (ht : s.turns = []) : step u = retry s.blocked (coreStep s) := by
  simp only [step, h, ha, ht]
theorem step_fetched {i : Instr} (ha : s.agenda = []) (ht : s.turns = []) (hn : Undisturbed s) (hq : s.core.f.queue = [])
    (hf : fetchNext s = (i, s)) : step u = retry s.blocked (exec i s) := by
  rw [step_focus h ha ht, coreStep_fetches hn hq, hf]
theorem step_queued {e : DumpEntry} {r : List DumpEntry} {i : Instr} (ha : s.agenda = []) (ht : s.turns = []) (hn : Undisturbed s)
    (hq : s.core.f.queue = e :: r) (hf : heldFollow s e = none) (hd : decode e.word = .ok i) :
    step u = retry s.blocked (exec i (takeHead s)) := by
  rw [step_focus h ha ht, coreStep_queued hn hq, runQueue_decoded hf hd]

end

/-- Settles O2: the cases of the step function in its own order, once the fetch has been shown to leave the state as it is. -/
theorem stepRunsDecoded : Obligations.StepRunsDecoded := by
  intro u s i h
  refine ⟨fun r ha => step_agenda h ha, ?_, fun w t => rfl, ?_⟩
  · intro ha ht hrun hsen hwait hbk hquant hahead
    have hn : Undisturbed s := ⟨hrun, hsen, hwait, hbk, hquant, hahead⟩
    constructor
    · intro p hq hhit hclean hbeat hst htok
      have hf : Fetches s p := ⟨hhit, hclean, hbeat, hst, htok⟩
      exact ⟨fun hd => step_fetched h ha ht hn hq (fetchNext_decoded hf hd),
        fun e hd => step_fetched h ha ht hn hq (fetchNext_illegal hf hd)⟩
    · intro e r hq hheld hd
      rw [step_queued h ha ht hn hq hheld hd, takeHead_cons hq]
  · intro hu hm hc hcores
    rw [prepare_idle hu hm hc fun c hc => (hcores c hc).1, traceWrites_idle fun c hc => (hcores c hc).2] at h
    exact (congrArg Prod.snd h).symm

end Sys2Proof.Machine
end

section
/-!
SUPPORT. What orders older accesses finds nothing to perform where none is under way; with that, what `tlbinv` does.
-/

namespace Sys2Proof.Machine

theorem performStores_none {s : State} (h : s.stores = []) (p : LateStore → Bool) : performStores p s = (.ok (), s) := by
  have hs : ({ s with stores := [] } : State) = s := by rw [← h]
  simp [performStores, h, chosenStores, hs]
theorem flushTokens_none {s : State} (h : s.tokens = []) (p : Token → Bool) : flushTokens p s = (.ok (), s) := by
  have hs : ({ s with tokens := [] } : State) = s := by rw [← h]
  simp [flushTokens, h, chosenTokens, hs]
theorem awaitLate_none {s : State} (h : s.late = []) (p : Late → Bool) : awaitLate p s = (.ok (), s) := by
  simp [awaitLate, h]

/-- With no store and no token on its way, a release of scope `.dm` has nothing to perform (R76, R318). -/
theorem releaseCore_none {s : State} (hs : s.stores = []) (ht : s.tokens = []) (core : Nat) : releaseCore core 3 s = (.ok (), s) := by
  simp only [releaseCore, settleStores, run_bind, run_getS, performStores_none hs, flushTokens_none ht, Nat.le_refl, if_true]
theorem releaseTokens_none {s : State} (ha : s.core.ahead = none) (hs : s.stores = []) (ht : s.tokens = []) :
    releaseTokens s = (.ok (), s) := by
  simp [releaseTokens, olderAccesses, anyUnfinished_alone ha, releaseCore_none hs ht]

/-! The translations `tlbinv` drops, and the state it leaves (R88). -/

/-- With no access under way, none is to be performed that was translated through a dropped entry (R88). -/
theorem settleTranslated_none {s : State} (hs : s.stores = []) (ht : s.tokens = []) (hl : s.late = []) (kind : TlbKind) (scope : Scope)
    (va : Word) (asid : Nat) : settleTranslated kind scope va asid s = (.ok (), s) := by
  simp only [settleTranslated, run_bind, run_getS, awaitLate_none hl, performStores_none hs, flushTokens_none ht]

/-- An entry of a page is dropped where context and page number are those named (R88). -/
theorem tlbDrops_page (va : Word) (asid : Nat) (e : TlbEntry) : tlbDrops .page va asid e =
    (e.asid == asid && va.toNat % 2 ^ 48 / 2 ^ 12 * 2 ^ 12 / 2 ^ e.sizeLog2 == e.vpn) := rfl

/-- Every scope covers the issuing core's own cluster (R88). -/
theorem tlbCovers_own (scope : Scope) (k : Nat) : tlbCovers scope k (clusterOf k) = true := by
  cases scope with
  | co | cl => simp [tlbCovers]
  | sg => simp only [tlbCovers, clusterOf, groupOf, beq_iff_eq]; omega
  | dm => rfl

/-- The state with a kind's translations gone from the TLBs of the scope, where the issuing core is always in it. -/
def State.tlbInvalidated (s : State) (kind : TlbKind) (scope : Scope) (va : Word) (asid : Nat) : State :=
  let keep := fun e => !tlbDrops kind va asid e
  let covered := tlbCovers scope s.core.id
  { s with
    core := { s.core with tlb := s.core.tlb.filter keep }
    others := s.others.map fun (j, c) => (j, if covered (clusterOf j) then { c with tlb := c.tlb.filter keep } else c)
    ctlbs := s.ctlbs.map fun (j, l) => (j, if covered j then l.filter keep else l) }

/-- The model looks a core's cluster up by the number the core holds, which is the one it stands under. -/
theorem run_tlbInvalidate {s : State} (hid : ∀ x ∈ s.others, x.2.id = x.1) (kind : TlbKind) (scope : Scope) (va : Word) (asid : Nat) :
    tlbInvalidate kind scope va asid s = (.ok (), s.tlbInvalidated kind scope va asid) := by
  have hothers : (s.others.map fun (j, c) => (j, if tlbCovers scope s.core.id (clusterOf c.id) then
        { c with tlb := c.tlb.filter fun e => !tlbDrops kind va asid e } else c)) =
      (s.tlbInvalidated kind scope va asid).others :=
    List.map_congr_left fun x hx => by simp only [hid x hx]
  simp only [tlbInvalidate, run_modS, State.modifyCores, tlbCovers_own, if_true, hothers]
  rfl

/-- What `tlbinv` leaves, of the address in `x[D]` and the identifier in `x[A]`: the core's L1 is empty too (R88). -/
def State.afterTlbinv (s : State) (kind : TlbKind) (scope : Scope) (d a : Fin 32) : State :=
  (s.tlbInvalidated kind scope (s.rx d) ((s.rx a).toNat % 2 ^ 14)).onCore fun c => { c with l1 := [] }

/-- `tlbinv` at level S completes in that state, where no access is under way. -/
theorem tlbinv_ends {st : Fin 16} {kind : TlbKind} {scope : Scope} {d a : Fin 32} {s : State} (h : Issues s [d, a])
    (hl : 1 ≤ s.core.f.level) (ht : s.tokens = []) (hlate : s.late = []) (hid : ∀ x ∈ s.others, x.2.id = x.1) :
    Ends (.tlbinv st kind scope d a) s (s.afterTlbinv kind scope d a) s.nextPc := by
  refine runPriv_next (s' := s.afterTlbinv kind scope d a) (target := none) h hl ?_ h.budget h.stored
  simp only [run_bind, releaseTokens_none h.ahead h.stored ht, settleTranslated_none h.stored ht hlate]
  rw [run_tlbInvalidate hid]
  rfl

/-- Settles O20: in the state that `tlbinv` leaves, the model's tests of an entry and of a cluster are those of R88. -/
theorem Laws.tlbInvalidate : Obligations.TlbInvalidate := by
  intro st k sc d a s h hl ht hlate hid asid page stays inScope
  have hstays : stays = fun e => !tlbDrops k (s.rx d) asid e := by
    funext e
    cases k with
    | all | asid => rfl
    | page => rw [tlbDrops_page, Bool.not_and]; rfl
  have hscope : inScope = tlbCovers sc s.core.id := by
    funext j
    cases sc <;> rfl
  obtain ⟨t, hexec, hpc, hc⟩ := tlbinv_ends (st := st) (kind := k) (scope := sc) h hl ht hlate hid
  have htlb : t.core.tlb = (s.afterTlbinv k sc d a).core.tlb := congrArg (·.core.tlb) hc
  have hl1 : t.core.l1 = [] := congrArg (·.core.l1) hc
  have hothers : t.others = (s.afterTlbinv k sc d a).others := congrArg (·.others) hc
  have hctlbs : t.ctlbs = (s.afterTlbinv k sc d a).ctlbs := congrArg (·.ctlbs) hc
  rw [hstays, hscope]
  exact ⟨t, hexec, hpc, htlb, hl1, hothers, hctlbs, by rw [hc, htlb, hothers, hctlbs]; rfl⟩

end Sys2Proof.Machine
end

section
/-!
SUPPORT. What `vsetvl` grants and what its two forms leave.
-/

namespace Sys2Proof.Machine

/-- What issues for its registers issues where fewer of them are read. -/
theorem Issues.subset {s : State} {regs fewer : List (Fin 32)} (h : Issues s regs) (hsub : fewer ⊆ regs) : Issues s fewer :=
  { h with
    sound := fun r hr => h.sound r (hsub hr)
    due := fun p hp hr => h.due p hp (hsub hr) }

/-- With no older engine instruction, `vsetvl` waits for none (R174). -/
theorem awaitLength_alone {s : State} (h : s.core.ahead = none) (l : Fin 4) (set : Bool) : awaitLength l set s = (.ok (), s) := by
  simp only [awaitLength, run_bind, run_getS, older_alone h, List.any_nil, Bool.false_eq_true, if_false, run_ite, run_pure]

/-- The block lengths of the four codes of `VTYPE.BLK` (R161). -/
theorem blockLen_eq_getD (blk : Fin 4) : blockLen blk.val = [0, 16, 32, 64].getD blk.val 0 := by
  match blk with
  | 0 | 1 | 2 | 3 => rfl

/-- A front instruction that changes the firing by `g`, the counter apart, and then writes a result to `x[D]` completes so. -/
theorem runFront_result {st : Fin 16} {regs : List (Fin 32)} {body : (Fin 32 → Word) → M (Option Word)} {s : State} {d : Fin 32}
    {v : Word} (g : Firing → Firing) (h : Issues s regs) (hpc : (g s.core.f).fpc = s.core.f.fpc)
    (hb : body s.core.f.rx s = (do writeX d v; return none : M (Option Word)) (s.onF g)) :
    ∃ t, runFront st regs body s = .next t ∧ t.core.f.fpc = s.nextPc ∧ t.content = ((s.onF g).setX d v).content := by
  have hcur : (s.onF g).core.cur.any (·.dead) = false := by rw [State.onF_core_cur, h.cur]; rfl
  have hbody : body s.core.f.rx s = (.ok none, (s.onF g).setX d v) := by
    rw [hb, run_bind, writeX_ok d v hcur h.ahead]; rfl
  obtain ⟨t, hrun, hfpc, hcontent⟩ := runFront_next (st := st) h hbody h.budget h.stored
  refine ⟨t, hrun, ?_, hcontent⟩
  rw [hfpc, State.setX_f, Firing.setX_fpc, State.onF_f, hpc]
  rfl

/-- The set form completes with the length register and the real elements that `x[A]` is granted, and sets the format (R173). -/
theorem vsetvl_ends {st : Fin 16} {d a : Fin 32} {l blk : Fin 4} {fmt : Fmt} {s : State} {n : Nat} {r : LnReg} (h : Issues s [a])
    (hgrant : grant fmt blk (s.rx a) = (n, r)) :
    Ends (.vsetvl st d a l blk fmt) s
      ((s.onF fun f => { f.setLn l r with vfmt := fmt.code, vblk := blk.val }).setX d (b64 n)) s.nextPc := by
  refine runFront_result _ h rfl ?_
  rw [State.rx] at hgrant
  simp only [run_bind, awaitLength_alone h.ahead, hgrant, run_modF]

/-- The read form completes with the count of its length register (R173). -/
theorem vsetvlRd_ends {st : Fin 16} {d : Fin 32} {l : Fin 4} {s : State} (h : Issues s []) :
    Ends (.vsetvlRd st d l) s (s.setX d (b64 s.core.f.ln[l].count)) s.nextPc := by
  refine runFront_result id h rfl ?_
  simp only [run_bind, awaitLength_alone h.ahead, run_getF]
  rfl

/-- Settles O21: the grant of the model is that of R173, its block length being the one the code names and its limit R158's. -/
theorem vectorLength : Obligations.VectorLength := by
  intro st d a l blk fmt s h b top n count
  have hgrant : grant fmt blk (s.rx a) = (n, { count := count, pad := count - n }) := by
    rw [grant, blockLen_eq_getD]
    rfl
  exact ⟨vsetvl_ends h hgrant, vsetvlRd_ends (h.subset (List.nil_subset _))⟩

end Sys2Proof.Machine
end
